-- ==== Sys2Proof/Word.lean ====
section
/-!
DEFINITION. The machine's word types: bytes, 32-bit register elements, 64-bit scalars and addresses, and masks of role
lanes (R123, R125, R133). Only abbreviations; no meaning of an instruction stands here.
-/
namespace Sys2Proof

/-- One byte of memory. -/
abbrev Byte := BitVec 8
/-- One element of a v register (R133). -/
abbrev Word := BitVec 32
/-- One s register, a 64-bit pair, or a .G address before its checks (R133, R216). -/
abbrev DWord := BitVec 64
/-- One bit per role lane: the words W0 to W31 of R125, with Wk in bits 32k to 32k + 31. -/
abbrev Mask := BitVec 1024

/-- The empty mask. -/
abbrev Mask.none : Mask := 0

end Sys2Proof
end

