-- ==== Sys2Proof/Syntax.lean ====
section
/-!
DEFINITION. The steps of the device: one constructor of Instr for each row of spec/opcode_table.json. A device event
carries its parameters; a program instruction carries its operands, already taken apart from the encoding of R92 to R98.
-/
namespace Sys2Proof

/-- The element types of M[3:0], codes 0 to 12 (R95). -/
inductive Ty where
  | i8 | i16 | i32 | i64 | u8 | u16 | u32 | u64 | f16 | bf16 | f32 | f64 | bpi
  deriving DecidableEq, Repr

/-- The rounding modes of M[5:4] (R95). -/
inductive Rnd where
  | rn | rz | ru | rd
  deriving DecidableEq, Repr

/-- The four states of standing (R138): settled, residual, proposed, poisoned. -/
inductive Standing where
  | S | R | P | Z
  deriving DecidableEq, Repr

/-- The comparisons of SCMP and ICMP (R162, R197). -/
inductive Cmp where
  | eq | ne | lt | le | gt | ge
  deriving DecidableEq, Repr

/-- The comparisons of FCMP (R205). -/
inductive FCmp where
  | eq | ne | lt | le | gt | ge | un | ord
  deriving DecidableEq, Repr

/-- The guard of a class-L instruction: predicate p0 to p127 and its negation (R94). -/
structure Guard where
  p : BitVec 7
  neg : Bool
  deriving DecidableEq, Repr

/-- A source that is a v register, with its last-use mark, or an s register (R97). -/
inductive Src where
  | v (r : BitVec 8) (last : Bool)
  | s (r : BitVec 7)
  deriving DecidableEq, Repr

/-- A v register source with its last-use mark. -/
structure VSrc where
  r : BitVec 8
  last : Bool
  deriving DecidableEq, Repr

/-- The five address spaces (R216). -/
inductive Space where
  | g | k | t | h | b
  deriving DecidableEq, Repr

/-- The index of a per-lane address (R273). -/
inductive Idx where
  | none
  | i32 (r : BitVec 8) (last : Bool)
  | i64 (r : BitVec 8) (last : Bool)
  deriving DecidableEq, Repr

/-- A per-lane address without its offset: base s register and index (R273). -/
structure Addr where
  base : Option (BitVec 7)
  idx : Idx
  deriving DecidableEq, Repr

/-- The scopes of R361. -/
inductive Scope where
  | role | team | share | bulk | part | sys
  deriving DecidableEq, Repr

/-- Two-source scalar operands, register form (R162). -/
structure S2 where
  ty : Ty
  sat : Bool
  d : BitVec 7
  a : BitVec 7
  b : BitVec 7
  deriving DecidableEq, Repr

/-- Two-source scalar operands, immediate form (R162). -/
structure S2I where
  ty : Ty
  sat : Bool
  d : BitVec 7
  a : BitVec 7
  imm : BitVec 32
  deriving DecidableEq, Repr

/-- Two-source predicate operands; na and nb invert a source (R159). -/
structure P2 where
  g : Guard
  d : BitVec 7
  a : BitVec 7
  b : BitVec 7
  na : Bool
  nb : Bool
  deriving DecidableEq, Repr

/-- Two-source lane operands, register form: integer with SAT, or float with a rounding mode in mode (R190, R200). -/
structure I2 where
  g : Guard
  ty : Ty
  sat : Bool
  d : BitVec 8
  a : Src
  b : Src
  deriving DecidableEq, Repr

/-- Two-source integer operands, immediate form (R190). -/
structure I2I where
  g : Guard
  ty : Ty
  sat : Bool
  d : BitVec 8
  a : Src
  imm : BitVec 32
  deriving DecidableEq, Repr

/-- Three-source integer operands (R192, R195). -/
structure I3 where
  g : Guard
  ty : Ty
  sat : Bool
  d : BitVec 8
  a : Src
  b : Src
  c : Src
  deriving DecidableEq, Repr

/-- One-source integer operands (R193). -/
structure I1 where
  g : Guard
  ty : Ty
  sat : Bool
  d : BitVec 8
  a : Src
  deriving DecidableEq, Repr

/-- One-source float operands (R200). -/
structure F1 where
  g : Guard
  ty : Ty
  rnd : Rnd
  d : BitVec 8
  a : Src
  deriving DecidableEq, Repr

/-- Two-source float operands (R200). -/
structure F2 where
  g : Guard
  ty : Ty
  rnd : Rnd
  d : BitVec 8
  a : Src
  b : Src
  deriving DecidableEq, Repr

/-- Three-source float operands (R201). -/
structure F3 where
  g : Guard
  ty : Ty
  rnd : Rnd
  d : BitVec 8
  a : Src
  b : Src
  c : Src
  deriving DecidableEq, Repr

/-- What PPROV tests (R160). -/
inductive PSrc where
  | v (r : BitVec 8)
  | pair (r : BitVec 8)
  | p (r : BitVec 7)
  | s (r : BitVec 7)
  deriving DecidableEq, Repr

/-- The register of SRS and SWS: lane-scope registers use a v register, the others an s register (R164). -/
inductive SpReg where
  | v (r : BitVec 8)
  | s (r : BitVec 7)
  deriving DecidableEq, Repr

/-- The lane SGET reads (R165). -/
inductive LaneSel where
  | imm (l : BitVec 10)
  | s (r : BitVec 7)
  deriving DecidableEq, Repr

/-- SHFL's modes (R168). -/
inductive ShflMode where
  | pick | slide | rot | mirr
  deriving DecidableEq, Repr

/-- VOTE's modes and destinations (R169). -/
inductive VoteDst where
  | all (d : BitVec 7)
  | any (d : BitVec 7)
  | word (d : BitVec 8)
  | sum (d : BitVec 8)
  | count (d : BitVec 8)
  deriving DecidableEq, Repr

/-- The operations of REDUX and SCAN (R171). -/
inductive RedOp where
  | add | min | max | and | or | xor
  deriving DecidableEq, Repr

/-- The operands REDUX and SCAN share: mode is M[5:4], rounding for a float ADD and SAT for an integer ADD (R171). -/
structure Red where
  g : Guard
  op : RedOp
  ty : Ty
  mode : Rnd
  a : VSrc
  deriving DecidableEq, Repr

/-- LDX's forms (R281). -/
inductive LdxForm where
  | p
  | b
  | c (s : BitVec 7)
  deriving DecidableEq, Repr

/-- ATOM's operations (R283). -/
inductive AtomOp where
  | add | and | or | xor | min | max
  deriving DecidableEq, Repr

/-- ATOM's order (R283). -/
inductive AtomOrd where
  | relaxed
  | acquire (s : Scope)
  | release (s : Scope)
  deriving DecidableEq, Repr

/-- FENCE's kinds but E and T (R286). -/
inductive FenceKind where
  | acq | rel | full
  deriving DecidableEq, Repr

/-- The endpoints of a COPY (R288). -/
inductive CopySrc where
  | g | surf | t | b
  deriving DecidableEq, Repr

/-- The destination of a COPY (R288). -/
inductive CopyDst where
  | g | surf | t | b
  | ob (n : BitVec 3)
  deriving DecidableEq, Repr

/-- A COPY's operands (R288). -/
structure CopyOps where
  fs : Bool
  src : CopySrc
  dst : CopyDst
  ty : Ty
  a : BitVec 7
  dep : Option (BitVec 7)
  tags : Option (BitVec 7)
  smoff : BitVec 16
  baroff : BitVec 32
  deriving DecidableEq, Repr

/-- A count that is an immediate or an s register (R297, R398). -/
inductive Cnt where
  | imm (n : BitVec 32)
  | s (r : BitVec 7)
  deriving DecidableEq, Repr

/-- The group and slot of SGJOIN (R307). -/
inductive SgSel where
  | imm (gid : BitVec 4) (slot : BitVec 4)
  | s (r : BitVec 7)
  deriving DecidableEq, Repr

/-- An NMC command's operands (R309). -/
structure NmcOps where
  fs : Bool
  f64 : Bool
  a : BitVec 7
  n : BitVec 17
  deriving DecidableEq, Repr

/-- A matrix operand's source (R315 to R317). -/
inductive MSrc where
  | reg (r : BitVec 8) (last : Bool)
  | scr (r : BitVec 7) (tr : Bool)
  | buf (n : BitVec 3) (off : BitVec 7) (tr : Bool)
  deriving DecidableEq, Repr

/-- MMA's operands (R331). -/
structure MmaOps where
  fmt : Ty
  gang : Option (BitVec 2)
  ct : Bool
  w : BitVec 3
  a : MSrc
  b : MSrc
  kg : BitVec 6
  acc : BitVec 11
  deriving DecidableEq, Repr

/-- MMAR's operands (R331). -/
structure MmarOps where
  init : Bool
  ct : Bool
  a : MSrc
  b : MSrc
  kg : BitVec 6
  acc : BitVec 11
  d : BitVec 7
  deriving DecidableEq, Repr

/-- MDRAIN's operands (R336). -/
structure MdrainOps where
  dty : Ty
  rnd : Rnd
  sf : Ty
  ct : Bool
  w : BitVec 3
  row : BitVec 2
  smoff : BitVec 13
  dst : BitVec 11
  acc : BitVec 11
  deriving DecidableEq, Repr

/-- DCOR.BOX's further operands (R349). -/
structure DcorBox where
  bnd : BitVec 8
  plo : BitVec 7
  phi : BitVec 7
  deriving DecidableEq, Repr

/-- DCOR's operands (R349). -/
structure DcorOps where
  g : Guard
  more : Bool
  box : Option DcorBox
  d : BitVec 8
  x : VSrc
  r : VSrc
  m : Src
  deriving DecidableEq, Repr

/-- A clause header (R87). -/
structure Header where
  n : BitVec 4
  wait : BitVec 12
  sa : Option (BitVec 4)
  sb : Option (BitVec 4)
  deriving DecidableEq, Repr

/-- A role of a team, by the model's own team name. -/
structure RoleRef where
  team : Nat
  role : Nat
  deriving DecidableEq, Repr

/-- One partition as the configuration image gives it (R44). Lists run over the logical bulkheads; carve gives the sizes of the
bulkhead-scratch carves and carveAt the offsets of the regions that back them (R218). saveArea is the save area's logical
bulkhead, offset and size, and spareSaves the offset and size of the one in each spare. -/
structure PartCfg where
  pid : BitVec 16
  start : Nat
  size : Nat
  ctlBase : BitVec 64
  statusBase : BitVec 64
  announce : BitVec 64
  hosts : List (BitVec 10)
  tenantKey : BitVec 256
  slotFirst : Nat
  slotCount : Nat
  spares : List Nat
  carve : List Nat
  carveAt : List Nat
  cwin : List (Nat × Nat × Nat)
  poolLines : List Nat
  migFrames : List Nat
  blockSize : Nat
  threshold : Nat
  saveArea : Nat × Nat × Nat
  spareSaves : List (Nat × Nat)
  deriving DecidableEq, Repr

/-- A signed configuration image: its partitions, its digest and its signature (R44, R443). -/
structure ConfigImage where
  parts : List PartCfg
  digest : BitVec 256
  sigR : BitVec 256
  sigS : BitVec 256
  deriving DecidableEq, Repr

/-- What a gate's link leads to: a logical bulkhead of its partition, a remote node, or by ring link l, which joins the bulkheads l
and l + 1 and belongs to no gate (R235, R262). -/
inductive LinkTarget where
  | ring (l : BitVec 3)
  | bulk (k : Nat)
  | node (n : BitVec 10)
  deriving DecidableEq, Repr

/-- A link of a gate, which is named by its logical bulkhead (R235). -/
structure GateLink where
  gate : Nat
  target : LinkTarget
  deriving DecidableEq, Repr

/-- The dissolution of a partition, by its index in the image that was in force, and the signed image that takes its place (R44). -/
structure Dissolution where
  img : ConfigImage
  part : Nat
  deriving DecidableEq, Repr

/-- The steps of the device, one per row of spec/opcode_table.json. -/
inductive Instr where
  -- the host interface and the Llynlys root
  | launchAppend (part : Nat) (node : BitVec 10) (q : BitVec 6) (off : BitVec 12) (len : Nat) (rec : BitVec 2048)
  | launchAccept (part : Nat) (serial : BitVec 64)
  | qresWrite (part : Nat) (node : BitVec 10) (q : BitVec 6) (val : BitVec 64)
  | registerWrite (part : Nat) (node : BitVec 10) (off : BitVec 20) (len : Nat) (val : BitVec 64)
  | grantSubmit (part : Nat) (node : BitVec 10) (val : BitVec 64)
  | grantVerifyDone (part : Nat)
  | revocationDrained (part : Nat)
  | attctlGo (part : Nat) (node : BitVec 10) (val : BitVec 64)
  | attestationReport (part : Nat)
  | hostRead (part : Nat) (node : BitVec 10) (va : BitVec 64) (len : Nat)
  | hostWrite (part : Nat) (node : BitVec 10) (phys : Bool) (va : BitVec 64) (data : List Byte)
  | windowAccess (part : Nat) (va : BitVec 64) (len : Nat) (store : Option (List Byte × Standing))
  -- distribution, launches, partitions
  | distributeTeam (part : Nat)
  | teamResident (team : Nat)
  | taskPlace (part : Nat) (bulk : Nat)
  | launchComplete (part : Nat) (serial : BitVec 64)
  | partitionCreate (img : ConfigImage) (n : Nat)
  | partitionDissolve (d : Dissolution)
  | remap (part : Nat) (k : Nat) (spare : Nat)
  | bulkheadReset (b : Nat)
  | resetStep1End (b : Nat) (unwritten : List Nat)
  | bulkheadRejoin (b : Nat) (image : BitVec 256)
  | gateTimeout (r : RoleRef)
  | linkAuthFail (part : Nat) (l : GateLink)
  | linkFail (part gate : Nat) (t : LinkTarget)
  | selfRefreshEnter (b : Nat)
  | selfRefreshExit (b : Nat)
  | selfRefreshTimeout (b : Nat)
  | railMeasure (b : Nat) (watts : Nat) (dieTemp : Nat)
  | clockStepDown (b : Nat)
  | clockStepUp (b : Nat)
  | dieCriticalTemp (die : Nat)
  | dieCooled (die : Nat)
  | powerUp (img : ConfigImage) (fw : List (BitVec 256)) (failed : List Nat)
  -- firmware
  | migration (r : RoleRef)
  | migrationSwitch (part : Nat) (va : BitVec 64)
  | remoteGoneReplay (r : RoleRef) (reachable : Bool)
  | dualMismatchRecovery (r : RoleRef)
  | firmwareLpSweep (part : Nat)
  -- engines
  | copyStart (op : Nat)
  | copyComplete (op : Nat)
  | matrixOpStart (op : Nat) (groups : Nat)
  | matrixOpComplete (op : Nat)
  | nmcStart (op : Nat)
  | nmcComplete (op : Nat)
  -- issue
  | clauseStart (h : Header)
  | longLatencyComplete (r : RoleRef)
  | fairnessServe (r : RoleRef)
  | yieldExpiry (r : RoleRef)
  | budgetRetry (r : RoleRef)
  | ctxnewRetry (r : RoleRef)
  | overlayRetry (r : RoleRef)
  -- pre-emption and retirement
  | preemptRequest (team : Nat)
  | pdistExpiry (r : RoleRef)
  | preemptDrain (team : Nat)
  | gangPreemptTimeout (team : Nat)
  | teamRestore (team : Nat)
  | teamRetire (team : Nat)
  -- control
  | nop (g : Guard)
  | bra (target : BitVec 32)
  | brd (p : BitVec 7) (target : BitVec 32) (join : BitVec 32)
  | brx (a : BitVec 7)
  | call (target : BitVec 32)
  | callInd (a : BitVec 7)
  | loop (a : BitVec 7) (target : BitVec 32)
  | exit (g : Guard)
  -- predicates
  | pand (o : P2)
  | por (o : P2)
  | pxor (o : P2)
  | pnot (g : Guard) (d : BitVec 7) (a : BitVec 7)
  | pmov (g : Guard) (d : BitVec 7) (a : BitVec 7)
  | pprov (g : Guard) (d : BitVec 7) (src : PSrc) (set : BitVec 4)
  -- uniform scalar
  | smov (d : BitVec 7) (a : BitVec 7)
  | sli (d : BitVec 7) (imm : BitVec 64)
  | sadd (o : S2)
  | saddImm (o : S2I)
  | ssub (o : S2)
  | ssubImm (o : S2I)
  | smul (o : S2)
  | smulImm (o : S2I)
  | sshl (o : S2)
  | sshlImm (o : S2I)
  | sshr (o : S2)
  | sshrImm (o : S2I)
  | sand (o : S2)
  | sandImm (o : S2I)
  | sor (o : S2)
  | sorImm (o : S2I)
  | sxor (o : S2)
  | sxorImm (o : S2I)
  | smin (o : S2)
  | sminImm (o : S2I)
  | smax (o : S2)
  | smaxImm (o : S2I)
  | scmp (cc : Cmp) (o : S2)
  | scmpImm (cc : Cmp) (o : S2I)
  | smad (o : S2) (c : BitVec 7)
  | ssel (d : BitVec 7) (a : BitVec 7) (b : BitVec 7) (c : BitVec 7)
  | srs (d : SpReg) (num : BitVec 8)
  | sws (num : BitVec 8) (a : SpReg)
  | sget (ty : Ty) (d : BitVec 7) (a : BitVec 8) (lane : LaneSel)
  | sld (fs : Bool) (sp : Space) (ty : Ty) (d : BitVec 7) (a : BitVec 7) (off : BitVec 32)
  -- cross-lane
  | shfl (g : Guard) (mode : ShflMode) (seg : BitVec 4) (ty : Ty) (d : BitVec 8) (a : VSrc) (b : Src) (fill : BitVec 32)
  | vote (g : Guard) (d : VoteDst) (a : BitVec 7)
  | elect (g : Guard) (d : BitVec 7) (a : BitVec 7)
  | redux (o : Red) (d : BitVec 7)
  | scan (o : Red) (exc : Bool) (d : BitVec 8)
  -- integer
  | mov (g : Guard) (ty : Ty) (d : BitVec 8) (a : Src)
  | li (g : Guard) (ty : Ty) (d : BitVec 8) (imm : BitVec 32)
  | iadd (o : I2)
  | iaddImm (o : I2I)
  | isub (o : I2)
  | isubImm (o : I2I)
  | imul (o : I2)
  | imulImm (o : I2I)
  | imulh (o : I2)
  | imulhImm (o : I2I)
  | idiv (o : I2)
  | idivImm (o : I2I)
  | irem (o : I2)
  | iremImm (o : I2I)
  | imin (o : I2)
  | iminImm (o : I2I)
  | imax (o : I2)
  | imaxImm (o : I2I)
  | imad (o : I3)
  | iabs (o : I1)
  | ineg (o : I1)
  | and (o : I2)
  | andImm (o : I2I)
  | or (o : I2)
  | orImm (o : I2I)
  | xor (o : I2)
  | xorImm (o : I2I)
  | not (o : I1)
  | shl (o : I2)
  | shlImm (o : I2I)
  | shr (o : I2)
  | shrImm (o : I2I)
  | sar (o : I2)
  | sarImm (o : I2I)
  | rot (o : I2)
  | rotImm (o : I2I)
  | popc (o : I1)
  | clz (o : I1)
  | brev (o : I1)
  | bfe (o : I2)
  | bfeImm (o : I2I)
  | bfi (o : I3)
  | prmt (g : Guard) (d : BitVec 8) (a : VSrc) (b : Src)
  | prmtImm (g : Guard) (d : BitVec 8) (a : VSrc) (imm : BitVec 32)
  | icmp (g : Guard) (cc : Cmp) (ty : Ty) (d : BitVec 7) (a : Src) (b : Src)
  | icmpImm (g : Guard) (cc : Cmp) (ty : Ty) (d : BitVec 7) (a : Src) (imm : BitVec 32)
  | sel (g : Guard) (ty : Ty) (d : BitVec 8) (a : Src) (b : Src) (p : BitVec 7)
  | lea (g : Guard) (ty : Ty) (sh : BitVec 3) (d : BitVec 8) (a : Src) (b : Src)
  | leaImm (g : Guard) (ty : Ty) (sh : BitVec 3) (d : BitVec 8) (a : Src) (imm : BitVec 32)
  -- float
  | fadd (o : F2)
  | fsub (o : F2)
  | fmul (o : F2)
  | fma (o : F3)
  | fdiv (o : F2)
  | fsqrt (o : F1)
  | frcpa (o : F1)
  | frsqa (o : F1)
  | fmin (o : F2)
  | fmax (o : F2)
  | fabs (o : F1)
  | fneg (o : F1)
  | fcpys (o : F2)
  | fcmp (g : Guard) (cc : FCmp) (ty : Ty) (d : BitVec 7) (a : Src) (b : Src)
  | fclass (o : F1)
  | frint (o : F1)
  | fscale (o : F2)
  | fexpn (o : F1)
  -- conversion
  | cvt (g : Guard) (dty : Ty) (sty : Ty) (mode : Rnd) (d : BitVec 8) (a : Src)
  | qnt (g : Guard) (sty : Ty) (rnd : Rnd) (d : BitVec 8) (a : Src) (b : Src)
  | dqnt (g : Guard) (dty : Ty) (w : BitVec 3) (rnd : Rnd) (d : BitVec 8) (a : Src) (b : Src)
  | plane (g : Guard) (d : BitVec 8) (a : VSrc)
  | unplane (g : Guard) (w : BitVec 3) (d : BitVec 8) (a : VSrc)
  | rand (g : Guard) (ty : Ty) (d : BitVec 8) (a : Src) (b : Src)
  | randImm (g : Guard) (ty : Ty) (d : BitVec 8) (a : Src) (imm : BitVec 32)
  -- per-lane memory
  | ld (g : Guard) (fs : Bool) (sp : Space) (ty : Ty) (d : BitVec 8) (m : Addr) (off : BitVec 32)
  | st (g : Guard) (sp : Space) (ty : Ty) (data : Src) (m : Addr) (off : BitVec 32)
  | ldx (g : Guard) (fs : Bool) (ty : Ty) (d : BitVec 8) (m : Addr) (off : BitVec 32) (form : LdxForm) (disp : BitVec 23)
  | atom (g : Guard) (op : AtomOp) (ord : AtomOrd) (sp : Space) (ty : Ty) (data : Src) (m : Addr) (off : BitVec 24)
  | xacc (g : Guard) (sp : Space) (ty : Ty) (data : Src) (m : Addr) (off : BitVec 32)
  | xrnd (g : Guard) (fs : Bool) (sp : Space) (ty : Ty) (rnd : Rnd) (d : BitVec 8) (m : Addr) (off : BitVec 32)
  -- fences, copies, byte barriers
  | fence (kind : FenceKind) (scope : Scope)
  | copy (o : CopyOps)
  | binit (a : BitVec 7) (n : BitVec 32)
  | bexp (a : BitVec 7) (n : Cnt)
  | bwait (a : BitVec 7) (phase : Bool)
  -- contexts and sharing groups
  | ctxnew (fs : Bool) (d : BitVec 7)
  | ctxset (fs : Bool) (a : BitVec 7)
  | ctxendDiscard (fs : Bool)
  | ctxendCommit (fs : Bool)
  | ctxmerge (fs : Bool) (d : BitVec 7)
  | ctxq (fs : Bool) (d : BitVec 7) (a : BitVec 7)
  | sgjoin (sel : SgSel)
  -- near-memory commands
  | nmcAxpy (o : NmcOps)
  | nmcScale (o : NmcOps)
  | nmcFade (o : NmcOps)
  | nmcFma (o : NmcOps)
  | nmcClamp (o : NmcOps)
  | nmcFill (o : NmcOps)
  -- matrix
  | mma (o : MmaOps)
  | mmar (o : MmarOps)
  | mzero (fmt : Ty) (ct : Bool) (acc : BitVec 11)
  | minit (fmt : Ty) (ct : Bool) (acc : BitVec 11) (src : BitVec 11)
  | mdrain (o : MdrainOps)
  | gset (gid : BitVec 2) (roles : List (BitVec 2))
  | mfence (fs : Bool) (d : BitVec 7)
  | mwait (clr : Bool) (a : BitVec 7)
  | mwaitImm (clr : Bool) (n : BitVec 32)
  | msave (off : BitVec 32)
  | mresume (off : BitVec 32)
  | ctbl (a : BitVec 7)
  | obrel (n : BitVec 3)
  -- solver
  | resf (g : Guard) (d : BitVec 8) (a : Src) (x : Src) (b : Src)
  | dcor (o : DcorOps)
  | wstart (ty : Ty) (d : BitVec 8) (b : VSrc) (a : BitVec 7) (c : BitVec 7)
  | svcfgTol (a : BitVec 7)
  | svcfgTolImm (imm : BitVec 32)
  | svcfgLimit (a : BitVec 7)
  | svcfgLimitImm (imm : BitVec 32)
  | svcfgGrow (a : BitVec 7)
  | svcfgGrowImm (imm : BitVec 8)
  | svstat (d : BitVec 7)
  | pmark (g : Guard) (ty : Ty) (d : BitVec 8) (a : Src)
  -- synchronisation and tasks
  | bar (b : BitVec 4) (roles : BitVec 4)
  | arrive (b : BitVec 4) (roles : BitVec 4)
  | await (b : BitVec 4)
  | depinit (a : BitVec 7) (n : Cnt)
  | depdec (fs : Bool) (a : BitVec 7) (off : BitVec 32)
  | cpost (a : BitVec 7) (entry : BitVec 32) (prio : BitVec 8)
  -- system
  | trap (g : Guard) (n : BitVec 8)
  | tlbi (range : Option (BitVec 7 × BitVec 32))
  | reservedOpcode (header : Bool)
  -- further events
  | linkRetrained (part gate : Nat) (t : LinkTarget)
  | remapPreemptTimeout (part : Nat) (k : Nat)
  | pageMove (part : Nat) (va : BitVec 64) (tier : BitVec 2) (frame : BitVec 39)
  | overlayPoolResize (part : Nat) (k : Nat) (lines : Nat)
  -- instructions without operands
  | join
  | ret
  | yield
  | stage
  | sgleave
  | fenceE
  | fenceT
  | nmwait
  | tret
  | pchk
  | lpsw
  | svcfgReset
  deriving DecidableEq, Repr

end Sys2Proof
end

