-- ==== Sys2Proof/Machine/Float.lean ====
section
/-!
DEFINITION. The float formats and their arithmetic (R173 to R175, R200 to R209): a value is decoded to an exact dyadic
number, computed on exactly, and rounded once. Bit patterns are natural numbers below 2 to the format's width.
-/
namespace Sys2Proof.Machine

/-- A binary format: exponent bits and fraction bits (R173, R175). -/
structure Fmt where
  eb : Nat
  fb : Nat
  deriving DecidableEq, Repr

def Fmt.f16 : Fmt := ⟨5, 10⟩
def Fmt.bf16 : Fmt := ⟨8, 7⟩
def Fmt.f32 : Fmt := ⟨8, 23⟩
def Fmt.f64 : Fmt := ⟨11, 52⟩
/-- The accumulator format W128 (R175). -/
def Fmt.w128 : Fmt := ⟨19, 108⟩

/-- The format of a float type (R95, R173). -/
def Fmt.ofTy : Ty → Fmt
  | .f16 => Fmt.f16
  | .bf16 => Fmt.bf16
  | .f32 => Fmt.f32
  | _ => Fmt.f64

def Fmt.bias (f : Fmt) : Nat := 2 ^ (f.eb - 1) - 1
def Fmt.width (f : Fmt) : Nat := 1 + f.eb + f.fb
def Fmt.signBit (f : Fmt) : Nat := 2 ^ (f.eb + f.fb)
/-- +∞. -/
def Fmt.inf (f : Fmt) : Nat := (2 ^ f.eb - 1) * 2 ^ f.fb
/-- The canonical NaN (R173): the fraction's top bit alone, sign 0. -/
def Fmt.nan (f : Fmt) : Nat := f.inf + 2 ^ (f.fb - 1)
/-- The exponent of the smallest subnormal's unit. -/
def Fmt.qmin (f : Fmt) : Int := 1 - (f.bias : Int) - (f.fb : Int)

/-- A decoded value: NaN, an infinity, or ±m × 2^e; a zero has m = 0 and keeps its sign. -/
inductive FVal where
  | nan
  | inf (neg : Bool)
  | fin (neg : Bool) (m : Nat) (e : Int)
  deriving DecidableEq, Repr

/-- The sign bit as stored. -/
def Fmt.neg (f : Fmt) (b : Nat) : Bool := (b / f.signBit) % 2 == 1
/-- The bits below the sign. -/
def Fmt.mag (f : Fmt) (b : Nat) : Nat := b % f.signBit
def Fmt.isNan (f : Fmt) (b : Nat) : Bool := f.inf < f.mag b
def Fmt.isInf (f : Fmt) (b : Nat) : Bool := f.mag b == f.inf

/-- Decoding (R173). -/
def Fmt.dec (f : Fmt) (b : Nat) : FVal :=
  let ex := f.mag b / 2 ^ f.fb
  let fr := b % 2 ^ f.fb
  if ex == 2 ^ f.eb - 1 then (if fr == 0 then .inf (f.neg b) else .nan)
  else if ex == 0 then .fin (f.neg b) fr f.qmin
  else .fin (f.neg b) (2 ^ f.fb + fr) (f.qmin + (ex : Int) - 1)

/-- A pattern from its sign and magnitude bits. -/
def Fmt.withSign (f : Fmt) (neg : Bool) (mag : Nat) : Nat := if neg then f.signBit + mag else mag

/-- The number of significant bits of m. -/
def bitLen (m : Nat) : Nat := if m == 0 then 0 else Nat.log2 m + 1

/-- A shift by a signed count: left when it is positive. -/
def shiftInt (m : Nat) (k : Int) : Nat := if 0 ≤ k then m <<< k.toNat else m >>> (-k).toNat

/-- Does the mode round the magnitude up, from the parity of the kept part, how the rest compares with one half, and
whether anything is lost (R95)? -/
def roundUp (rm : Rnd) (neg odd : Bool) (half : Ordering) (inexact : Bool) : Bool :=
  match rm with
  | .rn => half == .gt || (half == .eq && odd)
  | .rz => false
  | .ru => inexact && !neg
  | .rd => inexact && neg

/-- m × 2^(-s), with a further amount below m's unit when sticky, rounded to an integer in the mode. -/
def roundShift (rm : Rnd) (neg : Bool) (m s : Nat) (sticky : Bool) : Nat :=
  if s == 0 then m + (if roundUp rm neg (m % 2 == 1) .lt sticky then 1 else 0)
  else if bitLen m + 1 < s then (if roundUp rm neg false .lt (m != 0 || sticky) then 1 else 0)
  else
    let q := m >>> s
    let r := m - (q <<< s)
    let h := 1 <<< (s - 1)
    let cmp := if r < h then Ordering.lt else if h < r || sticky then .gt else .eq
    q + (if roundUp rm neg (q % 2 == 1) cmp (r != 0 || sticky) then 1 else 0)

/-- The largest finite magnitude with at most p significant bits (R174, R202). -/
def Fmt.maxFin (f : Fmt) (p : Nat) : Nat := f.inf - 2 ^ (f.fb + 1 - p)

/-- What an overflow gives (R174). -/
def Fmt.overflow (f : Fmt) (p : Nat) (rm : Rnd) (neg : Bool) : Nat :=
  let toInf := match rm with | .rn => true | .rz => false | .ru => !neg | .rd => neg
  f.withSign neg (if toInf then f.inf else f.maxFin p)

/-- ±(m + δ) × 2^e, with 0 < δ < 1 when sticky, rounded once to at most p significant bits of the format (R174). -/
def Fmt.roundP (f : Fmt) (p : Nat) (rm : Rnd) (neg : Bool) (m : Nat) (e : Int) (sticky : Bool) : Nat :=
  if m == 0 && !sticky then f.withSign neg 0
  else
    let top := e + (bitLen m : Int) - 1
    if (f.bias : Int) + 1 < top then f.overflow p rm neg
    else
      let q := max (top + 1 - (p : Int)) f.qmin
      let mr := if q ≤ e then shiftInt m (e - q)
        else roundShift rm neg m (q - e).toNat sticky
      let top' := q + (bitLen mr : Int) - 1
      let q' := max (top' - (f.fb : Int)) f.qmin
      let mag := (q' - f.qmin).toNat * 2 ^ f.fb + shiftInt mr (q - q')
      if f.inf ≤ mag then f.overflow p rm neg else f.withSign neg mag

/-- Rounding to the format's full precision. -/
def Fmt.round (f : Fmt) (rm : Rnd) (neg : Bool) (m : Nat) (e : Int) : Nat := f.roundP (f.fb + 1) rm neg m e false

/-- A signed exact dyadic number z × 2^e. -/
structure Dyad where
  z : Int
  e : Int
  deriving DecidableEq, Repr

def Dyad.ofFin (neg : Bool) (m : Nat) (e : Int) : Dyad := ⟨if neg then -(m : Int) else m, e⟩
/-- Exact sum. -/
def Dyad.add (a b : Dyad) : Dyad :=
  let e := min a.e b.e
  ⟨a.z * (2 ^ (a.e - e).toNat : Nat) + b.z * (2 ^ (b.e - e).toNat : Nat), e⟩
/-- Exact product. -/
def Dyad.mul (a b : Dyad) : Dyad := ⟨a.z * b.z, a.e + b.e⟩
/-- Exact order. -/
def Dyad.le (a b : Dyad) : Bool :=
  let e := min a.e b.e
  decide (a.z * (2 ^ (a.e - e).toNat : Nat) ≤ b.z * (2 ^ (b.e - e).toNat : Nat))

/-- An exact non-zero sum rounded once; an exact zero is +0, or -0 under RD (R174). -/
def Fmt.roundSum (f : Fmt) (rm : Rnd) (d : Dyad) : Nat :=
  if d.z == 0 then f.withSign (rm == .rd) 0
  else f.round rm (d.z < 0) d.z.natAbs d.e

/-- The sum of two values that are not NaN, rounded once (R174, R201). -/
def Fmt.sumVal (f : Fmt) (rm : Rnd) (a b : FVal) : Nat :=
  match a, b with
  | .nan, _ => f.nan
  | _, .nan => f.nan
  | .inf x, .inf y => if x == y then f.withSign x f.inf else f.nan
  | .inf x, .fin _ _ _ => f.withSign x f.inf
  | .fin _ _ _, .inf y => f.withSign y f.inf
  | .fin x m e, .fin y n g =>
    if m == 0 && n == 0 && x == y then f.withSign x 0
    else f.roundSum rm ((Dyad.ofFin x m e).add (Dyad.ofFin y n g))

/-- An exact sum, with the sign that R174 gives a zero. -/
def addExact (a b : FVal) : FVal :=
  match a, b with
  | .nan, _ => .nan
  | _, .nan => .nan
  | .inf x, .inf y => if x == y then .inf x else .nan
  | .inf x, .fin _ _ _ => .inf x
  | .fin _ _ _, .inf y => .inf y
  | .fin x m e, .fin y n g =>
    if m = 0 && n = 0 then .fin (x && y) 0 0
    else
      let d := (Dyad.ofFin x m e).add (Dyad.ofFin y n g)
      .fin (decide (d.z < 0)) d.z.natAbs d.e

/-- The opposite value; NaN stays NaN. -/
def FVal.negate : FVal → FVal
  | .nan => .nan
  | .inf s => .inf (!s)
  | .fin s m e => .fin (!s) m e

/-- The exact product of two values (R174): 0 × ∞ is NaN. -/
def FVal.mul (a b : FVal) : FVal :=
  match a, b with
  | .nan, _ => .nan
  | _, .nan => .nan
  | .inf x, .inf y => .inf (x != y)
  | .inf x, .fin y m _ => if m == 0 then .nan else .inf (x != y)
  | .fin x m _, .inf y => if m == 0 then .nan else .inf (x != y)
  | .fin x m e, .fin y n g => .fin (x != y) (m * n) (e + g)

/-- A value rounded once into a format (R174, R185). -/
def Fmt.ofVal (f : Fmt) (rm : Rnd) : FVal → Nat
  | .nan => f.nan
  | .inf s => f.withSign s f.inf
  | .fin s m e => f.round rm s m e

/-- FADD (R201). -/
def Fmt.add (f : Fmt) (rm : Rnd) (a b : Nat) : Nat := f.sumVal rm (f.dec a) (f.dec b)
/-- FSUB (R201). -/
def Fmt.sub (f : Fmt) (rm : Rnd) (a b : Nat) : Nat := f.sumVal rm (f.dec a) (f.dec b).negate
/-- FMUL (R201). -/
def Fmt.mul (f : Fmt) (rm : Rnd) (a b : Nat) : Nat := f.ofVal rm ((f.dec a).mul (f.dec b))
/-- FMA: one rounding (R201). -/
def Fmt.fma (f : Fmt) (rm : Rnd) (a b c : Nat) : Nat := f.sumVal rm ((f.dec a).mul (f.dec b)) (f.dec c)

/-- The exact quotient of two natural magnitudes times 2^e, rounded once to p bits; the divisor is not 0. -/
def Fmt.roundQuot (f : Fmt) (p : Nat) (rm : Rnd) (neg : Bool) (n d : Nat) (e : Int) : Nat :=
  let t := p + 3 + bitLen d
  let num := n <<< t
  let q := num / d
  f.roundP p rm neg q (e - (t : Int)) (num != q * d)

/-- FDIV (R201). -/
def Fmt.div (f : Fmt) (rm : Rnd) (a b : Nat) : Nat :=
  match f.dec a, f.dec b with
  | .nan, _ => f.nan
  | _, .nan => f.nan
  | .inf _, .inf _ => f.nan
  | .inf x, .fin y _ _ => f.withSign (x != y) f.inf
  | .fin x _ _, .inf y => f.withSign (x != y) 0
  | .fin x m e, .fin y n g =>
    if n == 0 then (if m == 0 then f.nan else f.withSign (x != y) f.inf)
    else if m == 0 then f.withSign (x != y) 0
    else f.roundQuot (f.fb + 1) rm (x != y) m n (e - g)

/-- The integer square root by bits, from bit i down. -/
def isqrtFrom : Nat → Nat → Nat → Nat
  | 0, x, r => if (r + 1) * (r + 1) ≤ x then r + 1 else r
  | i + 1, x, r =>
    let c := r + 2 ^ (i + 1)
    isqrtFrom i x (if c * c ≤ x then c else r)
/-- The largest r with r² ≤ x. -/
def isqrt (x : Nat) : Nat := isqrtFrom (bitLen x / 2 + 1) x 0

/-- FSQRT (R201). -/
def Fmt.sqrt (f : Fmt) (rm : Rnd) (a : Nat) : Nat :=
  match f.dec a with
  | .nan => f.nan
  | .inf s => if s then f.nan else f.inf
  | .fin s m e =>
    if m == 0 then f.withSign s 0
    else if s then f.nan
    else
      let t := 2 * (f.fb + 4) + (if e % 2 == 0 then 0 else 1)
      let x := m <<< t
      let r := isqrt x
      f.roundP (f.fb + 1) rm false r ((e - (t : Int)) / 2) (r * r != x)

/-- FRCPA: 1/a with at most 12 significant bits (R202). -/
def Fmt.rcpa (f : Fmt) (rm : Rnd) (a : Nat) : Nat :=
  match f.dec a with
  | .nan => f.nan
  | .inf s => f.withSign s 0
  | .fin s m e => if m == 0 then f.withSign s f.inf else f.roundQuot 12 rm s 1 m (-e)

/-- FRSQA: 1/√a with at most 12 significant bits (R202). -/
def Fmt.rsqa (f : Fmt) (rm : Rnd) (a : Nat) : Nat :=
  match f.dec a with
  | .nan => f.nan
  | .inf s => if s then f.nan else 0
  | .fin s m e =>
    if m == 0 then f.withSign s f.inf
    else if s then f.nan
    else
      -- 1/√(m·2^e) = √(2^t / m) · 2^(-(e+t)/2) with e + t even
      let t0 := bitLen m + 32
      let t := if (e + (t0 : Int)) % 2 == 0 then t0 else t0 + 1
      let y := 2 ^ t / m
      let r := isqrt y
      f.roundP 12 rm false r (-((e + (t : Int)) / 2)) (!(r * r == y && y * m == 2 ^ t))

/-- A key that orders finite and infinite patterns with -0 below +0 (R203). -/
def Fmt.key (f : Fmt) (b : Nat) : Int := if f.neg b then -(f.mag b : Int) - 1 else (f.mag b : Int)
/-- A key under which -0 equals +0 (R205). -/
def Fmt.key0 (f : Fmt) (b : Nat) : Int := if f.neg b then -(f.mag b : Int) else (f.mag b : Int)

/-- FMIN (R203). -/
def Fmt.min (f : Fmt) (a b : Nat) : Nat :=
  if f.isNan a then (if f.isNan b then f.nan else b)
  else if f.isNan b then a
  else if f.key a ≤ f.key b then a else b
/-- FMAX (R203). -/
def Fmt.max (f : Fmt) (a b : Nat) : Nat :=
  if f.isNan a then (if f.isNan b then f.nan else b)
  else if f.isNan b then a
  else if f.key b ≤ f.key a then a else b

/-- FABS, FNEG and FCPYS (R204). -/
def Fmt.abs (f : Fmt) (a : Nat) : Nat := if f.isNan a then f.nan else f.mag a
def Fmt.negate (f : Fmt) (a : Nat) : Nat := if f.isNan a then f.nan else f.withSign (!f.neg a) (f.mag a)
def Fmt.cpys (f : Fmt) (a b : Nat) : Nat := if f.isNan a then f.nan else f.withSign (f.neg b) (f.mag a)

/-- FCMP (R205). -/
def Fmt.cmp (f : Fmt) (cc : FCmp) (a b : Nat) : Bool :=
  if f.isNan a || f.isNan b then cc == .ne || cc == .un
  else
    let x := f.key0 a
    let y := f.key0 b
    match cc with
    | .eq => x == y
    | .ne => x != y
    | .lt => x < y
    | .le => x ≤ y
    | .gt => y < x
    | .ge => y ≤ x
    | .un => false
    | .ord => true

/-- FCLASS (R206). -/
def Fmt.fclass (f : Fmt) (a : Nat) : Nat :=
  let m := f.mag a
  let n := f.neg a
  if f.inf < m then (if (m / 2 ^ (f.fb - 1)) % 2 == 1 then 512 else 256)
  else if m == f.inf then (if n then 1 else 128)
  else if m == 0 then (if n then 8 else 16)
  else if m < 2 ^ f.fb then (if n then 4 else 32)
  else if n then 2 else 64

/-- A finite value rounded to an integral magnitude in the mode (R207, R211). -/
def roundMag (rm : Rnd) (neg : Bool) (m : Nat) (e : Int) : Nat :=
  if 0 ≤ e then m <<< e.toNat else roundShift rm neg m (-e).toNat false

/-- FRINT (R207). -/
def Fmt.rint (f : Fmt) (rm : Rnd) (a : Nat) : Nat :=
  match f.dec a with
  | .nan => f.nan
  | .inf _ => a
  | .fin s m e => if 0 ≤ e then a else f.round .rz s (roundMag rm s m e) 0

/-- FSCALE (R208). -/
def Fmt.scale (f : Fmt) (rm : Rnd) (a : Nat) (b : Int) : Nat :=
  match f.dec a with
  | .nan => f.nan
  | .inf _ => a
  | .fin s m e => if m == 0 then a else f.round rm s m (e + b)

/-- FEXPN as a 32-bit pattern (R209). -/
def Fmt.expn (f : Fmt) (a : Nat) : BitVec 32 :=
  match f.dec a with
  | .nan => 0x7FFFFFFE
  | .inf _ => 0x7FFFFFFF
  | .fin _ m e => if m == 0 then 0x80000000 else BitVec.ofInt 32 (e + (bitLen m : Int) - 1)

/-- A value of one format in another (R185): NaN canonical, exact when the destination is wider. -/
def Fmt.convert (src dst : Fmt) (rm : Rnd) (a : Nat) : Nat := dst.ofVal rm (src.dec a)

/-- An integer rounded once into a format (R185). -/
def Fmt.ofInt (f : Fmt) (rm : Rnd) (z : Int) : Nat := f.round rm (z < 0) z.natAbs 0

/-- The truncation of a finite value (R185). -/
def truncInt (s : Bool) (m : Nat) (e : Int) : Int :=
  let k := shiftInt m e
  if s then -(k : Int) else k

end Sys2Proof.Machine
end

