-- ==== Sys2Proof/WellFormed.lean ====
section
/-!
DEFINITION. Which instructions an encoding can name: the types each entry lists, even pairs, register bounds and field
ranges of R83 to R113 and of the entries. Instr.wf holds exactly for what the encoder can write and the decoder gives back.
-/
namespace Sys2Proof

/-- The 64-bit element types, whose vector operands are pairs (R93, R172). -/
def Ty.is64 : Ty → Bool
  | .i64 | .u64 | .f64 => true
  | _ => false

/-- The integer types 0 to 7 (R95). -/
def Ty.isInt : Ty → Bool
  | .i8 | .i16 | .i32 | .i64 | .u8 | .u16 | .u32 | .u64 => true
  | _ => false

/-- The float types 8 to 11 (R95). -/
def Ty.isFloat : Ty → Bool
  | .f16 | .bf16 | .f32 | .f64 => true
  | _ => false

/-- The signed integer types (R172). -/
def Ty.isSigned : Ty → Bool
  | .i8 | .i16 | .i32 | .i64 => true
  | _ => false

/-- The type lists the entries name. -/
def Ty.scalarTys : List Ty := [.i32, .u32, .i64, .u64]
def Ty.intTys : List Ty := [.i8, .i16, .i32, .i64, .u8, .u16, .u32, .u64]
def Ty.floatTys : List Ty := [.f16, .bf16, .f32, .f64]
def Ty.uTys : List Ty := [.u32, .u64]
def Ty.sTys : List Ty := [.i8, .i16, .i32, .i64]
def Ty.redTys : List Ty := [.i32, .u32, .i64, .u64, .f32, .f64]
def Ty.plainTys : List Ty := [.i8, .i16, .i32, .i64, .u8, .u16, .u32, .u64, .f16, .bf16, .f32, .f64]
def Ty.allTys : List Ty := [.i8, .i16, .i32, .i64, .u8, .u16, .u32, .u64, .f16, .bf16, .f32, .f64, .bpi]
def Ty.wideF : List Ty := [.f32, .f64]
def Ty.mmaTys : List Ty := [.f16, .bf16, .f32, .f64, .bpi]

/-- A v register operand of a type: a pair is named by its even register (R93). -/
def evenFor (ty : Ty) (r : BitVec 8) : Bool := !(ty.is64 && r.getLsbD 0)

/-- A source read as a type (R93, R97). -/
def Src.okFor (ty : Ty) : Src → Bool
  | .v r _ => evenFor ty r
  | .s _ => true

/-- A rounding field of the code RN, which is 0 (R95). -/
def Rnd.isZero : Rnd → Bool
  | .rn => true
  | _ => false

/-- Two-source scalar operands (R162). -/
def S2.wf (sat : Bool) (o : S2) : Bool := Ty.scalarTys.contains o.ty && (sat || !o.sat)
def S2I.wf (sat : Bool) (o : S2I) : Bool := Ty.scalarTys.contains o.ty && (sat || !o.sat)

/-- Two-source integer operands: the entry's types, whether it admits SAT, and whether B is a 32-bit operand
(R187, R190). -/
def I2.wf (tys : List Ty) (sat b32 : Bool) (o : I2) : Bool :=
  tys.contains o.ty && (sat || !o.sat) && evenFor o.ty o.d && o.a.okFor o.ty && (b32 || o.b.okFor o.ty)
def I2I.wf (tys : List Ty) (sat : Bool) (o : I2I) : Bool :=
  tys.contains o.ty && (sat || !o.sat) && evenFor o.ty o.d && o.a.okFor o.ty

/-- Three-source integer operands; c32 marks a 32-bit C (R192, R195). -/
def I3.wf (tys : List Ty) (sat c32 : Bool) (o : I3) : Bool :=
  tys.contains o.ty && (sat || !o.sat) && evenFor o.ty o.d && o.a.okFor o.ty && o.b.okFor o.ty &&
    (c32 || o.c.okFor o.ty)

/-- One-source integer operands; d32 marks a 32-bit result (R193). -/
def I1.wf (tys : List Ty) (sat d32 : Bool) (o : I1) : Bool :=
  tys.contains o.ty && (sat || !o.sat) && (d32 || evenFor o.ty o.d) && o.a.okFor o.ty

/-- Float operands: the entry's types and whether it admits rounding (R200). -/
def F1.wf (tys : List Ty) (rnd d32 : Bool) (o : F1) : Bool :=
  tys.contains o.ty && (rnd || o.rnd.isZero) && (d32 || evenFor o.ty o.d) && o.a.okFor o.ty
def F2.wf (rnd b32 : Bool) (o : F2) : Bool :=
  Ty.floatTys.contains o.ty && (rnd || o.rnd.isZero) && evenFor o.ty o.d && o.a.okFor o.ty && (b32 || o.b.okFor o.ty)
def F3.wf (o : F3) : Bool :=
  Ty.floatTys.contains o.ty && evenFor o.ty o.d && o.a.okFor o.ty && o.b.okFor o.ty && o.c.okFor o.ty

/-- REDUX and SCAN: the operation's types, and the mode field by operation and type (R171). -/
def Red.wf (o : Red) : Bool :=
  Ty.redTys.contains o.ty &&
  (!o.ty.isFloat || match o.op with | .add | .min | .max => true | _ => false) &&
  (match o.op with
    | .add => o.ty.isFloat || o.mode == .rn || o.mode == .rz
    | _ => o.mode.isZero) &&
  evenFor o.ty o.a.r

/-- A per-lane address: a pair index is even (R273). -/
def Addr.wf (m : Addr) : Bool :=
  match m.idx with
  | .i64 r _ => !r.getLsbD 0
  | _ => true

/-- The spaces SLD admits (R166) and those ATOM, XACC and XRND admit (R274). -/
def Space.sldOk : Space → Bool
  | .k => false
  | _ => true
def Space.atomOk : Space → Bool
  | .k => false
  | _ => true

/-- The pairings of AOP and type (R283). -/
def AtomOp.tyOk (op : AtomOp) (ty : Ty) : Bool :=
  Ty.redTys.contains ty && (!ty.isFloat || match op with | .min | .max => true | _ => false)

/-- A register operand of a matrix operation, by format (R315, R331): F64 names an even register. -/
def MSrc.wf (fmt : Ty) : MSrc → Bool
  | .reg r _ => evenFor fmt r
  | .scr r _ => !r.getLsbD 0
  | .buf _ _ _ => true

/-- MDRAIN's fields (R336). -/
def MdrainOps.wf (o : MdrainOps) : Bool :=
  Ty.mmaTys.contains o.sf &&
  (if o.sf == .bpi then o.dty == .f32 && (o.row == 0 || o.row == 1 || o.row == 2)
   else ([Ty.f64, .f32, .bf16].contains o.dty) && !o.ct && o.w == 0 && o.row == 0 && o.smoff == 0)

/-- DCOR's fields (R349). -/
def DcorOps.wf (o : DcorOps) : Bool :=
  !o.d.getLsbD 0 && !o.x.r.getLsbD 0 && !o.r.r.getLsbD 0 && o.m.okFor .f64 &&
  match o.box with
  | none => true
  | some b => b.bnd.extractLsb' 0 2 == 0 && b.plo != 127 && b.phi != 127

/-- A clause header that R88 accepts. -/
def Header.wf (h : Header) : Bool :=
  h.n != 0 && (h.sa.all (fun x => x.ult 12)) && (h.sb.all (fun x => x.ult 12)) &&
  !(h.sa.isSome && h.sa == h.sb)

/-- A copy's fields (R288, R290): no element type with a surface endpoint, else types 0 to 11; the descriptor's first
register is a multiple of 8, at most 120. -/
def CopyOps.wf (o : CopyOps) : Bool :=
  (if o.src == .surf || o.dst == .surf then o.ty == .i8 else o.ty != .bpi) && o.a.extractLsb' 0 3 == 0

/-- An NMC command's fields: the descriptor register is a multiple of 8, at most 120, and n runs from 1 to 65,536
(R309). -/
def NmcOps.wf (o : NmcOps) : Bool := o.a.extractLsb' 0 3 == 0 && 1 ≤ o.n.toNat && o.n.toNat ≤ 65536

/-- An address immediate is a code target (R145). -/
def targetOk (t : BitVec 32) : Bool := t.extractLsb' 0 2 == 0

/-- The program instructions an encoding can name. Device events have no encoding and are well formed as they stand. -/
def Instr.wf : Instr → Bool
  | .clauseStart h => h.wf
  | .bra t => targetOk t
  | .brd _ t j => targetOk t && targetOk j
  | .call t => targetOk t
  | .loop _ t => targetOk t
  | .pprov _ _ src set => set != 0 && (match src with | .pair r => !r.getLsbD 0 | _ => true)
  | .sadd o | .ssub o | .smul o => o.wf true
  | .saddImm o | .ssubImm o | .smulImm o => o.wf true
  | .sshl o | .sshr o | .sand o | .sor o | .sxor o | .smin o | .smax o | .scmp _ o => o.wf false
  | .sshlImm o | .sshrImm o | .sandImm o | .sorImm o | .sxorImm o | .sminImm o | .smaxImm o | .scmpImm _ o => o.wf false
  | .smad o _ => o.wf false
  | .srs d num => (match d with
      | .v _ => [0x00, 0x01, 0x2B].contains num.toNat
      | .s _ => ((0x02 ≤ num.toNat && num.toNat ≤ 0x19) || (0x20 ≤ num.toNat && num.toNat ≤ 0x2A)))
  | .sws num a => (match a with
      | .v _ => [0x00, 0x01, 0x2B].contains num.toNat
      | .s _ => ((0x02 ≤ num.toNat && num.toNat ≤ 0x19) || (0x20 ≤ num.toNat && num.toNat ≤ 0x2A)))
  | .sget ty _ a _ => Ty.uTys.contains ty && evenFor ty a
  | .sld _ sp ty _ _ _ => sp.sldOk && Ty.scalarTys.contains ty
  | .shfl _ _ seg ty d a _ _ => (1 ≤ seg.toNat && seg.toNat ≤ 10) && Ty.uTys.contains ty && evenFor ty d && evenFor ty a.r
  | .redux o _ => o.wf
  | .scan o _ d => o.wf && evenFor o.ty d
  | .mov _ ty d a => Ty.uTys.contains ty && evenFor ty d && a.okFor ty
  | .li _ ty d _ => Ty.plainTys.contains ty && evenFor ty d
  | .iadd o | .isub o | .imul o => o.wf Ty.intTys true false
  | .iaddImm o | .isubImm o | .imulImm o => o.wf Ty.intTys true
  | .imulh o => o.wf Ty.scalarTys false false
  | .imulhImm o => o.wf Ty.scalarTys false
  | .idiv o => o.wf Ty.intTys true false
  | .idivImm o => o.wf Ty.intTys true
  | .irem o | .imin o | .imax o | .and o | .or o | .xor o => o.wf Ty.intTys false false
  | .iremImm o | .iminImm o | .imaxImm o | .andImm o | .orImm o | .xorImm o => o.wf Ty.intTys false
  | .shl o | .shr o | .sar o | .rot o => o.wf Ty.intTys false true
  | .shlImm o | .shrImm o | .sarImm o | .rotImm o => o.wf Ty.intTys false
  | .imad o => o.wf Ty.intTys true false
  | .iabs o | .ineg o => o.wf Ty.sTys true false
  | .not o | .brev o => o.wf Ty.intTys false false
  | .popc o | .clz o => o.wf Ty.intTys false true
  | .bfe o => o.wf Ty.scalarTys false true
  | .bfeImm o => o.wf Ty.scalarTys false
  | .bfi o => o.wf Ty.uTys false true
  | .prmt _ _ a _ => !a.r.getLsbD 0
  | .prmtImm _ _ a _ => !a.r.getLsbD 0
  | .icmp _ _ ty _ a b => Ty.intTys.contains ty && a.okFor ty && b.okFor ty
  | .icmpImm _ _ ty _ a _ => Ty.intTys.contains ty && a.okFor ty
  | .sel _ ty d a b _ => Ty.uTys.contains ty && evenFor ty d && a.okFor ty && b.okFor ty
  | .lea _ ty _ d a _ => [Ty.u32, .i64, .u64].contains ty && evenFor ty d && a.okFor ty
  | .leaImm _ ty _ d a _ => [Ty.u32, .i64, .u64].contains ty && evenFor ty d && a.okFor ty
  | .fadd o | .fsub o | .fmul o | .fdiv o => o.wf true false
  | .fma o => o.wf
  | .fsqrt o | .frint o => o.wf Ty.floatTys true false
  | .frcpa o | .frsqa o => o.wf Ty.wideF true false
  | .fmin o | .fmax o | .fcpys o => o.wf false false
  | .fabs o | .fneg o => o.wf Ty.floatTys false false
  | .fcmp _ _ ty _ a b => Ty.floatTys.contains ty && a.okFor ty && b.okFor ty
  | .fclass o | .fexpn o => o.wf Ty.floatTys false true
  | .fscale o => o.wf true true
  | .cvt _ dty sty mode d a => Ty.plainTys.contains dty && Ty.plainTys.contains sty &&
      (dty.isFloat || mode == .rn || mode == .rz) && evenFor dty d && a.okFor sty
  | .qnt _ sty _ _ a _ => Ty.floatTys.contains sty && a.okFor sty
  | .dqnt _ dty _ _ d _ _ => Ty.floatTys.contains dty && evenFor dty d
  | .rand _ ty d _ _ => Ty.uTys.contains ty && evenFor ty d
  | .randImm _ ty d _ _ => Ty.uTys.contains ty && evenFor ty d
  | .ld _ _ _ ty d m _ => evenFor ty d && m.wf
  | .st _ _ ty data m _ => data.okFor ty && m.wf
  | .ldx _ _ ty d m _ _ _ => evenFor ty d && m.wf
  | .atom _ op _ sp ty data m _ => sp.atomOk && op.tyOk ty && data.okFor ty && m.wf
  | .xacc _ sp ty data m _ => sp.atomOk && Ty.wideF.contains ty && data.okFor ty && m.wf
  | .xrnd _ _ sp ty _ d m _ => sp.atomOk && Ty.wideF.contains ty && evenFor ty d && m.wf
  | .copy o => o.wf
  | .nmcAxpy o | .nmcScale o | .nmcFade o | .nmcFma o | .nmcClamp o | .nmcFill o => o.wf
  | .mma o => Ty.mmaTys.contains o.fmt && (o.fmt == .bpi || o.w == 0) && o.a.wf o.fmt && o.b.wf o.fmt
  | .mmar o => o.a.wf .f64 && o.b.wf .f64
  | .mzero fmt _ _ => Ty.mmaTys.contains fmt
  | .minit fmt _ _ _ => Ty.mmaTys.contains fmt
  | .mdrain o => o.wf
  | .gset _ rs => rs.length == 0 || (2 ≤ rs.length && rs.length ≤ 6)
  | .ctbl a => a.extractLsb' 0 2 == 0
  | .resf _ d a x b => !d.getLsbD 0 && a.okFor .f64 && x.okFor .f64 && b.okFor .f64
  | .dcor o => o.wf
  | .wstart ty d _ _ c => Ty.wideF.contains ty && evenFor ty d && !c.getLsbD 0
  | .pmark _ ty d a => Ty.uTys.contains ty && evenFor ty d && a.okFor ty
  | .bar b rs | .arrive b rs => (b == 0) == (rs == 0)
  | .depinit _ _ => true
  | .cpost a entry prio => a.extractLsb' 0 3 == 0 && targetOk entry && (prio.ult 8 || prio == 0xFF)
  | .tlbi r => (match r with | none => true | some (_, n) => n != 0)
  | _ => true

end Sys2Proof
end

