-- ==== Sys2Proof/Machine/Arith.lean ====
section
/-!
DEFINITION. Integer arithmetic by type (R172, R190 to R199), conversions (R185, R210 to R212), bit-plane blocks (R178,
R179), rand32 (R186) and exact sum cells (R183, R184). A value of a lane or scalar operand is 64 bits wide here; a
narrower operand uses its low bits.
-/
namespace Sys2Proof.Machine

/-- The width of an element type in bits; a BPI element is one byte (R180). -/
def tyBits : Ty → Nat
  | .i8 | .u8 | .bpi => 8
  | .i16 | .u16 | .f16 | .bf16 => 16
  | .i32 | .u32 | .f32 => 32
  | .i64 | .u64 | .f64 => 64

/-- The size of an element in bytes. -/
def tyBytes (ty : Ty) : Nat := tyBits ty / 8

/-- The value a type reads from an operand (R172). -/
def readInt (ty : Ty) (v : DWord) : Int :=
  match ty with
  | .i8 => (v.setWidth 8).toInt
  | .i16 => (v.setWidth 16).toInt
  | .i32 => (v.setWidth 32).toInt
  | .i64 => v.toInt
  | .u8 | .bpi => (v.setWidth 8).toNat
  | .u16 | .f16 | .bf16 => (v.setWidth 16).toNat
  | .u32 | .f32 => (v.setWidth 32).toNat
  | .u64 | .f64 => v.toNat

/-- The unsigned bits of an operand at its type's width. -/
def readBits (ty : Ty) (v : DWord) : Nat := v.toNat % 2 ^ tyBits ty

/-- An exact result wrapped to the type and extended to 64 bits by its signedness (R162, R172). -/
def wrapInt (ty : Ty) (z : Int) : DWord :=
  match ty with
  | .i8 => (BitVec.ofInt 8 z).signExtend 64
  | .i16 => (BitVec.ofInt 16 z).signExtend 64
  | .i32 => (BitVec.ofInt 32 z).signExtend 64
  | .u8 | .bpi => (BitVec.ofInt 8 z).setWidth 64
  | .u16 | .f16 | .bf16 => (BitVec.ofInt 16 z).setWidth 64
  | .u32 | .f32 => (BitVec.ofInt 32 z).setWidth 64
  | _ => BitVec.ofInt 64 z

/-- The smallest and largest values of a type (R172). -/
def tyMin (ty : Ty) : Int := if ty.isSigned then -(2 ^ (tyBits ty - 1) : Nat) else 0
def tyMax (ty : Ty) : Int := if ty.isSigned then (2 ^ (tyBits ty - 1) : Nat) - 1 else (2 ^ tyBits ty : Nat) - 1

/-- An exact result clamped to the type's range. -/
def clampInt (ty : Ty) (z : Int) : Int := if z < tyMin ty then tyMin ty else if tyMax ty < z then tyMax ty else z

/-- An exact result under SAT or without it (R172). -/
def intResult (ty : Ty) (sat : Bool) (z : Int) : DWord := wrapInt ty (if sat then clampInt ty z else z)

/-- The two-source integer operations of R190 and R162. -/
def aluAdd (ty : Ty) (sat : Bool) (a b : DWord) : DWord := intResult ty sat (readInt ty a + readInt ty b)
def aluSub (ty : Ty) (sat : Bool) (a b : DWord) : DWord := intResult ty sat (readInt ty a - readInt ty b)
def aluMul (ty : Ty) (sat : Bool) (a b : DWord) : DWord := intResult ty sat (readInt ty a * readInt ty b)
def aluMad (ty : Ty) (sat : Bool) (a b c : DWord) : DWord :=
  intResult ty sat (readInt ty a * readInt ty b + readInt ty c)
/-- IMULH: the upper width bits of the exact product (R190). -/
def aluMulh (ty : Ty) (a b : DWord) : DWord :=
  wrapInt ty ((readInt ty a * readInt ty b) / (2 ^ tyBits ty : Nat))
def aluMin (ty : Ty) (a b : DWord) : DWord :=
  wrapInt ty (if readInt ty a ≤ readInt ty b then readInt ty a else readInt ty b)
def aluMax (ty : Ty) (a b : DWord) : DWord :=
  wrapInt ty (if readInt ty a ≤ readInt ty b then readInt ty b else readInt ty a)
def aluAnd (ty : Ty) (a b : DWord) : DWord := wrapInt ty ((a &&& b).toNat)
def aluOr (ty : Ty) (a b : DWord) : DWord := wrapInt ty ((a ||| b).toNat)
def aluXor (ty : Ty) (a b : DWord) : DWord := wrapInt ty ((a ^^^ b).toNat)
/-- SHL: 0 when n is at least the width (R190). -/
def aluShl (ty : Ty) (a : DWord) (n : Nat) : DWord :=
  if tyBits ty ≤ n then 0 else wrapInt ty (((readBits ty a) <<< n : Nat))
/-- SHR: zeros enter (R190). -/
def aluShr (ty : Ty) (a : DWord) (n : Nat) : DWord :=
  if tyBits ty ≤ n then 0 else wrapInt ty (((readBits ty a) >>> n : Nat))
/-- The width bits of an operand as a signed number. -/
def signedBits (ty : Ty) (a : DWord) : Int :=
  let b := readBits ty a
  if b < 2 ^ (tyBits ty - 1) then b else (b : Int) - (2 ^ tyBits ty : Nat)
/-- SAR: the sign bit, which is the top bit of the width, enters; all sign bits when n is at least the width (R190). -/
def aluSar (ty : Ty) (a : DWord) (n : Nat) : DWord :=
  wrapInt ty (signedBits ty a >>> (if tyBits ty ≤ n then tyBits ty else n))
/-- ROT: rotated left by n mod width (R190). -/
def aluRot (ty : Ty) (a : DWord) (n : Nat) : DWord :=
  let w := tyBits ty
  let k := n % w
  let b := readBits ty a
  wrapInt ty (((b <<< k) ||| (b >>> (w - k)) : Nat))
/-- IDIV (R191). -/
def aluDiv (ty : Ty) (sat : Bool) (a b : DWord) : DWord :=
  let y := readInt ty b
  if y == 0 then 0 else intResult ty sat ((readInt ty a).tdiv y)
/-- IREM (R191). -/
def aluRem (ty : Ty) (a b : DWord) : DWord :=
  let y := readInt ty b
  if y == 0 then wrapInt ty (readInt ty a) else wrapInt ty ((readInt ty a).tmod y)
/-- SSHL and SSHR: the count is b read whole at the type's width, unsigned (R162). -/
def aluSshl (ty : Ty) (a b : DWord) : DWord :=
  if tyBits ty ≤ readBits ty b then 0 else wrapInt ty (((readBits ty a) <<< (readBits ty b) : Nat))
def aluSshr (ty : Ty) (a b : DWord) : DWord :=
  let n := readBits ty b
  wrapInt ty (readInt ty a >>> (if tyBits ty ≤ n then tyBits ty else n))
/-- The comparisons of R162 and R197. -/
def aluCmp (cc : Cmp) (ty : Ty) (a b : DWord) : Bool :=
  let x := readInt ty a
  let y := readInt ty b
  match cc with
  | .eq => x == y
  | .ne => x != y
  | .lt => decide (x < y)
  | .le => decide (x ≤ y)
  | .gt => decide (y < x)
  | .ge => decide (y ≤ x)
/-- The one-source operations of R193. -/
def aluAbs (ty : Ty) (sat : Bool) (a : DWord) : DWord := intResult ty sat (readInt ty a).natAbs
def aluNeg (ty : Ty) (sat : Bool) (a : DWord) : DWord := intResult ty sat (-(readInt ty a))
def aluNot (ty : Ty) (a : DWord) : DWord := wrapInt ty ((~~~a).toNat)
/-- Bit k of an operand, and a number from its bits, the lowest first. -/
def natOfBits (f : Nat → Bool) : Nat → Nat
  | 0 => 0
  | n + 1 => natOfBits f n + (if f n then 2 ^ n else 0)
def countBits (f : Nat → Bool) : Nat → Nat
  | 0 => 0
  | n + 1 => countBits f n + (if f n then 1 else 0)
def aluPopc (ty : Ty) (a : DWord) : DWord := BitVec.ofNat 64 (countBits a.getLsbD (tyBits ty))
def aluClz (ty : Ty) (a : DWord) : DWord := BitVec.ofNat 64 (tyBits ty - bitLen (readBits ty a))
def aluBrev (ty : Ty) (a : DWord) : DWord :=
  wrapInt ty (natOfBits (fun i => a.getLsbD (tyBits ty - 1 - i)) (tyBits ty))
/-- BFE (R194): bit_of beyond the width is the sign bit for I types and 0 for U types. -/
def bitOf (ty : Ty) (a : DWord) (k : Nat) : Bool :=
  if k < tyBits ty then a.getLsbD k else ty.isSigned && a.getLsbD (tyBits ty - 1)
def aluBfe (ty : Ty) (a : DWord) (b : Word) : DWord :=
  let pos := (b.setWidth 8).toNat
  let len := (b.extractLsb' 8 8).toNat
  wrapInt ty (natOfBits (fun i =>
    if len == 0 then false
    else if i < len then bitOf ty a (pos + i)
    else ty.isSigned && bitOf ty a (pos + len - 1)) (tyBits ty))
/-- BFI (R195). -/
def aluBfi (ty : Ty) (a b : DWord) (c : Word) : DWord :=
  let pos := (c.setWidth 8).toNat
  let len := (c.extractLsb' 8 8).toNat
  wrapInt ty (natOfBits (fun i => if pos ≤ i && i < pos + len then a.getLsbD (i - pos) else b.getLsbD i) (tyBits ty))
/-- PRMT (R196). -/
def prmtByte (pool : DWord) (f : BitVec 8) : BitVec 8 :=
  let b : BitVec 8 := (pool >>> (8 * (f.extractLsb' 0 3).toNat)).setWidth 8
  let b := if f.getLsbD 3 then BitVec.ofNat 8 (natOfBits (fun i => b.getLsbD (7 - i)) 8) else b
  match (f.extractLsb' 4 2).toNat with
  | 0 => b
  | 1 => 0
  | 2 => if b.getLsbD 7 then 0xFF else 0
  | _ => ~~~b
def aluPrmt (pool : DWord) (sel : Word) : Word :=
  prmtByte pool (sel.extractLsb' 24 8) ++ prmtByte pool (sel.extractLsb' 16 8) ++
  prmtByte pool (sel.extractLsb' 8 8) ++ prmtByte pool (sel.extractLsb' 0 8)
/-- LEA (R199). -/
def aluLea (ty : Ty) (sh : Nat) (a : DWord) (b : Word) : DWord :=
  let e : DWord := match ty with | .i64 => b.signExtend 64 | _ => b.setWidth 64
  wrapInt ty ((a + (e <<< sh)).toNat)

/-- I32 read under R98, as the 64-bit operand value of its type. -/
def immVal (ty : Ty) (i : BitVec 32) : DWord :=
  match ty with
  | .i64 => i.signExtend 64
  | .f64 => BitVec.ofNat 64 (Fmt.f32.convert Fmt.f64 .rn i.toNat)
  | .f16 | .bf16 => (i.setWidth 16).setWidth 64
  | .u8 | .bpi => (i.setWidth 8).setWidth 64
  | .u16 => (i.setWidth 16).setWidth 64
  | .i8 => (i.setWidth 8).signExtend 64
  | .i16 => (i.setWidth 16).signExtend 64
  | _ => i.setWidth 64

/-- rand32 (R186). -/
def rand32 (key index : Word) : Word :=
  let x0 := key ^^^ index
  let x1 := x0 * 0x6B43A9B5
  let x2 := x1 ^^^ (x1 >>> 16)
  let x3 := x2 * 0x9A5D2C71
  x3 ^^^ (x3 >>> 15)
/-- RAND (R215). -/
def randVal (ty : Ty) (key index : Word) : DWord :=
  match ty with
  | .u64 => rand32 key (2 * index + 1) ++ rand32 key (2 * index)
  | _ => (rand32 key index).setWidth 64

/-- A float operand's pattern at its type's width. -/
def floatBits (ty : Ty) (v : DWord) : Nat := readBits ty v
/-- A float result as a 64-bit value (R173). -/
def ofPattern (n : Nat) : DWord := BitVec.ofNat 64 n

/-- Float to integer (R185): truncation; NaN gives 0; an infinity gives 0, or the range bound with SAT. -/
def floatToInt (src : Fmt) (ty : Ty) (sat : Bool) (a : Nat) : DWord :=
  match src.dec a with
  | .nan => 0
  | .inf s => if sat then wrapInt ty (if s then tyMin ty else tyMax ty) else 0
  | .fin s m e => intResult ty sat (truncInt s m e)

/-- CVT (R210, R185); mode is the rounding mode, or SAT in RZ's place for an integer destination. -/
def cvtVal (dty sty : Ty) (mode : Rnd) (v : DWord) : DWord :=
  let sat := mode == .rz
  if dty.isFloat then
    if sty.isFloat then
      ofPattern ((Fmt.ofTy sty).convert (Fmt.ofTy dty) mode (floatBits sty v))
    else ofPattern ((Fmt.ofTy dty).ofInt mode (readInt sty v))
  else if sty.isFloat then floatToInt (Fmt.ofTy sty) dty sat (floatBits sty v)
  else intResult dty sat (readInt sty v)

/-- The exact quotient of two finite values, rounded to an integer magnitude in the mode (R211). -/
def quotMag (rm : Rnd) (neg : Bool) (m n : Nat) (e : Int) : Nat :=
  let num := if 0 ≤ e then m <<< e.toNat else m
  let den := if 0 ≤ e then n else n <<< (-e).toNat
  let q := num / den
  let r := num - q * den
  let half := if 2 * r < den then Ordering.lt else if 2 * r == den then .eq else .gt
  q + (if roundUp rm neg (q % 2 == 1) half (r != 0) then 1 else 0)

/-- QNT (R211). -/
def qntVal (sty : Ty) (rm : Rnd) (a : DWord) (scale : Word) : DWord :=
  let f := Fmt.ofTy sty
  let code : Int :=
    match Fmt.f32.dec scale.toNat, f.dec (floatBits sty a) with
    | .fin ss sm se, .fin s m e =>
      if sm == 0 then 0
      else
        let neg := ss != s
        let q := quotMag rm neg m sm (e - se)
        if neg then (if 128 ≤ q then -128 else -(q : Int)) else (if 127 ≤ q then 127 else q)
    | .fin ss sm _, .inf s => if sm == 0 then 0 else if ss != s then -128 else 127
    | _, _ => 0
  BitVec.ofInt 64 code

/-- code_w × 2^(8 − w) of an 8-bit code (R179). -/
def codeTop (w : Nat) (c : BitVec 8) : Int := (c.toInt >>> (8 - w)) * (2 ^ (8 - w) : Nat)

/-- DQNT (R212); w − 1 is the field. -/
def dqntVal (dty : Ty) (w : Nat) (rm : Rnd) (code : BitVec 8) (scale : Word) : DWord :=
  let z := codeTop w code
  ofPattern ((Fmt.ofTy dty).ofVal rm
    ((Fmt.f32.dec scale.toNat).mul (.fin (z < 0) z.natAbs 0)))

/-- Bit-plane blocks (R178): the bit of code p in plane b is bit 7 − b of the code, at byte 16b + p div 8, bit p mod 8.
The word k of a block whose codes are given, and the code at p of a block whose bytes are given. -/
def planeWord (code : Nat → BitVec 8) (k : Nat) : Word :=
  BitVec.ofNat 32 (natOfBits (fun i =>
    let byte := 4 * k + i / 8
    (code (8 * (byte % 16) + i % 8)).getLsbD (7 - byte / 16)) 32)
def planeCode (byte : Nat → Byte) (p : Nat) : BitVec 8 :=
  BitVec.ofNat 8 (natOfBits (fun i => (byte (16 * (7 - i) + p / 8)).getLsbD (p % 8)) 8)

/-- An exact sum cell (R183): the width of ACC, its bytes, its sectors and the exponent of bit 0. -/
def cellAcc (f64 : Bool) : Nat := if f64 then 2163 else 342
def cellBytes (f64 : Bool) : Nat := if f64 then 320 else 64
def cellNan (f64 : Bool) : Nat := if f64 then 2176 else 352
def cellExp (f64 : Bool) : Int := if f64 then -1074 else -149
def cellFmt (f64 : Bool) : Fmt := if f64 then Fmt.f64 else Fmt.f32

/-- XACC into a cell held as a number (R184). -/
def cellAdd (f64 : Bool) (cell : Nat) (x : Nat) : Nat :=
  let f := cellFmt f64
  let set (k : Nat) : Nat := if cell.testBit (cellNan f64 + k) then cell else cell + 2 ^ (cellNan f64 + k)
  match f.dec x with
  | .nan => set 0
  | .inf s => set (if s then 2 else 1)
  | .fin s m e =>
    if m == 0 then cell
    else
      let w := cellAcc f64
      let acc := cell % 2 ^ w
      let sacc : Int := if acc < 2 ^ (w - 1) then acc else (acc : Int) - (2 ^ w : Nat)
      let k := shiftInt m (e - cellExp f64)
      let z := if s then sacc - (k : Int) else sacc + k
      let acc' := (z % ((2 ^ w : Nat) : Int)).toNat
      let wraps := z < -((2 ^ (w - 1) : Nat) : Int) || ((2 ^ (w - 1) : Nat) : Int) ≤ z
      let c := cell - acc + acc'
      if wraps && !cell.testBit (cellNan f64 + 3) then c + 2 ^ (cellNan f64 + 3) else c

/-- XRND of a cell (R184). -/
def cellRound (f64 : Bool) (rm : Rnd) (cell : Nat) : Nat :=
  let f := cellFmt f64
  let b (k : Nat) : Bool := cell.testBit (cellNan f64 + k)
  if b 0 || b 3 || (b 1 && b 2) then f.nan
  else if b 1 then f.inf
  else if b 2 then f.withSign true f.inf
  else
    let w := cellAcc f64
    let acc := cell % 2 ^ w
    let sacc : Int := if acc < 2 ^ (w - 1) then acc else (acc : Int) - (2 ^ w : Nat)
    f.roundSum rm ⟨sacc, cellExp f64⟩

end Sys2Proof.Machine
end

