-- ==== Sys2Proof/Config.lean ====
section
/-!
DEFINITION. What the spec leaves to an implementation or to chance, as constants without a body: no proof can see a
value of theirs, so a statement that mentions one holds for every value of it. The counters State.tick and State.free
supply the arguments (notes/assumptions/3.md, 4.md and 9.md).
-/
namespace Sys2Proof

/-- DESIGN CHOICE (log 3). Which of the agents that can move moves at model step n. R4 and R131 leave the choice to
timing. -/
opaque Config.arbiter : Nat → Nat

/-- DESIGN CHOICE (log 4). A byte the spec calls undefined (R260, R427), or which words of a sector an engine operation reads as
they stood before a store without FENCE.E (R294, R373). -/
opaque Config.freeByte : Nat → Byte

/-- DESIGN CHOICE (log 4). A choice the spec leaves open, such as which of an old translation and a new one an access
uses before TLBI (R225), or whether a sector of a cached operand is read as it was (R325). -/
opaque Config.freeBool : Nat → Bool

/-- DESIGN CHOICE (log 50). The 512-bit AES-256-XTS key pair that the random generator made (R62): the first argument counts
the power-ups, the second names the slot and how often it has been generated again. -/
opaque Config.keyPair : Nat → Nat → BitVec 512

/-- PRESUMED (log 50). AES-256 in XTS mode over one 64-byte data unit: the key pair, the tweak and the plaintext (R63). -/
opaque Config.xtsEncrypt : BitVec 512 → Nat → BitVec 512 → BitVec 512

/-- PRESUMED (log 50). The decryption of AES-256 in XTS mode: the key pair, the tweak and the ciphertext (R63). What was
encrypted under the same pair is read as it was written, and this function is not asked. -/
opaque Config.xtsDecrypt : BitVec 512 → Nat → BitVec 512 → BitVec 512

/-- PRESUMED (log 9). SHA-256 over a list of bytes, which the spec names and does not define (R51, R61, R67). -/
opaque Config.sha256 : List Byte → BitVec 256

/-- PRESUMED (log 9). ECDSA on P-256: does the signature (r, s) over the digest verify under the key with this hash
(R51, R443)? -/
opaque Config.ecdsaVerify : BitVec 256 → BitVec 256 → BitVec 256 → BitVec 256 → Bool

/-- PRESUMED (log 9). ECDSA on P-256 by the attestation key of a partition, named by its identity and measurement
(R60, R67): the signature values (r, s) of a digest. -/
opaque Config.ecdsaSign : BitVec 256 → BitVec 256 → BitVec 256 × BitVec 256

/-- PRESUMED (log 9). Is the firmware image with this SHA-256 signed by the Rinten key (R59)? -/
opaque Config.firmwareSigned : BitVec 256 → Bool

/-- DESIGN CHOICE (log 9). The SHA-256 of the device identity public key, derived from the dies (R60, R67). -/
opaque Config.devId : BitVec 256

/-- DESIGN CHOICE (log 9). The same of the package whose bulkheads are numbered 8 to 15: its identity, the signature by its root,
and the reports that it has signed, a free value (R61, R67). -/
opaque Config.otherDevId : BitVec 256
opaque Config.otherSign : BitVec 256 → BitVec 256 → BitVec 256 × BitVec 256
opaque Config.otherReports : Nat → BitVec 64

/-- DESIGN CHOICE (log 9). The hash of the operator key in the certificate chain (R443). -/
opaque Config.operatorKey : BitVec 256

/-- DESIGN CHOICE (log 9). The hardware revision and the Llynlys ROM version of DEVINFO (R446). -/
opaque Config.devInfo : BitVec 32

end Sys2Proof
end

