-- ==== Sys2Proof/Decode.lean ====
section
/-!
DEFINITION. The decoder: from the bits of one item (R84, bit 0 the least significant bit of its first byte) to an
instruction or the smallest cause of ILLEGAL_ENC that applies (R99); and the encoder, written from the same tables
(R87, R92 to R112 and the ruler lines of the entries).
-/
namespace Sys2Proof

/-- The common fields of an item (R92) and its bits above 63, zero where the item has none (R98). -/
structure Raw where
  L : BitVec 2
  op : BitVec 9
  g : BitVec 7
  gn : Bool
  fs : Bool
  d : BitVec 8
  a : BitVec 8
  b : BitVec 8
  la : Bool
  lb : Bool
  m : BitVec 6
  i12 : BitVec 12
  x : BitVec 64
  deriving DecidableEq, Repr

/-- The length of an item in bytes by its bits [1:0] (R84). -/
def itemBytes (l : BitVec 2) : Nat :=
  if l == 2 then 12 else if l == 3 then 16 else 8

/-- The fields of the item in the low bits of w (R92, R98). -/
def Raw.ofBits (w : BitVec 128) : Raw :=
  let l : BitVec 2 := w.extractLsb' 0 2
  { L := l
    op := w.extractLsb' 2 9
    g := w.extractLsb' 11 7
    gn := w.getLsbD 18
    fs := w.getLsbD 19
    d := w.extractLsb' 20 8
    a := w.extractLsb' 28 8
    b := w.extractLsb' 36 8
    la := w.getLsbD 44
    lb := w.getLsbD 45
    m := w.extractLsb' 46 6
    i12 := w.extractLsb' 52 12
    x := if l == 3 then w.extractLsb' 64 64
         else if l == 2 then (w.extractLsb' 64 32 : BitVec 32).setWidth 64
         else 0 }

/-- One bit as a vector of width 1. -/
def bit1 (b : Bool) : BitVec 1 := BitVec.ofBool b

/-- The bits of an item from its fields (R92). -/
def Raw.toBits (r : Raw) : BitVec 128 :=
  r.x ++ (r.i12 ++ r.m ++ bit1 r.lb ++ bit1 r.la ++ r.b ++ r.a ++ r.d ++ bit1 r.fs ++ bit1 r.gn ++ r.g ++ r.op ++ r.L)

/-- The type code of M[3:0] (R95); the codes 13 to 15 name no type. -/
def Ty.ofCode (c : BitVec 4) : Option Ty :=
  match c.toNat with
  | 0 => some .i8 | 1 => some .i16 | 2 => some .i32 | 3 => some .i64
  | 4 => some .u8 | 5 => some .u16 | 6 => some .u32 | 7 => some .u64
  | 8 => some .f16 | 9 => some .bf16 | 10 => some .f32 | 11 => some .f64
  | 12 => some .bpi
  | _ => none

/-- The code of a type (R95). -/
def Ty.code : Ty → BitVec 4
  | .i8 => 0 | .i16 => 1 | .i32 => 2 | .i64 => 3
  | .u8 => 4 | .u16 => 5 | .u32 => 6 | .u64 => 7
  | .f16 => 8 | .bf16 => 9 | .f32 => 10 | .f64 => 11
  | .bpi => 12

/-- The rounding mode of a 2-bit code (R95). -/
def Rnd.ofCode (c : BitVec 2) : Rnd :=
  match c.toNat with
  | 0 => .rn | 1 => .rz | 2 => .ru | _ => .rd

/-- The code of a rounding mode (R95). -/
def Rnd.code : Rnd → BitVec 2
  | .rn => 0 | .rz => 1 | .ru => 2 | .rd => 3

/-- The comparison of a code; 6 and 7 name none (R162, R197). -/
def Cmp.ofCode (c : BitVec 3) : Option Cmp :=
  match c.toNat with
  | 0 => some .eq | 1 => some .ne | 2 => some .lt | 3 => some .le | 4 => some .gt | 5 => some .ge
  | _ => none

def Cmp.code : Cmp → BitVec 3
  | .eq => 0 | .ne => 1 | .lt => 2 | .le => 3 | .gt => 4 | .ge => 5

/-- The float comparison of a code (R205). -/
def FCmp.ofCode (c : BitVec 3) : FCmp :=
  match c.toNat with
  | 0 => .eq | 1 => .ne | 2 => .lt | 3 => .le | 4 => .gt | 5 => .ge | 6 => .un | _ => .ord

def FCmp.code : FCmp → BitVec 3
  | .eq => 0 | .ne => 1 | .lt => 2 | .le => 3 | .gt => 4 | .ge => 5 | .un => 6 | .ord => 7

/-- The space of a code; 5 to 7 name none (R273). -/
def Space.ofCode (c : BitVec 3) : Option Space :=
  match c.toNat with
  | 0 => some .g | 1 => some .k | 2 => some .t | 3 => some .h | 4 => some .b
  | _ => none

def Space.code : Space → BitVec 3
  | .g => 0 | .k => 1 | .t => 2 | .h => 3 | .b => 4

/-- The scope of a code; 6 and 7 name none (R283). -/
def Scope.ofCode (c : BitVec 3) : Option Scope :=
  match c.toNat with
  | 0 => some .role | 1 => some .team | 2 => some .share | 3 => some .bulk | 4 => some .part | 5 => some .sys
  | _ => none

def Scope.code : Scope → BitVec 3
  | .role => 0 | .team => 1 | .share => 2 | .bulk => 3 | .part => 4 | .sys => 5

/-- The operation of REDUX and SCAN; 6 and 7 name none (R171). -/
def RedOp.ofCode (c : BitVec 3) : Option RedOp :=
  match c.toNat with
  | 0 => some .add | 1 => some .min | 2 => some .max | 3 => some .and | 4 => some .or | 5 => some .xor
  | _ => none

def RedOp.code : RedOp → BitVec 3
  | .add => 0 | .min => 1 | .max => 2 | .and => 3 | .or => 4 | .xor => 5

/-- ATOM's operation; 6 and 7 name none (R283). -/
def AtomOp.ofCode (c : BitVec 3) : Option AtomOp :=
  match c.toNat with
  | 0 => some .add | 1 => some .and | 2 => some .or | 3 => some .xor | 4 => some .min | 5 => some .max
  | _ => none

def AtomOp.code : AtomOp → BitVec 3
  | .add => 0 | .and => 1 | .or => 2 | .xor => 3 | .min => 4 | .max => 5

def ShflMode.ofCode (c : BitVec 2) : ShflMode :=
  match c.toNat with
  | 0 => .pick | 1 => .slide | 2 => .rot | _ => .mirr

def ShflMode.code : ShflMode → BitVec 2
  | .pick => 0 | .slide => 1 | .rot => 2 | .mirr => 3

/-- A check that fails with a cause of R99. -/
abbrev Chk := Bool × Nat

/-- What an opcode's arm gives: the checks, and the instruction that the fields name when none fails. -/
abbrev Dec := List Chk × Instr

/-- The smallest cause among the checks that fail (R99). -/
def firstCause : List Chk → Option Nat
  | [] => none
  | (bad, c) :: rest =>
    match bad, firstCause rest with
    | true, some c' => some (if c ≤ c' then c else c')
    | true, none => some c
    | false, o => o

/-- Bit k of I12, which is bit 52 + k of the item. -/
abbrev Raw.i (r : Raw) (k : Nat) : Bool := r.i12.getLsbD k

abbrev Raw.guard (r : Raw) : Guard := { p := r.g, neg := r.gn }
abbrev Raw.tyCode (r : Raw) : BitVec 4 := r.m.extractLsb' 0 4
abbrev Raw.mode (r : Raw) : BitVec 2 := r.m.extractLsb' 4 2
abbrev Raw.ty (r : Raw) : Ty := (Ty.ofCode r.tyCode).getD .i8
abbrev Raw.rnd (r : Raw) : Rnd := Rnd.ofCode r.mode
abbrev Raw.sat (r : Raw) : Bool := r.m.getLsbD 4
abbrev Raw.imm (r : Raw) : BitVec 32 := r.x.extractLsb' 0 32
abbrev s7 (f : BitVec 8) : BitVec 7 := f.extractLsb' 0 7

/-- L is one of the lengths the opcode map gives (cause 2). -/
def ckL (r : Raw) (ls : List (BitVec 2)) : List Chk := [(!ls.contains r.L, 2)]
/-- Class U: G is 127 and GN is 0 (R94, cause 8). -/
def ckU (r : Raw) : List Chk := [(r.g != 127 || r.gn, 8)]
/-- FS is 0 but on a long-latency instruction (R90, cause 9). -/
def ckFs (r : Raw) : List Chk := [(r.fs, 9)]
/-- The type is one the entry lists (R95, cause 10). -/
def ckTy (r : Raw) (tys : List Ty) : List Chk :=
  [((match Ty.ofCode r.tyCode with | some t => !tys.contains t | none => true), 10)]
/-- No type, and no rounding or SAT (R95, causes 10 and 11). -/
def ckNoTy (r : Raw) : List Chk := [(r.tyCode != 0, 10)]
def ckNoMode (r : Raw) : List Chk := [(r.mode != 0, 11)]
def ckNoM (r : Raw) : List Chk := [(r.tyCode != 0, 10), (r.mode != 0, 11)]
/-- SAT only: M[5] is 0 (R95, cause 11). -/
def ckSat (r : Raw) : List Chk := [(r.m.getLsbD 5, 11)]
/-- A v register of a type: even for a pair (R93, cause 12). -/
def ckV (ty : Ty) (f : BitVec 8) : List Chk := [(!evenFor ty f, 12)]
def ckEven (f : BitVec 8) : List Chk := [(f.getLsbD 0, 12)]
/-- An s or p register: bit 7 is 0 (R93, cause 12). -/
def ckS (f : BitVec 8) : List Chk := [(f.getLsbD 7, 12)]
/-- A field that is not used (R96, cause 14). -/
def ck0 {n : Nat} (f : BitVec n) : List Chk := [(f != 0, 14)]
def ckF (b : Bool) : List Chk := [(b, 14)]
/-- A last-use mark or is-scalar bit the entry does not allow (R96, R97, cause 13). -/
def ckNo13 (b : Bool) : List Chk := [(b, 13)]
def ckNoLast (r : Raw) : List Chk := [(r.la, 13), (r.lb, 13)]
/-- A source that is a v or an s register by its is-scalar bit (R97). -/
def ckSrc (ty : Ty) (isS : Bool) (f : BitVec 8) (last : Bool) : List Chk :=
  if isS then [(f.getLsbD 7, 12), (last, 13)] else [(!evenFor ty f, 12)]
def mkSrc (isS : Bool) (f : BitVec 8) (last : Bool) : Src := if isS then .s (s7 f) else .v f last
/-- D, A and B are zero (R96). -/
def ckDAB0 (r : Raw) : List Chk := ck0 r.d ++ ck0 r.a ++ ck0 r.b

/-- An instruction of shape 0 (R96). -/
def dec0 (r : Raw) (cls : List Chk) (i : Instr) : Dec :=
  (ckL r [1] ++ cls ++ ckFs r ++ ckNoM r ++ ckNoLast r ++ ckDAB0 r ++ ck0 r.i12, i)

/-- Class-U entries that use no type, no last-use mark and FS 0. -/
def ckUplain (r : Raw) (l : BitVec 2) : List Chk := ckL r [l] ++ ckU r ++ ckFs r ++ ckNoM r ++ ckNoLast r

/-- The bits of I12 outside keep are zero (R96). -/
def ckI12 (r : Raw) (keep : BitVec 12) : List Chk := ck0 (r.i12 &&& ~~~keep)

/-- The start of every entry that has no flag: its lengths and FS 0 (R90). -/
def ckPlain (r : Raw) (ls : List (BitVec 2)) : List Chk := ckL r ls ++ ckFs r

/-- The sources of shape 1 (R96). -/
def sh1 (r : Raw) (ta : Ty) : List Chk :=
  ckSrc ta (r.i 0) r.a r.la ++ ck0 r.b ++ ckNo13 r.lb ++ ckI12 r 1

/-- The sources of shape 2, whose 96-bit form puts I32 for B (R96, R98). -/
def sh2 (r : Raw) (ta tb : Ty) (keep : BitVec 12) : List Chk :=
  ckSrc ta (r.i 0) r.a r.la ++
  (if r.L == 2 then ck0 r.b ++ ckNo13 r.lb ++ ckNo13 (r.i 1) else ckSrc tb (r.i 1) r.b r.lb) ++
  ckI12 r (keep ||| 3)

/-- The sources of shape 3 (R96). -/
def sh3 (r : Raw) (ta tb tc : Ty) : List Chk :=
  ckSrc ta (r.i 9) r.a r.la ++ ckSrc tb (r.i 10) r.b r.lb ++ ckSrc tc (r.i 11) (r.i12.extractLsb' 0 8) (r.i 8)

abbrev Raw.a1 (r : Raw) : Src := mkSrc (r.i 0) r.a r.la
abbrev Raw.b1 (r : Raw) : Src := mkSrc (r.i 1) r.b r.lb
abbrev Raw.a3 (r : Raw) : Src := mkSrc (r.i 9) r.a r.la
abbrev Raw.b3 (r : Raw) : Src := mkSrc (r.i 10) r.b r.lb
abbrev Raw.c3 (r : Raw) : Src := mkSrc (r.i 11) (r.i12.extractLsb' 0 8) (r.i 8)

/-- The modifier checks of an integer entry (R95). -/
def ckSatIf (r : Raw) (sat : Bool) : List Chk := if sat then ckSat r else ckNoMode r
/-- The modifier checks of a float entry (R95). -/
def ckRndIf (r : Raw) (rnd : Bool) : List Chk := if rnd then [] else ckNoMode r

/-- A lane entry of shape 2 on integers (R190 to R199); b32 marks a 32-bit B. -/
def decI2 (r : Raw) (tys : List Ty) (sat b32 : Bool) (reg : I2 → Instr) (imm : I2I → Instr) : Dec :=
  (ckPlain r [1, 2] ++ ckTy r tys ++ ckSatIf r sat ++ ckV r.ty r.d ++ sh2 r r.ty (if b32 then .u32 else r.ty) 0,
   if r.L == 2 then imm { g := r.guard, ty := r.ty, sat := r.sat, d := r.d, a := r.a1, imm := r.imm }
   else reg { g := r.guard, ty := r.ty, sat := r.sat, d := r.d, a := r.a1, b := r.b1 })

/-- A lane entry of shape 1 on integers (R193); d32 marks a 32-bit result. -/
def decI1 (r : Raw) (tys : List Ty) (sat d32 : Bool) (f : I1 → Instr) : Dec :=
  (ckPlain r [1] ++ ckTy r tys ++ ckSatIf r sat ++ ckV (if d32 then .u32 else r.ty) r.d ++ sh1 r r.ty,
   f { g := r.guard, ty := r.ty, sat := r.sat, d := r.d, a := r.a1 })

/-- A lane entry of shape 3 on integers (R192, R195); c32 marks a 32-bit C. -/
def decI3 (r : Raw) (tys : List Ty) (sat c32 : Bool) (f : I3 → Instr) : Dec :=
  (ckPlain r [1] ++ ckTy r tys ++ ckSatIf r sat ++ ckV r.ty r.d ++ sh3 r r.ty r.ty (if c32 then .u32 else r.ty),
   f { g := r.guard, ty := r.ty, sat := r.sat, d := r.d, a := r.a3, b := r.b3, c := r.c3 })

/-- Float entries (R200 to R209). -/
def decF1 (r : Raw) (tys : List Ty) (rnd d32 : Bool) (f : F1 → Instr) : Dec :=
  (ckPlain r [1] ++ ckTy r tys ++ ckRndIf r rnd ++ ckV (if d32 then .u32 else r.ty) r.d ++ sh1 r r.ty,
   f { g := r.guard, ty := r.ty, rnd := r.rnd, d := r.d, a := r.a1 })
def decF2 (r : Raw) (rnd b32 : Bool) (f : F2 → Instr) : Dec :=
  (ckPlain r [1] ++ ckTy r Ty.floatTys ++ ckRndIf r rnd ++ ckV r.ty r.d ++ sh2 r r.ty (if b32 then .u32 else r.ty) 0,
   f { g := r.guard, ty := r.ty, rnd := r.rnd, d := r.d, a := r.a1, b := r.b1 })

/-- A two-source scalar entry (R162): all operands are s registers. -/
def decS2 (r : Raw) (sat : Bool) (keep : BitVec 12) (reg : S2 → Instr) (imm : S2I → Instr) : Dec :=
  (ckPlain r [1, 2] ++ ckU r ++ ckTy r Ty.scalarTys ++ ckSatIf r sat ++ ckNoLast r ++ ckNo13 (r.i 0) ++ ckNo13 (r.i 1) ++
    ckS r.d ++ ckS r.a ++ (if r.L == 2 then ck0 r.b else ckS r.b) ++ ckI12 r (keep ||| 3),
   if r.L == 2 then imm { ty := r.ty, sat := r.sat, d := s7 r.d, a := s7 r.a, imm := r.imm }
   else reg { ty := r.ty, sat := r.sat, d := s7 r.d, a := s7 r.a, b := s7 r.b })

/-- The last-use bits of a predicate entry, cause 14 by R159. -/
def ckPLast (r : Raw) : List Chk := ckF r.la ++ ckF r.lb

/-- A two-source predicate entry (R159). -/
def decP2 (r : Raw) (f : P2 → Instr) : Dec :=
  (ckPlain r [1] ++ ckNoM r ++ ckPLast r ++ ckNo13 (r.i 0) ++ ckNo13 (r.i 1) ++ ckS r.d ++ ckS r.a ++ ckS r.b ++
    ckI12 r 0xF,
   f { g := r.guard, d := s7 r.d, a := s7 r.a, b := s7 r.b, na := r.i 2, nb := r.i 3 })

/-- A one-source predicate entry (R159). -/
def decP1 (r : Raw) (f : Guard → BitVec 7 → BitVec 7 → Instr) : Dec :=
  (ckPlain r [1] ++ ckNoM r ++ ckPLast r ++ ckNo13 (r.i 0) ++ ckS r.d ++ ckS r.a ++ ck0 r.b ++ ckI12 r 1,
   f r.guard (s7 r.d) (s7 r.a))

/-- R101, opcodes 0x000 to 0x009. A JOINOFF that is no multiple of 4 is cause 14 at the BRD, as R145 has it of every immediate
target, although R151 checks JOINOFF when control reaches it (log 49). -/
def decControl (r : Raw) : Option Dec :=
  match r.op.toNat with
  | 0x000 => some (dec0 r [] (.nop r.guard))
  | 0x001 => some (ckUplain r 2 ++ ckDAB0 r ++ ck0 r.i12 ++ ckF (!targetOk r.imm), .bra r.imm)
  | 0x002 => some (ckUplain r 3 ++ ck0 r.d ++ ck0 r.b ++ ck0 r.i12 ++ ckS r.a ++ ckF (!targetOk r.imm) ++
      ckF (!targetOk (r.x.extractLsb' 32 32)), .brd (s7 r.a) r.imm (r.x.extractLsb' 32 32))
  | 0x003 => some (ckUplain r 1 ++ ckDAB0 r ++ ck0 r.i12, .join)
  | 0x004 => some (ckUplain r 1 ++ ck0 r.d ++ ck0 r.b ++ ck0 r.i12 ++ ckS r.a, .brx (s7 r.a))
  | 0x005 => some (ckUplain r 2 ++ ck0 r.d ++ ck0 r.b ++ ckI12 r 1 ++
      (if r.i 0 then ckS r.a ++ ck0 r.imm else ck0 r.a ++ ckF (!targetOk r.imm)),
      if r.i 0 then .callInd (s7 r.a) else .call r.imm)
  | 0x006 => some (dec0 r (ckU r) .ret)
  | 0x007 => some (ckUplain r 2 ++ ck0 r.d ++ ck0 r.b ++ ck0 r.i12 ++ ckS r.a ++ ckF (!targetOk r.imm),
      .loop (s7 r.a) r.imm)
  | 0x008 => some (dec0 r [] (.exit r.guard))
  | 0x009 => some (dec0 r (ckU r) .yield)
  | _ => none

/-- R102, opcodes 0x010 to 0x015. -/
def decPred (r : Raw) : Option Dec :=
  match r.op.toNat with
  | 0x010 => some (decP2 r .pand)
  | 0x011 => some (decP2 r .por)
  | 0x012 => some (decP2 r .pxor)
  | 0x013 => some (decP1 r .pnot)
  | 0x014 => some (decP1 r .pmov)
  | 0x015 =>
    let kind : BitVec 2 := r.i12.extractLsb' 4 2
    let pair := r.i 6
    let set : BitVec 4 := r.i12.extractLsb' 0 4
    some (ckPlain r [1] ++ ckNoM r ++ ckNoLast r ++ ckS r.d ++ ck0 r.b ++ ckI12 r 0x7F ++
      ckF (kind == 3) ++ ckF (pair && kind != 0) ++ ckF (set == 0) ++
      (if kind == 0 then (if pair then ckEven r.a else []) else ckS r.a),
      .pprov r.guard (s7 r.d)
        (if kind == 0 then (if pair then .pair r.a else .v r.a) else if kind == 1 then .p (s7 r.a) else .s (s7 r.a)) set)
  | _ => none

/-- Is NUM a register of R134, and is it of lane scope? -/
def spNumOk (num : BitVec 8) (vreg : Bool) : Bool :=
  if vreg then num.toNat == 0x00 || num.toNat == 0x01 || num.toNat == 0x2B
  else (0x02 ≤ num.toNat && num.toNat ≤ 0x19) || (0x20 ≤ num.toNat && num.toNat ≤ 0x2A)

/-- The shape of SRS and SWS: no type, no last use (R164). -/
def ckSp (r : Raw) : List Chk := ckUplain r 1 ++ ck0 r.b ++ ckI12 r 0x1FF ++ ckF (!spNumOk (r.i12.extractLsb' 0 8) (r.i 8))
def mkSp (r : Raw) (f : BitVec 8) : SpReg := if r.i 8 then .v f else .s (s7 f)

/-- R103, opcodes 0x020 to 0x032. -/
def decScalar (r : Raw) : Option Dec :=
  let cc : BitVec 3 := r.i12.extractLsb' 2 3
  match r.op.toNat with
  | 0x020 => some (ckUplain r 1 ++ ckNo13 (r.i 0) ++ ckS r.d ++ ckS r.a ++ ck0 r.b ++ ckI12 r 1, .smov (s7 r.d) (s7 r.a))
  | 0x021 => some (ckUplain r 3 ++ ckS r.d ++ ck0 r.a ++ ck0 r.b ++ ck0 r.i12, .sli (s7 r.d) r.x)
  | 0x022 => some (decS2 r true 0 .sadd .saddImm)
  | 0x023 => some (decS2 r true 0 .ssub .ssubImm)
  | 0x024 => some (decS2 r true 0 .smul .smulImm)
  | 0x025 => some (ckPlain r [1] ++ ckU r ++ ckTy r Ty.scalarTys ++ ckNoMode r ++ ckNoLast r ++ ckNo13 (r.i 8) ++ ckNo13 (r.i 9) ++
      ckNo13 (r.i 10) ++ ckNo13 (r.i 11) ++ ckS r.d ++ ckS r.a ++ ckS r.b ++ ckS (r.i12.extractLsb' 0 8),
      .smad { ty := r.ty, sat := false, d := s7 r.d, a := s7 r.a, b := s7 r.b } (r.i12.extractLsb' 0 7))
  | 0x026 => some (decS2 r false 0 .sshl .sshlImm)
  | 0x027 => some (decS2 r false 0 .sshr .sshrImm)
  | 0x028 => some (decS2 r false 0 .sand .sandImm)
  | 0x029 => some (decS2 r false 0 .sor .sorImm)
  | 0x02A => some (decS2 r false 0 .sxor .sxorImm)
  | 0x02B => some (decS2 r false 0 .smin .sminImm)
  | 0x02C => some (decS2 r false 0 .smax .smaxImm)
  | 0x02D =>
    let d := decS2 r false 0x1C (.scmp ((Cmp.ofCode cc).getD .eq)) (.scmpImm ((Cmp.ofCode cc).getD .eq))
    some (d.1 ++ ckF (Cmp.ofCode cc).isNone, d.2)
  | 0x02E => some (ckUplain r 1 ++ ckNo13 (r.i 8) ++ ckNo13 (r.i 9) ++ ckNo13 (r.i 10) ++ ckNo13 (r.i 11) ++
      ckS r.d ++ ckS r.a ++ ckS r.b ++ ckS (r.i12.extractLsb' 0 8),
      .ssel (s7 r.d) (s7 r.a) (s7 r.b) (r.i12.extractLsb' 0 7))
  | 0x02F => some (ckSp r ++ ck0 r.a ++ (if r.i 8 then [] else ckS r.d), .srs (mkSp r r.d) (r.i12.extractLsb' 0 8))
  | 0x030 => some (ckSp r ++ ck0 r.d ++ (if r.i 8 then [] else ckS r.a), .sws (r.i12.extractLsb' 0 8) (mkSp r r.a))
  | 0x031 =>
    let ls := r.i 10
    some (ckPlain r [1] ++ ckU r ++ ckTy r Ty.uTys ++ ckNoMode r ++ ckNoLast r ++ ckS r.d ++ ckV r.ty r.a ++ ckF (r.i 11) ++
      (if ls then ckS r.b ++ ck0 (r.i12.extractLsb' 0 10 : BitVec 10) else ck0 r.b),
      .sget r.ty (s7 r.d) r.a (if ls then .s (s7 r.b) else .imm (r.i12.extractLsb' 0 10)))
  | 0x032 =>
    let sp := Space.ofCode (r.i12.extractLsb' 0 3)
    some (ckL r [2] ++ ckU r ++ ckTy r Ty.scalarTys ++ ckNoMode r ++ ckNoLast r ++ ckS r.d ++ ckS r.a ++ ck0 r.b ++ ckI12 r 7 ++
      ckF (!(sp.getD .k).sldOk),
      .sld r.fs (sp.getD .g) r.ty (s7 r.d) (s7 r.a) r.imm)
  | _ => none

/-- REDUX and SCAN (R171): OPR in I12 [3:0], EXC in I12 [4]. An OPR above 5 names no operation: it rules out no type, and
admits no M[5:4]. -/
def ckRed (r : Raw) : List Chk :=
  let op := if r.i 3 then none else RedOp.ofCode (r.i12.extractLsb' 0 3)
  ckPlain r [1] ++ ckTy r Ty.redTys ++
  [(r.ty.isFloat && (match op with | some .and | some .or | some .xor => true | _ => false), 10)] ++
  (if op == some .add then (if r.ty.isFloat then [] else ckSat r) else ckNoMode r) ++
  ckV r.ty r.a ++ ck0 r.b ++ ckNo13 r.lb ++ ckI12 r 0x1F ++ ckF op.isNone
def mkRed (r : Raw) : Red :=
  { g := r.guard, op := (RedOp.ofCode (r.i12.extractLsb' 0 3)).getD .add, ty := r.ty, mode := r.rnd, a := { r := r.a, last := r.la } }

/-- VOTE's destination by MODE (R169). -/
def mkVote (m : BitVec 3) (d : BitVec 8) : VoteDst :=
  match m.toNat with
  | 0 => .all (s7 d) | 1 => .any (s7 d) | 2 => .word d | 3 => .sum d | _ => .count d

/-- R104, opcodes 0x040 to 0x044. -/
def decCross (r : Raw) : Option Dec :=
  match r.op.toNat with
  | 0x040 =>
    let seg : BitVec 4 := r.i12.extractLsb' 2 4
    some (ckPlain r [2] ++ ckTy r Ty.uTys ++ ckNoMode r ++ ckV r.ty r.d ++ ckV r.ty r.a ++ ckSrc .u32 (r.i 6) r.b r.lb ++ ckI12 r 0x7F ++
      ckF (!(1 ≤ seg.toNat && seg.toNat ≤ 10)),
      .shfl r.guard (ShflMode.ofCode (r.i12.extractLsb' 0 2)) seg r.ty r.d { r := r.a, last := r.la } (mkSrc (r.i 6) r.b r.lb) r.imm)
  | 0x041 =>
    let m : BitVec 3 := r.i12.extractLsb' 0 3
    some (ckPlain r [1] ++ ckNoM r ++ ckNoLast r ++ ckS r.a ++ ck0 r.b ++ ckI12 r 7 ++ ckF (4 < m.toNat) ++
      (if m.toNat ≤ 1 then ckS r.d else []), .vote r.guard (mkVote m r.d) (s7 r.a))
  | 0x042 => some (ckPlain r [1] ++ ckNoM r ++ ckNoLast r ++ ckS r.d ++ ckS r.a ++ ck0 r.b ++ ck0 r.i12,
      .elect r.guard (s7 r.d) (s7 r.a))
  | 0x043 => some (ckRed r ++ ckS r.d ++ ckF (r.i 4), .redux (mkRed r) (s7 r.d))
  | 0x044 => some (ckRed r ++ ckV r.ty r.d, .scan (mkRed r) (r.i 4) r.d)
  | _ => none

/-- R105, opcodes 0x050 to 0x06D. -/
def decInt (r : Raw) : Option Dec :=
  let cc : BitVec 3 := r.i12.extractLsb' 2 3
  match r.op.toNat with
  | 0x050 => some (ckPlain r [1] ++ ckTy r Ty.uTys ++ ckNoMode r ++ ckV r.ty r.d ++ sh1 r r.ty, .mov r.guard r.ty r.d r.a1)
  | 0x051 => some (ckPlain r [2] ++ ckTy r Ty.plainTys ++ ckNoMode r ++ ckNoLast r ++ ckV r.ty r.d ++ ck0 r.a ++ ck0 r.b ++ ck0 r.i12,
      .li r.guard r.ty r.d r.imm)
  | 0x052 => some (decI2 r Ty.intTys true false .iadd .iaddImm)
  | 0x053 => some (decI2 r Ty.intTys true false .isub .isubImm)
  | 0x054 => some (decI2 r Ty.intTys true false .imul .imulImm)
  | 0x055 => some (decI2 r Ty.scalarTys false false .imulh .imulhImm)
  | 0x056 => some (decI3 r Ty.intTys true false .imad)
  | 0x057 => some (decI2 r Ty.intTys true false .idiv .idivImm)
  | 0x058 => some (decI2 r Ty.intTys false false .irem .iremImm)
  | 0x059 => some (decI2 r Ty.intTys false false .imin .iminImm)
  | 0x05A => some (decI2 r Ty.intTys false false .imax .imaxImm)
  | 0x05B => some (decI1 r Ty.sTys true false .iabs)
  | 0x05C => some (decI1 r Ty.sTys true false .ineg)
  | 0x05D => some (decI2 r Ty.intTys false false .and .andImm)
  | 0x05E => some (decI2 r Ty.intTys false false .or .orImm)
  | 0x05F => some (decI2 r Ty.intTys false false .xor .xorImm)
  | 0x060 => some (decI1 r Ty.intTys false false .not)
  | 0x061 => some (decI2 r Ty.intTys false true .shl .shlImm)
  | 0x062 => some (decI2 r Ty.intTys false true .shr .shrImm)
  | 0x063 => some (decI2 r Ty.intTys false true .sar .sarImm)
  | 0x064 => some (decI2 r Ty.intTys false true .rot .rotImm)
  | 0x065 => some (decI1 r Ty.intTys false true .popc)
  | 0x066 => some (decI1 r Ty.intTys false true .clz)
  | 0x067 => some (decI1 r Ty.intTys false false .brev)
  | 0x068 => some (decI2 r Ty.scalarTys false true .bfe .bfeImm)
  | 0x069 => some (decI3 r Ty.uTys false true .bfi)
  | 0x06A => some (ckPlain r [1, 2] ++ ckNoM r ++ ckNo13 (r.i 0) ++ ckEven r.a ++
      (if r.L == 2 then ck0 r.b ++ ckNo13 r.lb ++ ckNo13 (r.i 1) else ckSrc .u32 (r.i 1) r.b r.lb) ++ ckI12 r 3,
      if r.L == 2 then .prmtImm r.guard r.d { r := r.a, last := r.la } r.imm
      else .prmt r.guard r.d { r := r.a, last := r.la } r.b1)
  | 0x06B => some (ckPlain r [1, 2] ++ ckTy r Ty.intTys ++ ckNoMode r ++ ckS r.d ++ sh2 r r.ty r.ty 0x1C ++ ckF (Cmp.ofCode cc).isNone,
      if r.L == 2 then .icmpImm r.guard ((Cmp.ofCode cc).getD .eq) r.ty (s7 r.d) r.a1 r.imm
      else .icmp r.guard ((Cmp.ofCode cc).getD .eq) r.ty (s7 r.d) r.a1 r.b1)
  | 0x06C => some (ckPlain r [1] ++ ckTy r Ty.uTys ++ ckNoMode r ++ ckV r.ty r.d ++ ckSrc r.ty (r.i 9) r.a r.la ++
      ckSrc r.ty (r.i 10) r.b r.lb ++ ckS (r.i12.extractLsb' 0 8) ++ ckI12 r 0x6FF,
      .sel r.guard r.ty r.d r.a3 r.b3 (r.i12.extractLsb' 0 7))
  | 0x06D => some (ckPlain r [1, 2] ++ ckTy r [.u32, .i64, .u64] ++ ckNoMode r ++ ckV r.ty r.d ++ sh2 r r.ty .u32 0x1C,
      if r.L == 2 then .leaImm r.guard r.ty cc r.d r.a1 r.imm else .lea r.guard r.ty cc r.d r.a1 r.b1)
  | _ => none

/-- R106, opcodes 0x080 to 0x091. -/
def decFloat (r : Raw) : Option Dec :=
  match r.op.toNat with
  | 0x080 => some (decF2 r true false .fadd)
  | 0x081 => some (decF2 r true false .fsub)
  | 0x082 => some (decF2 r true false .fmul)
  | 0x083 => some (ckPlain r [1] ++ ckTy r Ty.floatTys ++ ckV r.ty r.d ++ sh3 r r.ty r.ty r.ty,
      .fma { g := r.guard, ty := r.ty, rnd := r.rnd, d := r.d, a := r.a3, b := r.b3, c := r.c3 })
  | 0x084 => some (decF2 r true false .fdiv)
  | 0x085 => some (decF1 r Ty.floatTys true false .fsqrt)
  | 0x086 => some (decF1 r Ty.wideF true false .frcpa)
  | 0x087 => some (decF1 r Ty.wideF true false .frsqa)
  | 0x088 => some (decF2 r false false .fmin)
  | 0x089 => some (decF2 r false false .fmax)
  | 0x08A => some (decF1 r Ty.floatTys false false .fabs)
  | 0x08B => some (decF1 r Ty.floatTys false false .fneg)
  | 0x08C => some (decF2 r false false .fcpys)
  | 0x08D => some (ckPlain r [1] ++ ckTy r Ty.floatTys ++ ckNoMode r ++ ckS r.d ++ sh2 r r.ty r.ty 0x1C,
      .fcmp r.guard (FCmp.ofCode (r.i12.extractLsb' 2 3)) r.ty (s7 r.d) r.a1 r.b1)
  | 0x08E => some (decF1 r Ty.floatTys false true .fclass)
  | 0x08F => some (decF1 r Ty.floatTys true false .frint)
  | 0x090 => some (decF2 r true true .fscale)
  | 0x091 => some (decF1 r Ty.floatTys false true .fexpn)
  | _ => none

/-- R107, opcodes 0x0A0 to 0x0A5. -/
def decConv (r : Raw) : Option Dec :=
  let st := Ty.ofCode (r.i12.extractLsb' 2 4)
  let w : BitVec 3 := r.i12.extractLsb' 2 3
  match r.op.toNat with
  | 0x0A0 => some (ckPlain r [1] ++ ckTy r Ty.plainTys ++ (if r.ty.isFloat then [] else ckSat r) ++
      ckF (match st with | some t => t == .bpi | none => true) ++ ckV r.ty r.d ++ ckSrc (st.getD .i8) (r.i 0) r.a r.la ++
      ck0 r.b ++ ckNo13 r.lb ++ ckNo13 (r.i 1) ++ ckI12 r 0x3F,
      .cvt r.guard r.ty (st.getD .i8) r.rnd r.d r.a1)
  | 0x0A1 => some (ckPlain r [1] ++ ckTy r [.bpi] ++ [((match st with | some t => !t.isFloat | none => true), 10)] ++
      ckSrc (st.getD .i8) (r.i 0) r.a r.la ++ ckSrc .u32 (r.i 1) r.b r.lb ++ ckI12 r 0x3F,
      .qnt r.guard (st.getD .f16) r.rnd r.d r.a1 r.b1)
  | 0x0A2 => some (ckPlain r [1] ++ ckTy r Ty.floatTys ++ ckV r.ty r.d ++ ckSrc .u32 (r.i 0) r.a r.la ++
      ckSrc .u32 (r.i 1) r.b r.lb ++ ckI12 r 0x1F, .dqnt r.guard r.ty w r.rnd r.d r.a1 r.b1)
  | 0x0A3 => some (ckPlain r [1] ++ ckTy r [.bpi] ++ ckNoMode r ++ ckNo13 r.lb ++ ckNo13 (r.i 0) ++ ckNo13 (r.i 1) ++ ck0 r.b ++
      ckI12 r 3, .plane r.guard r.d { r := r.a, last := r.la })
  | 0x0A4 => some (ckPlain r [1] ++ ckTy r [.bpi] ++ ckNoMode r ++ ckNo13 r.lb ++ ckNo13 (r.i 0) ++ ckNo13 (r.i 1) ++ ck0 r.b ++
      ckI12 r 0x1F, .unplane r.guard w r.d { r := r.a, last := r.la })
  | 0x0A5 => some (ckPlain r [1, 2] ++ ckTy r Ty.uTys ++ ckNoMode r ++ ckV r.ty r.d ++ sh2 r .u32 .u32 0,
      if r.L == 2 then .randImm r.guard r.ty r.d r.a1 r.imm else .rand r.guard r.ty r.d r.a1 r.b1)
  | _ => none

/-- The per-lane layout (R273) but for its data source: IX in I12 [5:4], BV in I12 [3], SPACE in I12 [2:0], LDAT in
I12 [6], DS in I12 [7]. -/
def ckLane (r : Raw) (sp : Space → Bool) : List Chk :=
  let ix : BitVec 2 := r.i12.extractLsb' 4 2
  ckNo13 r.la ++ ckI12 r 0xFF ++
  ckF (match Space.ofCode (r.i12.extractLsb' 0 3) with | some s => !sp s | none => true) ++
  (if r.i 3 then ckS r.a else ck0 r.a) ++ ckF (ix == 3) ++
  (if ix == 0 then ck0 r.b ++ ckF r.lb else if ix == 2 then ckEven r.b else [])
def mkAddr (r : Raw) : Addr :=
  { base := if r.i 3 then some (s7 r.a) else none
    idx := match (r.i12.extractLsb' 4 2 : BitVec 2).toNat with
      | 0 => .none | 1 => .i32 r.b r.lb | _ => .i64 r.b r.lb }
abbrev Raw.sp (r : Raw) : Space := (Space.ofCode (r.i12.extractLsb' 0 3)).getD .g
/-- A destination instruction of the per-lane layout has no data source (R273). -/
def ckNoData (r : Raw) : List Chk := ckNo13 (r.i 7) ++ ckNo13 (r.i 6)
/-- The data source of ST, ATOM and XACC (R273). -/
def ckData (r : Raw) : List Chk := ckSrc r.ty (r.i 7) r.d (r.i 6)
abbrev Raw.data (r : Raw) : Src := mkSrc (r.i 7) r.d (r.i 6)

/-- COPY's X64 and fields (R288). A first register that is no multiple of 8 is cause 14: the rule names no cause (log 49). -/
def ckCopy (r : Raw) : List Chk :=
  let sk : BitVec 4 := r.x.extractLsb' 0 4
  let dk : BitVec 4 := r.x.extractLsb' 4 4
  let surf := sk == 1 || dk == 1
  ckL r [3] ++ ckU r ++ (if surf then ckNoTy r else ckTy r Ty.plainTys) ++ ckNoMode r ++ ckNoLast r ++ ck0 r.i12 ++
  ckS r.a ++ ck0 (r.a.extractLsb' 0 3 : BitVec 3) ++ ckF (3 < sk.toNat) ++ ckF (4 < dk.toNat) ++
  (if dk == 4 then [] else ck0 (r.x.extractLsb' 8 3 : BitVec 3)) ++
  (if r.x.getLsbD 11 then ckS r.b else ck0 r.b) ++ (if r.x.getLsbD 12 then ckS r.d else ck0 r.d) ++
  ck0 (r.x.extractLsb' 13 3 : BitVec 3)
def mkCopy (r : Raw) : CopyOps :=
  { fs := r.fs
    src := match (r.x.extractLsb' 0 4 : BitVec 4).toNat with | 0 => .g | 1 => .surf | 2 => .t | _ => .b
    dst := match (r.x.extractLsb' 4 4 : BitVec 4).toNat with
      | 0 => .g | 1 => .surf | 2 => .t | 3 => .b | _ => .ob (r.x.extractLsb' 8 3)
    ty := r.ty
    a := s7 r.a
    dep := if r.x.getLsbD 11 then some (s7 r.b) else none
    tags := if r.x.getLsbD 12 then some (s7 r.d) else none
    smoff := r.x.extractLsb' 16 16
    baroff := r.x.extractLsb' 32 32 }

/-- The byte-barrier layout (R297). -/
def ckBar (r : Raw) (vs : Bool) : List Chk :=
  ckUplain r 2 ++ ck0 r.d ++ ckS r.a ++ ckF ((r.i12.extractLsb' 0 3 : BitVec 3) != 2) ++ ckI12 r 0xF ++
  (if r.i 3 && vs then ckS r.b ++ ck0 r.imm else ckF (r.i 3) ++ ck0 r.b)

/-- The context layout (R301). -/
def ckCtx (r : Raw) (d a c : Bool) : List Chk :=
  ckL r [1] ++ ckU r ++ ckNoM r ++ ckNoLast r ++ (if d then ckS r.d else ck0 r.d) ++ (if a then ckS r.a else ck0 r.a) ++
  ck0 r.b ++ ckI12 r (if c then 1 else 0)

/-- NMC's operation by CODE; 6 to 15 name none (R267, R309). -/
def mkNmc (c : BitVec 4) (o : NmcOps) : Instr :=
  match c.toNat with
  | 0 => .nmcAxpy o | 1 => .nmcScale o | 2 => .nmcFade o | 3 => .nmcFma o | 4 => .nmcClamp o | _ => .nmcFill o

/-- ATOM's order and scope (R283). -/
def mkAtomOrd (ord : BitVec 2) (sc : Scope) : AtomOrd :=
  match ord.toNat with
  | 0 => .relaxed | 1 => .acquire sc | _ => .release sc

/-- R108, opcodes 0x0C0 to 0x0D9. NMC's n and code are checked here (R309), so cause 2 of NMC_ERROR is never met (log 49). -/
def decMem (r : Raw) : Option Dec :=
  match r.op.toNat with
  | 0x0C0 => some (ckL r [2] ++ ckTy r Ty.allTys ++ ckNoMode r ++ ckV r.ty r.d ++ ckLane r (fun _ => true) ++ ckNoData r,
      .ld r.guard r.fs r.sp r.ty r.d (mkAddr r) r.imm)
  | 0x0C1 => some (ckPlain r [2] ++ ckTy r Ty.allTys ++ ckNoMode r ++ ckData r ++ ckLane r (fun _ => true),
      .st r.guard r.sp r.ty r.data (mkAddr r) r.imm)
  | 0x0C2 =>
    let form : BitVec 2 := r.x.extractLsb' 55 2
    some (ckL r [3] ++ ckTy r Ty.allTys ++ ckNoMode r ++ ckV r.ty r.d ++ ckLane r (fun s => s == .g) ++ ckNoData r ++
      ckF (form == 3) ++ (if form == 2 then [] else ck0 (r.x.extractLsb' 57 7 : BitVec 7)),
      .ldx r.guard r.fs r.ty r.d (mkAddr r) r.imm
        (match form.toNat with | 0 => .p | 1 => .b | _ => .c (r.x.extractLsb' 57 7)) (r.x.extractLsb' 32 23))
  | 0x0C3 =>
    let op := AtomOp.ofCode (r.x.extractLsb' 24 3)
    let ord : BitVec 2 := r.x.extractLsb' 27 2
    let sc := Scope.ofCode (r.x.extractLsb' 29 3)
    some (ckPlain r [2] ++ ckTy r Ty.redTys ++ [((match op with | some o => !o.tyOk r.ty | none => false), 10)] ++ ckNoMode r ++
      ckData r ++ ckLane r Space.atomOk ++ ckF op.isNone ++ ckF (ord == 3) ++ ckF sc.isNone ++ ckF (ord == 0 && sc != some .role),
      .atom r.guard (op.getD .add) (mkAtomOrd ord (sc.getD .role)) r.sp r.ty r.data (mkAddr r) (r.x.extractLsb' 0 24))
  | 0x0C4 => some (ckPlain r [2] ++ ckTy r Ty.wideF ++ ckNoMode r ++ ckData r ++ ckLane r Space.atomOk,
      .xacc r.guard r.sp r.ty r.data (mkAddr r) r.imm)
  | 0x0C5 => some (ckL r [2] ++ ckTy r Ty.wideF ++ ckV r.ty r.d ++ ckLane r Space.atomOk ++ ckNoData r,
      .xrnd r.guard r.fs r.sp r.ty r.rnd r.d (mkAddr r) r.imm)
  | 0x0C6 =>
    let kind : BitVec 3 := r.i12.extractLsb' 3 3
    let sc := Scope.ofCode (r.i12.extractLsb' 0 3)
    some (ckUplain r 1 ++ ckDAB0 r ++ ckI12 r 0x3F ++ ckF (4 < kind.toNat) ++ ckF sc.isNone ++
      ckF (2 < kind.toNat && sc != some .role),
      match kind.toNat with
      | 0 => .fence .acq (sc.getD .role) | 1 => .fence .rel (sc.getD .role) | 2 => .fence .full (sc.getD .role)
      | 3 => .fenceE | _ => .fenceT)
  | 0x0C8 => some (ckCopy r, .copy (mkCopy r))
  | 0x0C9 => some (ckUplain r 1 ++ ckDAB0 r ++ ck0 r.i12, .stage)
  | 0x0CA => some (ckBar r false, .binit (s7 r.a) r.imm)
  | 0x0CB => some (ckBar r true, .bexp (s7 r.a) (if r.i 3 then .s (s7 r.b) else .imm r.imm))
  | 0x0CC => some (ckBar r false ++ ck0 (r.imm.extractLsb' 1 31 : BitVec 31), .bwait (s7 r.a) (r.imm.getLsbD 0))
  | 0x0D0 => some (ckCtx r true false false, .ctxnew r.fs (s7 r.d))
  | 0x0D1 => some (ckCtx r false true false, .ctxset r.fs (s7 r.a))
  | 0x0D2 => some (ckCtx r false false true, if r.i 0 then .ctxendCommit r.fs else .ctxendDiscard r.fs)
  | 0x0D3 => some (ckCtx r true false false, .ctxmerge r.fs (s7 r.d))
  | 0x0D4 => some (ckCtx r true true false, .ctxq r.fs (s7 r.d) (s7 r.a))
  | 0x0D6 => some (ckUplain r 1 ++ ck0 r.d ++ ck0 r.b ++ ckI12 r 0x1FF ++
      (if r.i 8 then ckS r.a ++ ck0 (r.i12.extractLsb' 0 8 : BitVec 8) else ck0 r.a),
      .sgjoin (if r.i 8 then .s (s7 r.a) else .imm (r.i12.extractLsb' 0 4) (r.i12.extractLsb' 4 4)))
  | 0x0D7 => some (ckUplain r 1 ++ ckDAB0 r ++ ck0 r.i12, .sgleave)
  | 0x0D8 =>
    let n : BitVec 17 := r.x.extractLsb' 0 17
    let code : BitVec 4 := r.x.extractLsb' 20 4
    some (ckL r [3] ++ ckU r ++ ckTy r Ty.wideF ++ ckNoMode r ++ ckNoLast r ++ ck0 r.d ++ ckS r.a ++
      ck0 (r.a.extractLsb' 0 3 : BitVec 3) ++ ck0 r.b ++ ck0 r.i12 ++ ckF (n == 0) ++ ckF (65536 < n.toNat) ++
      ck0 (r.x.extractLsb' 17 3 : BitVec 3) ++ ckF (5 < code.toNat) ++ ck0 (r.x.extractLsb' 24 40 : BitVec 40),
      mkNmc code { fs := r.fs, f64 := r.ty == .f64, a := s7 r.a, n := n })
  | 0x0D9 => some (ckUplain r 1 ++ ckDAB0 r ++ ck0 r.i12, .nmwait)
  | _ => none

/-- A matrix source: kind, register or buffer field, buffer offset, transposition and last use (R315 to R317, R331). -/
def ckMSrc (fmt : Ty) (k : BitVec 2) (f : BitVec 8) (off : BitVec 7) (tr last : Bool) : List Chk :=
  ckF (k == 3) ++ (if k == 2 then [] else ck0 off) ++
  (match k.toNat with
    | 0 => ckV fmt f ++ ckF tr
    | 1 => ckS f ++ ckEven f ++ ckNo13 last
    | _ => ck0 (f.extractLsb' 3 5 : BitVec 5) ++ ckNo13 last)
def mkMSrc (k : BitVec 2) (f : BitVec 8) (off : BitVec 7) (tr last : Bool) : MSrc :=
  match k.toNat with
  | 0 => .reg f last
  | 1 => .scr (s7 f) tr
  | _ => .buf (f.extractLsb' 0 3) off tr

/-- The fields MMA and MMAR share (R331): AK in I12 [1:0], BK in [3:2], J in [4], CT in [5], W in [8:6], TA in [9], TB in
[10]. -/
def ckMma (r : Raw) (fmt : Ty) : List Chk :=
  ckPlain r [3] ++ ckU r ++ ckNoMode r ++ ckF (r.i 11) ++ ck0 (r.x.extractLsb' 34 30 : BitVec 30) ++
  ckMSrc fmt (r.i12.extractLsb' 0 2) r.a (r.x.extractLsb' 17 7) (r.i 9) r.la ++
  ckMSrc fmt (r.i12.extractLsb' 2 2) r.b (r.x.extractLsb' 24 7) (r.i 10) r.lb
abbrev Raw.ma (r : Raw) : MSrc := mkMSrc (r.i12.extractLsb' 0 2) r.a (r.x.extractLsb' 17 7) (r.i 9) r.la
abbrev Raw.mb (r : Raw) : MSrc := mkMSrc (r.i12.extractLsb' 2 2) r.b (r.x.extractLsb' 24 7) (r.i 10) r.lb

/-- The roles of a GSET list: valid entries are a prefix, and an entry that is not valid is zero (R337). -/
def gsetRoles (x : BitVec 18) : List (BitVec 2) :=
  (List.range 6).filterMap (fun e => if x.getLsbD (3 * e + 2) then some (x.extractLsb' (3 * e) 2) else none)
def gsetOk (x : BitVec 18) : Bool :=
  let n := (gsetRoles x).length
  n != 1 && (List.range 6).all (fun e =>
    if e < n then x.getLsbD (3 * e + 2) else (x.extractLsb' (3 * e) 3 : BitVec 3) == 0)

/-- R109, opcodes 0x100 to 0x10B. MDRAIN's SF outside 8 to 12 and CTBL's first register that is no multiple of 4 are cause 14:
the rules name no cause (log 49). -/
def decMatrix (r : Raw) : Option Dec :=
  match r.op.toNat with
  | 0x100 => some (ckTy r Ty.mmaTys ++ ckMma r r.ty ++ ck0 r.d ++ ckF (r.x.getLsbD 33) ++
      (if r.i 4 then [] else ck0 (r.x.extractLsb' 31 2 : BitVec 2)) ++
      (if r.ty == .bpi then [] else ck0 (r.i12.extractLsb' 6 3 : BitVec 3)),
      .mma { fmt := r.ty, gang := if r.i 4 then some (r.x.extractLsb' 31 2) else none, ct := r.i 5,
             w := r.i12.extractLsb' 6 3, a := r.ma, b := r.mb, kg := r.x.extractLsb' 11 6, acc := r.x.extractLsb' 0 11 })
  | 0x101 => some (ckTy r [.f64] ++ ckMma r .f64 ++ ckS r.d ++ ckF (r.i 4) ++ ck0 (r.x.extractLsb' 31 2 : BitVec 2) ++
      ck0 (r.i12.extractLsb' 6 3 : BitVec 3),
      .mmar { init := r.x.getLsbD 33, ct := r.i 5, a := r.ma, b := r.mb, kg := r.x.extractLsb' 11 6,
              acc := r.x.extractLsb' 0 11, d := s7 r.d })
  | 0x102 => some (ckPlain r [1] ++ ckU r ++ ckTy r Ty.mmaTys ++ ckNoMode r ++ ckNoLast r ++ ckDAB0 r,
      .mzero r.ty (r.i 11) (r.i12.extractLsb' 0 11))
  | 0x103 => some (ckPlain r [3] ++ ckU r ++ ckTy r Ty.mmaTys ++ ckNoMode r ++ ckNoLast r ++ ckDAB0 r ++ ck0 r.i12 ++
      ck0 (r.x.extractLsb' 23 41 : BitVec 41),
      .minit r.ty (r.x.getLsbD 22) (r.x.extractLsb' 0 11) (r.x.extractLsb' 11 11))
  | 0x104 =>
    let sf := Ty.ofCode (r.x.extractLsb' 22 4)
    let w : BitVec 3 := r.x.extractLsb' 27 3
    let sm : BitVec 2 := r.x.extractLsb' 30 2
    let so : BitVec 13 := r.x.extractLsb' 32 13
    let bpi := sf == some .bpi
    some (ckPlain r [3] ++ ckU r ++ ckTy r (if bpi then [.f32] else [.f64, .f32, .bf16]) ++ ckNoLast r ++ ckDAB0 r ++ ck0 r.i12 ++
      ckF (match sf with | some t => !Ty.mmaTys.contains t | none => true) ++ ckF (sm == 3) ++
      (if bpi then [] else ckF (r.x.getLsbD 26) ++ ck0 w ++ ck0 sm ++ ck0 so) ++ ck0 (r.x.extractLsb' 45 19 : BitVec 19),
      .mdrain { dty := r.ty, rnd := r.rnd, sf := sf.getD .f16, ct := r.x.getLsbD 26, w := w, row := sm, smoff := so,
                dst := r.x.extractLsb' 11 11, acc := r.x.extractLsb' 0 11 })
  | 0x105 =>
    let es : BitVec 18 := r.x.extractLsb' 0 18
    some (ckUplain r 3 ++ ckDAB0 r ++ ckI12 r 3 ++ ckF (!gsetOk es) ++ ck0 (r.x.extractLsb' 18 46 : BitVec 46),
      .gset (r.i12.extractLsb' 0 2) (gsetRoles es))
  | 0x106 => some (ckL r [1] ++ ckU r ++ ckNoM r ++ ckNoLast r ++ ckS r.d ++ ck0 r.a ++ ck0 r.b ++ ck0 r.i12,
      .mfence r.fs (s7 r.d))
  | 0x107 => some (ckPlain r [1, 2] ++ ckU r ++ ckNoM r ++ ckNoLast r ++ ck0 r.d ++ ck0 r.b ++ ckI12 r 1 ++
      (if r.L == 2 then ck0 r.a else ckS r.a), if r.L == 2 then .mwaitImm (r.i 0) r.imm else .mwait (r.i 0) (s7 r.a))
  | 0x108 => some (ckUplain r 2 ++ ckDAB0 r ++ ck0 r.i12, .msave r.imm)
  | 0x109 => some (ckUplain r 2 ++ ckDAB0 r ++ ck0 r.i12, .mresume r.imm)
  | 0x10A => some (ckUplain r 3 ++ ck0 r.d ++ ckS r.a ++ ck0 (r.a.extractLsb' 0 2 : BitVec 2) ++ ck0 r.b ++ ck0 r.i12 ++ ck0 r.x,
      .ctbl (s7 r.a))
  | 0x10B => some (ckUplain r 1 ++ ckDAB0 r ++ ckI12 r 7, .obrel (r.i12.extractLsb' 0 3))
  | _ => none

/-- R110, opcodes 0x120 to 0x125. -/
def decSolver (r : Raw) : Option Dec :=
  match r.op.toNat with
  | 0x120 => some (ckPlain r [1] ++ ckTy r [.f64] ++ ckNoMode r ++ ckEven r.d ++ sh3 r .f64 .f64 .f64,
      .resf r.guard r.d r.a3 r.b3 r.c3)
  | 0x121 =>
    let c : BitVec 8 := r.x.extractLsb' 0 8
    let cs := r.x.getLsbD 9
    let lc := r.x.getLsbD 8
    let bnd : BitVec 8 := r.x.extractLsb' 10 8
    let plo : BitVec 7 := r.x.extractLsb' 18 7
    let phi : BitVec 7 := r.x.extractLsb' 25 7
    some (ckPlain r [2] ++ ckTy r [.f64] ++ ckNoMode r ++ ckEven r.d ++ ckEven r.a ++ ckEven r.b ++ ckSrc .f64 cs c lc ++ ckI12 r 3 ++
      (if r.i 0 then ckEven bnd ++ ck0 (bnd.extractLsb' 0 2 : BitVec 2) ++ ckF (plo == 127) ++ ckF (phi == 127)
       else ck0 bnd ++ ck0 plo ++ ck0 phi),
      .dcor { g := r.guard, more := r.i 1, box := if r.i 0 then some { bnd := bnd, plo := plo, phi := phi } else none,
              d := r.d, x := { r := r.a, last := r.la }, r := { r := r.b, last := r.lb }, m := mkSrc cs c lc })
  | 0x122 =>
    let c : BitVec 8 := r.x.extractLsb' 0 8
    some (ckPlain r [3] ++ ckU r ++ ckTy r Ty.wideF ++ ckNoMode r ++ ckNo13 r.la ++ ckV r.ty r.d ++ ckS r.a ++ ckS c ++ ckEven c ++
      ck0 r.i12 ++ ck0 (r.x.extractLsb' 8 56 : BitVec 56),
      .wstart r.ty r.d { r := r.b, last := r.lb } (s7 r.a) (s7 c))
  | 0x123 =>
    let sel : BitVec 3 := r.i12.extractLsb' 0 3
    some (ckPlain r [1, 2] ++ ckU r ++ ckNoM r ++ ckNoLast r ++ ck0 r.d ++ ck0 r.b ++ ckI12 r 7 ++ ckF (3 < sel.toNat) ++
      (if r.L == 2 then ck0 r.a ++ ckF (sel == 3) ++ (if sel == 2 then ck0 (r.imm.extractLsb' 8 24 : BitVec 24) else [])
       else if sel == 3 then ck0 r.a else ckS r.a),
      match sel.toNat with
      | 0 => if r.L == 2 then .svcfgTolImm r.imm else .svcfgTol (s7 r.a)
      | 1 => if r.L == 2 then .svcfgLimitImm r.imm else .svcfgLimit (s7 r.a)
      | 2 => if r.L == 2 then .svcfgGrowImm (r.imm.extractLsb' 0 8) else .svcfgGrow (s7 r.a)
      | _ => .svcfgReset)
  | 0x124 => some (ckUplain r 1 ++ ckS r.d ++ ck0 r.a ++ ck0 r.b ++ ck0 r.i12, .svstat (s7 r.d))
  | 0x125 => some (ckPlain r [1] ++ ckTy r Ty.uTys ++ ckNoMode r ++ ckV r.ty r.d ++ sh1 r r.ty, .pmark r.guard r.ty r.d r.a1)
  | _ => none

/-- The named-barrier layout (R397): BID in I12 [3:0], RMASK in [7:4]. -/
def ckNBar (r : Raw) : List Chk := ckUplain r 1 ++ ckDAB0 r ++ ckI12 r 0xFF

/-- R111, opcodes 0x140 to 0x145. CPOST's first register that is no multiple of 8 is cause 14 (log 49). -/
def decSync (r : Raw) : Option Dec :=
  let bid : BitVec 4 := r.i12.extractLsb' 0 4
  let rm : BitVec 4 := r.i12.extractLsb' 4 4
  match r.op.toNat with
  | 0x140 => some (ckNBar r ++ ckF ((bid == 0) != (rm == 0)), .bar bid rm)
  | 0x141 => some (ckNBar r ++ ckF ((bid == 0) != (rm == 0)), .arrive bid rm)
  | 0x142 => some (ckNBar r ++ ck0 rm, .await bid)
  | 0x143 => some (ckUplain r 2 ++ ck0 r.d ++ ckS r.a ++ ckI12 r 8 ++ (if r.i 3 then ckS r.b ++ ck0 r.imm else ck0 r.b),
      .depinit (s7 r.a) (if r.i 3 then .s (s7 r.b) else .imm r.imm))
  | 0x144 => some (ckL r [2] ++ ckU r ++ ckNoM r ++ ckNoLast r ++ ck0 r.d ++ ckS r.a ++ ck0 r.b ++ ck0 r.i12,
      .depdec r.fs (s7 r.a) r.imm)
  | 0x145 =>
    let prio : BitVec 8 := r.x.extractLsb' 32 8
    some (ckUplain r 3 ++ ck0 r.d ++ ckS r.a ++ ck0 (r.a.extractLsb' 0 3 : BitVec 3) ++ ck0 r.b ++ ck0 r.i12 ++ ckF (!targetOk r.imm) ++
      ckF (!(prio.ult 8 || prio == 0xFF)) ++ ck0 (r.x.extractLsb' 40 24 : BitVec 24), .cpost (s7 r.a) r.imm prio)
  | _ => none

/-- R112, opcodes 0x1F0 to 0x1F4. -/
def decSystem (r : Raw) : Option Dec :=
  match r.op.toNat with
  | 0x1F0 => some (ckPlain r [1] ++ ckNoM r ++ ckNoLast r ++ ckDAB0 r ++ ckI12 r 0xFF, .trap r.guard (r.i12.extractLsb' 0 8))
  | 0x1F1 => some (dec0 r (ckU r) .tret)
  | 0x1F2 => some (dec0 r (ckU r) .pchk)
  | 0x1F3 => some (ckUplain r 2 ++ ck0 r.d ++ ck0 r.b ++ ckI12 r 1 ++
      (if r.i 0 then ck0 r.a ++ ck0 r.imm else ckS r.a ++ ckF (r.imm == 0)),
      .tlbi (if r.i 0 then none else some (s7 r.a, r.imm)))
  | 0x1F4 => some (dec0 r (ckU r) .lpsw)
  | _ => none

/-- The opcode map (R101 to R113). -/
def decOp (r : Raw) : Option Dec :=
  match (r.op.extractLsb' 4 5 : BitVec 5).toNat with
  | 0x00 => decControl r
  | 0x01 => decPred r
  | 0x02 | 0x03 => decScalar r
  | 0x04 => decCross r
  | 0x05 | 0x06 => decInt r
  | 0x08 | 0x09 => decFloat r
  | 0x0A => decConv r
  | 0x0C | 0x0D => decMem r
  | 0x10 => decMatrix r
  | 0x12 => decSolver r
  | 0x14 => decSync r
  | 0x1F => decSystem r
  | _ => none

/-- What the decoder answers: an instruction, or the cause of ILLEGAL_ENC (R99). -/
inductive Decoded where
  | ok (i : Instr)
  | illegal (cause : Nat)
  deriving DecidableEq, Repr

/-- The item in an instruction slot, from its fields (R86, R99, R113): a header there is cause 2, an opcode that no table
assigns cause 1. -/
def decodeRaw (r : Raw) : Decoded :=
  if r.L == 0 then .illegal 2
  else match decOp r with
    | none => .illegal 1
    | some (cks, i) =>
      match firstCause cks with
      | some c => .illegal c
      | none => .ok i

/-- The item in an instruction slot, from its bits. -/
def decodeItem (w : BitVec 128) : Decoded := decodeRaw (Raw.ofBits w)

/-- A clause header from its 64 bits (R87, R88): an item that is not a header is cause 6 (R86), whatever
else is wrong with it (log 49); a header fault is cause 5. -/
def decodeHeader (w : BitVec 64) : Header ⊕ Nat :=
  let sav := w.getLsbD 18
  let sbv := w.getLsbD 23
  let sa : BitVec 4 := w.extractLsb' 19 4
  let sb : BitVec 4 := w.extractLsb' 24 4
  let n : BitVec 4 := w.extractLsb' 2 4
  if (w.extractLsb' 0 2 : BitVec 2) != 0 then .inr 6
  else if n == 0 || (w.extractLsb' 28 36 : BitVec 36) != 0 || (sav && !sa.ult 12) || (sbv && !sb.ult 12) ||
      (sav && sbv && sa == sb) || (!sav && sa != 0) || (!sbv && sb != 0) then .inr 5
  else .inl { n := n, wait := w.extractLsb' 6 12, sa := if sav then some sa else none, sb := if sbv then some sb else none }

/-- The bits of a header (R87). -/
def encodeHeader (h : Header) : BitVec 64 :=
  (0 : BitVec 36) ++ h.sb.getD 0 ++ bit1 h.sb.isSome ++ h.sa.getD 0 ++ bit1 h.sa.isSome ++ h.wait ++ h.n ++ (0 : BitVec 2)

/-- The instruction that a table word names: an item whose low nbits are w and whose other bits are 0. A header's word
gives CLAUSE_START; an item whose opcode is not assigned gives RESERVED_OPCODE. -/
def decodeTableWord (nbits w : Nat) : Option Instr :=
  let v : BitVec 128 := BitVec.ofNat 128 (w % 2 ^ nbits)
  if (v.extractLsb' 0 2 : BitVec 2) == 0 then
    match decodeHeader (v.extractLsb' 0 64) with
    | .inl h => some (.clauseStart h)
    | .inr _ => none
  else match decodeItem v with
    | .ok i => some i
    | .illegal 1 => some (.reservedOpcode false)
    | .illegal _ => none

/-! The encoder, written from the same tables. -/

/-- An item of length code L and opcode op with G = 127 and every other field zero. -/
def Raw.blank (l : BitVec 2) (op : BitVec 9) : Raw :=
  { L := l, op := op, g := 127, gn := false, fs := false, d := 0, a := 0, b := 0, la := false, lb := false, m := 0,
    i12 := 0, x := 0 }

/-- A class-L item under a guard (R94). -/
def Raw.lane (l : BitVec 2) (op : BitVec 9) (g : Guard) : Raw := { Raw.blank l op with g := g.p, gn := g.neg }

def Src.isS : Src → Bool
  | .v _ _ => false
  | .s _ => true
def Src.field : Src → BitVec 8
  | .v r _ => r
  | .s r => r.setWidth 8
def Src.last : Src → Bool
  | .v _ l => l
  | .s _ => false

/-- An s or p register in a register field (R93). -/
abbrev f8 (r : BitVec 7) : BitVec 8 := r.setWidth 8
/-- I32 in the bits above 63 (R98). -/
abbrev x32 (i : BitVec 32) : BitVec 64 := i.setWidth 64
/-- M with a type and a mode, or a type and SAT (R95). -/
def mRnd (ty : Ty) (m : Rnd) : BitVec 6 := m.code ++ ty.code
def mSat (ty : Ty) (s : Bool) : BitVec 6 := bit1 false ++ bit1 s ++ ty.code
/-- I12 from a value in its low bits. -/
abbrev i12Of {n : Nat} (v : BitVec n) : BitVec 12 := v.setWidth 12
/-- I12 of shape 2: an entry's bits from [54] up, BS, AS (R96). -/
def i12S2 (up : BitVec 10) (b a : Bool) : BitVec 12 := up ++ bit1 b ++ bit1 a
/-- I12 of shape 3 (R96). -/
def i12S3 (a b c : Src) : BitVec 12 := bit1 c.isS ++ bit1 b.isS ++ bit1 a.isS ++ bit1 c.last ++ c.field

def encI2 (op : BitVec 9) (o : I2) : Raw :=
  { Raw.lane 1 op o.g with
    m := mSat o.ty o.sat, d := o.d, a := o.a.field, la := o.a.last, b := o.b.field, lb := o.b.last,
    i12 := i12S2 0 o.b.isS o.a.isS }
def encI2I (op : BitVec 9) (o : I2I) : Raw :=
  { Raw.lane 2 op o.g with
    m := mSat o.ty o.sat, d := o.d, a := o.a.field, la := o.a.last, i12 := i12S2 0 false o.a.isS, x := x32 o.imm }
def encI3 (op : BitVec 9) (o : I3) : Raw :=
  { Raw.lane 1 op o.g with
    m := mSat o.ty o.sat, d := o.d, a := o.a.field, la := o.a.last, b := o.b.field, lb := o.b.last,
    i12 := i12S3 o.a o.b o.c }
def encI1 (op : BitVec 9) (o : I1) : Raw :=
  { Raw.lane 1 op o.g with
    m := mSat o.ty o.sat, d := o.d, a := o.a.field, la := o.a.last, i12 := i12S2 0 false o.a.isS }
def encF1 (op : BitVec 9) (o : F1) : Raw :=
  { Raw.lane 1 op o.g with
    m := mRnd o.ty o.rnd, d := o.d, a := o.a.field, la := o.a.last, i12 := i12S2 0 false o.a.isS }
def encF2 (op : BitVec 9) (o : F2) : Raw :=
  { Raw.lane 1 op o.g with
    m := mRnd o.ty o.rnd, d := o.d, a := o.a.field, la := o.a.last, b := o.b.field, lb := o.b.last,
    i12 := i12S2 0 o.b.isS o.a.isS }
def encS2 (op : BitVec 9) (cc : BitVec 3) (o : S2) : Raw :=
  { Raw.blank 1 op with
    m := mSat o.ty o.sat, d := f8 o.d, a := f8 o.a, b := f8 o.b, i12 := i12S2 (cc.setWidth 10) false false }
def encS2I (op : BitVec 9) (cc : BitVec 3) (o : S2I) : Raw :=
  { Raw.blank 2 op with
    m := mSat o.ty o.sat, d := f8 o.d, a := f8 o.a, i12 := i12S2 (cc.setWidth 10) false false, x := x32 o.imm }
def encP2 (op : BitVec 9) (o : P2) : Raw :=
  { Raw.lane 1 op o.g with
    d := f8 o.d, a := f8 o.a, b := f8 o.b, i12 := (0 : BitVec 8) ++ bit1 o.nb ++ bit1 o.na ++ (0 : BitVec 2) }
def encP1 (op : BitVec 9) (g : Guard) (d a : BitVec 7) : Raw := { Raw.lane 1 op g with d := f8 d, a := f8 a }
def encRed (op : BitVec 9) (o : Red) (exc : Bool) (d : BitVec 8) : Raw :=
  { Raw.lane 1 op o.g with
    m := mRnd o.ty o.mode, d := d, a := o.a.r, la := o.a.last,
    i12 := (0 : BitVec 7) ++ bit1 exc ++ (0 : BitVec 1) ++ o.op.code }

/-- The per-lane layout (R273). -/
def Addr.bv (m : Addr) : Bool := m.base.isSome
def Idx.code : Idx → BitVec 2
  | .none => 0 | .i32 _ _ => 1 | .i64 _ _ => 2
def Idx.field : Idx → BitVec 8
  | .none => 0 | .i32 r _ => r | .i64 r _ => r
def Idx.last : Idx → Bool
  | .none => false | .i32 _ l => l | .i64 _ l => l
def encLane (l : BitVec 2) (op : BitVec 9) (g : Guard) (m : BitVec 6) (sp : Space) (ad : Addr) (d : BitVec 8)
    (ds ldat : Bool) : Raw :=
  { Raw.lane l op g with
    m := m, d := d, a := f8 (ad.base.getD 0), b := ad.idx.field, lb := ad.idx.last,
    i12 := (0 : BitVec 4) ++ bit1 ds ++ bit1 ldat ++ ad.idx.code ++ bit1 ad.bv ++ sp.code }

def VoteDst.code : VoteDst → BitVec 3
  | .all _ => 0 | .any _ => 1 | .word _ => 2 | .sum _ => 3 | .count _ => 4
def VoteDst.field : VoteDst → BitVec 8
  | .all d => f8 d | .any d => f8 d | .word d => d | .sum d => d | .count d => d

def AtomOrd.code : AtomOrd → BitVec 2
  | .relaxed => 0 | .acquire _ => 1 | .release _ => 2
def AtomOrd.scopeCode : AtomOrd → BitVec 3
  | .relaxed => 0 | .acquire s => s.code | .release s => s.code

def CopySrc.code : CopySrc → BitVec 4
  | .g => 0 | .surf => 1 | .t => 2 | .b => 3
def CopyDst.code : CopyDst → BitVec 4
  | .g => 0 | .surf => 1 | .t => 2 | .b => 3 | .ob _ => 4
def CopyDst.obn : CopyDst → BitVec 3
  | .ob n => n | _ => 0

def SpReg.isV : SpReg → Bool
  | .v _ => true | .s _ => false
def SpReg.field : SpReg → BitVec 8
  | .v r => r | .s r => f8 r

def LdxForm.code : LdxForm → BitVec 2
  | .p => 0 | .b => 1 | .c _ => 2
def LdxForm.ct : LdxForm → BitVec 7
  | .c s => s | _ => 0

def FenceKind.code : FenceKind → BitVec 3
  | .acq => 0 | .rel => 1 | .full => 2

def Cnt.immBits : Cnt → BitVec 32
  | .imm n => n | .s _ => 0
def Cnt.field : Cnt → BitVec 8
  | .imm _ => 0 | .s r => f8 r
def Cnt.isS : Cnt → Bool
  | .imm _ => false | .s _ => true

def MSrc.kind : MSrc → BitVec 2
  | .reg _ _ => 0 | .scr _ _ => 1 | .buf _ _ _ => 2
def MSrc.field : MSrc → BitVec 8
  | .reg r _ => r | .scr r _ => f8 r | .buf n _ _ => n.setWidth 8
def MSrc.off : MSrc → BitVec 7
  | .buf _ o _ => o | _ => 0
def MSrc.tr : MSrc → Bool
  | .reg _ _ => false | .scr _ t => t | .buf _ _ t => t
def MSrc.last : MSrc → Bool
  | .reg _ l => l | _ => false

def encNmc (code : BitVec 4) (o : NmcOps) : Raw :=
  { Raw.blank 3 0x0D8 with
    fs := o.fs, a := f8 o.a, m := mRnd (if o.f64 then .f64 else .f32) .rn,
    x := (0 : BitVec 40) ++ code ++ (0 : BitVec 3) ++ o.n }

/-- The layout of a barrier or dependence instruction with I32, VS and B (R297, R398). -/
def encCnt (op : BitVec 9) (sp : BitVec 3) (a : BitVec 7) (n : Cnt) : Raw :=
  { Raw.blank 2 op with
    a := f8 a, b := n.field, i12 := (0 : BitVec 8) ++ bit1 n.isS ++ sp, x := x32 n.immBits }

def encSvcfg (sel : BitVec 3) (a : BitVec 7) : Raw := { Raw.blank 1 0x123 with a := f8 a, i12 := i12Of sel }
def encSvcfgI (sel : BitVec 3) (i : BitVec 32) : Raw := { Raw.blank 2 0x123 with i12 := i12Of sel, x := x32 i }

/-- The list of a GSET (R337). -/
def gsetBits : List (BitVec 2) → BitVec 18
  | [] => 0
  | r :: rs => ((gsetBits rs) <<< 3) ||| ((1 : BitVec 1) ++ r).setWidth 18

/-- The fields of an item that names the instruction; a device event, a clause header and RESERVED_OPCODE have none. -/
def encodeRaw : Instr → Option Raw
  | .nop g => some (Raw.lane 1 0x000 g)
  | .bra t => some { Raw.blank 2 0x001 with x := x32 t }
  | .brd p t j => some { Raw.blank 3 0x002 with a := f8 p, x := j ++ t }
  | .join => some (Raw.blank 1 0x003)
  | .brx a => some { Raw.blank 1 0x004 with a := f8 a }
  | .call t => some { Raw.blank 2 0x005 with x := x32 t }
  | .callInd a => some { Raw.blank 2 0x005 with a := f8 a, i12 := 1 }
  | .ret => some (Raw.blank 1 0x006)
  | .loop a t => some { Raw.blank 2 0x007 with a := f8 a, x := x32 t }
  | .exit g => some (Raw.lane 1 0x008 g)
  | .yield => some (Raw.blank 1 0x009)
  | .pand o => some (encP2 0x010 o)
  | .por o => some (encP2 0x011 o)
  | .pxor o => some (encP2 0x012 o)
  | .pnot g d a => some (encP1 0x013 g d a)
  | .pmov g d a => some (encP1 0x014 g d a)
  | .pprov g d src set => some { Raw.lane 1 0x015 g with
      d := f8 d
      a := (match src with | .v r => r | .pair r => r | .p r => f8 r | .s r => f8 r)
      i12 := (0 : BitVec 5) ++ bit1 (match src with | .pair _ => true | _ => false) ++
        (match src with | .v _ => (0 : BitVec 2) | .pair _ => 0 | .p _ => 1 | .s _ => 2) ++ set }
  | .smov d a => some { Raw.blank 1 0x020 with d := f8 d, a := f8 a }
  | .sli d i => some { Raw.blank 3 0x021 with d := f8 d, x := i }
  | .sadd o => some (encS2 0x022 0 o)
  | .saddImm o => some (encS2I 0x022 0 o)
  | .ssub o => some (encS2 0x023 0 o)
  | .ssubImm o => some (encS2I 0x023 0 o)
  | .smul o => some (encS2 0x024 0 o)
  | .smulImm o => some (encS2I 0x024 0 o)
  | .sshl o => some (encS2 0x026 0 o)
  | .sshlImm o => some (encS2I 0x026 0 o)
  | .sshr o => some (encS2 0x027 0 o)
  | .sshrImm o => some (encS2I 0x027 0 o)
  | .sand o => some (encS2 0x028 0 o)
  | .sandImm o => some (encS2I 0x028 0 o)
  | .sor o => some (encS2 0x029 0 o)
  | .sorImm o => some (encS2I 0x029 0 o)
  | .sxor o => some (encS2 0x02A 0 o)
  | .sxorImm o => some (encS2I 0x02A 0 o)
  | .smin o => some (encS2 0x02B 0 o)
  | .sminImm o => some (encS2I 0x02B 0 o)
  | .smax o => some (encS2 0x02C 0 o)
  | .smaxImm o => some (encS2I 0x02C 0 o)
  | .scmp cc o => some (encS2 0x02D cc.code o)
  | .scmpImm cc o => some (encS2I 0x02D cc.code o)
  | .smad o c => some { encS2 0x025 0 o with i12 := i12Of c }
  | .ssel d a b c => some { Raw.blank 1 0x02E with d := f8 d, a := f8 a, b := f8 b, i12 := i12Of c }
  | .srs d num => some { Raw.blank 1 0x02F with d := d.field, i12 := (0 : BitVec 3) ++ bit1 d.isV ++ num }
  | .sws num a => some { Raw.blank 1 0x030 with a := a.field, i12 := (0 : BitVec 3) ++ bit1 a.isV ++ num }
  | .sget ty d a l => some { Raw.blank 1 0x031 with
      m := mRnd ty .rn, d := f8 d, a := a
      b := (match l with | .imm _ => 0 | .s r => f8 r)
      i12 := (match l with | .imm n => (0 : BitVec 2) ++ n | .s _ => (0x400 : BitVec 12)) }
  | .sld fs sp ty d a off => some { Raw.blank 2 0x032 with
      fs := fs, m := mRnd ty .rn, d := f8 d, a := f8 a, i12 := i12Of sp.code, x := x32 off }
  | .shfl g mode seg ty d a b fill => some { Raw.lane 2 0x040 g with
      m := mRnd ty .rn, d := d, a := a.r, la := a.last, b := b.field, lb := b.last
      i12 := (0 : BitVec 5) ++ bit1 b.isS ++ seg ++ mode.code, x := x32 fill }
  | .vote g d a => some { Raw.lane 1 0x041 g with d := d.field, a := f8 a, i12 := i12Of d.code }
  | .elect g d a => some (encP1 0x042 g d a)
  | .redux o d => some (encRed 0x043 o false (f8 d))
  | .scan o exc d => some (encRed 0x044 o exc d)
  | .mov g ty d a => some (encI1 0x050 { g := g, ty := ty, sat := false, d := d, a := a })
  | .li g ty d i => some { Raw.lane 2 0x051 g with m := mRnd ty .rn, d := d, x := x32 i }
  | .iadd o => some (encI2 0x052 o)
  | .iaddImm o => some (encI2I 0x052 o)
  | .isub o => some (encI2 0x053 o)
  | .isubImm o => some (encI2I 0x053 o)
  | .imul o => some (encI2 0x054 o)
  | .imulImm o => some (encI2I 0x054 o)
  | .imulh o => some (encI2 0x055 o)
  | .imulhImm o => some (encI2I 0x055 o)
  | .idiv o => some (encI2 0x057 o)
  | .idivImm o => some (encI2I 0x057 o)
  | .irem o => some (encI2 0x058 o)
  | .iremImm o => some (encI2I 0x058 o)
  | .imin o => some (encI2 0x059 o)
  | .iminImm o => some (encI2I 0x059 o)
  | .imax o => some (encI2 0x05A o)
  | .imaxImm o => some (encI2I 0x05A o)
  | .imad o => some (encI3 0x056 o)
  | .iabs o => some (encI1 0x05B o)
  | .ineg o => some (encI1 0x05C o)
  | .and o => some (encI2 0x05D o)
  | .andImm o => some (encI2I 0x05D o)
  | .or o => some (encI2 0x05E o)
  | .orImm o => some (encI2I 0x05E o)
  | .xor o => some (encI2 0x05F o)
  | .xorImm o => some (encI2I 0x05F o)
  | .not o => some (encI1 0x060 o)
  | .shl o => some (encI2 0x061 o)
  | .shlImm o => some (encI2I 0x061 o)
  | .shr o => some (encI2 0x062 o)
  | .shrImm o => some (encI2I 0x062 o)
  | .sar o => some (encI2 0x063 o)
  | .sarImm o => some (encI2I 0x063 o)
  | .rot o => some (encI2 0x064 o)
  | .rotImm o => some (encI2I 0x064 o)
  | .popc o => some (encI1 0x065 o)
  | .clz o => some (encI1 0x066 o)
  | .brev o => some (encI1 0x067 o)
  | .bfe o => some (encI2 0x068 o)
  | .bfeImm o => some (encI2I 0x068 o)
  | .bfi o => some (encI3 0x069 o)
  | .prmt g d a b => some { Raw.lane 1 0x06A g with
      d := d, a := a.r, la := a.last, b := b.field, lb := b.last, i12 := i12S2 0 b.isS false }
  | .prmtImm g d a i => some { Raw.lane 2 0x06A g with d := d, a := a.r, la := a.last, x := x32 i }
  | .icmp g cc ty d a b => some { encI2 0x06B { g := g, ty := ty, sat := false, d := f8 d, a := a, b := b } with
      i12 := i12S2 (cc.code.setWidth 10) b.isS a.isS }
  | .icmpImm g cc ty d a i => some { encI2I 0x06B { g := g, ty := ty, sat := false, d := f8 d, a := a, imm := i } with
      i12 := i12S2 (cc.code.setWidth 10) false a.isS }
  | .sel g ty d a b p => some { Raw.lane 1 0x06C g with
      m := mRnd ty .rn, d := d, a := a.field, la := a.last, b := b.field, lb := b.last
      i12 := bit1 false ++ bit1 b.isS ++ bit1 a.isS ++ (0 : BitVec 2) ++ p }
  | .lea g ty sh d a b => some { encI2 0x06D { g := g, ty := ty, sat := false, d := d, a := a, b := b } with
      i12 := i12S2 (sh.setWidth 10) b.isS a.isS }
  | .leaImm g ty sh d a i => some { encI2I 0x06D { g := g, ty := ty, sat := false, d := d, a := a, imm := i } with
      i12 := i12S2 (sh.setWidth 10) false a.isS }
  | .fadd o => some (encF2 0x080 o)
  | .fsub o => some (encF2 0x081 o)
  | .fmul o => some (encF2 0x082 o)
  | .fma o => some { Raw.lane 1 0x083 o.g with
      m := mRnd o.ty o.rnd, d := o.d, a := o.a.field, la := o.a.last, b := o.b.field, lb := o.b.last
      i12 := i12S3 o.a o.b o.c }
  | .fdiv o => some (encF2 0x084 o)
  | .fsqrt o => some (encF1 0x085 o)
  | .frcpa o => some (encF1 0x086 o)
  | .frsqa o => some (encF1 0x087 o)
  | .fmin o => some (encF2 0x088 o)
  | .fmax o => some (encF2 0x089 o)
  | .fabs o => some (encF1 0x08A o)
  | .fneg o => some (encF1 0x08B o)
  | .fcpys o => some (encF2 0x08C o)
  | .fcmp g cc ty d a b => some { encF2 0x08D { g := g, ty := ty, rnd := .rn, d := f8 d, a := a, b := b } with
      i12 := i12S2 (cc.code.setWidth 10) b.isS a.isS }
  | .fclass o => some (encF1 0x08E o)
  | .frint o => some (encF1 0x08F o)
  | .fscale o => some (encF2 0x090 o)
  | .fexpn o => some (encF1 0x091 o)
  | .cvt g dty sty mode d a => some { Raw.lane 1 0x0A0 g with
      m := mRnd dty mode, d := d, a := a.field, la := a.last, i12 := i12S2 (sty.code.setWidth 10) false a.isS }
  | .qnt g sty rnd d a b => some { Raw.lane 1 0x0A1 g with
      m := mRnd .bpi rnd, d := d, a := a.field, la := a.last, b := b.field, lb := b.last
      i12 := i12S2 (sty.code.setWidth 10) b.isS a.isS }
  | .dqnt g dty w rnd d a b => some { Raw.lane 1 0x0A2 g with
      m := mRnd dty rnd, d := d, a := a.field, la := a.last, b := b.field, lb := b.last
      i12 := i12S2 (w.setWidth 10) b.isS a.isS }
  | .plane g d a => some { Raw.lane 1 0x0A3 g with m := mRnd .bpi .rn, d := d, a := a.r, la := a.last }
  | .unplane g w d a => some { Raw.lane 1 0x0A4 g with
      m := mRnd .bpi .rn, d := d, a := a.r, la := a.last, i12 := i12S2 (w.setWidth 10) false false }
  | .rand g ty d a b => some (encI2 0x0A5 { g := g, ty := ty, sat := false, d := d, a := a, b := b })
  | .randImm g ty d a i => some (encI2I 0x0A5 { g := g, ty := ty, sat := false, d := d, a := a, imm := i })
  | .ld g fs sp ty d m off => some { encLane 2 0x0C0 g (mRnd ty .rn) sp m d false false with fs := fs, x := x32 off }
  | .st g sp ty data m off => some
      { encLane 2 0x0C1 g (mRnd ty .rn) sp m data.field data.isS data.last with x := x32 off }
  | .ldx g fs ty d m off form disp => some
      { encLane 3 0x0C2 g (mRnd ty .rn) .g m d false false with fs := fs, x := form.ct ++ form.code ++ disp ++ off }
  | .atom g op ord sp ty data m off => some
      { encLane 2 0x0C3 g (mRnd ty .rn) sp m data.field data.isS data.last with
        x := x32 (ord.scopeCode ++ ord.code ++ op.code ++ off) }
  | .xacc g sp ty data m off => some
      { encLane 2 0x0C4 g (mRnd ty .rn) sp m data.field data.isS data.last with x := x32 off }
  | .xrnd g fs sp ty rnd d m off => some
      { encLane 2 0x0C5 g (mRnd ty rnd) sp m d false false with fs := fs, x := x32 off }
  | .fence k sc => some { Raw.blank 1 0x0C6 with i12 := i12Of (k.code ++ sc.code) }
  | .fenceE => some { Raw.blank 1 0x0C6 with i12 := 0x18 }
  | .fenceT => some { Raw.blank 1 0x0C6 with i12 := 0x20 }
  | .copy o => some { Raw.blank 3 0x0C8 with
      fs := o.fs, m := mRnd o.ty .rn, a := f8 o.a, b := f8 (o.dep.getD 0), d := f8 (o.tags.getD 0)
      x := o.baroff ++ o.smoff ++ (0 : BitVec 3) ++ bit1 o.tags.isSome ++ bit1 o.dep.isSome ++ o.dst.obn ++ o.dst.code ++
        o.src.code }
  | .stage => some (Raw.blank 1 0x0C9)
  | .binit a n => some (encCnt 0x0CA 2 a (.imm n))
  | .bexp a n => some (encCnt 0x0CB 2 a n)
  | .bwait a ph => some (encCnt 0x0CC 2 a (.imm ((bit1 ph).setWidth 32)))
  | .ctxnew fs d => some { Raw.blank 1 0x0D0 with fs := fs, d := f8 d }
  | .ctxset fs a => some { Raw.blank 1 0x0D1 with fs := fs, a := f8 a }
  | .ctxendDiscard fs => some { Raw.blank 1 0x0D2 with fs := fs }
  | .ctxendCommit fs => some { Raw.blank 1 0x0D2 with fs := fs, i12 := 1 }
  | .ctxmerge fs d => some { Raw.blank 1 0x0D3 with fs := fs, d := f8 d }
  | .ctxq fs d a => some { Raw.blank 1 0x0D4 with fs := fs, d := f8 d, a := f8 a }
  | .sgjoin sel => some (match sel with
      | .imm gid slot => { Raw.blank 1 0x0D6 with i12 := (0 : BitVec 4) ++ slot ++ gid }
      | .s a => { Raw.blank 1 0x0D6 with a := f8 a, i12 := 0x100 })
  | .sgleave => some (Raw.blank 1 0x0D7)
  | .nmcAxpy o => some (encNmc 0 o)
  | .nmcScale o => some (encNmc 1 o)
  | .nmcFade o => some (encNmc 2 o)
  | .nmcFma o => some (encNmc 3 o)
  | .nmcClamp o => some (encNmc 4 o)
  | .nmcFill o => some (encNmc 5 o)
  | .nmwait => some (Raw.blank 1 0x0D9)
  | .mma o => some { Raw.blank 3 0x100 with
      m := mRnd o.fmt .rn, a := o.a.field, la := o.a.last, b := o.b.field, lb := o.b.last
      i12 := bit1 false ++ bit1 o.b.tr ++ bit1 o.a.tr ++ o.w ++ bit1 o.ct ++ bit1 o.gang.isSome ++ o.b.kind ++ o.a.kind
      x := (0 : BitVec 31) ++ o.gang.getD 0 ++ o.b.off ++ o.a.off ++ o.kg ++ o.acc }
  | .mmar o => some { Raw.blank 3 0x101 with
      m := mRnd .f64 .rn, d := f8 o.d, a := o.a.field, la := o.a.last, b := o.b.field, lb := o.b.last
      i12 := bit1 false ++ bit1 o.b.tr ++ bit1 o.a.tr ++ (0 : BitVec 3) ++ bit1 o.ct ++ (0 : BitVec 1) ++ o.b.kind ++ o.a.kind
      x := (0 : BitVec 30) ++ bit1 o.init ++ (0 : BitVec 2) ++ o.b.off ++ o.a.off ++ o.kg ++ o.acc }
  | .mzero fmt ct acc => some { Raw.blank 1 0x102 with m := mRnd fmt .rn, i12 := bit1 ct ++ acc }
  | .minit fmt ct acc src => some { Raw.blank 3 0x103 with
      m := mRnd fmt .rn, x := (0 : BitVec 41) ++ bit1 ct ++ src ++ acc }
  | .mdrain o => some { Raw.blank 3 0x104 with
      m := mRnd o.dty o.rnd
      x := (0 : BitVec 19) ++ o.smoff ++ o.row ++ o.w ++ bit1 o.ct ++ o.sf.code ++ o.dst ++ o.acc }
  | .gset gid rs => some { Raw.blank 3 0x105 with i12 := i12Of gid, x := (gsetBits rs).setWidth 64 }
  | .mfence fs d => some { Raw.blank 1 0x106 with fs := fs, d := f8 d }
  | .mwait clr a => some { Raw.blank 1 0x107 with a := f8 a, i12 := i12Of (bit1 clr) }
  | .mwaitImm clr n => some { Raw.blank 2 0x107 with i12 := i12Of (bit1 clr), x := x32 n }
  | .msave off => some { Raw.blank 2 0x108 with x := x32 off }
  | .mresume off => some { Raw.blank 2 0x109 with x := x32 off }
  | .ctbl a => some { Raw.blank 3 0x10A with a := f8 a }
  | .obrel n => some { Raw.blank 1 0x10B with i12 := i12Of n }
  | .resf g d a x b => some { Raw.lane 1 0x120 g with
      m := mRnd .f64 .rn, d := d, a := a.field, la := a.last, b := x.field, lb := x.last, i12 := i12S3 a x b }
  | .dcor o => some { Raw.lane 2 0x121 o.g with
      m := mRnd .f64 .rn, d := o.d, a := o.x.r, la := o.x.last, b := o.r.r, lb := o.r.last
      i12 := (0 : BitVec 10) ++ bit1 o.more ++ bit1 o.box.isSome
      x := x32 (((o.box.map DcorBox.phi).getD 0) ++ ((o.box.map DcorBox.plo).getD 0) ++ ((o.box.map DcorBox.bnd).getD 0) ++
        bit1 o.m.isS ++ bit1 o.m.last ++ o.m.field) }
  | .wstart ty d b a c => some { Raw.blank 3 0x122 with
      m := mRnd ty .rn, d := d, a := f8 a, b := b.r, lb := b.last, x := (f8 c).setWidth 64 }
  | .svcfgTol a => some (encSvcfg 0 a)
  | .svcfgTolImm i => some (encSvcfgI 0 i)
  | .svcfgLimit a => some (encSvcfg 1 a)
  | .svcfgLimitImm i => some (encSvcfgI 1 i)
  | .svcfgGrow a => some (encSvcfg 2 a)
  | .svcfgGrowImm i => some (encSvcfgI 2 (i.setWidth 32))
  | .svcfgReset => some (encSvcfg 3 0)
  | .svstat d => some { Raw.blank 1 0x124 with d := f8 d }
  | .pmark g ty d a => some (encI1 0x125 { g := g, ty := ty, sat := false, d := d, a := a })
  | .bar b rs => some { Raw.blank 1 0x140 with i12 := i12Of (rs ++ b) }
  | .arrive b rs => some { Raw.blank 1 0x141 with i12 := i12Of (rs ++ b) }
  | .await b => some { Raw.blank 1 0x142 with i12 := i12Of b }
  | .depinit a n => some (encCnt 0x143 0 a n)
  | .depdec fs a off => some { Raw.blank 2 0x144 with fs := fs, a := f8 a, x := x32 off }
  | .cpost a entry prio => some { Raw.blank 3 0x145 with a := f8 a, x := (0 : BitVec 24) ++ prio ++ entry }
  | .trap g n => some { Raw.lane 1 0x1F0 g with i12 := i12Of n }
  | .tret => some (Raw.blank 1 0x1F1)
  | .pchk => some (Raw.blank 1 0x1F2)
  | .tlbi r => some (match r with
      | none => { Raw.blank 2 0x1F3 with i12 := 1 }
      | some (a, n) => { Raw.blank 2 0x1F3 with a := f8 a, x := x32 n })
  | .lpsw => some (Raw.blank 1 0x1F4)
  | _ => none

/-- The bits of the item that names an instruction (R92, R98), or of a clause header (R87); none for a device event and
for RESERVED_OPCODE. -/
def encode (i : Instr) : Option (BitVec 128) :=
  match i with
  | .clauseStart h => some ((encodeHeader h).setWidth 128)
  | i => (encodeRaw i).map Raw.toBits

end Sys2Proof
end

