-- ==== Sys2Proof/Machine/State.lean ====
section
/-!
DEFINITION. The state of one package: everything the spec names, as plain data. Sparse storage is a list in rising key
order; what an unlisted key reads as is said at each type. INVENTORY.md lists each piece with its rule and reset value.
-/
namespace Sys2Proof.Machine

/-- A table: entries in strictly rising order of their keys. -/
abbrev Tab (α : Type) := List (Nat × α)

/-- Byte storage with standing: the bytes that are not 0 and the 32-byte sectors that are not settled, each in strictly
rising order. An unlisted byte reads 0 and an unlisted sector reads settled (R219, R443). -/
structure Memory where
  bytes : List Host.Cell
  std : List (Nat × Standing)
  deriving DecidableEq, Repr

/-- Strictly rising keys. -/
def rising {α : Type} : List (Nat × α) → Bool
  | [] => true
  | [_] => true
  | x :: y :: t => x.1 < y.1 && rising (y :: t)

/-- The canonical form: keys rise strictly, no listed byte is 0 and no listed sector is settled. -/
def Memory.wf (m : Memory) : Bool :=
  rising m.bytes && m.bytes.all (fun c => c.2 != 0) && rising m.std && m.std.all (fun c => c.2 != .S)

/-- Storage of zeros, settled. -/
def Memory.zero : Memory := { bytes := [], std := [] }

/-- A value of an s register with its standing (R133). -/
structure SVal where
  val : DWord
  st : Standing
  deriving DecidableEq, Repr

/-- A mapped row of a v register: the 32-bit elements of a group's 8 lanes, lane i in bits 32i to 32i + 31, and their
standing, lane i in bits 2i and 2i + 1 (R135). -/
structure VRow where
  vals : BitVec 256
  st : BitVec 16
  deriving DecidableEq, Repr

/-- A p register: one value and two standing bits per role lane (R133). -/
structure PRow where
  val : Mask
  lo : Mask
  hi : Mask
  deriving DecidableEq, Repr

/-- A divergence-stack entry (R126). -/
structure DivEntry where
  mask : Mask
  taken : Mask
  falloff : BitVec 32
  joinoff : BitVec 32
  taint : Bool
  phase : Bool
  deriving DecidableEq, Repr

/-- A return-stack entry (R146). -/
structure RetEntry where
  off : BitVec 32
  depth : Nat
  deriving DecidableEq, Repr

/-- The solve state (R343, R344), the pass accumulator and %wsstat (R347). -/
structure Solve where
  tol : SVal
  pass : SVal
  grow : SVal
  limit : SVal
  max : SVal
  stat : SVal
  wsstat : SVal
  cmax : BitVec 64
  npend : Nat
  box : Bool
  deriving DecidableEq, Repr

/-- A code-table slot: 16 FP16 entries and their standing (R330). -/
structure CtSlot where
  entries : BitVec 256
  st : Standing
  deriving DecidableEq, Repr

/-- The trap record (R405); lanes holds NAMED, one bit per role lane. -/
structure TrapRec where
  code : BitVec 8
  pc : BitVec 32
  aux : SVal
  lanes : Mask
  deriving DecidableEq, Repr

/-- Where a role stands in its code: the item's offset, the clause header's offset, the instructions left in the clause
after the header (0 at a header) and the flags the clause sets (R86 to R89). -/
structure CodePos where
  pc : BitVec 32
  hdr : BitVec 32
  left : Nat
  fa : Option (BitVec 4)
  fb : Option (BitVec 4)
  deriving DecidableEq, Repr

/-- What a trap entry records (R404, R417): next is TRNEXT, pcw is PCW. -/
structure TrapEntry where
  mask : Mask
  divDepth : Nat
  retDepth : Nat
  resume : CodePos
  trClause : BitVec 32
  next : Bool
  pcw : Bool
  deriving DecidableEq, Repr

/-- The deferred faults pending for a role, each with its %trapaux (R287, R416). -/
structure Deferred where
  dep : Option DWord
  overlay : Option DWord
  bar : Option DWord
  remote : Option DWord
  deriving DecidableEq, Repr

/-- A held translation: the page's virtual base and size, its leaf entry, the logical bulkhead whose gate it was made at and
the link generation of its frame there (R225, R235). -/
structure Xl where
  va : Nat
  size : Nat
  entry : BitVec 64
  gate : Nat
  gen : BitVec 16
  deriving DecidableEq, Repr

/-- A translated address: as it was named, the partition it lies in and the address there, its page, and the window entry that
it passed, by its physical bulkhead and index (R49, R225). -/
structure Hit where
  named : Nat
  pp : Nat
  va : Nat
  x : Xl
  via : Option (Nat × Nat)
  deriving DecidableEq, Repr

/-- Why a role is parked (R131, R410). -/
inductive Park where
  | bar (b : BitVec 4)
  | await (b : BitVec 4)
  | bwait
  | mwait
  | nmwait
  | ctxnew
  | overlay
  | sgjoin
  | sgEnd (gid : BitVec 4)
  | cpost
  | msave
  | gset
  | ctbl
  | gang (g : BitVec 2)
  | ranges
  | nmcQueue
  | obMigrate
  | sgMigrate
  | budget
  | earlier
  | page (va : BitVec 64)
  | remote (va : BitVec 64)
  | dual
  | held (bulk : Nat)
  | hung (bulk : Nat)
  | moving (va : BitVec 64) (bulk : Option Nat)
  deriving DecidableEq, Repr

/-- How a stopped role resumes, with the codes of R410. -/
inductive RKind where
  | header | next | reissue | await | replay | ended
  deriving DecidableEq, Repr

/-- Where a 32-byte sector lies: in a team's scratch, in a partition's bulkhead scratch, in the cell of a tag that names the context
created when the write count stood at born, or in storage, behind remote nodes (ext) or in the stacks (R243, R359). -/
inductive SecLoc where
  | t (team : Nat)
  | b (pp : Nat)
  | c (pp : Nat) (tag : BitVec 14) (born : Nat)
  | m (ext : Bool)
  deriving DecidableEq, Repr

/-- A sector as it stands before a write: the bytes that the write covers, the sector's bytes and its state. -/
structure OldSec where
  loc : SecLoc
  sec : Nat
  bytes : BitVec 32
  old : BitVec 256
  st : Standing
  deriving DecidableEq, Repr

/-- An engine operation as its writes carry it: its name and owner, and how its role observes its completion (R372): its flag,
its barrier, its batches, or NMWAIT and a fence. -/
structure OpMark where
  id : Nat
  owner : RoleRef
  flag : Option (BitVec 4)
  bar : Option Nat
  batches : List (RoleRef × BitVec 32)
  nmc : Bool
  deriving DecidableEq, Repr

/-- A write that some agent may still read beneath (R362, R370): when it was made; the role or the engine operation that made it;
what it replaced and the standing that it brought; the roles that have made, read or observed it; when it became visible to every
agent; and the releases that have ordered it, with their roles, scopes and times (R367). -/
structure PastWrite where
  time : Nat
  role : Option RoleRef
  op : Option OpMark
  was : OldSec
  put : Standing
  knows : List RoleRef
  all : Option Nat
  rels : List (RoleRef × Scope × Nat)
  deriving DecidableEq, Repr

/-- An operand-cache entry of a core: its team, its tag (the descriptor with its handle, the format, K, the rows, the
transposition and the core's scratch-write generation) and the scratch that its operand was read from (R325). -/
structure CacheEnt where
  team : Nat
  d0 : DWord
  d1 : DWord
  fmt : Ty
  groups : Nat
  rows : Nat
  tr : Bool
  gen : Nat
  mem : Memory
  deriving DecidableEq, Repr

/-- An operand of a matrix operation: register values captured at issue, row by row, with their standing; a scratch
descriptor; or a buffer with the generation latched (R315 to R317, R324). -/
inductive MOpnd where
  | regs (vals : List SVal)
  | scr (d0 : DWord) (d1 : DWord) (tr : Bool)
  | buf (n : BitVec 3) (off : BitVec 7) (gen : BitVec 16) (tr : Bool)
  deriving DecidableEq, Repr

/-- One piece of a matrix operation: its operands, its K-groups, SSTAND, the code-table slot latched with its entries, its
role and the groups applied (R326 to R330); fenced is the time of its role's last FENCE.E, and viewA and viewB the scratch
that its operands read where that is not the team's as it stands (R294, R322, R325). -/
structure MPiece where
  role : RoleRef
  a : MOpnd
  b : MOpnd
  groups : Nat
  done : Nat
  sstand : Standing
  slot : Option Bool
  table : CtSlot
  fenced : Nat := 0
  viewA : Option Memory := none
  viewB : Option Memory := none
  deriving DecidableEq, Repr

/-- The kinds of matrix operation (R331 to R336). -/
inductive MKind where
  | mma
  | mmar (init : Bool) (b0 : BitVec 32)
  | mzero
  | minit (src : BitVec 11)
  | mdrain (o : MdrainOps)
  deriving DecidableEq, Repr

/-- A matrix operation in flight or suspended: joint operations have several pieces (R326). acc is the accumulator's offset
in 256-byte units, sstand the state that MZERO, MINIT and MDRAIN join in, and word0 and x64 are the instruction's bits for
the record of R328. src is the view of B0 or of the source of MINIT, as a piece's, and opened tells that the views have been
chosen; accSt holds the standing of each element of the accumulator once groups have been applied (R329, R332). -/
structure MOp where
  kind : MKind
  fmt : Ty
  ct : Bool
  w : BitVec 3
  acc : BitVec 11
  pieces : List MPiece
  joint : Bool
  word0 : DWord
  x64 : DWord
  sstand : Standing
  src : Option Memory := none
  opened : Bool := false
  accSt : List Standing := []
  deriving DecidableEq, Repr

/-- A suspended operation of a role (R329), whether MRESUME took it up or OBREL dropped it (R340, R342); when a pre-emption or a
dispute suspended it (R408, R411), its batches; and the core where a lasting fault has struck it (R137, R320). -/
structure Susp where
  op : MOp
  gone : Bool
  pre : Option (List (RoleRef × BitVec 32))
  struck : Option (Nat × Nat) := none
  deriving DecidableEq, Repr

/-- A role (R124). latest is its latest matrix operation (R339, R411). s, p and v registers that no entry lists read 0, settled (R11, R133); v rows are keyed by
register × 128 + role group. ms holds %ms0 to %ms7 as the program reads them (R328). pos is the program counter; item is the position of the item that the role executes or
executed last, which a precise trap or a parked instruction returns to. dualAt is the instruction that a lasting fault has
struck, and the core (R137). ctxBorn is the birth of the context that
%ctx names (R375). heldSeq is the number under which a stack, a gate or a
move has accepted its request and holds it (R58, R232, R272). Of the order of its accesses (R363): fencedAt is the time of its last
FENCE.E, nmAt that of its last NMWAIT, acq lists its latest acquire of each scope, rels the releases that its next write completes,
and barDone the barriers that have answered an arrival since its last AWAIT. -/
structure Role where
  first : Nat
  ngroups : Nat
  budget : Nat
  pos : CodePos
  item : CodePos
  begun : Bool
  ended : Bool
  mask : Mask
  dead : Mask
  off : Mask
  exited : Mask
  div : List DivEntry
  ret : List RetEntry
  v : Tab VRow
  p : Tab PRow
  s : Tab SVal
  out : List (Option (BitVec 4))
  stage : BitVec 16
  ctx : BitVec 14
  ctxBorn : Nat := 0
  solve : Solve
  batch : BitVec 32
  ms : List DWord
  ovf : Bool
  ct0 : CtSlot
  ct1 : CtSlot
  ctNew : Bool
  susp : List Susp
  latest : Option Nat
  trap : TrapRec
  entry : Option TrapEntry
  deferred : Deferred
  nmcCount : BitVec 32
  nmcErr : Option (BitVec 32)
  lastPage : Tab Xl
  barOut : BitVec 16
  park : Option Park
  unfinished : Option Mask
  accessErr : Option Nat
  heldSeq : Option Nat := none
  yielded : Bool
  stop : Option RKind
  issued : Nat
  dualAt : Option (BitVec 32 × Nat × Nat)
  fencedAt : Nat := 0
  nmAt : Nat := 0
  acq : List (Scope × Nat) := []
  rels : List (Scope × Nat) := []
  barDone : BitVec 16 := 0
  deriving DecidableEq, Repr

/-- A named barrier (R383). -/
structure Barrier where
  phase : Bool
  latched : Option (BitVec 4)
  arrived : BitVec 4
  deriving DecidableEq, Repr

/-- A filled gang entry: the role's piece, the MMA's shape and, for a role's last entry, the marked registers whose rows are
freed when the gang fires (R326). -/
structure GangFill where
  piece : MPiece
  frees : List (BitVec 8)
  fmt : Ty
  acc : BitVec 11
  ct : Bool
  w : BitVec 3
  word0 : DWord
  x64 : DWord
  deriving DecidableEq, Repr

/-- A gang: its list of roles and, by entry, what has been filled (R326). -/
structure Gang where
  roles : List (BitVec 2)
  fills : List (Nat × GangFill)
  deriving DecidableEq, Repr

/-- An operand buffer's generation state (R324, R415). -/
structure ObGen where
  gen : BitVec 16
  latched : Bool
  cons : Bool
  deriving DecidableEq, Repr

/-- The operand buffers and scale memory that a team holds (R323): buffer n at 32,768n, scale entry e at byte 4e with its
standing keyed by e. -/
structure OpBufs where
  mem : Memory
  gens : List ObGen
  scale : Memory
  deriving DecidableEq, Repr

/-- A dependence counter that an operation decrements: its address as named, and the partition, the address there and the
translation made at issue (R293, R398). -/
structure CtrRef where
  named : DWord
  pp : Nat
  va : Nat
  x : Xl
  deriving DecidableEq, Repr

/-- A schedule entry that has become due and is not yet registered as a copy: its index, the taint of its due point and its
translations, one for each 64 KiB (R17, R18). -/
structure DueEntry where
  idx : Nat
  taint : Bool
  xls : List Hit
  dep : Option CtrRef
  deriving DecidableEq, Repr

/-- How a team was ended (R406, R435). -/
structure TeamEnd where
  code : BitVec 8
  role : Nat
  pc : BitVec 32
  aux : DWord
  user : Bool
  reset : Bool
  deriving DecidableEq, Repr

/-- Where a team stands (R72, R410, R431). saved holds a team that waits to be placed again. -/
inductive TPhase where
  | inbound | resident | stopping | saved | finishing
  deriving DecidableEq, Repr

/-- Why a team is being pre-empted (R410). -/
inductive PreReason where
  | priority | remap | gather | sharing | buffers | dual
  deriving DecidableEq, Repr

/-- Where firmware keeps the save record of a team (R44, R46, R414): in the save area of a spare at an offset of its stack, or at a
partition physical address; and its length. -/
structure SaveRec where
  spare : Option Nat
  at_ : Nat
  len : Nat
  deriving DecidableEq, Repr

/-- A team (R123). limit restricts the bulkhead of its next placement, excl excludes cores, members restricts it to the
cores of a sharing group (R46, R77, R79, R82, R323). retiring holds the tags that became HELD and the PENDING ones, once steps 2
and 3 of its retirement have been taken (R431). -/
structure Team where
  part : Nat
  serial : BitVec 64
  taskidx : BitVec 32
  task : Bool
  gx : BitVec 32
  gy : BitVec 32
  gz : BitVec 32
  prio : BitVec 3
  bulk : Nat
  core : Nat
  order : Nat
  phase : TPhase
  roles : List Role
  scratch : Memory
  bars : List Barrier
  gangs : List Gang
  due : List DueEntry
  released : List Nat
  ob : Option OpBufs
  sg : Option (BitVec 4 × BitVec 4)
  pre : Option PreReason
  limit : Option Nat
  excl : List (Nat × Nat)
  members : Option (BitVec 4)
  cohort : Option Nat
  fin : Option TeamEnd
  dropped : BitVec 4
  retiring : Option (List Nat × List Nat) := none
  record : Option SaveRec := none
  deriving DecidableEq, Repr

/-- A range-lock entry: the space, the sectors it covers and its kind (R276). The key of a .T range is the team's, of a
.G range the partition's virtual sector, of a .B range the partition's scratch sector. -/
inductive LockSpace where
  | t | g | b
  deriving DecidableEq, Repr
inductive LockKind where
  | read | write | bar
  deriving DecidableEq, Repr
structure Lock where
  space : LockSpace
  lo : Nat
  hi : Nat
  kind : LockKind
  deriving DecidableEq, Repr

/-- An endpoint of a copy, resolved at issue (R288 to R291). A surface is its record, and tag is the context tag. -/
inductive Ep where
  | g (va : DWord) (tag : BitVec 14)
  | surf (rec : BitVec 512) (org : List Nat) (tag : BitVec 14)
  | t (off : Nat)
  | b (addr : Nat)
  | ob (n : BitVec 3) (off : Nat) (gen : BitVec 16)
  deriving DecidableEq, Repr

/-- Where the scales of a copy go and where they come from, and whether their surface is a proposal surface (R21, R291). -/
structure ScalePlace where
  smoff : Nat
  first : Nat
  count : Nat
  base : DWord
  prop : Bool
  deriving DecidableEq, Repr

/-- A copy in flight (R291, R293). mark joins P into what it writes; planes is 8 unless the source is a BPI surface; xls
holds its translations, one for each 64 KiB; written counts the bytes delivered. sborn and dborn are the births of the contexts
that its tags name (R375). -/
structure CopyOp where
  src : Ep
  dst : Ep
  ext : List Nat
  ty : Ty
  planes : Nat
  prop : Bool
  mark : Bool
  scale : Option ScalePlace
  bar : Option Nat
  dep : Option CtrRef
  xls : List Hit
  written : Nat
  sborn : Nat := 0
  dborn : Nat := 0
  deriving DecidableEq, Repr

/-- A near-memory command (R310) and what it has met so far (R312). -/
structure NmcOp where
  serial : BitVec 32
  sstand : Standing
  f64 : Bool
  code : BitVec 4
  n : Nat
  recAddr : DWord
  p1 : DWord
  p0 : DWord
  w : DWord
  x : DWord
  y : DWord
  bulk : Nat
  xls : List Hit
  nerr : Nat
  firstErr : BitVec 32
  lost : Bool
  deriving DecidableEq, Repr

/-- What an engine operation does. -/
inductive EKind where
  | copy (c : CopyOp) (sched : Option Nat)
  | nmc (c : NmcOp)
  | mat (m : MOp)
  deriving DecidableEq, Repr

/-- An engine operation issued and not completed: its owner, the flag that tracks it, its ranges, its batches, whether it
has started and moved its data (R276, R327), the bulkhead whose held requests have been completed with error (R58, R272),
the core where a lasting fault has struck it before (R137, R320), and the number under which it has been accepted and held
(R232, R272); id is its name, and fenced the time of its owner's last FENCE.E when it was issued (R294). -/
structure EngOp where
  owner : RoleRef
  part : Nat
  flag : Option (BitVec 4)
  locks : List Lock
  batches : List (RoleRef × BitVec 32)
  started : Bool
  moved : Bool
  err : Option Nat
  struck : Option (Nat × Nat)
  hold : Option Nat := none
  id : Nat := 0
  fenced : Nat := 0
  kind : EKind
  deriving DecidableEq, Repr

/-- A context-table entry that is not FREE (R238); born is the model's write count at its creation (R252), owner the team
that allocated it and adopter the team that adopted it (R241, R247). -/
inductive CtxState where
  | live | pending | held
  deriving DecidableEq, Repr
structure CtxEnt where
  state : CtxState
  parent : BitVec 14
  depth : Nat
  owner : Nat
  adopter : Option Nat
  born : Nat
  deriving DecidableEq, Repr

/-- A cell: the tag, the virtual 128-byte line, its bytes (byte i in bits 8i to 8i + 7), its four sectors' standing, the
logical bulkhead of its pool line and the line's number in that pool (R243, R245, R246), and the names of the keys that its
two units were written under (R64). -/
structure CtxCell where
  tag : BitVec 14
  line : Nat
  data : BitVec 1024
  st : List Standing
  pool : Nat
  slot : Nat
  keys : Nat × Nat
  deriving DecidableEq, Repr

/-- A launch queue's registers (R26 to R29). The records it holds are the launches of its number. -/
structure Queue where
  ser : Bool
  en : Bool
  prio : BitVec 3
  bad : Bool
  ovf : Bool
  resErr : Bool
  doneErr : Bool
  res : BitVec 40
  notify : BitVec 53
  deriving DecidableEq, Repr

/-- A side-table entry (R7). -/
structure SideEntry where
  off : BitVec 32
  vlive : BitVec 256
  plive : BitVec 128
  slive : BitVec 128
  deriving DecidableEq, Repr

/-- Where a launch stands: appended, accepted (its tables read), complete with a residue, or complete (R13, R36, R39). -/
inductive LPhase where
  | appended | running | residue | done
  deriving DecidableEq, Repr

/-- A launch: the device's copy of its record (R14), its serial (R30), its latched priority (R33), the tables read at
acceptance (R8), how many grid teams have been placed, and the counts of R37. -/
structure Launch where
  lrec : BitVec 2048
  serial : BitVec 64
  queue : BitVec 6
  phase : LPhase
  prio : Option (BitVec 3)
  next : Nat
  side : List SideEntry
  surfs : List (BitVec 512)
  scales : Tab (BitVec 512)
  sched : List (BitVec 512)
  teams : Nat
  tasks : Nat
  stranded : Nat
  deadTeams : Nat
  firstIdx : Option (BitVec 32 × BitVec 8)
  faulted : Bool
  reset : Bool
  deriving DecidableEq, Repr

/-- A posted task that waits or is ready: its continuation record (R389), its posting launch, the physical home of its
counter, its target bulkhead and whether its launch completed with it stranded (R39, R393). -/
structure TaskRec where
  trec : BitVec 512
  part : Nat
  serial : BitVec 64
  ctr : Option Nat
  home : Nat
  target : Nat
  stranded : Bool
  deriving DecidableEq, Repr

/-- A window-table entry (R49, R50); live is cleared by revocation, and the view then raises WINDOW (R52). -/
structure Win where
  view : DWord
  target : DWord
  size : DWord
  rw : Bool
  rate : BitVec 32
  grantor : BitVec 16
  grantee : BitVec 16
  live : Bool
  deriving DecidableEq, Repr

/-- A page that is being moved (R232): its leaf's location is found from va; what is held waits as parked roles. -/
structure Move where
  va : BitVec 64
  tier : BitVec 2
  frame : BitVec 39
  deriving DecidableEq, Repr

/-- A page that firmware migrated: its virtual page and size, its former leaf, its frame's partition physical address and
whether it has been written since (R230). -/
structure Migrated where
  va : Nat
  size : Nat
  former : BitVec 64
  frame : Nat
  written : Bool
  deriving DecidableEq, Repr

/-- A grant whose verification waits until the operations that passed the entry it replaces have completed (R53). -/
structure GrantWait where
  bulk : Nat
  win : Nat
  code : BitVec 8
  ops : List Nat
  deriving DecidableEq, Repr

/-- A position that is being gathered for a launch's next cohort: its logical bulkhead, its first core and its size (R77). -/
structure Gathering where
  serial : BitVec 64
  bulk : Nat
  start : Nat
  size : Nat
  deriving DecidableEq, Repr

/-- A CTXEND.DISCARD or CTXMERGE issued and not completed: its role, the flag that tracks it and the tags that become FREE, with
their descendants and cells, when it completes (R240, R249, R251). -/
structure Retire where
  role : RoleRef
  flag : Option (BitVec 4)
  tags : List (BitVec 14)
  deriving DecidableEq, Repr

/-- A partition (R44): what the image gives and the state that belongs to it. map is MAP's nibbles (R25); ctxs lists the
tags that are not FREE, tag 0 apart; linkGen and nodeGen are keyed by the gate and its target (gate × 8 + bulkhead, gate × 1024 +
node), and downBulk and downNode list the targets that a gate's link does not reach, with the same keys (R235); remapStop and
remapping list the logical bulkheads in step 2 of a remap and in its steps 3 to 5, remapTo with the spare of each (R46); blockSize and threshold are
firmware's settings of R231. -/
structure Part where
  cfg : PartCfg
  map : List Nat
  opened : Bool
  appends : BitVec 64
  lastQueue : BitVec 6
  queues : List Queue
  attNonce : BitVec 256
  attDest : DWord
  attGo : Bool
  attErr : Bool
  grantIn : BitVec 1280
  grantStat : BitVec 8
  grantWait : Option GrantWait
  grantSerial : BitVec 64
  launches : List Launch
  ctxs : Tab CtxEnt
  cells : List CtxCell
  lastWrite : List (BitVec 14 × Nat × Nat)
  pools : List Nat
  retires : List Retire
  bscratch : Memory
  waiting : List TaskRec
  ready : List TaskRec
  tlb : List Xl
  linkGen : Tab (BitVec 16)
  nodeGen : Tab (BitVec 16)
  downBulk : List Nat
  downNode : List Nat
  remapStop : List Nat
  remapping : List Nat
  remapTo : List (Nat × Nat)
  gathers : List Gathering
  moves : List Move
  migrated : List Migrated
  blockSize : Nat
  threshold : Nat
  deriving DecidableEq, Repr

/-- BSTAT.STATE (R446). -/
inductive BState where
  | running | reset | remap | out
  deriving DecidableEq, Repr

/-- A core's latent datapath fault (R137): a physical input. -/
inductive CoreFault where
  | transient | lasting
  deriving DecidableEq, Repr

/-- A latent error of a 64-byte unit of a stack (R260): a physical input. The next read fails once (transient), some of its
bytes are wrong (bad), and the symbols of its block have been rewritten since, so that they can no longer tell (lost). -/
structure Flaw where
  transient : Bool
  bad : BitVec 64
  lost : Bool
  deriving DecidableEq, Repr

/-- A physical bulkhead (R41, R446). Numbers 0 to 7 are this package's; 8 to 15 are the bulkheads of another package that
a partition's MAP can name (R25). coreGens and coreCache are its cores' scratch-write generations and operand caches, by core
(R325). -/
structure Bulk where
  railOn : Bool
  state : BState
  clk : Nat
  lim : Bool
  therm : Bool
  sref : Bool
  spare : BitVec 8
  uncorr : BitVec 16
  corr : BitVec 24
  trans : BitVec 24
  lasting : BitVec 32
  transient : BitVec 32
  overPower : Bool
  cool : Bool
  coresOut : List Nat
  coreFault : Tab CoreFault
  coreGens : Tab Nat
  coreCache : Tab (List CacheEnt)
  gate : Bool
  hung : Bool
  wins : List (Option Win)
  meas : BitVec 256
  stepOne : Bool
  failedTest : Bool
  kept : Bool
  clean : Bool
  deriving DecidableEq, Repr

/-- What a host, a grantee or firmware request answered last (R23, R449): an error response, or the bytes read with
their standing. -/
inductive Reply where
  | none
  | error
  | done
  | data (bytes : List Byte) (st : Standing)
  deriving DecidableEq, Repr

/-- The machine's state. outside lists the requests from outside the package that wait, with the numbers under which
they have been accepted and what holds them (R232, R272); serving is the number of the one that is being performed. past lists, oldest
first, the writes that an agent may still read beneath, and clock orders them (R358 to R375, log 2). tick, free,
inputs, turn, cur, reply, outside, serving, past, clock, nextTeam, nextOp and seq are the model's own (log 2, 3, 4, 5
and 8); every other field is the spec's. Stack bytes are keyed by bulkhead × 2^37 + offset; memory reached at TIER 2 and
3 by (tier × 1024 + node) × 2^45 + address (R223). mem holds the bytes in the clear; ukeys names the key that each unit was
written under (R63), flaws and symFlaws what is wrong in the units and in the symbols of a block (R260), keyGen how often a slot
has been generated again, and keyEra how often all of them have been generated (R62). -/
structure State where
  tick : Nat
  free : Nat
  inputs : List Instr
  turn : Option RoleRef
  cur : RoleRef
  reply : Reply
  outside : List (Nat × Option Park × Instr)
  serving : Option Nat
  past : List PastWrite
  clock : Nat
  nextTeam : Nat
  nextOp : Nat
  seq : Nat
  powered : Bool
  dies : List Bool
  bulks : List Bulk
  mem : Memory
  extMem : Memory
  flaws : Tab Flaw
  symFlaws : Tab (BitVec 16)
  ring : BitVec 8
  keyGen : Tab Nat
  keyEra : Nat
  ukeys : Tab Nat
  repSerial : BitVec 64
  cfgDigest : BitVec 256
  parts : Tab Part
  teams : Tab Team
  ops : Tab EngOp
  deriving DecidableEq, Repr

/-- Why a step stops with a fault. -/
inductive Fault where
  /-- exec was asked for a program instruction while cur names no role that can issue. Raised by every program
  instruction through the shared operation that finds its role; step never asks it. Safe. -/
  | noIssuer
  deriving DecidableEq, Repr

/-- Why a step is refused. -/
inductive Refusal where
  /-- The instruction has no meaning in the model yet. Raised by an arm of exec. Safe. -/
  | notModelled (mnemonic : String)
  deriving DecidableEq, Repr

/-- A bulkhead before power-up (R446: CLK 3,300, SPARE 0xFF, every counter 0). -/
def Bulk.reset : Bulk :=
  { railOn := false, state := .running, clk := 3300, lim := false, therm := false, sref := false, spare := 0xFF,
    uncorr := 0, corr := 0, trans := 0, lasting := 0, transient := 0, overPower := false, cool := false, coresOut := [],
    coreFault := [], coreGens := [], coreCache := [], gate := false, hung := false, wins := List.replicate 16 none, meas := 0,
    stepOne := false, failedTest := false, kept := false, clean := true }

/-- The device before its power-up sequence has run (R443): no partition, no team, storage of zeros, settled. -/
def State.reset : State :=
  { tick := 0, free := 0, inputs := [], turn := none, cur := { team := 0, role := 0 }, reply := .none, outside := [], serving := none,
    past := [], clock := 0, nextTeam := 0,
    nextOp := 0, seq := 0, powered := false, dies := List.replicate 4 false, bulks := List.replicate 16 Bulk.reset,
    mem := Memory.zero, extMem := Memory.zero, flaws := [], symFlaws := [], ring := 0xFF, keyGen := [],
    keyEra := 0, ukeys := [], repSerial := 0, cfgDigest := 0,
    parts := [], teams := [], ops := [] }

end Sys2Proof.Machine
end

