-- ==== Sys2Proof/Machine/Flags.lean ====
section
/-!
DEFINITION. Standing (R138 to R142): the join, the rules of results, and the two-bit codes. The device has no condition
flags; standing is what every result computes beside its value.
-/
namespace Sys2Proof.Machine

/-- The join of two states (R138). -/
def joinSt : Standing → Standing → Standing
  | .Z, _ => .Z
  | _, .Z => .Z
  | .P, _ => .P
  | _, .P => .P
  | .S, .S => .S
  | .R, .R => .R
  | .S, .R => .P
  | .R, .S => .P

/-- The join of a list; of no state, settled (an immediate is settled, R83). -/
def joinAll : List Standing → Standing
  | [] => .S
  | [a] => a
  | a :: t => joinSt a (joinAll t)

/-- A taint, an unsettled guard or an unsettled address joined in: P joins, S leaves the state as it is (R129, R140). -/
def markSt (p : Bool) (st : Standing) : Standing := if p then joinSt st .P else st

/-- Is a state P or R (R140, R142, R147)? -/
def unsettled (st : Standing) : Bool := st == .P || st == .R

/-- The standing of a result of a narrow type: P, or Z when a source is Z (R139). -/
def narrowSt (st : Standing) : Standing := if st == .Z then .Z else .P

/-- A result's standing by its type (R139). -/
def tySt (ty : Ty) (st : Standing) : Standing :=
  match ty with
  | .f16 | .bf16 | .bpi => narrowSt st
  | _ => st

/-- The codes of the states: S 00, R 01, P 10, Z 11 (R138). -/
def stCode : Standing → BitVec 2
  | .S => 0 | .R => 1 | .P => 2 | .Z => 3
def stOf (c : BitVec 2) : Standing :=
  match c.toNat with
  | 0 => .S | 1 => .R | 2 => .P | _ => .Z

end Sys2Proof.Machine
end

