-- ==== Sys2Proof/Machine/Ops.lean ====
section
/-!
DEFINITION. The named operations over tables, storage, roles and registers; lane kill (R143, R144), the end of a role and
of a team (R148, R384, R406), taking a trap (R404 to R406) and the return from one (R421).
-/
namespace Sys2Proof.Machine

/-- The outcome of a step. -/
abbrev Out := Host.Outcome State Fault Refusal

/-! Tables: lists in rising key order. -/

/-- The entry of a key. -/
def tget {α : Type} : Tab α → Nat → Option α
  | [], _ => none
  | (k, v) :: t, x => if k == x then some v else tget t x

/-- Set the entry of a key, keeping the keys rising. -/
def tset {α : Type} : Tab α → Nat → α → Tab α
  | [], x, v => [(x, v)]
  | (k, w) :: t, x, v => if x < k then (x, v) :: (k, w) :: t else if x = k then (x, v) :: t else (k, w) :: tset t x v

/-- Remove the entry of a key. -/
def tdel {α : Type} : Tab α → Nat → Tab α
  | [], _ => []
  | (k, w) :: t, x => if k = x then tdel t x else (k, w) :: tdel t x

/-- Change an entry that is there. -/
def tmod {α : Type} (t : Tab α) (x : Nat) (f : α → α) : Tab α :=
  match tget t x with
  | some v => tset t x (f v)
  | none => t

/-- Replace element i of a list. -/
def lset {α : Type} : List α → Nat → α → List α
  | [], _, _ => []
  | _ :: t, 0, v => v :: t
  | a :: t, n + 1, v => a :: lset t n v

/-! Storage. -/

/-- One byte. -/
def Memory.rd (m : Memory) (a : Nat) : Byte := (tget m.bytes a).getD 0
/-- Write one byte, keeping the canonical form. -/
def Memory.wr (m : Memory) (a : Nat) (b : Byte) : Memory :=
  { m with bytes := if b = 0 then tdel m.bytes a else tset m.bytes a b }
/-- The state of a sector. -/
def Memory.st (m : Memory) (k : Nat) : Standing := (tget m.std k).getD .S
/-- Set the state of a sector, keeping the canonical form. -/
def Memory.setSt (m : Memory) (k : Nat) (st : Standing) : Memory :=
  { m with std := if st = .S then tdel m.std k else tset m.std k st }

/-- n bytes from a, little-endian, as a number. -/
def Memory.rdNat (m : Memory) (a : Nat) : Nat → Nat
  | 0 => 0
  | n + 1 => (m.rd a).toNat + 256 * Memory.rdNat m (a + 1) n
/-- n bytes from a, in order. -/
def Memory.rdBytes (m : Memory) (a n : Nat) : List Byte := (List.range n).map (fun i => m.rd (a + i))
/-- Write n bytes of a number, little-endian. -/
def Memory.wrNat (m : Memory) (a : Nat) : Nat → Nat → Memory
  | 0, _ => m
  | n + 1, v => Memory.wrNat (m.wr a (BitVec.ofNat 8 v)) (a + 1) n (v / 256)
/-- Write bytes in order. -/
def Memory.wrBytes (m : Memory) (a : Nat) : List Byte → Memory
  | [] => m
  | b :: t => Memory.wrBytes (m.wr a b) (a + 1) t

/-- The numbers of the 32-byte sectors that n bytes from a touch. -/
def sectors (a n : Nat) : List Nat :=
  if n == 0 then [] else (List.range ((a + n - 1) / 32 + 1 - a / 32)).map (fun i => a / 32 + i)
/-- The join of the sectors that n bytes from a touch (R142). -/
def Memory.joinRange (m : Memory) (a n : Nat) : Standing := joinAll ((sectors a n).map m.st)
/-- The state a write of n bytes from a gives each sector: replaced where it is covered whole, joined where it is covered
in part (R142). -/
def Memory.stRange (m : Memory) (a n : Nat) (st : Standing) : Memory :=
  (sectors a n).foldl (fun m k =>
    m.setSt k (if a ≤ 32 * k && 32 * k + 32 ≤ a + n then st else joinSt (m.st k) st)) m
/-- A store of n bytes with its standing (R142). -/
def Memory.store (m : Memory) (a n v : Nat) (st : Standing) : Memory := (m.wrNat a n v).stRange a n st
/-- A store of bytes with their standing (R142). -/
def Memory.storeBytes (m : Memory) (a : Nat) (bs : List Byte) (st : Standing) : Memory :=
  (m.wrBytes a bs).stRange a bs.length st

/-- Bytes of a number, little-endian. -/
def natBytes : Nat → Nat → List Byte
  | 0, _ => []
  | n + 1, v => BitVec.ofNat 8 v :: natBytes n (v / 256)
/-- A number from its bytes, little-endian. -/
def bytesNat : List Byte → Nat
  | [] => 0
  | b :: t => b.toNat + 256 * bytesNat t

/-! Masks. -/

/-- The lanes of a mask below n, in ascending order. -/
def lanesOf (n : Nat) (m : Mask) : List Nat := (List.range n).filter (fun l => m.getLsbD l)
/-- One lane. -/
def bit (l : Nat) : Mask := (1 : Mask) <<< l
/-- The mask of a list of lanes. -/
def maskOf (ls : List Nat) : Mask := ls.foldl (fun m l => m ||| bit l) 0
/-- The first n lanes. -/
def lowMask (n : Nat) : Mask := BitVec.ofNat 1024 (2 ^ n - 1)

/-! Launch-record fields (R9, R10). -/

abbrev Launch.codeBase (l : Launch) : DWord := l.lrec.extractLsb' 0 64
abbrev Launch.sideTab (l : Launch) : DWord := l.lrec.extractLsb' 64 64
abbrev Launch.schedAddr (l : Launch) : DWord := l.lrec.extractLsb' 128 64
abbrev Launch.surfTab (l : Launch) : DWord := l.lrec.extractLsb' 192 64
abbrev Launch.spillBase (l : Launch) : DWord := l.lrec.extractLsb' 256 64
abbrev Launch.doneAddr (l : Launch) : DWord := l.lrec.extractLsb' 320 64
abbrev Launch.seed (l : Launch) : DWord := l.lrec.extractLsb' 384 64
abbrev Launch.trapOff (l : Launch) : BitVec 32 := l.lrec.extractLsb' 448 32
abbrev Launch.pdist (l : Launch) : BitVec 32 := l.lrec.extractLsb' 480 32
abbrev Launch.gridX (l : Launch) : BitVec 32 := l.lrec.extractLsb' 512 32
abbrev Launch.gridY (l : Launch) : BitVec 32 := l.lrec.extractLsb' 544 32
abbrev Launch.gridZ (l : Launch) : BitVec 32 := l.lrec.extractLsb' 576 32
abbrev Launch.scratch (l : Launch) : Nat := (l.lrec.extractLsb' 608 32).toNat
abbrev Launch.spill (l : Launch) : Nat := (l.lrec.extractLsb' 640 32).toNat
abbrev Launch.groups (l : Launch) : Nat := (l.lrec.extractLsb' 672 16).toNat
abbrev Launch.roles (l : Launch) : Nat := (l.lrec.extractLsb' 688 8).toNat
abbrev Launch.cohort (l : Launch) : Nat := (l.lrec.extractLsb' 696 8).toNat
abbrev Launch.ctxBase (l : Launch) : Nat := (l.lrec.extractLsb' 704 16).toNat
abbrev Launch.ctxSize (l : Launch) : Nat := (l.lrec.extractLsb' 720 16).toNat
abbrev Launch.ctxSub (l : Launch) : Nat := (l.lrec.extractLsb' 736 16).toNat
abbrev Launch.prioField (l : Launch) : BitVec 8 := l.lrec.extractLsb' 752 8
abbrev Launch.queueField (l : Launch) : BitVec 8 := l.lrec.extractLsb' 760 8
abbrev Launch.schedCount (l : Launch) : Nat := (l.lrec.extractLsb' 768 16).toNat
abbrev Launch.surfCount (l : Launch) : Nat := (l.lrec.extractLsb' 784 16).toNat
/-- A role descriptor (R10): first group, groups, budget, entry. -/
def Launch.roleDesc (l : Launch) (k : Nat) : BitVec 128 := l.lrec.extractLsb' (1024 + 128 * k) 128
abbrev rdFirst (d : BitVec 128) : Nat := (d.extractLsb' 0 16).toNat
abbrev rdGroups (d : BitVec 128) : Nat := (d.extractLsb' 16 16).toNat
abbrev rdBudget (d : BitVec 128) : Nat := (d.extractLsb' 32 32).toNat
abbrev rdEntry (d : BitVec 128) : BitVec 32 := d.extractLsb' 64 32
def Launch.arg (l : Launch) (k : Nat) : DWord := l.lrec.extractLsb' (1536 + 64 * k) 64

/-! Looking up and changing the parts of the state. -/

def State.part? (s : State) (p : Nat) : Option Part := tget s.parts p
def State.team? (s : State) (t : Nat) : Option Team := tget s.teams t
def State.role? (s : State) (r : RoleRef) : Option Role := (s.team? r.team).bind (fun t => t.roles[r.role]?)
def State.setPart (s : State) (p : Nat) (x : Part) : State := { s with parts := tset s.parts p x }
def State.modPart (s : State) (p : Nat) (f : Part → Part) : State := { s with parts := tmod s.parts p f }
def State.setTeam (s : State) (t : Nat) (x : Team) : State := { s with teams := tset s.teams t x }
def State.modTeam (s : State) (t : Nat) (f : Team → Team) : State := { s with teams := tmod s.teams t f }
/-- Change one role of a team. -/
def Team.modRole (t : Team) (r : Nat) (f : Role → Role) : Team :=
  match t.roles[r]? with
  | some x => { t with roles := lset t.roles r (f x) }
  | none => t
def State.modRole (s : State) (r : RoleRef) (f : Role → Role) : State := s.modTeam r.team (fun t => t.modRole r.role f)
/-- Change the role that issues. -/
def State.modCur (s : State) (f : Role → Role) : State := s.modRole s.cur f
def State.bulk (s : State) (b : Nat) : Bulk := s.bulks[b]?.getD Bulk.reset
def State.modBulk (s : State) (b : Nat) (f : Bulk → Bulk) : State := { s with bulks := lset s.bulks b (f (s.bulk b)) }
/-- The launch of a serial. -/
def Part.launch? (p : Part) (serial : BitVec 64) : Option Launch := p.launches.find? (fun l => l.serial == serial)
def Part.modLaunch (p : Part) (serial : BitVec 64) (f : Launch → Launch) : Part :=
  { p with launches := p.launches.map (fun l => if l.serial == serial then f l else l) }

/-- What an instruction works on: the role that issues, its team, its launch and its partition. -/
structure Ctx where
  role : Role
  team : Team
  launch : Launch
  part : Part
  deriving DecidableEq, Repr

/-- The issuing role's surroundings; none when cur names no role of a launch. -/
def State.ctx? (s : State) : Option Ctx :=
  match s.team? s.cur.team with
  | none => none
  | some t =>
    match t.roles[s.cur.role]?, s.part? t.part with
    | some r, some p => (p.launch? t.serial).map (fun l => { role := r, team := t, launch := l, part := p })
    | _, _ => none

/-- Run a meaning on the issuing role. -/
def withCtx (s : State) (f : Ctx → State) : Out :=
  match s.ctx? with
  | some c => .next (f c)
  | none => .fault .noIssuer

/-! Registers (R133). -/

/-- An s register. -/
def Role.sreg (r : Role) (n : BitVec 7) : SVal := (tget r.s n.toNat).getD { val := 0, st := .S }
/-- The role's taint is P (R129). -/
def Role.taint (r : Role) : Bool := r.div.any DivEntry.taint
/-- Write an s register; the taint joins (R129). -/
def Role.setS (r : Role) (n : BitVec 7) (v : DWord) (st : Standing) : Role :=
  let x : SVal := { val := v, st := markSt r.taint st }
  { r with s := if x = { val := 0, st := .S } then tdel r.s n.toNat else tset r.s n.toNat x }

/-- A p register in one lane; p127 reads 1, settled. -/
def Role.preg (r : Role) (n : BitVec 7) (l : Nat) : Bool × Standing :=
  if n == 127 then (true, .S)
  else match tget r.p n.toNat with
    | none => (false, .S)
    | some x => (x.val.getLsbD l, stOf (BitVec.ofBool (x.hi.getLsbD l) ++ BitVec.ofBool (x.lo.getLsbD l)))
/-- Write a p register in some lanes; a write to p127 is ignored; the taint joins. -/
def Role.setP (r : Role) (n : BitVec 7) (ls : List (Nat × Bool × Standing)) : Role :=
  if n == 127 then r
  else
    let put (m : Mask) (l : Nat) (b : Bool) : Mask := if b then m ||| bit l else m &&& ~~~(bit l)
    let x := (tget r.p n.toNat).getD { val := 0, lo := 0, hi := 0 }
    let x := ls.foldl (fun x e =>
      let c := stCode (markSt r.taint e.2.2)
      { val := put x.val e.1 e.2.1, lo := put x.lo e.1 (c.getLsbD 0), hi := put x.hi e.1 (c.getLsbD 1) }) x
    { r with p := if x = { val := 0, lo := 0, hi := 0 } then tdel r.p n.toNat else tset r.p n.toNat x }

/-- The key of a v register's row in a group. -/
def rowKey (n : BitVec 8) (g : Nat) : Nat := n.toNat * 128 + g
/-- A v register in one lane; without a row it reads 0, settled. -/
def Role.vreg (r : Role) (n : BitVec 8) (l : Nat) : Word × Standing :=
  match tget r.v (rowKey n (l / 8)) with
  | none => (0, .S)
  | some x => (x.vals.extractLsb' (32 * (l % 8)) 32, stOf (x.st.extractLsb' (2 * (l % 8)) 2))
/-- A v register or pair read as a 64-bit operand; a pair's standing is the join of its halves. -/
def Role.vval (r : Role) (wide : Bool) (n : BitVec 8) (l : Nat) : SVal :=
  let lo := r.vreg n l
  if wide then
    let hi := r.vreg (n + 1) l
    { val := hi.1 ++ lo.1, st := joinSt lo.2 hi.2 }
  else { val := lo.1.setWidth 64, st := lo.2 }
/-- Put one lane's element into a row. -/
def VRow.put (x : VRow) (i : Nat) (w : Word) (st : Standing) : VRow :=
  { vals := (x.vals &&& ~~~((0xFFFFFFFF : BitVec 256) <<< (32 * i))) ||| (w.setWidth 256 <<< (32 * i))
    st := (x.st &&& ~~~((3 : BitVec 16) <<< (2 * i))) ||| ((stCode st).setWidth 16 <<< (2 * i)) }
/-- Write one register in one lane, mapping its row; no taint is added here. -/
def Role.putV (r : Role) (n : BitVec 8) (l : Nat) (w : Word) (st : Standing) : Role :=
  let k := rowKey n (l / 8)
  { r with v := tset r.v k (((tget r.v k).getD { vals := 0, st := 0 }).put (l % 8) w st) }
/-- Write a v register or pair in one lane; both halves take the result's standing, and the taint joins. -/
def Role.setV (r : Role) (wide : Bool) (n : BitVec 8) (l : Nat) (v : DWord) (st : Standing) : Role :=
  let st := markSt r.taint st
  let r := r.putV n l (v.setWidth 32) st
  if wide then r.putV (n + 1) l (v.extractLsb' 32 32) st else r

/-- Map the rows of registers in some groups: a row that was not there reads 0, settled (R135). -/
def Role.mapRows (r : Role) (ns : List (BitVec 8)) (gs : List Nat) : Role :=
  { r with v := ns.foldl (fun v n => gs.foldl (fun v g =>
      if (tget v (rowKey n g)).isSome then v else tset v (rowKey n g) { vals := 0, st := 0 }) v) r.v }
/-- The groups of a role that a mask reaches. -/
def groupsOf (ngroups : Nat) (m : Mask) : List Nat :=
  (List.range ngroups).filter (fun g => (m >>> (8 * g)).setWidth 8 != (0 : BitVec 8))
/-- Free the rows of registers in some groups (R135). -/
def Role.freeRows (r : Role) (ns : List (BitVec 8)) (gs : List Nat) : Role :=
  { r with v := ns.foldl (fun v n => gs.foldl (fun v g => tdel v (rowKey n g)) v) r.v }

/-! Lane kill, exit and the end of a role. -/

/-- The lanes of a role. -/
def Role.lanes (r : Role) : Nat := 8 * r.ngroups
/-- Free the rows of groups whose lanes are all dead or exited (R135). -/
def Role.freeDead (r : Role) : Role :=
  let gone := r.dead ||| r.off ||| r.exited
  let full := (List.range r.ngroups).filter (fun g => (gone >>> (8 * g)).setWidth 8 == (0xFF : BitVec 8))
  if full.isEmpty then r else { r with v := r.v.filter (fun e => !full.contains (e.1 % 128)) }
/-- Take lanes out of the mask and of every stack entry (R128). -/
def Role.dropLanes (r : Role) (m : Mask) : Role :=
  { r with
    mask := r.mask &&& ~~~m
    div := r.div.map (fun e => { e with mask := e.mask &&& ~~~m, taken := e.taken &&& ~~~m }) }
/-- POISON_CONSUMED for some lanes (R143). -/
def Role.poison (r : Role) (m : Mask) : Role :=
  if m = 0 then r else Role.freeDead { r.dropLanes m with dead := r.dead ||| m }
/-- SCRATCH_RANGE for some lanes (R220). -/
def Role.switchOff (r : Role) (m : Mask) : Role :=
  if m = 0 then r else Role.freeDead { r.dropLanes m with off := r.off ||| m }
/-- The mask is empty and no stack entry holds a lane (R148). -/
def Role.empty (r : Role) : Bool := r.mask == 0 && r.div.all (fun e => e.mask == 0)

/-- Complete the phases of a team's barriers that every role of the latched mask has reached or left by ending; the
outstanding bits of the roles that arrived clear (R384). -/
def Team.completeBars (t : Team) : Team :=
  let ended : BitVec 4 := BitVec.ofNat 4 (natOfBits (fun r => (t.roles[r]?.map Role.ended).getD true) 4)
  let fire (b : Barrier) : Bool :=
    match b.latched with
    | some m => m &&& ~~~(b.arrived ||| ended) == 0
    | none => false
  let idx := (List.range 16).filter (fun i => (t.bars[i]?.map fire).getD false)
  idx.foldl (fun t i =>
    match t.bars[i]? with
    | none => t
    | some b =>
      let t := { t with bars := lset t.bars i { phase := !b.phase, latched := none, arrived := 0 } }
      { t with roles := (List.range t.roles.length).zip t.roles |>.map (fun e =>
          if b.arrived.getLsbD e.1 then
            { e.2 with barOut := e.2.barOut &&& ~~~((1 : BitVec 16) <<< i), barDone := e.2.barDone ||| ((1 : BitVec 16) <<< i) }
          else e.2) }) t

/-- A role ends: it counts as arrived at every barrier (R384), and when it was the last one the team finishes (R157, R431). -/
def Team.endRole (t : Team) (r : Nat) : Team :=
  let t := t.modRole r (fun x => { x with ended := true, out := [], park := none, unfinished := none, stop := none })
  let t := t.completeBars
  if t.roles.all Role.ended then { t with phase := .finishing } else t

/-- End a role whose mask and stack hold no lane (R148). -/
def Team.settle (t : Team) (r : Nat) : Team :=
  match t.roles[r]? with
  | some x => if x.empty && !x.ended then t.endRole r else t
  | none => t

/-- End a team with a code (R406, R407); a team that has ended already keeps its first end. -/
def Team.finish (t : Team) (e : TeamEnd) : Team :=
  if t.fin.isSome || t.phase == .finishing then t else { t with fin := some e, phase := .finishing }

/-- Is an operation a role's own: it issued it, or joined it through a gang (R326, R327)? -/
def EngOp.ofRole (o : EngOp) (r : RoleRef) : Bool := o.owner == r || o.batches.any (fun b => b.1 == r)
/-- Has the issuing role an earlier instruction that has not completed (R136, R251)? -/
def State.earlier (s : State) : Bool :=
  match s.ctx? with
  | none => false
  | some c => !c.role.out.isEmpty || c.part.retires.any (fun x => x.role == s.cur)
/-- Is a suspended operation of a role one that a dispute or a pre-emption stopped, of the role named (R320, R408)? -/
def Susp.stops (x : Susp) (r : RoleRef) : Bool := !x.gone && (x.pre.map (fun bs => bs.any (fun b => b.1 == r))).getD false
/-- Does a lasting fault dispute a matrix operation of the issuing role (R320)? -/
def State.curDisputed (s : State) : Bool :=
  ((s.team? s.cur.team).map (fun t => t.roles.any (fun r => r.susp.any (fun x => x.stops s.cur)))).getD false
/-- Has the issuing role an instruction or an engine operation that has not completed (R157)? -/
def State.outstanding (s : State) : Bool := s.earlier || s.ops.any (fun e => e.2.ofRole s.cur) || s.curDisputed
/-- End the issuing role when it holds no lane (R148); a role that ends completes its outstanding instructions first (R157). -/
def State.settleCur (s : State) : State :=
  if s.outstanding then s else s.modTeam s.cur.team (fun t => t.settle s.cur.role)
/-- Has a role ended, or does it only wait for its outstanding instructions to end (R148, R157)? -/
def Role.over (r : Role) : Bool := r.ended || r.empty

/-- Kill lanes of the issuing role with POISON_CONSUMED; the role ends when none is left (R143, R148). -/
def State.poisonCur (s : State) (m : Mask) : State := (s.modCur (fun r => r.poison m)).settleCur
/-- Switch lanes of the issuing role off with SCRATCH_RANGE (R220). -/
def State.offCur (s : State) (m : Mask) : State := (s.modCur (fun r => r.switchOff m)).settleCur

/-- The children of a tag that are not FREE. -/
def Part.children (p : Part) (tag : BitVec 14) : List (Nat × CtxEnt) := p.ctxs.filter (fun e => e.2.parent == tag && e.1 != 0)
/-- A tag and its descendants, level by level; a chain has at most 16 tags (R239). -/
def Part.descend (p : Part) : Nat → List (BitVec 14) → List (BitVec 14)
  | 0, ts => ts
  | n + 1, ts => ts ++ Part.descend p n ((ts.flatMap p.children).map (fun e => BitVec.ofNat 14 e.1))
/-- A tag with all its descendants. -/
def Part.subtree (p : Part) (tag : BitVec 14) : List (BitVec 14) := (p.descend 16 [tag]).eraseDups

/-- Tags become FREE and their cells return to the pools (R249, R251). -/
def Part.freeTags (p : Part) (tags : List (BitVec 14)) : Part :=
  { p with
    ctxs := p.ctxs.filter (fun e => !tags.any (fun t => t.toNat == e.1))
    cells := p.cells.filter (fun c => !tags.contains c.tag)
    lastWrite := p.lastWrite.filter (fun e => !tags.contains e.1) }
/-- The tags that become FREE when a retire completes: those it names with all their descendants (R249). -/
def Part.retiring (p : Part) (x : Retire) : List (BitVec 14) := x.tags.flatMap p.subtree
/-- Complete every CTXEND.DISCARD and CTXMERGE of a role. -/
def Part.completeRetires (p : Part) (r : RoleRef) : Part :=
  let p' := p.freeTags ((p.retires.filter (fun x => x.role == r)).flatMap p.retiring)
  { p' with retires := p.retires.filter (fun x => x.role != r) }
/-- The state with the retires of the issuing role complete: no result of the role depends on when its own earlier
instruction completes (R91). -/
def State.ownRetired (s : State) : State :=
  match s.ctx? with
  | some c => s.modPart c.team.part (fun p => p.completeRetires s.cur)
  | none => s

/-! Traps. -/

/-- The trap codes of R403. -/
inductive TCode where
  | illegalEnc | priv | align | page | prot | scratchRange | rangeConflict | barOverflow | depUnderflow
  | ctxExhausted | overlayFull | ctxDead | nonconv | provLoop | dcorNotres | remoteGone | shareRevoked | poison
  | mmaShape | gangMismatch | engineState | user | dualMismatch | window | nmcError | timeout | regBudget | divStack
  | callStack
  deriving DecidableEq, Repr

def TCode.num : TCode → BitVec 8
  | .illegalEnc => 0x01 | .priv => 0x02 | .align => 0x03 | .page => 0x04 | .prot => 0x05 | .scratchRange => 0x06
  | .rangeConflict => 0x07 | .barOverflow => 0x08 | .depUnderflow => 0x09 | .ctxExhausted => 0x0A
  | .overlayFull => 0x0B | .ctxDead => 0x0C | .nonconv => 0x0D | .provLoop => 0x0E | .dcorNotres => 0x0F
  | .remoteGone => 0x10 | .shareRevoked => 0x11 | .poison => 0x12 | .mmaShape => 0x13 | .gangMismatch => 0x14
  | .engineState => 0x15 | .user => 0x16 | .dualMismatch => 0x17 | .window => 0x18 | .nmcError => 0x19
  | .timeout => 0x1A | .regBudget => 0x1B | .divStack => 0x1C | .callStack => 0x1D

/-- TAKING A TRAP (R404 to R406). r raised it at the item it executes; after tells kind A, whose resume point is the item
that follows. The role's earlier instructions have completed. Without a handler, or inside one, the trap record is written
and the team ends with the code; otherwise the role records its mask, stack depths and resume point and continues at
TRAPOFF with everything else unchanged. -/
def State.trap (s : State) (r : RoleRef) (c : TCode) (aux : SVal) (named : Mask) (after : Bool) : State :=
  match s.team? r.team with
  | none => s
  | some t =>
    match t.roles[r.role]?, (s.part? t.part).bind (fun p => p.launch? t.serial) with
    | some x, some l =>
      let rec_ : TrapRec := { code := c.num, pc := x.item.pc, aux := aux, lanes := named }
      let s := s.modPart t.part (fun p => p.completeRetires r)
      let x := { x with trap := rec_, out := [], park := none, unfinished := none, accessErr := none }
      if l.trapOff == 0xFFFFFFFF || x.entry.isSome then
        s.setTeam r.team ((t.modRole r.role (fun _ => x)).finish
          { code := c.num, role := r.role, pc := x.item.pc, aux := aux.val, user := true, reset := false })
      else
        let e : TrapEntry :=
          { mask := x.mask, divDepth := x.div.length, retDepth := x.ret.length,
            resume := if after then x.pos else x.item, trClause := x.item.hdr, next := after, pcw := false }
        s.setTeam r.team (t.modRole r.role (fun _ =>
          { x with entry := some e, pos := { pc := l.trapOff, hdr := l.trapOff, left := 0, fa := none, fb := none } }))
    | _, _ => s

/-- A trap of the issuing role. -/
def State.trapCur (s : State) (c : TCode) (aux : DWord) (named : Mask) : State :=
  s.trap s.cur c { val := aux, st := .S } named false
/-- An after-completion trap of the issuing role. -/
def State.trapAfter (s : State) (c : TCode) (aux : DWord) (named : Mask) : State :=
  s.trap s.cur c { val := aux, st := .S } named true

/-- THE RETURN FROM A TRAP (R421), for a role in its handler whose checks have passed: the mask recorded at entry without
the lanes that have left since, then the role's end, a written %trappc, or the recorded point. Only a return to the first
clause header repeats a due point that stands before it (R18). -/
def State.trapReturn (s : State) (e : TrapEntry) : State :=
  (s.modCur (fun r =>
    let mask := e.mask &&& ~~~(r.dead ||| r.off ||| r.exited)
    let pos : CodePos :=
      if e.pcw then { pc := r.trap.pc, hdr := r.trap.pc, left := 0, fa := none, fb := none } else e.resume
    { r with entry := none, mask := mask, pos := pos, begun := r.begun || pos.pc != e.resume.pc })).settleCur

/-- Record a deferred fault of a role; a code already pending keeps its first occurrence (R287). -/
def Deferred.add (d : Deferred) (c : TCode) (aux : DWord) : Deferred :=
  match c with
  | .depUnderflow => { d with dep := some (d.dep.getD aux) }
  | .overlayFull => { d with overlay := some (d.overlay.getD aux) }
  | .barOverflow => { d with bar := some (d.bar.getD aux) }
  | .remoteGone => { d with remote := some (d.remote.getD aux) }
  | _ => d
def State.defer (s : State) (r : RoleRef) (c : TCode) (aux : DWord) : State :=
  s.modRole r (fun x => { x with deferred := x.deferred.add c aux })

/-- Park the issuing role at its instruction, which is executed again (R131). -/
def State.parkCur (s : State) (p : Park) : State := s.modCur (fun r => { r with park := some p, pos := r.item })

/-- An outstanding long-latency instruction of the issuing role, tracked by the flag that FS selects (R89). -/
def Role.flagOf (r : Role) (fs : Bool) : Option (BitVec 4) := if fs then r.item.fb else r.item.fa
def Role.issueLong (r : Role) (fs : Bool) : Role := { r with out := r.out ++ [r.flagOf fs] }

/-- A free value's argument (log 4): the counter, and the state with it advanced. -/
def State.nextFree (s : State) : Nat × State := (s.free, { s with free := s.free + 1 })

end Sys2Proof.Machine
end

