-- ==== Sys2Proof/Machine/Operands.lean ====
section
/-!
DEFINITION. How an instruction reaches its operands: guards and live lanes (R83, R94), the consumption of Z (R143, R403),
sources (R97), last-use marks and the register budget (R135, R136), and the shared shapes of class-L and class-U
instructions.
-/
namespace Sys2Proof.Machine

/-- Does a lane pass the guard (R94)? -/
def Role.passes (r : Role) (g : Guard) (l : Nat) : Bool := (r.preg g.p l).1 != g.neg
/-- live(role), in ascending order (R83). -/
def Role.live (r : Role) (g : Guard) : List Nat := (lanesOf r.lanes r.mask).filter (r.passes g)
/-- The lanes of the mask. -/
def Role.all (r : Role) : List Nat := lanesOf r.lanes r.mask

/-- The lanes of a list for which the issuing instruction is still to be performed: a replay concerns only the unfinished
ones (R228). -/
def Role.still (r : Role) (ls : List Nat) : List Nat :=
  match r.unfinished with
  | none => ls
  | some m => ls.filter (fun l => m.getLsbD l)
/-- The lanes a class-L instruction kills (R143, stages 3 and 4 of R403): lanes of the mask whose guard bit is Z; every
live lane when a scalar operand that is consumed is Z; otherwise the live lanes with a Z operand. A finished lane is not
killed by a replay for others (R228, R229). -/
def Role.kills (r : Role) (g : Guard) (scal : Bool) (z : Nat → Bool) : Mask :=
  maskOf ((r.still r.all).filter (fun l => (r.preg g.p l).2 == .Z)) |||
    maskOf ((r.still (r.live g)).filter (fun l => scal || z l))

/-- A class-L instruction: first the kills, then what is left of it over the lanes that live. -/
def withLanes (s : State) (g : Guard) (scal : Role → Bool) (z : Role → Nat → Bool)
    (body : Ctx → State → List Nat → State) : Out :=
  withCtx s fun c =>
    let m := c.role.kills g (scal c.role) (z c.role)
    let s := if m = 0 then s else s.poisonCur m
    match s.ctx? with
    | some c => if m != 0 && c.role.over then s else body c s (c.role.live g)
    | none => s

/-- A class-U instruction that consumes s registers: a Z in one of them kills every lane of the mask and the instruction
has no effect (R143). -/
def withScalars (s : State) (ns : List (BitVec 7)) (body : Ctx → State) : Out :=
  withCtx s fun c =>
    if ns.any (fun n => (c.role.sreg n).st == .Z) then s.poisonCur c.role.mask else body c

/-- A class-U instruction that takes a control decision from an s register (R147). -/
def withControl (s : State) (n : BitVec 7) (body : Ctx → DWord → State) : Out :=
  withScalars s [n] fun c =>
    if unsettled (c.role.sreg n).st then s.trapCur .provLoop 0 c.role.mask else body c (c.role.sreg n).val

/-- The deferred fault that is delivered first, the smallest code; a lost write only when remote (R287). -/
def Deferred.first (d : Deferred) (remote : Bool) : Option (TCode × DWord × Deferred) :=
  match d.bar, d.dep, d.overlay, if remote then d.remote else none with
  | some a, _, _, _ => some (.barOverflow, a, { d with bar := none })
  | none, some a, _, _ => some (.depUnderflow, a, { d with dep := none })
  | none, none, some a, _ => some (.overlayFull, a, { d with overlay := none })
  | none, none, none, some a => some (.remoteGone, a, { d with remote := none })
  | none, none, none, none => none
/-- FENCE and EXIT raise a pending deferred fault instead, outside a handler (R157, R287, R406). -/
def State.deliver (s : State) (r : Role) (remote : Bool) (named : Mask) : Option State :=
  match if r.entry.isSome then none else r.deferred.first remote with
  | some (c, aux, d) => some ((s.modCur (fun x => { x with deferred := d })).trapCur c aux named)
  | none => none

/-! Sources (R97, R133). -/

/-- An operand: a register read as a type, or an immediate's value, which is settled (R83). -/
inductive Opnd where
  | reg (ty : Ty) (x : Src)
  | imm (v : DWord)
  deriving DecidableEq, Repr

def Role.src (r : Role) (ty : Ty) (x : Src) (l : Nat) : SVal :=
  match x with
  | .v n _ => r.vval ty.is64 n l
  | .s n => r.sreg n
def Role.opnd (r : Role) (x : Opnd) (l : Nat) : SVal :=
  match x with
  | .reg ty x => r.src ty x l
  | .imm v => { val := v, st := .S }
/-- The scalar operands of a list that are Z. -/
def Role.scalZ (r : Role) (xs : List Opnd) : Bool :=
  xs.any (fun x => match x with | .reg _ (.s n) => (r.sreg n).st == .Z | _ => false)
/-- Is an operand of a lane Z? -/
def Role.laneZ (r : Role) (xs : List Opnd) (l : Nat) : Bool := xs.any (fun x => (r.opnd x l).st == .Z)

/-- The registers a last-use mark frees (R93). -/
def freed (wide : Bool) (n : BitVec 8) (last : Bool) : List (BitVec 8) :=
  if last then if wide then [n, n + 1] else [n] else []
def Opnd.freed : Opnd → List (BitVec 8)
  | .reg ty (.v n last) => Machine.freed ty.is64 n last
  | _ => []

/-! Destinations. -/

/-- How many rows a write would newly map (R135). -/
def Role.missing (r : Role) (ns : List (BitVec 8)) (gs : List Nat) : Nat :=
  (ns.flatMap (fun n => gs.filter (fun g => (tget r.v (rowKey n g)).isNone))).length

/-- What a lane whose guard bit passes and is P or R writes (R140). -/
def Role.guarded (r : Role) (g : Guard) (l : Nat) (st : Standing) : Standing := markSt (unsettled (r.preg g.p l).2) st

/-- Would a write to a register or pair in some lanes, after the last uses, raise the charge above the budget (R135,
R136)? -/
def Role.overBudget (r : Role) (frees : List (BitVec 8)) (wide : Bool) (d : BitVec 8) (live : Mask) : Bool :=
  let r' := r.freeRows frees (groupsOf r.ngroups r.mask)
  let need := r'.missing (if wide then [d, d + 1] else [d]) (groupsOf r.ngroups live)
  0 < need && r.budget < r'.v.length + need

/-- A write over the budget waits until the earlier instructions have completed, and then raises REG_BUDGET (R136). -/
def State.budgetTrap (s : State) (d : BitVec 8) (live : Mask) : State :=
  if s.earlier then s.parkCur .budget else s.trapCur .regBudget (d.setWidth 64) live

/-- Write per-lane results to a v register or pair of the issuing role: last uses free their rows, the budget is tested
before anything is written, every group with a live lane gets its rows, and the results take the guard's and the taint's
marks (R129, R135, R136, R140). -/
def State.putV (s : State) (g : Guard) (frees : List (BitVec 8)) (wide : Bool) (d : BitVec 8)
    (res : List (Nat × DWord × Standing)) : State :=
  match s.role? s.cur with
  | none => s
  | some r =>
    let live := maskOf (r.live g)
    if r.overBudget frees wide d live then s.budgetTrap d live
    else
      s.modCur (fun r => res.foldl (fun x e => x.setV wide d e.1 e.2.1 (r.guarded g e.1 e.2.2))
        ((r.freeRows frees (groupsOf r.ngroups r.mask)).mapRows (if wide then [d, d + 1] else [d])
          (groupsOf r.ngroups live)))

/-- Write per-lane results to a p register of the issuing role. -/
def State.putP (s : State) (g : Guard) (frees : List (BitVec 8)) (d : BitVec 7) (res : List (Nat × Bool × Standing)) :
    State :=
  s.modCur (fun r =>
    (r.freeRows frees (groupsOf r.ngroups r.mask)).setP d (res.map (fun e => (e.1, e.2.1, r.guarded g e.1 e.2.2))))

/-- Write an s register of the issuing role. -/
def State.putS (s : State) (d : BitVec 7) (v : DWord) (st : Standing) : State := s.modCur (fun r => r.setS d v st)

/-! The shared shapes. -/

/-- A per-lane computation into a v register: consume is false for the moves (R143). -/
def execVec (g : Guard) (xs : List Opnd) (consume : Bool) (rule : Standing → Standing) (wide : Bool) (d : BitVec 8)
    (f : (Nat → DWord) → DWord) (s : State) : Out :=
  withLanes s g (fun r => consume && r.scalZ xs) (fun r l => consume && r.laneZ xs l) fun c s ls =>
    s.putV g (xs.flatMap Opnd.freed) wide d (ls.map fun l =>
      let vs := xs.map (fun x => c.role.opnd x l)
      (l, f (fun i => (vs[i]?.map SVal.val).getD 0), rule (joinAll (vs.map SVal.st))))

/-- A per-lane test into a p register (R139: a compare joins its sources, whatever their type). -/
def execTest (g : Guard) (xs : List Opnd) (d : BitVec 7) (f : (Nat → DWord) → Bool) (s : State) : Out :=
  withLanes s g (fun r => r.scalZ xs) (fun r l => r.laneZ xs l) fun c s ls =>
    s.putP g (xs.flatMap Opnd.freed) d (ls.map fun l =>
      let vs := xs.map (fun x => c.role.opnd x l)
      (l, f (fun i => (vs[i]?.map SVal.val).getD 0), joinAll (vs.map SVal.st)))

/-- A per-lane computation over p registers (R159). -/
def execPred (g : Guard) (ns : List (BitVec 7)) (consume : Bool) (d : BitVec 7) (f : (Nat → Bool) → Bool) (s : State) :
    Out :=
  withLanes s g (fun _ => false) (fun r l => consume && ns.any (fun n => (r.preg n l).2 == .Z)) fun c s ls =>
    s.putP g [] d (ls.map fun l =>
      let vs := ns.map (fun n => c.role.preg n l)
      (l, f (fun i => (vs[i]?.map (fun v => v.1)).getD false), joinAll (vs.map (fun v => v.2))))

/-- A uniform computation over s registers (R161 to R163); imm tells of an immediate source, which is settled. -/
def execUni (ns : List (BitVec 7)) (imm : Bool) (d : BitVec 7) (f : (Nat → DWord) → DWord) (s : State) : Out :=
  withScalars s ns fun c =>
    let vs := ns.map c.role.sreg
    s.putS d (f (fun i => (vs[i]?.map SVal.val).getD 0))
      (joinAll (vs.map SVal.st ++ if imm then [.S] else []))

end Sys2Proof.Machine
end

