-- ==== Sys2Proof/Machine/Storage.lean ====
section
/-!
DEFINITION. The stacks as a base die keeps them: units of 64 bytes (R256), the keys they are written under (R62 to R64), the CRC
and the correction symbols (R258, R259), and the error path of reads and writes (R260, R261, R265, R266).
-/
namespace Sys2Proof.Machine

/-- The bytes of a stack that are storage (R257). -/
abbrev storageEnd : Nat := 0x1740000000
/-- Bytes of a partition physical address space per bulkhead (R221). -/
abbrev bulkSpan : Nat := 2 ^ 37
/-- Bytes of a remote node's space: 45 address bits (R223). -/
abbrev nodeSpan : Nat := 2 ^ 45

/-! Keys (R62, R63). -/

/-- The name of the key pair that a slot holds now: the slot, and how often it has been generated again (R44, R62). -/
def State.keyName (s : State) (slot : Nat) : Nat := slot + 4096 * (tget s.keyGen slot).getD 0
/-- The key pair of a name (R62); the slots are generated anew at each power-up (R443). -/
def State.keyPair (s : State) (k : Nat) : BitVec 512 := Config.keyPair s.keyEra k
/-- The 64 bytes of a unit in the clear, byte i in bits 8i to 8i + 7. -/
def State.plain (s : State) (u : Nat) : BitVec 512 := BitVec.ofNat 512 (s.mem.rdNat (64 * u) 64)
/-- The tweak of a unit: its address in its stack (R63). -/
def tweakOf (u : Nat) : Nat := 64 * u % bulkSpan
/-- The 64 bytes of a unit as the dies hold them: encrypted under the key that it was written under (R63). DESIGN CHOICE
(log 50): a unit that only the device's clearing has written holds its zeros as they are. -/
def State.cipher (s : State) (u : Nat) : BitVec 512 :=
  match tget s.ukeys u with
  | none => s.plain u
  | some k => Config.xtsEncrypt (s.keyPair k) (tweakOf u) (s.plain u)
/-- Was a unit written under this key? Cleared units read the same under every key (log 50). -/
def State.keyFits (s : State) (k u : Nat) : Bool :=
  match tget s.ukeys u with
  | none => true
  | some j => j == k
/-- The 64 bytes of a unit as a read under a key finds them (R63). -/
def State.seen (s : State) (k u : Nat) : BitVec 512 :=
  if s.keyFits k u then s.plain u else Config.xtsDecrypt (s.keyPair k) (tweakOf u) (s.cipher u)
/-- Read n bytes of one unit under a key. -/
def State.rdRun (s : State) (k a n : Nat) : Nat :=
  if s.keyFits k (a / 64) then s.mem.rdNat a n else ((s.seen k (a / 64)).toNat / 2 ^ (8 * (a % 64))) % 2 ^ (8 * n)
/-- Write n bytes of one unit under a key: the whole unit is encrypted again, so what the write does not reach is what a read
under its key finds (R260). -/
def State.wrRun (s : State) (k a n v : Nat) (st : Standing) : State :=
  let u := a / 64
  let m := if s.keyFits k u || (a % 64 == 0 && n == 64) then s.mem else s.mem.wrNat (64 * u) 64 (s.seen k u).toNat
  { s with mem := m.store a n v st, ukeys := tset s.ukeys u k }

/-! What the side-band bits and the correction region hold beside the data; both follow from it (R256, R258, R259). -/

/-- One step of CRC-32C over a byte, bit-reflected (R258). -/
def crcByte (c : BitVec 32) (b : Byte) : BitVec 32 :=
  (List.range 8).foldl (fun c _ => if c.getLsbD 0 then (c >>> 1) ^^^ 0x82F63B78 else c >>> 1) (c ^^^ b.setWidth 32)
/-- CRC-32C (R258). -/
def crc32c (bs : List Byte) : BitVec 32 := bs.foldl crcByte 0xFFFFFFFF ^^^ 0xFFFFFFFF
/-- The metadata byte of a unit: the standing of its lower sector, then of its upper sector (R258). -/
def State.metaByte (s : State) (u : Nat) : Byte :=
  (0 : BitVec 4) ++ stCode (s.mem.st (2 * u + 1)) ++ stCode (s.mem.st (2 * u))
/-- The CRC that is kept with a unit (R256, R258). -/
def State.unitCrc (s : State) (u : Nat) : BitVec 32 := crc32c (natBytes 64 (s.cipher u).toNat ++ [s.metaByte u])

/-- Multiply by α in GF(2^8) with the polynomial 0x11D (R259). -/
def gfDouble (a : Byte) : Byte := (a <<< 1) ^^^ (if a.getLsbD 7 then 0x1D else 0)
/-- The product in GF(2^8). -/
def gfMul (a b : Byte) : Byte :=
  ((List.range 8).foldl (fun (g : Byte × Byte) i =>
    (if b.getLsbD i then g.1 ^^^ g.2 else g.1, gfDouble g.2)) (0, a)).1
/-- The generator's coefficients below x^4, the highest first: the product of x − α^i for i = 0 to 3. -/
def rsGenerator : List Byte :=
  ([1, 2, 4, 8] : List Byte).foldl (fun g r =>
    List.zipWith (fun a b => a ^^^ b) (g ++ [0]) ((0 : Byte) :: g.map (gfMul r))) [1] |>.drop 1
/-- The four check bytes of a codeword. DESIGN CHOICE (log 50): its lowest byte has the highest power, and the first check byte
the highest of the check bytes. -/
def rsCheck (data : List Byte) : List Byte :=
  data.foldl (fun r b =>
    let f := b ^^^ r.head?.getD 0
    List.zipWith (fun x g => x ^^^ gfMul f g) (r.drop 1 ++ [0]) rsGenerator) [0, 0, 0, 0]
/-- The 16 correction symbols of a 512-byte block (R259). -/
def State.symbols (s : State) (b : Nat) : List Byte :=
  let bytes := (List.range 8).flatMap (fun i => natBytes 64 (s.cipher (8 * b + i)).toNat)
  (List.range 4).flatMap (fun m => rsCheck ((List.range 128).map (fun i => bytes[4 * i + m]?.getD 0)))

/-! The error path (R260, R261). -/

/-- A saturating count (R446). -/
def satInc {n : Nat} (c : BitVec n) : BitVec n := if c = BitVec.allOnes n then c else c + 1
/-- Add to a saturating count. -/
def satAdd {n : Nat} (c : BitVec n) (k : Nat) : BitVec n := BitVec.ofNat n (min (c.toNat + k) (2 ^ n - 1))

/-- Undefined bytes written over n bytes from a (R260). -/
def State.scramble (s : State) (a : Nat) : Nat → State
  | 0 => s
  | n + 1 => State.scramble { s with mem := s.mem.wr a (Config.freeByte s.free), free := s.free + 1 } (a + 1) n

/-- The bytes of a unit that belong to codeword m of its block (R259). -/
def codeBytes (m : Nat) : BitVec 64 := (0x1111111111111111 : BitVec 64) <<< m
/-- The number of ones. -/
def ones {n : Nat} (x : BitVec n) : Nat := ((List.range n).filter (fun i => x.getLsbD i)).length
/-- The wrong bytes of codeword m of a block that its symbols can still tell. -/
def State.codeErrors (s : State) (b m : Nat) : Nat :=
  ((List.range 8).map (fun i => match tget s.flaws (8 * b + i) with
    | some f => if f.lost then 0 else ones (f.bad &&& codeBytes m)
    | none => 0)).sum + ones (((tget s.symFlaws b).getD 0).extractLsb' (4 * m) 4)
/-- Does the decoder correct codeword m of a block: at most two wrong bytes (R259)? -/
def State.corrects (s : State) (b m : Nat) : Bool := s.codeErrors b m ≤ 2
/-- The bytes of a block's units whose codewords are corrected. -/
def State.corrected (s : State) (b : Nat) : BitVec 64 :=
  (List.range 4).foldl (fun x m => if s.corrects b m then x ||| codeBytes m else x) 0
/-- Can the error path still deliver a unit (R260, steps 1 to 3)? -/
def State.delivers (s : State) (u : Nat) : Bool :=
  match tget s.flaws u with
  | none => true
  | some f => (f.bad == 0 || !f.lost) && f.bad &&& ~~~(s.corrected (u / 8)) == 0
/-- The block's symbols are rewritten over its units as they stand: what is wrong in them can no longer be told (R259). -/
def State.newSymbols (s : State) (b : Nat) : State :=
  { s with
    symFlaws := tdel s.symFlaws b
    flaws := s.flaws.map (fun e => if e.1 / 8 == b && e.2.bad != 0 then (e.1, { e.2 with lost := true }) else e) }
/-- The demand scrub of a block (R261): every unit with a corrected byte is written back, and the symbols are rewritten. -/
def State.scrub (s : State) (b : Nat) : State :=
  let ok := s.corrected b
  let hit (e : Nat × Flaw) : Bool := e.1 / 8 == b && !e.2.lost && e.2.bad &&& ok != 0
  let n := (s.flaws.filter hit).length
  let fixed (e : Nat × Flaw) : Option (Nat × Flaw) :=
    if hit e then
      let f : Flaw := { e.2 with bad := e.2.bad &&& ~~~ok }
      if f.bad == 0 && !f.transient then none else some (e.1, f)
    else some e
  (({ s with flaws := s.flaws.filterMap fixed } : State).newSymbols b).modBulk (512 * b / bulkSpan) (fun k =>
    { k with corr := satAdd k.corr n })
/-- A read of a unit goes through the error path (R260): a transient error is counted, a correctable one is corrected with its
block, and an uncorrectable unit becomes Z with undefined bytes and stays wrong until it is written. -/
def State.touchUnit (s : State) (u : Nat) : State :=
  match tget s.flaws u with
  | none => s
  | some f =>
    let s : State :=
      if f.bad == 0 then
        { s.modBulk (64 * u / bulkSpan) (fun b => { b with trans := satInc b.trans }) with flaws := tdel s.flaws u }
      else { s with flaws := tset s.flaws u { f with transient := false } }
    if f.bad == 0 then s
    else if s.delivers u then s.scrub (u / 8)
    else
      let s := s.modBulk (64 * u / bulkSpan) (fun b => { b with uncorr := satInc b.uncorr })
      let s := State.scramble s (64 * u) 64
      { s with mem := (s.mem.setSt (2 * u) .Z).setSt (2 * u + 1) .Z }

/-- No unit and no symbol of the stacks is wrong. -/
def State.flawless (s : State) : Bool := s.flaws.isEmpty && s.symFlaws.isEmpty
/-- The units that n bytes from a touch. -/
def units (a n : Nat) : List Nat := (List.range ((a + n + 63) / 64 - a / 64)).map (fun i => a / 64 + i)
/-- A read of n bytes from a goes through the error path of its units. -/
def State.touch (s : State) (a n : Nat) : State := if s.flawless then s else (units a n).foldl State.touchUnit s
/-- A unit is about to be written: the block's other units are read for the symbols, it is read itself when the write covers it
in part, and then it and the symbols are whole again (R260). DESIGN CHOICE (log 50): the base die reads the other seven units
at every write. -/
def State.touchWriteUnit (s : State) (whole : Bool) (u : Nat) : State :=
  let b := u / 8
  let s := (List.range 8).foldl (fun s i => if 8 * b + i == u && whole then s else s.touchUnit (8 * b + i)) s
  ({ s with flaws := tdel s.flaws u } : State).newSymbols b
/-- A write of n bytes from a goes through the error path of its units. -/
def State.touchWrite (s : State) (a n : Nat) : State :=
  if s.flawless then s
  else (units a n).foldl (fun s u => s.touchWriteUnit (a ≤ 64 * u && 64 * u + 64 ≤ a + n) u) s
/-- Does a slot of a compressed window hold a unit that cannot be delivered (R265)? -/
def State.slotBad (s : State) (slot : Nat) : Bool := (List.range 8).any (fun i => !s.delivers (slot / 64 + i))
/-- An access through a block of a compressed window: when a unit of its slot is uncorrectable every logical sector is Z
(R265). -/
def State.touchSlot (s : State) (slot : Nat) : State :=
  if s.flawless then s
  else
    let s := (List.range 8).foldl (fun s i => s.touchUnit (slot / 64 + i)) s
    if s.slotBad slot then { s with mem := (List.range 16).foldl (fun m i => m.setSt (slot / 32 + i) .Z) s.mem } else s
/-- A unit of a block that is replaced whole: nothing of it is read (R266). -/
def State.replaceUnit (s : State) (u : Nat) : State :=
  if s.flawless then s else { s with flaws := tdel s.flaws u, symFlaws := tdel s.symFlaws (u / 8) }

/-! Runs of storage. -/

/-- A range cut where its address crosses a multiple of w, as (offset from its start, length). -/
def cutAt (w a : Nat) : Nat → Nat → List (Nat × Nat)
  | 0, _ => []
  | fuel + 1, n =>
    if n = 0 then []
    else
      let k := min n (w - a % w)
      (0, k) :: (cutAt w (a + k) fuel (n - k)).map (fun e => (e.1 + k, e.2))
/-- A range cut at sector boundaries. -/
abbrev cutSectors (a fuel n : Nat) : List (Nat × Nat) := cutAt 32 a fuel n
/-- A range cut at unit boundaries. -/
abbrev cutUnits (a fuel n : Nat) : List (Nat × Nat) := cutAt 64 a fuel n

/-- The device reads n bytes of storage under a key, through the error path. -/
def State.rdStore (s : State) (k a n : Nat) : State × Nat :=
  let s := s.touch a n
  (s, (cutUnits a n n).foldl (fun v e => v + s.rdRun k (a + e.1) e.2 * 2 ^ (8 * e.1)) 0)
/-- The device writes n bytes of storage under a key, through the error path. -/
def State.wrStore (s : State) (k a n v : Nat) (st : Standing) : State :=
  (cutUnits a n n).foldl (fun s e =>
    (s.touchWrite (a + e.1) e.2).wrRun k (a + e.1) e.2 (v / 2 ^ (8 * e.1) % 2 ^ (8 * e.2)) st) s

/-! Whole regions. -/

/-- Storage without the bytes and states of a range of whole sectors. -/
def Memory.clear (m : Memory) (a n : Nat) : Memory :=
  { bytes := m.bytes.filter (fun (c : Host.Cell) => !(a ≤ c.1 && c.1 < a + n))
    std := m.std.filter (fun (c : Nat × Standing) => !(a / 32 ≤ c.1 && c.1 < (a + n) / 32)) }
/-- Copy n bytes, whole sectors, of one storage at a to another at b, with or without their standing. -/
def Memory.copyFrom (m src : Memory) (a b n : Nat) (std : Bool) : Memory :=
  let m := (src.bytes.filter (fun c => a ≤ c.1 && c.1 < a + n)).foldl (fun m c => m.wr (c.1 - a + b) c.2) (m.clear b n)
  if std then
    (src.std.filter (fun c => a / 32 ≤ c.1 && c.1 < (a + n) / 32)).foldl (fun m c => m.setSt (c.1 - a / 32 + b / 32) c.2) m
  else m
/-- Without the entries of the units of a range. -/
def clearUnits {α : Type} (t : Tab α) (a n : Nat) : Tab α := t.filter (fun e => !(a / 64 ≤ e.1 && e.1 < (a + n) / 64))
/-- A region of whole blocks is written with zeros, settled, its symbols rewritten (R44, R443). -/
def State.zeroRegion (s : State) (a n : Nat) : State :=
  { s with
    mem := s.mem.clear a n, ukeys := clearUnits s.ukeys a n, flaws := clearUnits s.flaws a n
    symFlaws := s.symFlaws.filter (fun e => !(a / 512 ≤ e.1 && e.1 < (a + n) / 512)) }
/-- The units of a region that hold something. -/
def Memory.unitsIn (m : Memory) (a n : Nat) : List Nat :=
  let bs : List Nat := (m.bytes.filter (fun c => a ≤ c.1 && c.1 < a + n)).map (fun c => c.1 / 64)
  let ss : List Nat := (m.std.filter (fun c => a / 32 ≤ c.1 && c.1 < (a + n) / 32)).map (fun c => c.1 / 2)
  (bs ++ ss).eraseDups
/-- A region of whole units is written from a storage in the clear, under a key; its former contents count for nothing. -/
def State.writeRegion (s : State) (k : Nat) (src : Memory) (a b n : Nat) (std : Bool) : State :=
  let s := s.zeroRegion b n
  let m := s.mem.copyFrom src a b n std
  { s with mem := m, ukeys := (m.unitsIn b n).foldl (fun t u => tset t u k) s.ukeys }
/-- The storage as reads under a key find it: the units of a region that were written under another key are what decryption
makes of them (R63). -/
def State.seenRegion (s : State) (k a n : Nat) : Memory :=
  (s.ukeys.filter (fun e => a / 64 ≤ e.1 && e.1 < (a + n) / 64 && e.2 != k)).foldl (fun m e =>
    m.wrNat (64 * e.1) 64 (s.seen k e.1).toNat) s.mem

end Sys2Proof.Machine
end

