-- ==== Sys2Proof/Machine/Translate.lean ====
section
/-!
DEFINITION. Main memory and translation: the page walk and its checks (R221 to R224, R264), cached translations and link
generations (R225, R235, R236), windows (R49, R52, R263), replicas (R233, R234), the aperture (R266), and reads and writes of
base lines and of cells (R243 to R246).
-/
namespace Sys2Proof.Machine

/-! Leaf entries (R222). -/

abbrev pteV (e : BitVec 64) : Bool := e.getLsbD 0
abbrev pteW (e : BitVec 64) : Bool := e.getLsbD 1
abbrev pteX (e : BitVec 64) : Bool := e.getLsbD 2
abbrev pteCx (e : BitVec 64) : Bool := e.getLsbD 3
abbrev pteRp (e : BitVec 64) : Bool := e.getLsbD 4
abbrev pteCmp (e : BitVec 64) : Bool := e.getLsbD 5
abbrev pteMig (e : BitVec 64) : Bool := e.getLsbD 6
abbrev pteLeaf (e : BitVec 64) : Bool := e.getLsbD 7
abbrev pteTier (e : BitVec 64) : Nat := (e.extractLsb' 8 2).toNat
abbrev pteKey (e : BitVec 64) : Nat := (e.extractLsb' 10 12).toNat
abbrev pteAff (e : BitVec 64) : Nat := (e.extractLsb' 22 3).toNat
abbrev pteFrame (e : BitVec 64) : Nat := (e.extractLsb' 25 39).toNat
/-- The partition physical address of a frame at TIER 0 or 1 (R223). -/
abbrev pteAddr (e : BitVec 64) : Nat := pteFrame e % 2 ^ 24 * 65536
/-- The node of a frame at TIER 2 or 3. -/
abbrev pteNode (e : BitVec 64) : Nat := pteFrame e / 2 ^ 29

/-- The size of a leaf's page by level (R221). -/
def pageSize : Nat → Nat
  | 0 => 2 ^ 16
  | 1 => 2 ^ 21
  | _ => 2 ^ 30
/-- The size of a table by level. -/
def tableSize : Nat → Nat
  | 0 => 256
  | 4 => 2048
  | _ => 4096

/-! Partitions. -/

/-- The physical bulkhead of a logical one. -/
def Part.bulkOf (p : Part) (k : Nat) : Nat := p.map[k]?.getD 0
/-- The storage key of a partition physical address. -/
def Part.phys (p : Part) (a : Nat) : Nat := p.bulkOf (a / bulkSpan) * bulkSpan + a % bulkSpan
/-- The compressed window [W, W + S) and the aperture range [Pa, Pa + S) of a logical bulkhead (R264). -/
def Part.cwin (p : Part) (k : Nat) : Nat × Nat × Nat := p.cfg.cwin[k]?.getD (0, 0, 0)
/-- The end of a stack's capacity for pages: below its overlay pool (R246). DESIGN CHOICE (log 50): the pool is the top of the
storage, line i of it at the end less 128(i + 1). -/
def Part.pageEnd (p : Part) (k : Nat) : Nat := storageEnd - 128 * (p.pools[k]?.getD 0)
/-- Does a frame break R223, R224 (first row), R246, R257 or R264? -/
def Part.badLeaf (p : Part) (lvl : Nat) (e : BitVec 64) : Bool :=
  let f := pteFrame e
  let k := pteAddr e / bulkSpan
  let off := pteAddr e % bulkSpan
  let w := p.cwin k
  let size := pageSize lvl
  let align := (lvl == 1 && f % 2 ^ 5 != 0) || (lvl == 2 && f % 2 ^ 14 != 0)
  let tier :=
    if pteTier e ≤ 1 then
      f / 2 ^ 24 != 0 || k ≥ p.cfg.size || p.pageEnd k < off + size || ((k == pteAff e) != (pteTier e == 0))
    else if pteTier e == 2 then f / 2 ^ 24 % 2 ^ 5 != 0
    else pteW e
  let cmp := pteCmp e &&
    (1 < pteTier e || !(w.1 ≤ off && off + size ≤ w.1 + w.2.2) || (off < w.2.1 + w.2.2 && w.2.1 < off + size))
  lvl > 2 || align || pteAff e ≥ p.cfg.size || tier || cmp

/-- Does a non-leaf entry with V set name a table that R224 refuses? -/
def Part.badTable (p : Part) (lvl : Nat) (e : BitVec 64) : Bool :=
  let a := (e.extractLsb' 8 32).toNat * 256
  a % tableSize lvl != 0 || storageEnd < a % bulkSpan + tableSize lvl || a / bulkSpan ≥ p.cfg.size

/-- Are all the n ring links from bulkhead i upwards in service? -/
def ringUp (ring : BitVec 8) (i n : Nat) : Bool := (List.range n).all (fun d => ring.getLsbD ((i + d) % 8))
/-- Is there a way round the ring between two bulkheads (R262)? Other packages are not on it. -/
def ringPath (ring : BitVec 8) (i j : Nat) : Bool :=
  8 ≤ i || 8 ≤ j || ringUp ring i ((j + 8 - i) % 8) || ringUp ring j ((i + 8 - j) % 8)
/-- Is the memory of a logical bulkhead out of reach of another's gate (R47, R56, R235, R262)? -/
def State.down (s : State) (p : Part) (gate k : Nat) : Bool :=
  p.remapping.contains k || (s.bulk (p.bulkOf k)).state != .running || p.downBulk.contains (gate * 8 + k) ||
  !ringPath s.ring (p.bulkOf gate) (p.bulkOf k)
/-- A physical bulkhead that accepts a request without performing it: in self-refresh (R272) or hung (R58); err names the
bulkhead whose held request has been completed with error. -/
def State.stuck (s : State) (err : Option Nat) (b : Nat) : Bool :=
  ((s.bulk b).sref || (s.bulk b).hung) && err != some b

/-! The walk (R221). -/

/-- What a walk finds. -/
inductive WRes where
  | leaf (x : Xl)
  | prot
  | unmapped
  | gone
  | held (b : Nat)
  deriving DecidableEq, Repr

/-- The gate that an access of a bulkhead's agent uses; an agent of no bulkhead uses the one at the frame (R235). -/
def gateOf (home : Option Nat) (e : BitVec 64) : Nat :=
  home.getD (if pteTier e ≤ 1 then pteAddr e / bulkSpan else pteAff e)
/-- The link generation that a leaf's frame has now at a gate (R235). -/
def Part.genOf (p : Part) (gate : Nat) (e : BitVec 64) : BitVec 16 :=
  if pteTier e ≤ 1 then (tget p.linkGen (gate * 8 + pteAddr e / bulkSpan)).getD 0
  else (tget p.nodeGen (gate * 1024 + pteNode e)).getD 0
/-- The translation that a leaf gives to an access of a bulkhead's agent. -/
def Part.xlOf (p : Part) (home : Option Nat) (lvl va : Nat) (e : BitVec 64) : Xl :=
  { va := va / pageSize lvl * pageSize lvl, size := pageSize lvl, entry := e, gate := gateOf home e
    gen := p.genOf (gateOf home e) e }

/-- Read the entry at a table's index, under the partition's first key slot (R64): the state after the read, and the entry or
why it cannot be used. A read that has been completed with error gives Z (R58). -/
def State.readEntry (s : State) (p : Part) (home err : Option Nat) (a : Nat) : State × (WRes ⊕ BitVec 64) :=
  let k := a / bulkSpan
  if err == some (p.bulkOf k) then (s, .inl .prot)
  else if s.down p (home.getD k) k then (s, .inl .gone)
  else if s.stuck err (p.bulkOf k) then (s, .inl (.held (p.bulkOf k)))
  else
    let r := s.rdStore (s.keyName p.cfg.slotFirst) (p.phys a) 8
    if r.1.mem.st (p.phys a / 32) == .Z then (r.1, .inl .prot)
    else (r.1, .inr (BitVec.ofNat 64 r.2))

/-- Walk from a table of a level down (R221, first row of R224). -/
def State.walkFrom (p : Part) (home err : Option Nat) (va : Nat) : Nat → Nat → State → State × WRes
  | 0, table, s =>
    match s.readEntry p home err (table + 8 * (va / 2 ^ 16 % 32)) with
    | (s, .inl w) => (s, w)
    | (s, .inr e) => if !pteLeaf e || p.badLeaf 0 e then (s, .prot) else (s, .leaf (p.xlOf home 0 va e))
  | n + 1, table, s =>
    match s.readEntry p home err (table + 8 * (va / 2 ^ (21 + 9 * n) % if n = 3 then 256 else 512)) with
    | (s, .inl w) => (s, w)
    | (s, .inr e) =>
      if pteLeaf e then if p.badLeaf (n + 1) e then (s, .prot) else (s, .leaf (p.xlOf home (n + 1) va e))
      else if e.extractLsb' 1 6 != 0 || e.extractLsb' 40 24 != 0 then (s, .prot)
      else if !pteV e then (s, .unmapped)
      else if p.badTable n e then (s, .prot)
      else State.walkFrom p home err va n ((e.extractLsb' 8 32).toNat * 256) s
/-- The walk from the root table at partition physical address 0. -/
def State.walk (s : State) (p : Part) (home err : Option Nat) (va : Nat) : State × WRes := State.walkFrom p home err va 4 0 s

/-! Translation of one address with the checks of R224. -/

/-- What an access asks of its page: writing, fetching, being a per-lane access (which a CMP page refuses), being an ATOM,
XACC or XRND (which the aperture refuses), being a host's, which skips the W and X checks (R449), a page without RP (R388), and
for a read a page that is writable (R216); home is the logical bulkhead that it comes from. -/
structure Need where
  w : Bool := false
  x : Bool := false
  lane : Bool := false
  cell : Bool := false
  host : Bool := false
  single : Bool := false
  must : Bool := false
  home : Option Nat := none
  deriving DecidableEq, Repr

def Need.load : Need := { lane := true }
def Need.store : Need := { w := true, lane := true }
def Need.atom : Need := { w := true, lane := true, cell := true }
def Need.xrnd : Need := { lane := true, cell := true }
/-- A dependence counter's page (R388, R398). -/
def Need.counter : Need := { w := true, lane := true, cell := true, single := true }
def Need.fetch : Need := { x := true }
/-- Reads and writes of engines and of the device itself. -/
def Need.read : Need := {}
def Need.write : Need := { w := true }
/-- The same access from a logical bulkhead. -/
def Need.at_ (n : Need) (k : Nat) : Need := { n with home := some k }

/-- The outcome of a translation. -/
inductive XRes where
  | ok (h : Hit)
  | prot
  | window
  | page
  | gone
  | moving (b : Option Nat)
  | held (b : Nat)
  deriving DecidableEq, Repr

/-- The logical bulkheads whose stacks an access to a page reaches: every replica for a write, the one read first for a read
(R233, R234). -/
def Part.reached (p : Part) (x : Xl) (write : Bool) (va : Nat) : List Nat :=
  if 1 < pteTier x.entry then []
  else if pteRp x.entry then if write then List.range p.cfg.size else [x.gate]
  else [(pteAddr x.entry + (va - x.va)) / bulkSpan]
/-- The checks after the first row of R224, in its order, and then R388, R235, R236 and R232. -/
def State.checkLeaf (s : State) (p : Part) (need : Need) (err : Option Nat) (va : Nat) (x : Xl) (h : Hit) : XRes :=
  let e := x.entry
  let a := pteAddr e + (va - x.va)
  let w := p.cwin (a / bulkSpan)
  let ks := p.reached x need.w va
  if !pteV e then .page
  else if pteKey e < p.cfg.slotFirst || p.cfg.slotFirst + p.cfg.slotCount ≤ pteKey e then .prot
  else if (need.w || need.must) && !need.host && !pteW e then .prot
  else if need.x && !pteX e then .prot
  else if need.lane && pteCmp e then .prot
  else if need.cell && pteTier e ≤ 1 && w.2.1 ≤ a % bulkSpan && a % bulkSpan < w.2.1 + w.2.2 then .prot
  else if need.single && pteRp e then .prot
  else if ks.any (fun k => err == some (p.bulkOf k)) then .ok h
  else if x.gen != p.genOf x.gate e then .gone
  else if ks.any (s.down p x.gate) then .gone
  else if 1 < pteTier e && p.downNode.contains (x.gate * 1024 + pteNode e) then .gone
  else if need.w && pteMig e then .moving (ks.head?.map p.bulkOf)
  else match ks.find? (fun k => s.stuck err (p.bulkOf k)) with
  | some k => .held (p.bulkOf k)
  | none => .ok h

/-- The translations of a page that may still be cached and differ from the one found now (R225): each is used or not by a
free choice. -/
def State.choose (s : State) (now : WRes) : List Xl → State × WRes
  | [] => (s, now)
  | x :: t =>
    if now == .leaf x then State.choose s now t
    else if Config.freeBool s.free then ({ s with free := s.free + 1 }, .leaf x)
    else State.choose { s with free := s.free + 1 } now t

/-- The leaf of an address, held or walked; held lists a lane's last-page register. A request that has been completed with error
keeps the translation that it was made with (R58). -/
def State.findLeaf (s : State) (p : Part) (held : List Xl) (need : Need) (err : Option Nat) (va : Nat) : State × WRes :=
  let fits (x : Xl) : Bool := x.va ≤ va && va < x.va + x.size && x.gate == gateOf need.home x.entry
  let old := (p.tlb ++ held).filter fits
  let failed (x : Xl) : Bool := err.any (fun b => (p.reached x need.w va).any (fun k => p.bulkOf k == b))
  match old.find? failed with
  | some x => (s, WRes.leaf x)
  | none =>
    let w := s.walk p need.home err va
    w.1.choose w.2 old
/-- Translate an address of a partition, without windows. Whatever the checks find, the entry that has been walked may be held
from now on (R225). -/
def State.xlateIn (s : State) (pp : Nat) (held : List Xl) (need : Need) (err : Option Nat) (va : Nat) (h : Xl → Hit) :
    State × XRes :=
  match s.part? pp with
  | none => (s, .prot)
  | some p =>
    match s.findLeaf p held need err va with
    | (s, .leaf x) =>
      (if pteV x.entry then s.modPart pp (fun p => if p.tlb.contains x then p else { p with tlb := x :: p.tlb }) else s,
        s.checkLeaf p need err va x (h x))
    | (s, .prot) => (s, .prot)
    | (s, .unmapped) => (s, .page)
    | (s, .gone) => (s, .gone)
    | (s, .held b) => (s, .held b)

/-- The window of a partition that an address falls in, a live entry before a revoked one: the physical bulkhead of its gate,
its index and the entry (R49, R52). -/
def State.window? (s : State) (pid : BitVec 16) (va : Nat) : Option (Nat × Nat × Win) :=
  let all := (List.range 16).flatMap (fun b => ((List.range 16).zip (s.bulk b).wins).filterMap (fun e =>
    e.2.bind (fun w =>
      if w.grantee == pid && w.view.toNat ≤ va && va < w.view.toNat + w.size.toNat then some (b, e.1, w) else none)))
  match all.find? (fun e => e.2.2.live) with
  | some e => some e
  | none => all.head?
/-- The partition of an identity. -/
def State.partOf? (s : State) (pid : BitVec 16) : Option Nat :=
  (s.parts.find? (fun e => e.2.cfg.pid == pid)).map (fun e => e.1)

/-- The partition and the address there that an address leads to, past a window (R52). -/
def State.behindWindow (s : State) (pp va : Nat) : Nat × Nat :=
  match (s.part? pp).bind (fun p => s.window? p.cfg.pid va) with
  | some (_, _, w) => ((s.partOf? w.grantor).getD pp, w.target.toNat + (va - w.view.toNat))
  | none => (pp, va)

/-- Does a translated address lie in the stack of a physical bulkhead? Its base die accepts a request of another partition
only through a window entry of its own gate (R263). -/
def State.inStack (s : State) (b : Nat) (h : Hit) : Bool :=
  match s.part? h.pp with
  | some p => pteTier h.x.entry ≤ 1 && p.bulkOf ((pteAddr h.x.entry + (h.va - h.x.va)) / bulkSpan) == b || pteRp h.x.entry
  | none => false
/-- Translate a .G address of a partition: bits [63:56], then a window, then the partition's own tables (R52, R220). An access
through a window comes from the gate that holds it; DESIGN CHOICE (log 50): where the page no longer lies in that gate's stack,
no entry of the stack's own gate admits it, and WINDOW is raised. -/
def State.xlate (s : State) (pp : Nat) (held : List Xl) (need : Need) (err : Option Nat) (va : Nat) : State × XRes :=
  if 2 ^ 56 ≤ va then (s, .prot)
  else match (s.part? pp).bind (fun p => s.window? p.cfg.pid va) with
  | none => s.xlateIn pp held need err va (fun x => { named := va, pp := pp, va := va, x := x, via := none })
  | some (b, i, w) =>
    let a := w.target.toNat + (va - w.view.toNat)
    if !w.live || ((need.w || need.must) && !w.rw) then (s, .window)
    else if err == some b then (s, .gone)
    else if !(s.bulk b).gate || (s.bulk b).state != .running then (s, .gone)
    else if s.stuck err b then (s, .held b)
    else match (s.partOf? w.grantor).bind (fun g => (s.part? g).map (fun p => (g, p))) with
    | none => (s, .window)
    | some (g, p) =>
      let r := s.xlateIn g [] { need with home := p.map.findIdx? (fun x => x == b) } err a
        (fun x => { named := va, pp := g, va := a, x := x, via := some (b, i) })
      match r.2 with
      | .ok h => if r.1.inStack b h then r else (r.1, .window)
      | _ => r

/-! Where a translated address lies. -/

/-- A place in storage: remote or host memory (ext), or the stacks; the addresses of its replicas, the first read first, each
with the slot of its compressed block; and the name of the key it is read and written under. -/
structure Loc where
  ext : Bool
  reps : List (Nat × Option Nat)
  key : Nat
  deriving DecidableEq, Repr

/-- Where an offset of a logical bulkhead's stack is kept: the aperture reaches the slots of the compressed window (R266). -/
def Part.repOf (p : Part) (cmp : Bool) (k off : Nat) : Nat × Option Nat :=
  let w := p.cwin k
  if w.2.1 ≤ off && off < w.2.1 + w.2.2 then
    let a := p.phys (k * bulkSpan + w.1 + (off - w.2.1))
    (a, some (a / 512 * 512))
  else
    let a := p.phys (k * bulkSpan + off)
    (a, if cmp then some (a / 512 * 512) else none)
/-- The place of an address of a page; the replica of the gate's bulkhead is read first, then the others in ascending order
(R233). -/
def State.loc (s : State) (p : Part) (x : Xl) (va : Nat) : Loc :=
  let e := x.entry
  if pteTier e ≤ 1 then
    let a := pteAddr e + (va - x.va)
    let ks := if pteRp e then x.gate :: (List.range p.cfg.size).filter (fun j => j != x.gate) else [a / bulkSpan]
    { ext := false, reps := ks.map (fun k => p.repOf (pteCmp e) k (a % bulkSpan)), key := s.keyName (pteKey e) }
  else
    { ext := true, reps := [((pteTier e * 1024 + pteNode e) * nodeSpan +
        (pteFrame e % (if pteTier e == 2 then 2 ^ 24 else 2 ^ 29)) * 65536 + (va - x.va), none)], key := 0 }

/-- A read meets the error path of the unit, or of the block, that it lies in. -/
def State.touchRep (s : State) (n : Nat) (r : Nat × Option Nat) : State :=
  match r.2 with
  | some slot => s.touchSlot slot
  | none => s.touch r.1 n
/-- Read n bytes of one sector of the stacks: the first replica whose sector is not Z, else the last (R233). -/
def State.rdReps (s : State) (key n : Nat) : List (Nat × Option Nat) → State × Nat × Standing
  | [] => (s, 0, .Z)
  | [r] =>
    let s := s.touchRep n r
    (s, s.rdRun key r.1 n, s.mem.st (r.1 / 32))
  | r :: t =>
    let s := s.touchRep n r
    if s.mem.st (r.1 / 32) == .Z then State.rdReps s key n t else (s, s.rdRun key r.1 n, s.mem.st (r.1 / 32))

/-- Undefined bytes as a number (R265). -/
def State.freeBytes (s : State) : Nat → State × Nat
  | 0 => (s, 0)
  | n + 1 =>
    let r := State.freeBytes { s with free := s.free + 1 } n
    (r.1, (Config.freeByte s.free).toNat + 256 * r.2)

/-- Read n bytes of one sector of a base line. Host memory carries no standing (R223); a CMP page read by an agent other
than a copy returns no defined bytes (R265). -/
def State.rdBase (s : State) (p : Part) (x : Xl) (copy : Bool) (va n : Nat) : State × Nat × Standing :=
  let l := s.loc p x va
  if l.ext then
    let a := (l.reps.head?.map Prod.fst).getD 0
    (s, s.extMem.rdNat a n, if pteTier x.entry == 3 then .S else s.extMem.st (a / 32))
  else
    let r := State.rdReps s l.key n l.reps
    if pteCmp x.entry && !copy then
      let b := r.1.freeBytes n
      (b.1, b.2, r.2.2)
    else r

/-- The state a write of n bytes at a gives its one sector (R142). -/
def coverSt (a n : Nat) (old st : Standing) : Standing := if a % 32 == 0 && n == 32 then st else joinSt old st

/-- Write n bytes of one unit at a place of the stacks. whole tells that the write is part of one that replaces the whole
compressed block, on a CMP page, or the whole unit. Any other write into a block with an uncorrectable unit is not performed
(R260, R266). -/
def State.wrRep (s : State) (key : Nat) (cmp whole : Bool) (n v : Nat) (st : Standing) (r : Nat × Option Nat) : State :=
  match r.2 with
  | none => (if whole && !s.flawless then s.touchWriteUnit true (r.1 / 64) else s.touchWrite r.1 n).wrRun key r.1 n v st
  | some slot =>
    if cmp && whole then (s.replaceUnit (r.1 / 64)).wrRun key r.1 n v st
    else
      let s := s.touchSlot slot
      if s.slotBad slot then s else s.wrRun key r.1 n v st
/-- Write n bytes of one unit of a base line, in every replica (R234). -/
def State.wrBase (s : State) (p : Part) (x : Xl) (whole : Bool) (va n v : Nat) (st : Standing) : State :=
  let l := s.loc p x va
  if l.ext then
    l.reps.foldl (fun s r => { s with extMem := s.extMem.store r.1 n v st }) s
  else l.reps.foldl (State.wrRep · l.key (pteCmp x.entry) whole n v st ·) s

/-! Cells. -/

/-- The entry of a tag; tag 0 is its own parent and LIVE (R238, R239). -/
def Part.ctxEnt? (p : Part) (tag : BitVec 14) : Option CtxEnt := tget p.ctxs tag.toNat
def Part.parentOf (p : Part) (tag : BitVec 14) : BitVec 14 := ((p.ctxEnt? tag).map CtxEnt.parent).getD 0
def Part.depthOf (p : Part) (tag : BitVec 14) : Nat := ((p.ctxEnt? tag).map CtxEnt.depth).getD 0
/-- The cell of a tag and a line. -/
def Part.cell? (p : Part) (tag : BitVec 14) (line : Nat) : Option CtxCell :=
  p.cells.find? (fun c => c.tag == tag && c.line == line)
/-- The nearest cell in the chain of a tag (R244); none names the base line. A chain has at most 16 tags. -/
def Part.chain (p : Part) (line : Nat) : Nat → BitVec 14 → Option CtxCell
  | 0, _ => none
  | n + 1, tag =>
    if tag = 0 then none
    else match p.cell? tag line with
    | some c => some c
    | none => Part.chain p line n (p.parentOf tag)

/-- n bytes at offset o of a line's data. -/
def lineGet (d : BitVec 1024) (o n : Nat) : Nat := (d.toNat >>> (8 * o)) % 2 ^ (8 * n)
def linePut (d : BitVec 1024) (o n v : Nat) : BitVec 1024 :=
  (d &&& ~~~(BitVec.ofNat 1024 ((2 ^ (8 * n) - 1) <<< (8 * o)))) ||| BitVec.ofNat 1024 ((v % 2 ^ (8 * n)) <<< (8 * o))

/-- The storage address of a cell's pool line (R246, log 50). -/
def Part.cellAt (p : Part) (c : CtxCell) : Nat := p.phys (c.pool * bulkSpan + (storageEnd - 128 * (c.slot + 1)))
/-- The key that one of the two units of a cell was written under. -/
def CtxCell.keyOf (c : CtxCell) (i : Nat) : Nat := if i = 0 then c.keys.1 else c.keys.2
/-- The 64 bytes of a unit of a cell as a read under a key finds them (R63, R64). -/
def State.cellSeen (s : State) (p : Part) (c : CtxCell) (key i : Nat) : BitVec 512 :=
  let w := c.data.extractLsb' (512 * i) 512
  let u := p.cellAt c / 64 + i
  if c.keyOf i == key then w
  else Config.xtsDecrypt (s.keyPair key) (tweakOf u) (Config.xtsEncrypt (s.keyPair (c.keyOf i)) (tweakOf u) w)
/-- Change the cell of a tag and a line. -/
def Part.modCell (p : Part) (tag : BitVec 14) (line : Nat) (f : CtxCell → CtxCell) : Part :=
  { p with cells := p.cells.map (fun c => if c.tag == tag && c.line == line then f c else c) }
/-- A cell whose unit i could not be delivered: its sectors are Z and its bytes what storage holds (R255, R260). -/
def CtxCell.lose (c : CtxCell) (i v : Nat) : CtxCell :=
  { c with data := linePut c.data (64 * i) 64 v, st := lset (lset c.st (2 * i) .Z) (2 * i + 1) .Z }
/-- A read of a unit of a cell's pool line goes through the error path. -/
def State.touchCell (s : State) (pp : Nat) (p : Part) (c : CtxCell) (i : Nat) : State :=
  if s.flawless then s
  else
    let u := p.cellAt c / 64 + i
    let s := s.touchUnit u
    if s.delivers u then s else s.modPart pp (fun p => p.modCell c.tag c.line (fun c => c.lose i (s.mem.rdNat (64 * u) 64)))
/-- Read n bytes of one sector of a cell, under the key of its base page. -/
def State.rdCell (s : State) (pp : Nat) (p : Part) (x : Xl) (c : CtxCell) (va n : Nat) : State × Nat × Standing :=
  let i := va % 128 / 64
  let s := s.touchCell pp p c i
  let c := (((s.part? pp).bind (fun p => p.cell? c.tag c.line))).getD c
  (s, (s.cellSeen p c (s.keyName (pteKey x.entry)) i).toNat / 2 ^ (8 * (va % 64)) % 2 ^ (8 * n),
    (c.st[va % 128 / 32]?).getD .S)
/-- Read n bytes of one sector at a tag (R243, R244). -/
def State.rdPiece (s : State) (pp : Nat) (x : Xl) (tag : BitVec 14) (copy : Bool) (va n : Nat) : State × Nat × Standing :=
  match s.part? pp with
  | none => (s, 0, .Z)
  | some p =>
    match if pteCx x.entry then p.chain (va / 128) 16 tag else none with
    | some c => s.rdCell pp p x c va n
    | none => s.rdBase p x copy va n

/-- Note a write of a line at a tag, for R252. -/
def State.noteWrite (s : State) (pp : Nat) (tag : BitVec 14) (line : Nat) : State :=
  let s := { s with seq := s.seq + 1 }
  s.modPart pp (fun p =>
    { p with lastWrite := (tag, line, s.seq) :: p.lastWrite.filter (fun e => !(e.1 == tag && e.2.1 == line)) })

/-- The logical bulkhead whose pool supplies a line: the one that holds its base frame (R246). -/
def poolOf (x : Xl) (va : Nat) : Nat := if pteTier x.entry ≤ 1 then (pteAddr x.entry + (va - x.va)) / bulkSpan else 0

/-- Free lines of the pool of a logical bulkhead. -/
def Part.poolFree (p : Part) (k : Nat) : Nat := (p.pools[k]?.getD 0) - (p.cells.filter (fun c => c.pool == k)).length
/-- The pool line that the next cell takes: the lowest one that is free (log 50). -/
def Part.freeSlot (p : Part) (k : Nat) : Nat :=
  ((List.range (p.cells.length + 1)).find? (fun i => !p.cells.any (fun c => c.pool == k && c.slot == i))).getD 0

/-- Does a write of a line at a tag take a new pool line (R245)? -/
def Part.needsCell (p : Part) (x : Xl) (tag : BitVec 14) (va : Nat) : Bool :=
  pteCx x.entry && tag != 0 && (p.cell? tag (va / 128)).isNone

/-- Read a whole line, sector by sector, at a tag. -/
def State.rdLine (s : State) (pp : Nat) (x : Xl) (tag : BitVec 14) (line : Nat) : State × BitVec 1024 × List Standing :=
  (List.range 4).foldl (fun a i =>
    let r := a.1.rdPiece pp x tag true (line * 128 + 32 * i) 32
    (r.1, linePut a.2.1 (32 * i) 32 r.2.1, a.2.2 ++ [r.2.2])) (s, 0, [])

/-- A pool line is written whole: nothing of its units is read (R260). -/
def State.freshLine (s : State) (a : Nat) : State :=
  if s.flawless then s else (s.touchWriteUnit true (a / 64)).touchWriteUnit true (a / 64 + 1)
/-- Materialise a cell (R245). -/
def State.materialise (s : State) (pp : Nat) (x : Xl) (tag : BitVec 14) (va : Nat) : State :=
  match s.part? pp with
  | none => s
  | some p =>
    if p.needsCell x tag va then
      let r := s.rdLine pp x tag (va / 128)
      let k := s.keyName (pteKey x.entry)
      let c : CtxCell :=
        { tag := tag, line := va / 128, data := r.2.1, st := r.2.2, pool := poolOf x va, slot := p.freeSlot (poolOf x va)
          keys := (k, k) }
      (r.1.freshLine (p.cellAt c)).modPart pp (fun p => { p with cells := c :: p.cells })
    else s

/-- Does a migrated page hold an address? -/
def Migrated.covers (m : Migrated) (va : Nat) : Bool := m.va ≤ va && va < m.va + m.size
/-- A page that firmware migrated has been written since it arrived (R230). -/
def State.noteMigrated (s : State) (pp va : Nat) : State :=
  s.modPart pp (fun p =>
    if p.migrated.any (fun m => m.covers va && !m.written) then
      { p with migrated := p.migrated.map (fun m => if m.covers va then { m with written := true } else m) }
    else p)

/-- A cell after a write of n bytes of one unit, with one standing (R142); seen is the unit as a read under the key finds it. -/
def CtxCell.write (c : CtxCell) (key : Nat) (seen : BitVec 512) (o n v : Nat) (st : Standing) : CtxCell :=
  let i := o / 64
  { c with
    data := linePut (linePut c.data (64 * i) 64 seen.toNat) o n v
    st := (sectors o n).foldl (fun l k =>
      lset l k (if o ≤ 32 * k && 32 * k + 32 ≤ o + n then st else joinSt (l[k]?.getD .S) st)) c.st
    keys := if i = 0 then (key, c.keys.2) else (c.keys.1, key) }
/-- Write n bytes of one unit of a cell that exists. -/
def State.wrCell (s : State) (pp : Nat) (x : Xl) (tag : BitVec 14) (whole : Bool) (va n v : Nat) (st : Standing) : State :=
  match (s.part? pp).bind (fun p => (p.cell? tag (va / 128)).map (fun c => (p, c))) with
  | none => s
  | some (p, c) =>
    let i := va % 128 / 64
    let u := p.cellAt c / 64 + i
    let whole := whole || (va % 64 == 0 && n == 64)
    let s := if whole then s else s.touchCell pp p c i
    let s := if s.flawless then s else s.touchWriteUnit true u
    let key := s.keyName (pteKey x.entry)
    s.modPart pp (fun p => p.modCell tag (va / 128) (fun c => c.write key (s.cellSeen p c key i) (va % 128) n v st))
/-- Write n bytes of one unit at a tag, materialising its cell (R142, R245). -/
def State.wrPiece (s : State) (pp : Nat) (x : Xl) (tag : BitVec 14) (whole : Bool) (va n v : Nat) (st : Standing) : State :=
  match s.part? pp with
  | none => s
  | some p =>
    if !pteCx x.entry then (s.wrBase p x whole va n v st).noteMigrated pp va
    else
      let s := s.materialise pp x tag va
      let s := if tag = 0 then (s.wrBase p x whole va n v st).noteMigrated pp va else s.wrCell pp x tag whole va n v st
      s.noteWrite pp tag (va / 128)

/-! Leaves as firmware reads them, whatever can be reached. -/

/-- A leaf: its level, the partition physical address of its entry and its bits. -/
structure LeafAt where
  lvl : Nat
  at_ : Nat
  e : BitVec 64
  deriving DecidableEq, Repr
/-- The entry at a partition physical address, under the partition's first key slot (R64). -/
def State.entryBits (s : State) (p : Part) (a : Nat) : BitVec 64 :=
  BitVec.ofNat 64 (s.rdRun (s.keyName p.cfg.slotFirst) (p.phys a) 8)
/-- The leaf of an address, from a table down. -/
def State.leafFrom (s : State) (p : Part) (va : Nat) : Nat → Nat → Option LeafAt
  | 0, table =>
    let a := table + 8 * (va / 2 ^ 16 % 32)
    if pteLeaf (s.entryBits p a) then some { lvl := 0, at_ := a, e := s.entryBits p a } else none
  | n + 1, table =>
    let a := table + 8 * (va / 2 ^ (21 + 9 * n) % if n = 3 then 256 else 512)
    let e := s.entryBits p a
    if pteLeaf e then some { lvl := n + 1, at_ := a, e := e }
    else if pteV e then State.leafFrom s p va n ((e.extractLsb' 8 32).toNat * 256)
    else none
def State.leafAt (s : State) (p : Part) (va : Nat) : Option LeafAt := s.leafFrom p va 4 0
/-- The translation that a leaf gives at the gate of its frame. -/
def LeafAt.xl (l : LeafAt) (p : Part) (va : Nat) : Xl := p.xlOf none l.lvl va l.e

/-! Ranges that a list of translations covers. -/

/-- The translation of a list that covers an address. -/
def xlFor (xs : List Xl) (va : Nat) : Option Xl := xs.find? (fun x => x.va ≤ va && va < x.va + x.size)

/-- Read one more piece of a range. -/
def rdCut (pp : Nat) (xs : List Xl) (tag : BitVec 14) (copy : Bool) (va : Nat) (a : State × Nat × List Standing)
    (e : Nat × Nat) : State × Nat × List Standing :=
  match xlFor xs (va + e.1) with
  | none => a
  | some x =>
    let r := a.1.rdPiece pp x tag copy (va + e.1) e.2
    (r.1, a.2.1 + r.2.1 * 2 ^ (8 * e.1), a.2.2 ++ [r.2.2])
/-- Read n bytes at a tag through translations already made: the value and the join of the sectors. -/
def State.rdVirt (s : State) (pp : Nat) (xs : List Xl) (tag : BitVec 14) (copy : Bool) (va n : Nat) : State × Nat × Standing :=
  let r := (cutSectors va n n).foldl (rdCut pp xs tag copy va) (s, 0, [])
  (r.1, r.2.1, joinAll r.2.2)

/-- Write n bytes at a tag through translations already made, unit by unit, one standing for all. -/
def State.wrVirt (s : State) (pp : Nat) (xs : List Xl) (tag : BitVec 14) (whole : Bool) (va n v : Nat) (st : Standing) :
    State :=
  (cutUnits va n n).foldl (fun s e =>
    match xlFor xs (va + e.1) with
    | none => s
    | some x => s.wrPiece pp x tag whole (va + e.1) e.2 (v / 2 ^ (8 * e.1) % 2 ^ (8 * e.2)) st) s

end Sys2Proof.Machine
end

