-- ==== Sys2Proof/Machine/Order.lean ====
section
/-!
DEFINITION. The order in which agents observe writes (R358 to R375): a write takes its place in its locations' coherence order
when it is made, and is listed as long as some agent may still read beneath it; releases, acquires and observed completions
decide who must read it (R363, R367, R368, R372). What an engine operation reads of its role's stores without FENCE.E is the same
reading beneath, word by word (R294, R373). What is not modelled is in notes/assumptions/2.md.
-/
namespace Sys2Proof.Machine

/-! Places of sectors. -/

/-- The bytes of a sector that n bytes from a cover. -/
def bytesAt (a n : Nat) : BitVec 32 := BitVec.ofNat 32 ((2 ^ n - 1) * 2 ^ (a % 32))
/-- The sectors of n bytes of storage as they stand. -/
def Memory.oldSecs (m : Memory) (loc : SecLoc) (a n : Nat) : List OldSec :=
  (cutSectors a n n).map (fun e =>
    let b := a + e.1
    { loc := loc, sec := b / 32, bytes := bytesAt b e.2, old := BitVec.ofNat 256 (m.rdNat (b / 32 * 32) 32), st := m.st (b / 32) })
/-- Where an address of a base line is kept: of replicas, the one at the lowest place stands for all (R234). -/
def State.baseAt (s : State) (p : Part) (x : Xl) (va : Nat) : SecLoc × Nat :=
  let l := s.loc p x va
  match l.reps with
  | [] => (.m l.ext, 0)
  | r :: t => (.m l.ext, t.foldl (fun a b => min a b.1) r.1)
/-- The cell of a tag at an address. -/
def Part.cellLoc (p : Part) (pp : Nat) (tag : BitVec 14) : SecLoc := .c pp tag (((p.ctxEnt? tag).map CtxEnt.born).getD 0)
/-- Where a write at a tag goes: the tag's cell, or the base line (R243, R245). -/
def State.writeAt (s : State) (pp : Nat) (x : Xl) (tag : BitVec 14) (va : Nat) : Option (SecLoc × Nat) :=
  (s.part? pp).map (fun p => if pteCx x.entry && tag != 0 then (p.cellLoc pp tag, va) else s.baseAt p x va)
/-- Where a read at a tag finds its bytes: the nearest cell of the tag's chain, or the base line (R244). -/
def State.readAt (s : State) (pp : Nat) (x : Xl) (tag : BitVec 14) (va : Nat) : Option (SecLoc × Nat) :=
  (s.part? pp).map (fun p =>
    match if pteCx x.entry then p.chain (va / 128) 16 tag else none with
    | some c => (p.cellLoc pp c.tag, va)
    | none => s.baseAt p x va)
/-- The sectors of n bytes at a tag as they stand. -/
def State.oldVirt (s : State) (pp : Nat) (x : Xl) (tag : BitVec 14) (va n : Nat) : List OldSec :=
  (cutSectors va n n).filterMap (fun e =>
    let b := va + e.1
    (s.writeAt pp x tag b).map (fun w =>
      let r := (s.rdPiece pp x tag true (b / 32 * 32) 32).2
      { loc := w.1, sec := w.2 / 32, bytes := bytesAt w.2 e.2, old := BitVec.ofNat 256 r.1, st := r.2 }))

/-! Scopes (R361). -/

/-- Does a scope of a role contain an agent: another role, or one that belongs to no role here? -/
def State.inScope (s : State) (r : RoleRef) (c : Scope) (q : Option RoleRef) : Bool :=
  match c, q with
  | .sys, _ => true
  | _, none => false
  | c, some q =>
    q == r ||
    (match s.team? r.team, s.team? q.team with
    | some a, some b =>
      let mates := q.team == r.team
      match c with
      | .role => false
      | .team => mates
      | .share => mates || (a.part == b.part && a.serial == b.serial && a.sg.isSome && a.sg.map Prod.fst == b.sg.map Prod.fst)
      | .bulk => a.part == b.part && a.bulk == b.bulk
      | _ => a.part == b.part
    | _, _ => false)
/-- Is a scope at least as wide as another? -/
def wideAs (c d : Scope) : Bool := d.ctorIdx ≤ c.ctorIdx

/-! Who must read a write (R362, R367, R370). -/

/-- Has an acquire of a role ordered a write before its later reads: a release that reached the role ordered the write, or every
agent could read it, before the acquire, and the acquire's scope holds the releasing role? -/
def State.acquired (s : State) (r : RoleRef) (w : PastWrite) : Bool :=
  match s.role? r with
  | none => true
  | some x =>
    w.all.any (fun t => x.acq.any (fun a => decide (t ≤ a.2))) ||
    w.rels.any (fun k => s.inScope k.1 k.2.1 (some r) && x.acq.any (fun a => decide (k.2.2 ≤ a.2) && s.inScope r a.1 (some k.1)))
/-- Must a role read a write or a later one? -/
def State.binds (s : State) (r : RoleRef) (w : PastWrite) : Bool := w.knows.contains r || s.acquired r w

/-- Who reads: a role; an engine operation of a role, with the time of the role's last FENCE.E before it; or an agent of no role. -/
inductive Reader where
  | role (r : RoleRef)
  | op (owner : RoleRef) (fenced : Nat)
  | outside
  deriving DecidableEq, Repr
/-- May a reader still read beneath a write? An operation may read beneath what its own role has stored and not fenced, while no
other agent has read it (R294, R362), and never beneath an earlier operation of that role (note 5 of R366). -/
def State.mayMiss (s : State) (k : Reader) (w : PastWrite) : Bool :=
  match k with
  | .role r => !s.binds r w
  | .op r f =>
    if w.role == some r then decide (f < w.time) && w.all.isNone
    else !w.op.any (fun m => m.owner == r) && !s.binds r w
  | .outside => w.all.isNone && !w.rels.any (fun k => k.2.1 == .sys)
/-- A reader has read a write: every agent can read it from now on (R362). -/
def PastWrite.seenBy (w : PastWrite) (k : Reader) (now : Nat) : PastWrite :=
  match k with
  | .role r =>
    if w.knows.contains r then w else { w with knows := w.knows ++ [r], all := some (w.all.getD now) }
  | _ => { w with all := some (w.all.getD now) }

/-! Reading. -/

def PastWrite.touches (w : PastWrite) (a n : Nat) : Bool := w.was.bytes &&& bytesAt a n != 0
/-- n bytes from a as they stood before some writes: each byte as the earliest of them found it. -/
def beneath (ws : List PastWrite) (a n v : Nat) : Nat :=
  if ws.isEmpty then v
  else ((List.range n).map (fun i =>
    ((ws.find? (fun w => w.was.bytes.getLsbD ((a + i) % 32))).map (fun w => w.was.old.toNat / 256 ^ ((a + i) % 32) % 256)).getD
      (v / 256 ^ i % 256) * 256 ^ i)).sum
/-- How many of the latest of some writes a reader reads beneath: a free choice among those that it may miss. -/
def State.pickBeneath (s : State) (k : Reader) (pick : Bool) (ws : List PastWrite) : State × Nat :=
  let n := (ws.reverse.takeWhile (s.mayMiss k)).length
  if pick && n != 0 then ({ s with free := s.free + 1 }, (Config.freeByte s.free).toNat % (n + 1)) else (s, 0)
/-- Read n bytes of one sector that are read together (R359), given the listed writes of the sector: the state, the value, and the
time of the write read. -/
def State.readUnit (s : State) (k : Reader) (pick : Bool) (ws : List PastWrite) (a n v : Nat) : State × Nat × Nat :=
  let ts := ws.filter (fun w => w.touches a n)
  let r := s.pickBeneath k pick ts
  let kept := ts.take (ts.length - r.2)
  let top := (kept.getLast?.map PastWrite.time).getD 0
  ({ r.1 with past := r.1.past.map (fun w => if kept.any (fun x => x.time == w.time && x.was == w.was) then w.seenBy k s.clock else w) },
    beneath (ts.drop (ts.length - r.2)) a n v, top)
/-- The listed writes of a sector, oldest first. -/
def State.pastAt (s : State) (loc : SecLoc) (sec : Nat) : List PastWrite :=
  s.past.filter (fun w => w.was.loc == loc && w.was.sec == sec)
/-- Read n bytes of one sector that holds v and st: units of some size are read each on its own, and the standing is that of the
latest write read or of a later one (R359, R360, R373). -/
def State.readPast (s : State) (k : Reader) (pick : Bool) (unit : Nat) (loc : SecLoc) (a n v : Nat) (st : Standing) :
    State × Nat × Standing :=
  let ws := s.pastAt loc (a / 32)
  if ws.isEmpty then (s, v, st)
  else
    let r := (cutAt unit a n n).foldl (fun (g : State × Nat × Nat) e =>
      let q := g.1.readUnit k pick ws (a + e.1) e.2 (v / 256 ^ e.1 % 256 ^ e.2)
      (q.1, g.2.1 + q.2.1 * 256 ^ e.1, max g.2.2 q.2.2)) (s, 0, 0)
    let later := ws.filter (fun w => decide (r.2.2 < w.time))
    let c := r.1.pickBeneath k pick later
    (c.1, r.2.1, ((later.drop (later.length - c.2)).head?.map (fun w => w.was.st)).getD st)
/-- Storage as an engine operation reads the sectors lo to hi of it. -/
def State.viewPast (s : State) (k : Reader) (loc : SecLoc) (lo hi : Nat) (m : Memory) : State × Option Memory :=
  let secs := ((s.past.filter (fun w => w.was.loc == loc && lo ≤ w.was.sec && w.was.sec ≤ hi)).map (fun w => w.was.sec)).eraseDups
  secs.foldl (fun g q =>
    let r := g.1.readPast k true 4 loc (32 * q) 32 (m.rdNat (32 * q) 32) (m.st q)
    (r.1, some (((g.2.getD m).wrNat (32 * q) 32 r.2.1).setSt q r.2.2))) (s, none)
/-- Does the issuing role know every listed write, so that it reads everything as it stands? -/
def State.knowsAll (s : State) : Bool := s.past.all (fun w => w.knows.contains s.cur)

/-! Releases and acquires (R363, R367). -/

/-- A release of a role at a scope orders every write that the role made or must read, and that is no later than a time (R370). -/
def State.releaseFrom (s : State) (r : RoleRef) (c : Scope) (upTo : Nat) : State :=
  { s with past := s.past.map (fun w =>
      if w.time ≤ upTo && s.binds r w then { w with rels := w.rels ++ [(r, c, s.clock)] } else w) }
/-- A release of the issuing role that is an act of its own: an arrival, a CPOST, a decrement, a CTXEND.COMMIT (R386, R396, R368). -/
def State.release (s : State) (c : Scope) : State := s.releaseFrom s.cur c s.clock
/-- A release fence orders the role's earlier writes before its next write, and no earlier (note 7 of R366). -/
def State.fenceRel (s : State) (c : Scope) : State := s.modCur (fun r => { r with rels := r.rels ++ [(c, s.clock)] })
/-- The role's pending release fences take effect: it is about to write. -/
def State.applyRels (s : State) : State :=
  match s.role? s.cur with
  | none => s
  | some x =>
    if x.rels.isEmpty then s
    else (x.rels.foldl (fun s e => s.releaseFrom s.cur e.1 e.2) s).modCur (fun r => { r with rels := [] })
/-- The issuing role has observed the completion of some engine operations: their writes count as its own (R372). -/
def State.observe (s : State) (f : PastWrite → OpMark → Bool) : State :=
  { s with past := s.past.map (fun w =>
      if w.op.any (fun m => f w m && (tget s.ops m.id).isNone) && !w.knows.contains s.cur then { w with knows := w.knows ++ [s.cur] }
      else w) }
/-- An acquire of the issuing role at a scope. After an NMWAIT, one of BULK or wider observes its commands (R271, R368). -/
def State.acquire (s : State) (c : Scope) : State :=
  let at_ := ((s.role? s.cur).map Role.nmAt).getD 0
  let s := if wideAs c .bulk then s.observe (fun w m => m.nmc && m.owner == s.cur && w.time ≤ at_) else s
  let s := s.modCur (fun r => { r with acq := (c, s.clock) :: r.acq.filter (fun a => a.1 != c) })
  { s with clock := s.clock + 1 }
/-- FENCE.ACQ, FENCE.REL and FENCE.FULL (R286, R363). -/
def State.fenceOrder (s : State) (k : FenceKind) (c : Scope) : State :=
  match k with
  | .acq => s.acquire c
  | .rel => s.fenceRel c
  | .full => (s.applyRels.release c).acquire c
/-- All that the roles of a team have written, and their operations, is visible to every agent: the team is saved or retires (R36). -/
def State.settleTeam (s : State) (t : Nat) : State :=
  { s with past := s.past.map (fun w =>
      if w.role.any (fun r => r.team == t) || w.op.any (fun m => m.owner.team == t) then { w with all := some (w.all.getD s.clock) }
      else w) }
/-- What a role that starts now must read (R368, R369, R396). -/
def State.startAcq (s : State) : List (Scope × Nat) := [(.sys, s.clock)]

/-! Writes. -/

/-- The issuing role writes over some sectors. -/
def State.noteStore (s : State) (put : Standing) (xs : List OldSec) : State :=
  if xs.isEmpty then s
  else
    let s := s.applyRels
    { s with
      clock := s.clock + 1
      past := s.past ++ xs.map (fun x =>
        { time := s.clock + 1, role := some s.cur, op := none, was := x, put := put, knows := [s.cur], all := none, rels := [] }) }
/-- An operation's mark. -/
def EngOp.mark (o : EngOp) : OpMark :=
  { id := o.id, owner := o.owner, flag := o.flag, batches := o.batches
    bar := (match o.kind with | .copy k _ => k.bar | _ => none), nmc := (match o.kind with | .nmc _ => true | _ => false) }
/-- An engine operation writes over some sectors: what its role wrote before the FENCE.E that preceded it is visible by then (R286). -/
def State.noteEngine (s : State) (o : EngOp) (put : Standing) (xs : List OldSec) : State :=
  if xs.isEmpty then s
  else
    { s with
      clock := s.clock + 1
      past := s.past.map (fun w =>
          if w.role == some o.owner && w.time ≤ o.fenced then { w with all := some (w.all.getD s.clock) } else w) ++
        xs.map (fun x =>
          { time := s.clock + 1, role := none, op := some o.mark, was := x, put := put, knows := [], all := none, rels := [] }) }
/-- An agent of no role writes over some sectors. -/
def State.noteOutside (s : State) (put : Standing) (xs : List OldSec) : State :=
  if xs.isEmpty then s
  else
    { s with
      clock := s.clock + 1
      past := s.past ++ xs.map (fun x =>
        { time := s.clock + 1, role := none, op := none, was := x, put := put, knows := [], all := some (s.clock + 1), rels := [] }) }
/-- Every agent reads the sectors lo to hi as they stand from now on. -/
def State.forget (s : State) (loc : SecLoc) (lo hi : Nat) : State :=
  if s.past.isEmpty then s
  else { s with past := s.past.filter (fun w => !(w.was.loc == loc && lo ≤ w.was.sec && w.was.sec ≤ hi)) }
/-- Every agent reads some sectors as they stand from now on. -/
def State.forgetAll (s : State) (xs : List OldSec) : State := xs.foldl (fun s x => s.forget x.loc x.sec x.sec) s
/-- Every agent reads n bytes at a tag as they stand from now on. -/
def State.forgetVirt (s : State) (pp : Nat) (x : Xl) (tag : BitVec 14) (va n : Nat) : State :=
  if s.past.isEmpty then s else s.forgetAll (s.oldVirt pp x tag va n)
/-- What n bytes of one sector come to when an operation writes v and st over cur: a store of its role that FENCE.E has not ordered
may land after the operation's write (the cell St→Cp of R364). -/
def State.underStores (s : State) (o : EngOp) (loc : SecLoc) (a n cur v : Nat) (st : Standing) : State × Nat × Standing :=
  let ws := (s.pastAt loc (a / 32)).filter (fun w => w.touches a n)
  if ws.isEmpty then (s, v, st)
  else
    let m := (ws.reverse.takeWhile (fun w => w.role == some o.owner && decide (o.fenced < w.time) && w.all.isNone)).length
    let c := if m = 0 then 0 else (Config.freeByte s.free).toNat % (m + 1)
    let s := if m = 0 then s else { s with free := s.free + 1 }
    if c = 0 then (s, v, st)
    else
      let top := ws.drop (ws.length - c)
      ((s.forget loc (a / 32) (a / 32)),
        ((List.range n).map (fun i =>
          (if top.any (fun w => w.was.bytes.getLsbD ((a + i) % 32)) then cur / 256 ^ i % 256 else v / 256 ^ i % 256) * 256 ^ i)).sum,
        top.foldl (fun x w => if w.was.bytes == BitVec.allOnes 32 then w.put else joinSt x w.put) st)

end Sys2Proof.Machine
end

