-- ==== Sys2Proof/Machine/Access.lean ====
section
/-!
DEFINITION. How a role's accesses reach the five spaces (R216 to R220): places, the checks of R227 lane by lane, range locks
(R276, R277), the state of a tag (R243, R253), the outcome for the whole instruction (R228) and the replay of unfinished
lanes.
-/
namespace Sys2Proof.Machine

/-! Places. -/

/-- A run of bytes of one page, in the space of partition pp; foreign tells that a window led there. -/
structure Seg where
  len : Nat
  pp : Nat
  va : Nat
  x : Xl
  foreign : Bool := false
  deriving DecidableEq, Repr

/-- Where an element lies: a team's scratch, a partition's bulkhead scratch, or virtual memory at a tag. -/
inductive Place where
  | scr (team : Nat) (off : Nat)
  | bs (pp : Nat) (a : Nat)
  | virt (segs : List Seg) (tag : BitVec 14)
  deriving DecidableEq, Repr

/-- The rest of a run of segments after o bytes. -/
def dropSegs : List Seg → Nat → List Seg
  | [], _ => []
  | g :: t, o => if o < g.len then { g with len := g.len - o, va := g.va + o } :: t else dropSegs t (o - g.len)
/-- A place o bytes further on. -/
def Place.at (pl : Place) (o : Nat) : Place :=
  match pl with
  | .scr t off => .scr t (off + o)
  | .bs pp a => .bs pp (a + o)
  | .virt segs tag => .virt (dropSegs segs o) tag

/-- A run of n bytes at a translated address. -/
def Hit.seg (h : Hit) (n : Nat) : Seg := { len := n, pp := h.pp, va := h.va, x := h.x, foreign := h.via.isSome }
/-- The tag at which a segment is reached: 0 through a window (R49, R243). -/
def Seg.tagOf (g : Seg) (tag : BitVec 14) : BitVec 14 := if g.foreign then 0 else tag
/-- Does a segment reach the bulkhead whose held request has been completed with error (R58, R272)? -/
def State.segErr (s : State) (err : Option Nat) (write : Bool) (g : Seg) : Bool :=
  match err, s.part? g.pp with
  | some b, some p => (p.reached g.x write g.va).any (fun k => p.bulkOf k == b)
  | _, _ => false
/-- Does an address of bulkhead scratch lie in the bulkhead whose held request has been completed with error (R58)? -/
def State.bsErr (s : State) (err : Option Nat) (pp a : Nat) : Bool :=
  match err, s.part? pp with
  | some b, some p => p.bulkOf (a / 2 ^ 24) == b
  | _, _ => false

/-- Read n bytes of segments: a load that the gate completed with error receives Z (R58). -/
def State.rdSegs (s : State) (err : Option Nat) (tag : BitVec 14) : List Seg → Nat → State × Nat × List Standing
  | [], _ => (s, 0, [])
  | g :: t, n =>
    if n = 0 then (s, 0, [])
    else
      let k := min n g.len
      let r := if s.segErr err false g then
          let b := s.freeBytes k
          (b.1, b.2, Standing.Z)
        else s.rdVirt g.pp [g.x] (g.tagOf tag) false g.va k
      let q := State.rdSegs r.1 err tag t (n - k)
      (q.1, r.2.1 + q.2.1 * 2 ^ (8 * k), r.2.2 :: q.2.2)

/-- Write n bytes of segments: a write that the gate completed with error is not performed, and the role takes REMOTE_GONE
at a later fence (R58). -/
def State.wrSegs (s : State) (err : Option Nat) (tag : BitVec 14) (st : Standing) : List Seg → Nat → Nat → State
  | [], _, _ => s
  | g :: t, n, v =>
    if n = 0 then s
    else
      let k := min n g.len
      let s := if s.segErr err true g then s.defer s.cur .remoteGone 0
        else s.wrVirt g.pp [g.x] (g.tagOf tag) false g.va k (v % 2 ^ (8 * k)) st
      State.wrSegs s err tag st t (n - k) (v / 2 ^ (8 * k))

/-- Read n bytes at a place: the value and the join of its sectors (R142); err names the bulkhead that has completed the
role's request with error. -/
def State.rdPlace (s : State) (err : Option Nat) (pl : Place) (n : Nat) : State × Nat × Standing :=
  match pl with
  | .scr t off =>
    match s.team? t with
    | some t => (s, t.scratch.rdNat off n, t.scratch.joinRange off n)
    | none => (s, 0, .S)
  | .bs pp a =>
    if s.bsErr err pp a then
      let b := s.freeBytes n
      (b.1, b.2, .Z)
    else match s.part? pp with
    | some p => (s, p.bscratch.rdNat a n, p.bscratch.joinRange a n)
    | none => (s, 0, .S)
  | .virt segs tag =>
    let r := s.rdSegs err tag segs n
    (r.1, r.2.1, joinAll r.2.2)

/-! The order of accesses (R358 to R375). -/

/-- The first byte's address as sectors are cut. -/
def Place.addr : Place → Nat
  | .scr _ off => off
  | .bs _ a => a
  | .virt (g :: _) _ => g.va
  | .virt [] _ => 0
/-- Where a place lies that the issuing role reads, unless the request has been completed with error. -/
def State.readLoc (s : State) (err : Option Nat) (pl : Place) : Option (SecLoc × Nat) :=
  match pl with
  | .scr t off => some (.t t, off)
  | .bs pp a => if s.bsErr err pp a then none else some (.b pp, a)
  | .virt (g :: _) tag => if s.segErr err false g then none else s.readAt g.pp g.x (g.tagOf tag) g.va
  | .virt [] _ => none
/-- Read n bytes at a place as the issuing role may observe them: with pick beneath writes that it need not read (R370), else as
they stand, as an atomic access does (R359, R362). -/
def State.ldPlace (s : State) (pick : Bool) (err : Option Nat) (pl : Place) (n : Nat) : State × Nat × Standing :=
  if s.knowsAll then s.rdPlace err pl n
  else
    let r := (cutSectors pl.addr n n).foldl (fun (g : State × Nat × List Standing) e =>
      let q := g.1.rdPlace err (pl.at e.1) e.2
      let q := match q.1.readLoc err (pl.at e.1) with
        | some l => q.1.readPast (.role s.cur) pick 32 l.1 l.2 e.2 q.2.1 q.2.2
        | none => q
      (q.1, g.2.1 + q.2.1 * 256 ^ e.1, g.2.2 ++ [q.2.2])) (s, 0, [])
    (r.1, r.2.1, joinAll r.2.2)

/-- The sectors of n bytes of segments as they stand; what the gate completes with error is not written. -/
def State.oldSegs (s : State) (err : Option Nat) (tag : BitVec 14) : List Seg → Nat → List OldSec
  | [], _ => []
  | g :: t, n =>
    if n = 0 then []
    else
      let k := min n g.len
      (if s.segErr err true g then [] else s.oldVirt g.pp g.x (g.tagOf tag) g.va k) ++ State.oldSegs s err tag t (n - k)
/-- The sectors of a place as they stand. -/
def State.oldSecs (s : State) (err : Option Nat) (pl : Place) (n : Nat) : List OldSec :=
  match pl with
  | .scr t off => ((s.team? t).map (fun a => a.scratch.oldSecs (.t t) off n)).getD []
  | .bs pp a => if s.bsErr err pp a then [] else ((s.part? pp).map (fun p => p.bscratch.oldSecs (.b pp) a n)).getD []
  | .virt segs tag => s.oldSegs err tag segs n

/-- Write n bytes at a place with one standing (R142). -/
def State.wrPlace (s : State) (err : Option Nat) (pl : Place) (n v : Nat) (st : Standing) : State :=
  let s := s.noteStore st (s.oldSecs err pl n)
  match pl with
  | .scr t off => s.modTeam t (fun t => { t with scratch := t.scratch.store off n v st })
  | .bs pp a =>
    if s.bsErr err pp a then s.defer s.cur .remoteGone 0
    else s.modPart pp (fun p => { p with bscratch := p.bscratch.store a n v st })
  | .virt segs tag => s.wrSegs err tag st segs n v

/-! Range locks (R276, R277). -/

/-- The holder's code in %trapaux: 1 a copy, 2 a scheduled copy, 3 NMC, 4 a matrix operation (R277). -/
def EKind.holder : EKind → DWord
  | .copy _ none => 1
  | .copy _ (some _) => 2
  | .nmc _ => 3
  | .mat _ => 4

/-- Do a lock and an access, or two sets of locks, conflict (R277)? Barrier ranges bar accesses, never operations. -/
def Lock.hits (k : Lock) (space : LockSpace) (lo hi : Nat) (write : Bool) : Bool :=
  k.space == space && k.lo ≤ hi && lo ≤ k.hi && (k.kind != .read || write)

/-- Do two operations share a lock table: the core's for .T (a team's scratch), the bulkhead's for .G and .B? -/
def State.sameTable (s : State) (t : Nat) (o : EngOp) (space : LockSpace) : Bool :=
  match space with
  | .t => o.owner.team == t
  | _ =>
    match s.team? t, s.team? o.owner.team with
    | some a, some b => o.part == a.part && a.bulk == b.bulk
    | _, _ => false

/-- The holder of a range that an access of a team conflicts with. -/
def State.lockHit (s : State) (t : Nat) (space : LockSpace) (lo hi : Nat) (write : Bool) : Option DWord :=
  (s.ops.find? (fun e => s.sameTable t e.2 space && e.2.locks.any (fun k => k.hits space lo hi write))).map
    (fun e => e.2.kind.holder)

/-- Free entries of the table for .T (32 per core) and of the one for .G and .B (256 per bulkhead) (R276). -/
def State.lockRoom (s : State) (t : Nat) (ls : List Lock) : Bool :=
  match s.team? t with
  | none => true
  | some tm =>
    let own := s.ops.filter (fun e =>
      match s.team? e.2.owner.team with
      | some b => e.2.part == tm.part && b.bulk == tm.bulk
      | none => false)
    let core := own.filter (fun e => ((s.team? e.2.owner.team).map Team.core).getD 0 == tm.core)
    let isT (k : Lock) : Bool := k.space == .t
    let used := (core.flatMap (fun e => e.2.locks.filter isT)).length + (ls.filter isT).length
    let usedG := (own.flatMap (fun e => e.2.locks.filter (fun k => !isT k))).length + (ls.filter (fun k => !isT k)).length
    used ≤ 32 && usedG ≤ 256

/-! Cores. -/

/-- The physical core of a team: its bulkhead and core. -/
def State.coreOf (s : State) (t : Team) : Nat × Nat :=
  let b := ((s.part? t.part).map (fun p => p.bulkOf t.bulk)).getD 0
  let sp := (s.bulk b).spare
  (b, if sp = BitVec.ofNat 8 t.core then 24 else t.core)

/-! Tags. -/

/-- The scratch-write generation of the core (R325). -/
def State.coreGen (s : State) (core : Nat × Nat) : Nat := (tget (s.bulk core.1).coreGens core.2).getD 0
/-- CTX_DEAD's %trapaux (R253). -/
def ctxAux (tag : BitVec 14) (cause : Nat) : DWord := tag.setWidth 64 ||| BitVec.ofNat 64 (cause * 65536)
/-- Why an access at a tag is refused: the tag is FREE (0) or PENDING (1) (R243, R253). -/
def Part.ctxFault (p : Part) (tag : BitVec 14) (pendingOk : Bool) : Option DWord :=
  if tag = 0 then none
  else match p.ctxEnt? tag with
  | none => some (ctxAux tag 0)
  | some e => if e.state == .pending && !pendingOk then some (ctxAux tag 1) else none

/-- Why an access at the issuing role's %ctx is refused; a context that is no longer the one that it entered is FREE to it
(R253, R375). -/
def Ctx.ctxFault (c : Ctx) : Option DWord :=
  if c.role.ctx != 0 && (c.part.ctxEnt? c.role.ctx).any (fun e => e.born != c.role.ctxBorn) then some (ctxAux c.role.ctx 0)
  else c.part.ctxFault c.role.ctx false

/-! One lane (R227). -/

/-- What a lane meets. -/
inductive LaneRes where
  | ok (pl : Place)
  | off
  | trap (c : TCode) (aux : DWord)
  | wait (p : Park)
  deriving DecidableEq, Repr

/-- What an access asks: its space, the pages' checks, its element's size, its alignment, whether it is a whole BPI block
that is reached (R180), and its tag. -/
structure Ask where
  sp : Space
  need : Need
  size : Nat
  align : Nat
  bpi : Bool
  tag : BitVec 14
  deriving DecidableEq, Repr

/-- The wait that a translation calls for. -/
def XRes.park (va : Nat) : XRes → Option Park
  | .page => some (.page (BitVec.ofNat 64 va))
  | .gone => some (.remote (BitVec.ofNat 64 va))
  | .moving b => some (.moving (BitVec.ofNat 64 va) b)
  | .held b => some (.held b)
  | _ => none

/-- Virtual memory: the pages of n bytes from va are translated; PROT and WINDOW come before the range locks and these
before the waits (R227, R277). An element reaches at most two pages. -/
def State.resolveVirt (s : State) (c : Ctx) (held : List Xl) (need : Need) (tag : BitVec 14) (va n : Nat) :
    State × LaneRes :=
  let last := (va + n - 1) / 65536 * 65536
  let one := va / 65536 == (va + n - 1) / 65536
  let need := need.at_ c.team.bulk
  let a := s.xlate c.team.part held need c.role.accessErr va
  let b := if one then a else a.1.xlate c.team.part held need c.role.accessErr last
  let s := b.1
  if a.2 == .prot || b.2 == .prot then (s, .trap .prot 0)
  else if a.2 == .window || b.2 == .window then (s, .trap .window 0)
  else match s.lockHit s.cur.team .g (va / 32) ((va + n - 1) / 32) need.w with
  | some h => (s, .trap .rangeConflict h)
  | none =>
    match a.2, b.2 with
    | .ok h, .ok k =>
      if one then (s, .ok (.virt [h.seg n] tag)) else (s, .ok (.virt [h.seg (last - va), k.seg (n - (last - va))] tag))
    | ra, rb =>
      match ra.park va, rb.park last with
      | some p, _ => (s, .wait p)
      | none, some p => (s, .wait p)
      | none, none => (s, .trap .prot 0)

/-- The team that holds a slot of the issuing team's sharing group (R80). -/
def State.sgMember (s : State) (c : Ctx) (slot : BitVec 4) : Option (Nat × Team) :=
  match c.team.sg with
  | none => none
  | some (gid, _) =>
    s.teams.find? (fun e => e.2.part == c.team.part && e.2.serial == c.team.serial && e.2.sg == some (gid, slot))

/-- The area of a team lane in the spill stack (R216, R217). -/
def Ctx.spillArea (c : Ctx) (lane : Nat) : Nat :=
  c.launch.spillBase.toNat + (c.team.taskidx.toNat * (8 * c.launch.groups) + lane) * c.launch.spill

/-- The steps 2 to 6 of R227 for a role lane's address. -/
def State.resolve (s : State) (c : Ctx) (o : Ask) (held : List Xl) (l : Nat) (ea : Nat) : State × LaneRes :=
  let w := o.need.w
  let lo := if o.bpi then ea / 128 * 128 else ea
  let n := if o.bpi then 128 else o.size
  if ea % o.align != 0 then (s, .trap .align 0)
  else match o.sp with
  | .t =>
    if c.launch.scratch < ea + o.size then (s, .off)
    else match s.lockHit s.cur.team .t (lo / 32) ((lo + n - 1) / 32) w with
    | some h => (s, .trap .rangeConflict h)
    | none => (s, .ok (.scr s.cur.team lo))
  | .b =>
    let k := ea / 2 ^ 24
    if 2 ^ 27 ≤ ea || c.part.cfg.size ≤ k || (c.part.cfg.carve[k]?).getD 0 < ea % 2 ^ 24 + o.size then (s, .off)
    else match s.lockHit s.cur.team .b (lo / 32) ((lo + n - 1) / 32) w with
    | some h => (s, .trap .rangeConflict h)
    | none =>
      if c.role.accessErr == some (c.part.bulkOf k) then (s, .ok (.bs c.team.part lo))
      else if s.down c.part c.team.bulk k then (s, .wait (.remote (BitVec.ofNat 64 ea)))
      else if (s.bulk (c.part.bulkOf k)).hung then (s, .wait (.hung (c.part.bulkOf k)))
      else (s, .ok (.bs c.team.part lo))
  | .h =>
    if 2 ^ 23 ≤ ea then (s, .off)
    else match s.sgMember c (BitVec.ofNat 4 (ea / 2 ^ 19)) with
    | none => (s, .trap .shareRevoked 0)
    | some (t, _) =>
      if c.launch.scratch < ea % 2 ^ 19 + o.size then (s, .off)
      else match s.lockHit t .t (lo % 2 ^ 19 / 32) ((lo % 2 ^ 19 + n - 1) / 32) w with
      | some h => (s, .trap .rangeConflict h)
      | none => (s, .ok (.scr t (lo % 2 ^ 19)))
  | .k =>
    if c.launch.spill < ea + o.size then (s, .off)
    else
      let va := (c.spillArea (l + 8 * c.role.first) + ea) % 2 ^ 64
      s.resolveVirt c held { o.need with must := true } 0 (if o.bpi then va / 128 * 128 else va) n
  | .g => s.resolveVirt c held o.need o.tag lo n

/-- Which byte of a BPI block an address reaches: in .K the block is that of the absolute address. -/
def Ctx.bpiPos (c : Ctx) (sp : Space) (l : Nat) (ea : Nat) : Nat :=
  match sp with
  | .k => (c.spillArea (l + 8 * c.role.first) + ea) % 128
  | _ => ea % 128

/-! The whole instruction (R228). -/

/-- The lanes' outcomes. -/
structure Got where
  s : State
  ok : List (Nat × Place)
  off : List Nat
  traps : List (Nat × TCode × DWord)
  waits : List (Nat × Park)
  deriving DecidableEq, Repr

/-- A lane's last-page register (R225). -/
def State.heldPage (s : State) (l : Nat) : List Xl :=
  match (s.role? s.cur).bind (fun r => tget r.lastPage l) with
  | some x => [x]
  | none => []
/-- The issuing role's last-page register of a lane that has reached a page of its own partition. -/
def State.noteLastPage (s : State) (c : Ctx) (l : Nat) (pl : Place) : State :=
  match pl with
  | .virt (x :: _) _ =>
    if x.pp == c.team.part then s.modCur (fun r => { r with lastPage := tset r.lastPage l x.x }) else s
  | _ => s
/-- One more lane. -/
def Got.lane (c : Ctx) (o : Ask) (g : Got) (e : Nat × Nat) : Got :=
  match g.s.resolve c o (g.s.heldPage e.1) e.1 e.2 with
  | (s, .ok pl) => { g with s := s.noteLastPage c e.1 pl, ok := g.ok ++ [(e.1, pl)] }
  | (s, .off) => { g with s := s, off := g.off ++ [e.1] }
  | (s, .trap t a) => { g with s := s, traps := g.traps ++ [(e.1, t, a)] }
  | (s, .wait p) => { g with s := s, waits := g.waits ++ [(e.1, p)] }
/-- Resolve the lanes' addresses in ascending order, and note the page of each in its last-page register (R225). -/
def State.resolveAll (s : State) (c : Ctx) (o : Ask) (as : List (Nat × Nat)) : Got :=
  as.foldl (Got.lane c o) { s := s, ok := [], off := [], traps := [], waits := [] }

/-- The smallest code among the lanes' traps, the value of its lowest lane and the lanes that carry it (R228). -/
def Got.trap (g : Got) : Option (TCode × DWord × Mask) :=
  match g.traps with
  | [] => none
  | (_, t, a) :: rest =>
    let m := rest.foldl (fun (m : TCode × DWord) e => if e.2.1.num < m.1.num then e.2 else m) (t, a)
    some (m.1, m.2, maskOf ((g.traps.filter (fun e => e.2.1 == m.1)).map (fun e => e.1)))

/-- A per-lane memory instruction's fixed part. -/
structure LaneMem where
  g : Guard
  sp : Space
  m : Addr
  off : DWord
  need : Need
  size : Nat
  align : Nat
  bpi : Bool
  deriving DecidableEq, Repr

/-- The registers that form a lane's address (R216). -/
def addrOpnds (m : Addr) : List Opnd :=
  (match m.base with | some n => [Opnd.reg .u64 (.s n)] | none => []) ++
  (match m.idx with
    | .none => []
    | .i32 r last => [Opnd.reg .i32 (.v r last)]
    | .i64 r last => [Opnd.reg .i64 (.v r last)])
/-- A lane's effective address and the join of its registers' standing (R216, R273). -/
def Role.ea (r : Role) (m : Addr) (off : DWord) (l : Nat) : SVal :=
  let base := match m.base with | some n => (r.sreg n).val | none => 0
  let idx := match m.idx with
    | .none => 0
    | .i32 n _ => (r.vreg n l).1.signExtend 64
    | .i64 n _ => (r.vval true n l).val
  { val := base + idx + off, st := joinAll ((addrOpnds m).map (fun x => (r.opnd x l).st)) }

/-- Is a request held, rather than not made (R58, R232, R272)? -/
def Park.isHeld : Park → Bool
  | .held _ | .hung _ | .moving _ _ => true
  | _ => false
/-- The issuing role waits at an access; a request that is held keeps the number under which it was accepted. -/
def State.parkAt (s : State) (p : Park) : State :=
  if p.isHeld then
    ({ s with seq := s.seq + 1 } : State).modCur (fun r =>
      { r with park := some p, pos := r.item, heldSeq := some (r.heldSeq.getD s.seq) })
  else s.parkCur p
/-- Park the issuing role for its unfinished lanes (R228). -/
def State.parkLanes (s : State) (ws : List (Nat × Park)) : State :=
  match ws with
  | [] => s
  | (_, p) :: _ => (s.modCur (fun r => { r with unfinished := some (maskOf (ws.map (fun e => e.1))) })).parkAt p
/-- The instruction has finished in every lane. -/
def State.lanesDone (s : State) : State :=
  s.modCur (fun r => { r with unfinished := none, accessErr := none, heldSeq := none })

/-- What a tag register or %ctx gives an access: a tag, a trap that needs no access, or CTX_DEAD at an access that is not
through a window (R243, R253). -/
inductive TagRes where
  | tag (t : BitVec 14)
  | dead (aux : DWord)
  | bad (aux : DWord)
  deriving DecidableEq, Repr
/-- A window access uses tag 0 whatever the role's context is (R49, R243). -/
def State.inWindow (s : State) (c : Ctx) (ea : Nat) : Bool := (s.window? c.part.cfg.pid ea).isSome
/-- The tag of an access, when all its addresses are known, or CTX_DEAD's %trapaux. -/
def TagRes.resolve (t : TagRes) (s : State) (c : Ctx) (eas : List Nat) : DWord ⊕ BitVec 14 :=
  match t with
  | .tag t => .inr t
  | .bad a => .inl a
  | .dead a => if eas.all (s.inWindow c) then .inr 0 else .inl a

/-- A per-lane memory instruction (R227, R228). tag gives the tag or the trap that comes before the lanes; room the check
after them (a budget, pool lines), which still precedes what SCRATCH_RANGE does (R402); act performs the accesses of the
lanes that resolved; fin does what is left once no lane is unfinished. -/
def laneMem (o : LaneMem) (data : List Opnd) (scal : List (BitVec 7))
    (tag : Ctx → TagRes)
    (room : Ctx → State → Got → Option State)
    (act : Ctx → State → List (Nat × Place) → State) (fin : Ctx → State → State) (s : State) : Out :=
  let xs := addrOpnds o.m ++ data
  withLanes s o.g (fun r => r.scalZ xs || scal.any (fun n => (r.sreg n).st == .Z)) (fun r l => r.laneZ xs l)
    fun c s ls =>
      let ls := c.role.still ls
      let eas := ls.map (fun l => (c.role.ea o.m o.off l).val.toNat)
      match (tag c).resolve s c eas with
      | .inl a => if ls.isEmpty then fin c s.lanesDone else s.trapCur .ctxDead a (maskOf ls)
      | .inr tag =>
        let ask : Ask := { sp := o.sp, need := o.need, size := o.size, align := o.align, bpi := o.bpi, tag := tag }
        let got := s.resolveAll c ask (ls.zip eas)
        match got.trap with
        | some (t, a, m) => got.s.trapCur t a m
        | none =>
          match room c got.s got with
          | some s => s
          | none =>
            let s := if got.off.isEmpty then got.s else got.s.offCur (maskOf got.off)
            match s.ctx? with
            | none => s
            | some c =>
              if !got.off.isEmpty && c.role.over then s
              else
                let s := act c s got.ok
                if got.waits.isEmpty then fin c s.lanesDone else s.parkLanes got.waits

/-- The tag of an access in .G: %ctx, checked (R243); elsewhere 0. -/
def ctxTag (sp : Space) (c : Ctx) : TagRes :=
  match sp with
  | .g =>
    match c.ctxFault with
    | some a => .dead a
    | none => .tag c.role.ctx
  | _ => .tag 0

/-- The state of what is stored when an address is P or R (R142). -/
def addrSt (a : Standing) (st : Standing) : Standing := markSt (unsettled a) st
/-- DEDUCED (log 35). The state of what is loaded: the join of its sectors with the registers that form its address (R138,
R166, R279); registers that are settled leave it as it is. -/
def loadSt (a : Standing) (st : Standing) : Standing := if a = .S then st else joinSt a st

/-- New pool lines that lanes need, each with its pool and its line (R246). -/
def needLines (s : State) (ok : List (Nat × Place)) : List (Nat × Nat × Nat) :=
  ok.flatMap (fun e =>
    match e.2 with
    | .virt segs tag =>
      segs.flatMap (fun g =>
        match s.part? g.pp with
        | some p =>
          ((List.range (g.len / 128 + 2)).map (fun i => (g.va / 128 + i) * 128)).filterMap (fun a =>
            let a' := max a g.va
            if a' < g.va + g.len && p.needsCell g.x (g.tagOf tag) a' then some (e.1, poolOf g.x a', a / 128) else none)
        | none => [])
    | _ => [])
/-- The distinct (pool, line) pairs. -/
def distinctLines : List (Nat × Nat × Nat) → List (Nat × Nat)
  | [] => []
  | e :: t => if (distinctLines t).contains e.2 then distinctLines t else e.2 :: distinctLines t
/-- A per-lane write takes all the lines it needs or none: it stalls while a retire is in progress in the partition, and
otherwise raises OVERLAY_FULL naming the lanes that need a line (R246). -/
def overlayRoom (c : Ctx) (s : State) (got : Got) : Option State :=
  let need := needLines s got.ok
  let lines := distinctLines need
  if (List.range 8).any (fun k => c.part.poolFree k < (lines.filter (fun e => e.1 == k)).length) then
    if c.part.retires.isEmpty then some (s.trapCur .overlayFull 0 (maskOf (need.map (fun e => e.1))))
    else some (s.parkCur .overlay)
  else none

/-- Put back the live lanes of a destination after its marked row has been freed, as if the whole instruction had been
performed at once (R135, R228). -/
def Role.finishRows (r : Role) (g : Guard) (frees : List (BitVec 8)) (ds : List (BitVec 8)) : Role :=
  let keep := (ds.filter frees.contains).flatMap (fun d =>
    ((r.live g).filter (fun l => (tget r.v (rowKey d (l / 8))).isSome)).map (fun l => (d, l, r.vreg d l)))
  keep.foldl (fun x e => x.putV e.1 e.2.1 e.2.2.1 e.2.2.2) (r.freeRows frees (groupsOf r.ngroups r.mask))

/-- A uniform access: the lane checks for one address with the whole mask in place of a lane (R166, R228, R405). -/
def uniformAccess (s : State) (c : Ctx) (o : Ask) (ea : Nat) (act : State → Place → State) : State :=
  match s.resolve c o [] 0 ea with
  | (s, .ok pl) => (act s pl).lanesDone
  | (s, .off) => s.offCur c.role.mask
  | (s, .trap t a) => s.trapCur t a c.role.mask
  | (s, .wait p) => s.parkAt p

end Sys2Proof.Machine
end

