-- ==== Sys2Proof/Machine/Start.lean ====
section
/-!
DEFINITION. How things start: a role and a team (R11, R219, R343, R383), a partition (R26 to R30, R44, R219, R235, R238), and
the device with one program placed.
-/
namespace Sys2Proof.Machine

/-- The solve state's defaults (R343, R344, R347). -/
def Solve.start : Solve :=
  { tol := { val := 0x3CB0000000000000, st := .S }, pass := { val := 0, st := .S }, grow := { val := 3, st := .S },
    limit := { val := 16, st := .S }, max := { val := 0x7FF0000000000000, st := .S }, stat := { val := 0, st := .S },
    wsstat := { val := 0, st := .S }, cmax := 0, npend := 0, box := false }

/-- The position of a clause header (R86). -/
def CodePos.header (off : BitVec 32) : CodePos := { pc := off, hdr := off, left := 0, fa := none, fb := none }

/-- A role that starts (R11): s0 to s7 hold the arguments, everything else is zero and settled, and its first clause is at
ENTRY. -/
def Role.fresh (first ngroups budget : Nat) (entry : BitVec 32) (args : List DWord) : Role :=
  { first := first, ngroups := ngroups, budget := budget, pos := CodePos.header entry, item := CodePos.header entry,
    begun := false, ended := false, mask := lowMask (8 * ngroups), dead := 0, off := 0, exited := 0, div := [], ret := [],
    v := [], p := [],
    s := (((List.range 8).zip args).filter (fun e => e.2 != 0)).map (fun e => (e.1, { val := e.2, st := .S })),
    out := [], stage := 0, ctx := 0, ctxBorn := 0, solve := Solve.start, batch := 0, ms := List.replicate 8 0, ovf := false,
    ct0 := { entries := 0, st := .S }, ct1 := { entries := 0, st := .S }, ctNew := false, susp := [], latest := none,
    trap := { code := 0, pc := 0, aux := { val := 0, st := .S }, lanes := 0 }, entry := none,
    deferred := { dep := none, overlay := none, bar := none, remote := none }, nmcCount := 1, nmcErr := none,
    lastPage := [], barOut := 0, park := none, unfinished := none, accessErr := none, yielded := false, stop := none,
    issued := 0, dualAt := none }

/-- Role k of a launch as it starts. -/
def Launch.role (l : Launch) (k : Nat) : Role :=
  let d := l.roleDesc k
  Role.fresh (rdFirst d) (rdGroups d) (rdBudget d) (rdEntry d) ((List.range 8).map l.arg)

/-- A named barrier at the start (R383). -/
def Barrier.fresh : Barrier := { phase := false, latched := none, arrived := 0 }

/-- A team that has been handed to a core's inbound queue (R11, R219, R326, R383). -/
def Launch.team (l : Launch) (part : Nat) (idx : BitVec 32) (task : Bool) (gx gy gz : BitVec 32) (prio : BitVec 3)
    (bulk core order : Nat) (roles : List Role) : Team :=
  { part := part, serial := l.serial, taskidx := idx, task := task, gx := gx, gy := gy, gz := gz, prio := prio,
    bulk := bulk, core := core, order := order, phase := .inbound, roles := roles, scratch := Memory.zero,
    bars := List.replicate 16 Barrier.fresh, gangs := List.replicate 4 { roles := [], fills := [] }, due := [],
    released := [], ob := none, sg := none, pre := none, limit := none, excl := [], members := none,
    cohort := none, fin := none, dropped := 0 }

/-- A queue's registers when the partition is created (R26 to R29). -/
def Queue.fresh : Queue :=
  { ser := false, en := true, prio := 0, bad := false, ovf := false, resErr := false, doneErr := false, res := 0,
    notify := 0 }

/-- May a pool of that many lines be set: steps of 2 MiB, up to 8 GB (R246)? -/
def poolLegal (lines : Nat) : Bool := lines % 16384 == 0 && lines ≤ 67108864
/-- May firmware set this block size or threshold (R231)? -/
def blockLegal (n : Nat) : Bool := (List.range 15).any (fun i => n == 2 ^ (16 + i))
def thresholdLegal (n : Nat) : Bool := 1 ≤ n && n ≤ 15
/-- A partition as it is created (R30, R51, R66, R219, R235, R238); its control region is still closed (R443). -/
def Part.fresh (cfg : PartCfg) (map : List Nat) : Part :=
  { cfg := cfg, map := map, opened := false, appends := 0, lastQueue := 63, queues := List.replicate 64 Queue.fresh,
    attNonce := 0, attDest := 0, attGo := false, attErr := false, grantIn := 0, grantStat := 0, grantWait := none,
    grantSerial := 0, launches := [], ctxs := [], cells := [], lastWrite := [], pools := cfg.poolLines.map (fun n => if poolLegal n then n else 0), retires := [],
    bscratch := Memory.zero, waiting := [], ready := [], tlb := [], linkGen := [], nodeGen := [], downBulk := [],
    downNode := [], remapStop := [], remapping := [], remapTo := [], gathers := [], moves := [], migrated := [],
    blockSize := if blockLegal cfg.blockSize then cfg.blockSize else 2 ^ 21,
    threshold := if thresholdLegal cfg.threshold then cfg.threshold else 8 }

/-! The machine with one program placed: what a loader, a host and the distributor do before a program's first instruction
issues (notes/assumptions/14.md). -/

/-- The configuration of the loaded machine: one bulkhead, key slots 1 to 64. -/
def loadCfg : PartCfg :=
  { pid := 1, start := 0, size := 1, ctlBase := 0, statusBase := 0, announce := 0, hosts := [0], tenantKey := 0,
    slotFirst := 1, slotCount := 64, spares := [], carve := [1048576], carveAt := [0x40000000],
    cwin := [(0, 0, 0)], poolLines := [16384], migFrames := [16], blockSize := 2097152, threshold := 8,
    saveArea := (0, 0x80000000, 0x40000000), spareSaves := [] }

/-- The launch record of the loaded program: CODEBASE 0, a grid of one team of one role and one group, 64 KiB of team
scratch, no trap handler. -/
def loadRecord : BitVec 2048 :=
  BitVec.ofNat 2048 (0xFFFFFFFF * 2 ^ 448 + 1 * 2 ^ 512 + 1 * 2 ^ 544 + 1 * 2 ^ 576 + 65536 * 2 ^ 608 + 1 * 2 ^ 672 +
    1 * 2 ^ 688 + (1 * 2 ^ 16 + 256 * 2 ^ 32) * 2 ^ 1024)

/-- The launch of the loaded program, distributed. -/
def loadLaunch : Launch :=
  { lrec := loadRecord, serial := 0, queue := 0, phase := .running, prio := some 0, next := 1, side := [], surfs := [],
    scales := [], sched := [], teams := 0, tasks := 0, stranded := 0, deadTeams := 0, firstIdx := none, faulted := false,
    reset := false }

/-- Page tables that map the 64 KiB page at virtual address 0 to the frame at 64 KiB, writable and executable, key slot 1
(R221, R222), and the bytes of a 16-byte item at an offset of that page. -/
def loadMemory (m : Memory) (off w : Nat) : Memory :=
  ((((((m.wrNat 0 8 0x1001).wrNat 0x1000 8 0x2001).wrNat 0x2000 8 0x3001).wrNat 0x3000 8 0x4001).wrNat 0x4000 8
    (1 * 2 ^ 25 + 1 * 2 ^ 10 + 0x87)).wrNat (0x10000 + off) 16 w)

/-- The machine with a program's one item placed and its team resident: a header at offset 0, where the role expects a
header; any other item at offset 8, in the slot of a clause of one instruction. -/
def State.program (s : State) (w : Nat) : State :=
  let header := w % 4 == 0
  let pos : CodePos := { pc := if header then 0 else 8, hdr := 0, left := if header then 0 else 1, fa := none, fb := none }
  let role := { loadLaunch.role 0 with pos := pos, item := pos, begun := true }
  let team := { loadLaunch.team 0 0 false 0 0 0 0 0 0 0 [role] with phase := .resident }
  { s with
    inputs := [], turn := some { team := 0, role := 0 }, cur := { team := 0, role := 0 }, powered := true,
    nextTeam := max s.nextTeam 1,
    bulks := lset s.bulks 0 { s.bulk 0 with railOn := true, state := .running, gate := true, sref := false, hung := false,
                                            coreFault := [] },
    mem := loadMemory s.mem (if header then 0 else 8) w,
    flaws := [], symFlaws := [], ukeys := [],
    parts := tset s.parts 0 { Part.fresh loadCfg [0] with opened := true, launches := [loadLaunch] },
    teams := tset s.teams 0 team,
    ops := [], outside := [] }

end Sys2Proof.Machine
end

