-- ==== Sys2Proof/Machine/Depend.lean ====
section
/-!
DEFINITION. Dependence counters, continuation records and the task queue (R388 to R394, R398, R399), and the named barriers
(R383 to R386, R397).
-/
namespace Sys2Proof.Machine

/-! Counters. -/

/-- What reaching a counter's page comes to. -/
inductive CRes where
  | ok (r : CtrRef)
  | trap (t : TCode)
  | wait (p : Park)
  deriving DecidableEq, Repr

/-- Translate a counter's page at tag 0 for a bulkhead's agent: it must be writable and have neither CMP nor RP nor lie in the
aperture range (R388, R398). -/
def State.counterRef (s : State) (pp home : Nat) (err : Option Nat) (va : DWord) : State × CRes :=
  match s.xlate pp [] (Need.counter.at_ home) err va.toNat with
  | (s, .ok h) => (s, .ok { named := va, pp := h.pp, va := h.va, x := h.x })
  | (s, .window) => (s, .trap .window)
  | (s, r) =>
    (s, match r.park va.toNat with
      | some p => .wait p
      | none => .trap .prot)

/-- The home of a counter: its partition and the address there, which no page table or remap changes; remote memory stands
apart. -/
def CtrRef.home (r : CtrRef) : Nat :=
  r.pp * 2 ^ 60 + (if pteTier r.x.entry ≤ 1 then pteAddr r.x.entry else 2 ^ 59 + pteFrame r.x.entry * 65536) + (r.va - r.x.va)
/-- Is a translation made earlier still good for an access (R235, R236)? -/
def State.reachable (s : State) (pp : Nat) (x : Xl) (write : Bool) (va : Nat) : Bool :=
  match s.part? pp with
  | none => false
  | some p =>
    x.gen == p.genOf x.gate x.entry && !(p.reached x write va).any (s.down p x.gate) &&
    (pteTier x.entry ≤ 1 || !p.downNode.contains (x.gate * 1024 + pteNode x.entry))
/-- A counter's four bytes. -/
def CtrRef.seg (r : CtrRef) : Seg := { len := 4, pp := r.pp, va := r.va, x := r.x }
/-- Read a counter. -/
def State.readCtr (s : State) (r : CtrRef) : State × Nat × Standing := s.rdVirt r.pp [r.x] 0 false r.va 4
/-- Write a counter, settled (R388). -/
def State.writeCtr (s : State) (r : CtrRef) (v : Nat) : State := s.wrVirt r.pp [r.x] 0 false r.va 4 v .S

/-! The task queue. -/

/-- Records at a logical bulkhead, waiting and ready (R393). -/
def Part.queued (p : Part) (b : Nat) : Nat :=
  (p.waiting.filter (fun t => t.home == b)).length + (p.ready.filter (fun t => t.target == b)).length
/-- The capacity of a task queue. -/
abbrev taskRoom : Nat := 65536
/-- Released records move to the ready queues of their targets, in order, while there is room (R390, R393). -/
def Part.advance (p : Part) : Part :=
  p.waiting.foldl (fun p t =>
    if t.ctr.isNone && (t.home == t.target || p.queued t.target < taskRoom) then
      { p with waiting := p.waiting.erase t, ready := p.ready ++ [t] }
    else p) p
/-- A stranded record that is released reopens its launch (R39). -/
def Part.reopen (p : Part) (t : TaskRec) : Part :=
  if t.stranded then p.modLaunch t.serial (fun l => { l with phase := .running }) else p
/-- Release the records of a partition that wait on a counter, in the order of their registration (R390). -/
def Part.releaseOn (p : Part) (home : Nat) : Part :=
  let hit := p.waiting.filter (fun t => t.ctr == some home)
  let p := hit.foldl Part.reopen p
  Part.advance { p with waiting := p.waiting.map (fun t =>
    if t.ctr == some home then { t with ctr := none, stranded := false } else t) }
/-- Release every record that waits on a counter. -/
def State.releaseOn (s : State) (home : Nat) : State :=
  { s with parts := s.parts.map (fun e =>
      if e.2.waiting.any (fun t => t.ctr == some home) then (e.1, e.2.releaseOn home) else e) }

/-- DEP_UNDERFLOW's %trapaux (R392). -/
def depAux (va : DWord) (cause : Nat) : DWord := (va.setWidth 56).setWidth 64 ||| BitVec.ofNat 64 (cause * 2 ^ 56)
/-- A decrement of a counter for a role (R391, R392). -/
def State.decrement (s : State) (who : RoleRef) (r : CtrRef) : State :=
  let v := s.readCtr r
  let s := v.1
  if v.2.2 != .S then s.defer who .depUnderflow (depAux r.named 1)
  else if v.2.1 = 0 then s.defer who .depUnderflow (depAux r.named 0)
  else
    let s := (s.forgetVirt r.pp r.x 0 r.va 4).writeCtr r (v.2.1 - 1)
    if v.2.1 = 1 then s.releaseOn r.home else s
/-- A request that the gate has completed with error (R58). -/
def State.ctrErr (s : State) (err : Option Nat) (r : CtrRef) : Bool :=
  s.segErr err true r.seg

/-! DEPINIT, DEPDEC and CPOST. -/

/-- The checks of registers: Z is consumed, and P or R or a taint raises PROV_LOOP (R398, R399). -/
def withDep (s : State) (ns : List (BitVec 7)) (body : Ctx → State) : Out :=
  withScalars s ns fun c =>
    if c.role.taint || ns.any (fun n => unsettled (c.role.sreg n).st) then s.trapCur .provLoop 0 c.role.mask else body c
/-- Reach a counter for the issuing role: alignment, then its page (R398). -/
def withCounter (s : State) (c : Ctx) (va : DWord) (body : State → CtrRef → State) : State :=
  if va.toNat % 4 != 0 then s.trapCur .align 0 c.role.mask
  else match s.counterRef c.team.part c.team.bulk c.role.accessErr va with
  | (s, .ok r) => body s r
  | (s, .trap t) => s.trapCur t 0 c.role.mask
  | (s, .wait p) => s.parkAt p

/-- The registers of a count. -/
def Cnt.regs : Cnt → List (BitVec 7)
  | .imm _ => []
  | .s r => [r]
/-- A count's value (R297, R398). -/
def Role.count (r : Role) : Cnt → Nat
  | .imm n => n.toNat
  | .s n => ((r.sreg n).val.setWidth 32).toNat

/-- DEPINIT (R398). -/
def execDepinit (a : BitVec 7) (n : Cnt) (s : State) : Out :=
  withDep s (a :: Cnt.regs n) fun c =>
    withCounter s c (c.role.sreg a).val fun s r =>
      if s.ctrErr c.role.accessErr r then (s.defer s.cur .remoteGone 0).lanesDone
      else
        let s := (s.noteStore .S (s.oldSegs none 0 [r.seg] 4)).writeCtr r (c.role.count n)
        (if c.role.count n = 0 then s.releaseOn r.home else s).lanesDone
/-- DEPDEC (R398). -/
def execDepdec (fs : Bool) (a : BitVec 7) (off : BitVec 32) (s : State) : Out :=
  withDep s [a] fun c =>
    withCounter s c ((c.role.sreg a).val + off.signExtend 64) fun s r =>
      let s := if s.ctrErr c.role.accessErr r then s.defer s.cur .remoteGone 0 else (s.release .part).decrement s.cur r
      (s.modCur (fun x => x.issueLong fs)).lanesDone

/-- The target of a posted task: the AFF of the leaf that translates ARG0, whether or not its page can be reached now, else the
posting team's bulkhead (R393). -/
def State.taskTarget (s : State) (c : Ctx) (arg0 : DWord) : State × Nat :=
  if arg0 = 0 then (s, c.team.bulk)
  else match s.xlate c.team.part [] (Need.read.at_ c.team.bulk) none arg0.toNat with
  | (s, .ok h) => (s, if h.via.isNone then pteAff h.x.entry else c.team.bulk)
  | (s, .held _) | (s, .gone) =>
    (s, if s.inWindow c arg0.toNat then c.team.bulk
        else ((s.leafAt c.part arg0.toNat).map (fun l => if pteV l.e then pteAff l.e else c.team.bulk)).getD c.team.bulk)
  | (s, _) => (s, c.team.bulk)
/-- The bulkhead at which a record waits: its counter's, else its target (R393). -/
def taskHome (c : Ctx) (target : Nat) : Option CtrRef → Nat
  | none => target
  | some r => if r.pp == c.team.part && pteTier r.x.entry ≤ 1 then pteAddr r.x.entry / bulkSpan else c.team.bulk
/-- A continuation record (R389, R394). -/
def taskRecord (c : Ctx) (a : BitVec 7) (entry : BitVec 32) (prio : BitVec 8) : BitVec 512 :=
  let v (n : BitVec 7) : DWord := (c.role.sreg (a + n)).val
  let lprio : BitVec 8 := if prio ≤ c.team.prio.setWidth 8 then prio else c.team.prio.setWidth 8
  (0 : BitVec 48) ++ c.team.serial ++ lprio ++ prio ++ (v 5).setWidth 32 ++ entry ++ v 4 ++ v 3 ++ v 2 ++ v 1 ++ v 0
/-- Register a continuation record (R390). -/
def State.post (s : State) (c : Ctx) (a : BitVec 7) (entry : BitVec 32) (prio : BitVec 8) (ctr : Option CtrRef) : State :=
  let r := s.taskTarget c (c.role.sreg a).val
  let home := taskHome c r.2 ctr
  match r.1.part? c.team.part with
  | none => r.1
  | some p =>
    if taskRoom ≤ p.queued home then r.1.parkCur .cpost
    else
      let t : TaskRec :=
        { trec := taskRecord c a entry prio, part := c.team.part, serial := c.team.serial, ctr := none, home := home,
          target := r.2, stranded := false }
      match ctr with
      | none => (r.1.release .part).modPart c.team.part (fun p => Part.advance { p with waiting := p.waiting ++ [t] })
      | some k =>
        let v := r.1.readCtr k
        if v.2.2 == .Z then v.1.poisonCur c.role.mask
        else if v.2.2 != .S then v.1.trapCur .provLoop 0 c.role.mask
        else
          let t := if v.2.1 = 0 then t else { t with ctr := some k.home }
          (v.1.release .part).modPart c.team.part (fun p => Part.advance { p with waiting := p.waiting ++ [t] })
/-- CPOST (R399). -/
def execCpost (a : BitVec 7) (entry : BitVec 32) (prio : BitVec 8) (s : State) : Out :=
  withDep s [a, a + 1, a + 2, a + 3, a + 4, a + 5] fun c =>
    if (c.role.sreg (a + 5)).val.extractLsb' 32 32 != (0 : BitVec 32) then s.trapCur .prot 0 c.role.mask
    else if (c.role.sreg (a + 4)).val = 0 then s.post c a entry prio none
    else withCounter s c (c.role.sreg (a + 4)).val fun s r =>
      if s.ctrErr c.role.accessErr r then (s.poisonCur c.role.mask).lanesDone
      else (s.post c a entry prio (some r)).modCur (fun x =>
        if x.park.isNone then { x with accessErr := none, heldSeq := none } else x)

/-! Named barriers. -/

/-- The mask of an arrival: every role of the team for barrier 0 (R383, R397). -/
def Team.barMask (t : Team) (b roles : BitVec 4) : BitVec 4 := if b = 0 then BitVec.ofNat 4 (2 ^ t.roles.length - 1) else roles
/-- The cause of BAR_OVERFLOW of an arrival (R385). -/
def Team.arriveCause (t : Team) (r : Nat) (x : Role) (b m : BitVec 4) : Option DWord :=
  if (t.bars[b.toNat]?.getD Barrier.fresh).latched.any (fun l => l != m) then some 2
  else if !m.getLsbD r || 2 ^ t.roles.length ≤ m.toNat then some 3
  else if x.barOut.getLsbD b.toNat then some 4
  else none
/-- An arrival (R384). -/
def Team.arrive (t : Team) (r : Nat) (b m : BitVec 4) : Team :=
  let old := t.bars[b.toNat]?.getD Barrier.fresh
  let new : Barrier := { old with latched := some (old.latched.getD m), arrived := old.arrived ||| (1 <<< r) }
  let t := { t with bars := lset t.bars b.toNat new }
  (t.modRole r (fun x => { x with barOut := x.barOut ||| (1 <<< b.toNat) })).completeBars
/-- An arrival of the issuing role, which is a release at TEAM scope (R386), or its trap. -/
def State.arriveCur (s : State) (c : Ctx) (b roles : BitVec 4) (after : State → State) : State :=
  let m := c.team.barMask b roles
  match c.team.arriveCause s.cur.role c.role b m with
  | some n => s.trapCur .barOverflow n c.role.mask
  | none => after ((s.release .team).modTeam s.cur.team (fun t => t.arrive s.cur.role b m))
/-- Has the issuing role's arrival at a barrier not been answered yet? -/
def State.barWaits (s : State) (b : BitVec 4) : Bool := ((s.role? s.cur).map (fun r => r.barOut.getLsbD b.toNat)).getD false

/-- The issuing role returns from a barrier: an acquire at TEAM scope when a phase in which it arrived has completed (R386). -/
def State.barReturn (s : State) (b : BitVec 4) : State :=
  if ((s.role? s.cur).map (fun r => r.barDone.getLsbD b.toNat)).getD false then
    (s.modCur (fun r => { r with barDone := r.barDone &&& ~~~((1 : BitVec 16) <<< b.toNat) })).acquire .team
  else s
/-- ARRIVE (R397). -/
def execArrive (b : BitVec 4) (roles : BitVec 4) (s : State) : Out := withCtx s fun c => s.arriveCur c b roles (fun s => s)
/-- BAR: it arrives and waits, and does not arrive again when it resumes (R397, R410). -/
def execBar (b : BitVec 4) (roles : BitVec 4) (s : State) : Out :=
  withCtx s fun c => s.arriveCur c b roles fun s =>
    if s.barWaits b then s.modCur (fun r => { r with park := some (.bar b) }) else s.barReturn b
/-- AWAIT (R397). -/
def execAwait (b : BitVec 4) (s : State) : Out :=
  withCtx s fun _ => if s.barWaits b then s.parkCur (.await b) else s.barReturn b

end Sys2Proof.Machine
end

