-- ==== Sys2Proof/Machine/Issue.lean ====
section
/-!
DEFINITION. Issue: when a role may issue (R131, R78, R82), how it stops for a pre-emption (R410, R412), how an item is
fetched and checked (R84 to R90, R99, R100, R224), dual execution (R137), and what can happen next (R4, R131).
-/
namespace Sys2Proof.Machine

/-! Flags (R89). -/

/-- Is a flag of a role set: has an outstanding instruction, a retire or an engine operation of the role that it tracks? -/
def State.flagSet (s : State) (r : RoleRef) (x : Role) (part : Nat) (f : BitVec 4) : Bool :=
  x.out.any (fun g => g == some f) ||
  ((s.part? part).map (fun p => p.retires.any (fun t => t.role == r && t.flag == some f))).getD false ||
  s.ops.any (fun e => e.2.owner == r && e.2.flag == some f)

/-- The effect of a header that has been read (R87, R89): it starts when every flag of its WAIT, but for those it sets, is
clear; the role has then observed the engine operations that counted in them (R372). -/
def State.openClause (s : State) (c : Ctx) (h : Header) : State :=
  let waits (i : Nat) : Bool :=
    h.wait.getLsbD i && h.sa != some (BitVec.ofNat 4 i) && h.sb != some (BitVec.ofNat 4 i) &&
    s.flagSet s.cur c.role c.team.part (BitVec.ofNat 4 i)
  if (List.range 12).any waits then s
  else (s.observe (fun _ m => m.owner == s.cur && m.flag.any (fun f => h.wait.getLsbD f.toNat))).modCur (fun r =>
    { r with pos := { pc := r.item.pc + 8, hdr := r.item.pc, left := h.n.toNat, fa := h.sa, fb := h.sb } })

/-! Readiness. -/

/-- Is every member of the team's cohort resident, and every member of its sharing group restored (R78, R82)? -/
def State.together (s : State) (t : Nat) (tm : Team) : Bool :=
  s.teams.all (fun e =>
    let other := e.1 != t && e.2.part == tm.part && e.2.serial == tm.serial
    let mate := other && ((tm.cohort.isSome && e.2.cohort == tm.cohort) ||
      (tm.sg.isSome && (e.2.sg.map Prod.fst) == (tm.sg.map Prod.fst)))
    !mate || !(e.2.phase == .inbound || e.2.phase == .saved))

/-- Is a parked role released by executing its instruction again? The others wait for an event. -/
def Park.polled : Park → Bool
  | .bar _ | .await _ | .bwait | .mwait | .nmwait | .sgjoin | .sgEnd _ | .cpost | .msave | .gset | .ctbl | .ranges | .nmcQueue
  | .earlier => true
  | _ => false

/-- May a role be given the next turn (R131)? -/
def State.mayIssue (s : State) (r : RoleRef) : Bool :=
  match s.team? r.team with
  | none => false
  | some t =>
    match t.roles[r.role]? with
    | none => false
    | some x =>
      t.fin.isNone && !x.ended && x.stop.isNone &&
      (match t.phase with
        | .resident => s.together r.team t && !x.yielded && (x.park.map Park.polled).getD true
        | .stopping => true
        | _ => false)

/-! Stopping for a pre-emption (R410). -/

/-- Does a partly filled gang list the role (R412)? -/
def Team.gangHeld (t : Team) (r : Nat) : Bool :=
  t.gangs.any (fun g => !g.fills.isEmpty && g.roles.any (fun x => x.toNat == r))

/-- How a role stops now, if it does: PDIST counts instructions since the request (R9, R410). An instruction that firmware
has released is executed first, and so is one that waits for what R410 does not list: the role's own earlier instructions,
entries of a lock table or a queue, a code table or a gang in use. A role that holds no lane ends first (R148). -/
def stopKind (t : Team) (l : Launch) (r : Nat) (x : Role) : Option RKind :=
  let pd := if l.pdist = 0 then 65536 else l.pdist.toNat
  let at_ := if x.pos.pc % 32 = 28 then x.pos.pc + 4 else x.pos.pc
  if x.ended then some .ended
  else if x.empty || t.gangHeld r || (x.park.isNone && (x.unfinished.isSome || x.accessErr.isSome)) then none
  else match x.park with
  | some (.bar _) => some .await
  | some (.gang _) => none
  | some (.page _) | some (.remote _) | some (.moving _ _) | some (.held _) | some (.hung _) => some .replay
  | some (.await _) | some .bwait | some .mwait | some .nmwait | some .ctxnew | some .overlay | some .sgjoin | some (.sgEnd _) | some .cpost
  | some .msave | some .obMigrate | some .sgMigrate | some .dual => some .reissue
  | some .gset | some .ctbl | some .ranges | some .nmcQueue | some .earlier | some .budget => none
  | none =>
    if x.pos.left = 0 && l.side.any (fun e => e.off == at_) then some .header
    else if pd ≤ x.issued then some .next
    else none

/-- Stop a role; a HEADER stop stands at the header, past a tail word. -/
def Role.stopAs (x : Role) (k : RKind) : Role :=
  { x with
    stop := some k
    pos := if k = .header && x.pos.pc % 32 = 28 then { x.pos with pc := x.pos.pc + 4 } else x.pos }

/-! Fetch. -/

/-- Is an opcode of guard class L (R101 to R112)? -/
def classL (op : BitVec 9) : Bool :=
  let n := op.toNat
  n == 0x000 || n == 0x008 || (0x010 ≤ n && n ≤ 0x015) || (0x040 ≤ n && n ≤ 0x044) || (0x050 ≤ n && n ≤ 0x06D) ||
  (0x080 ≤ n && n ≤ 0x091) || (0x0A0 ≤ n && n ≤ 0x0A5) || (0x0C0 ≤ n && n ≤ 0x0C5) || n == 0x120 || n == 0x121 ||
  n == 0x125 || n == 0x1F0
/-- Does an opcode end its clause (R86)? -/
def clauseEnd (op : BitVec 9) : Bool :=
  let n := op.toNat
  (1 ≤ n && n ≤ 9) || n == 0x1F1

/-- Code bytes from an offset: the bytes, or the state in which the role has trapped or parked at the item (R224). -/
def State.fetchBytes (s : State) (c : Ctx) (off n : Nat) : State ⊕ (State × Nat) :=
  let va := (c.launch.codeBase.toNat + off) % 2 ^ 64
  match s.xlate c.team.part [] (Need.fetch.at_ c.team.bulk) none va with
  | (s, .ok h) =>
    let r := s.rdVirt h.pp [h.x] 0 false h.va n
    .inr (r.1, r.2.1)
  | (s, .window) => .inl (s.trapCur .window 0 c.role.mask)
  | (s, r) =>
    match r.park va with
    | some p => .inl (s.modCur (fun x => { x with park := some p }))
    | none => .inl (s.trapCur .prot 0 c.role.mask)

/-- The cause of ILLEGAL_ENC for an item in an instruction slot, with L, its opcode, whether it crosses a 32-byte boundary,
whether it is not the last of its clause, and what the decoder says (R85, R86, R99). -/
def slotCause (w : BitVec 128) (cross : Bool) (more : Bool) : Option Nat :=
  let own := match decodeItem w with
    | .ok _ => none
    | .illegal n => some n
  let c3 := if cross then some 3 else none
  let c7 := if more && clauseEnd (w.extractLsb' 2 9) && (w.extractLsb' 0 2 : BitVec 2) != 0 then some 7 else none
  [own, c3, c7].foldl (fun a b =>
    match a, b with
    | none, x => x
    | x, none => x
    | some x, some y => some (min x y)) none

/-- What a turn of a role comes to: a state, or an instruction to execute. -/
inductive Prep where
  | done (s : State)
  | run (i : Instr) (s : State)
  deriving DecidableEq, Repr

/-- The lanes that an encoding fault names (R405). -/
def illegalLanes (r : Role) (w : BitVec 128) : Mask :=
  let raw := Raw.ofBits w
  if classL raw.op && raw.L != 0 then maskOf (r.live raw.guard) else r.mask

/-- Fetch and decode the next item of the issuing role (R84 to R90). The item's place becomes its item, and its program
counter moves past it. -/
def State.fetch (s : State) (c : Ctx) : Prep :=
  let bad (s : State) (n : Nat) (m : Mask) : Prep := .done (s.trapCur .illegalEnc (BitVec.ofNat 64 n) m)
  let p := c.role.pos
  let here (s : State) (p : CodePos) : State := s.modCur (fun r => { r with item := p })
  let items (s : State) (p : CodePos) : Prep :=
    let s := here s p
    let off := p.pc.toNat
    if p.left = 0 then
      match s.fetchBytes c off 8 with
      | .inl s => .done s
      | .inr (s, v) =>
        match decodeHeader (BitVec.ofNat 64 v) with
        | .inl h => .run (.clauseStart h) s
        | .inr n => bad s n c.role.mask
    else
      match s.fetchBytes c off (min 16 (32 - off % 32)) with
      | .inl s => .done s
      | .inr (s, v) =>
        let w := BitVec.ofNat 128 v
        let len := itemBytes (w.extractLsb' 0 2)
        let moved := s.modCur (fun r => { r with pos := { p with pc := p.pc + BitVec.ofNat 32 len, left := p.left - 1 } })
        match slotCause w (32 < off % 32 + len) (1 < p.left) with
        | none =>
          match decodeItem w with
          | .ok i => .run i moved
          | .illegal n => bad s n c.role.mask
        | some 1 => .run (.reservedOpcode false) moved
        | some n => if (w.extractLsb' 0 2 : BitVec 2) == 0 then .run (.reservedOpcode true) moved
                    else bad s n (illegalLanes c.role w)
  if p.pc % 32 = 28 then
    match (here s p).fetchBytes c p.pc.toNat 4 with
    | .inl s => .done s
    | .inr (s, v) => if v = 0 then items s { p with pc := p.pc + 4 } else bad s 4 c.role.mask
  else items s p

/-! Dual execution (R137). -/

/-- Is an instruction computed twice: arithmetic, logic, compare, conversion, cross-lane, and every memory address? -/
def isDual (i : Instr) : Bool :=
  match i with
  | .nop _ | .bra _ | .brd _ _ _ | .join | .call _ | .ret | .exit _ | .yield | .pprov _ _ _ _ | .sli _ _ | .srs _ _
  | .sws _ _ | .fence _ _ | .fenceE | .fenceT | .stage | .ctxnew _ _ | .ctxset _ _ | .ctxendDiscard _ | .ctxendCommit _
  | .ctxmerge _ _ | .ctxq _ _ _ | .sgjoin _ | .sgleave | .nmwait | .mwait _ _ | .mwaitImm _ _ | .mfence _ _ | .gset _ _
  | .obrel _ | .svcfgTol _ | .svcfgTolImm _ | .svcfgLimit _ | .svcfgLimitImm _ | .svcfgGrow _ | .svcfgGrowImm _
  | .svcfgReset | .svstat _ | .bar _ _ | .arrive _ _ | .await _ | .trap _ _ | .tret | .pchk | .tlbi _ | .lpsw
  | .reservedOpcode _ | .clauseStart _ => false
  | _ => true

/-- What dual execution makes of an instruction that has just been executed (R137): a transient fault is counted and the
replay's result stands; a lasting one leaves nothing written, and the role stops at the instruction, or the team ends when
the same instruction was struck on another core before. An instruction that parked, or trapped before its completion, has
not reached this stage; NONCONV stands after it (R403). -/
def State.dual (i : Instr) (before after : State) : State :=
  match before.team? before.cur.team, before.role? before.cur, after.role? before.cur with
  | some t, some x, some y =>
    let b := before.coreOf t
    let ending := if t.fin.isSome then none else (after.team? before.cur.team).bind Team.fin
    let stopped := (x.entry.isNone && y.entry.any (fun e => !e.next)) ||
      ending.any (fun e => e.user && e.code != TCode.nonconv.num)
    let went := y.park.isNone && !stopped && !y.over
    let pass (s : State) : State := if went && x.dualAt.isSome then s.modCur (fun r => { r with dualAt := none }) else s
    match tget (before.bulk b.1).coreFault b.2 with
    | none => pass after
    | some f =>
      if !isDual i || !went then after
      else match f with
      | .transient =>
        pass (after.modBulk b.1 (fun k => { k with coreFault := tdel k.coreFault b.2, transient := satInc k.transient }))
      | .lasting =>
        let s := before.modBulk b.1 (fun k => { k with lasting := satInc k.lasting })
        if x.dualAt.any (fun d => d.1 == x.item.pc && d.2 != b) then
          s.modTeam s.cur.team (fun t => t.finish
            { code := TCode.dualMismatch.num, role := s.cur.role, pc := x.item.pc, aux := 0, user := false,
              reset := false })
        else (s.modCur (fun r => { r with dualAt := some (r.item.pc, b) })).parkCur .dual
  | _, _, _ => after

/-- Is an item an instruction rather than a clause header (R84)? -/
def isInstruction (i : Instr) : Bool :=
  match i with
  | .clauseStart _ => false
  | _ => true
/-- After an item: dual execution, and the count of instructions since a pre-emption request (R410). -/
def finishIssue (i : Instr) (before : State) (o : Out) : Out :=
  match o with
  | .next s =>
    let s := before.dual i s
    .next (s.modTeam s.cur.team (fun t =>
      if t.pre.isSome && isInstruction i then
        t.modRole s.cur.role (fun r => if r.park.isSome then r else { r with issued := r.issued + 1 })
      else t))
  | o => o

end Sys2Proof.Machine
end

