-- ==== Sys2Proof/Machine/Engine.lean ====
section
/-!
DEFINITION. What engine operations share: the request to stop a team (R78, R82, R410), issue, order and release (R276,
R278), the operand buffers and their generations (R323, R324), and byte barriers (R296 to R300).
-/
namespace Sys2Proof.Machine

/-! Asking a team to stop. -/

/-- Does a team stop with another: a resident member of its cohort or of its sharing group (R78, R82)? -/
def Team.mateOf (a b : Team) : Bool :=
  a.part == b.part && a.serial == b.serial &&
  ((a.cohort.isSome && a.cohort == b.cohort) || (a.sg.isSome && a.sg.map Prod.fst == b.sg.map Prod.fst))
/-- A set of teams with all that stop with them: inbound and resident members, as far as the links reach. -/
def State.unitOf (s : State) : Nat → List Nat → List Nat
  | 0, ts => ts
  | n + 1, ts =>
    let more := (s.teams.filter (fun e => !ts.contains e.1 && e.2.phase != .finishing &&
      ts.any (fun t => ((s.team? t).map (fun a => a.mateOf e.2)).getD false))).map (fun e => e.1)
    if more.isEmpty then ts else State.unitOf s n (ts ++ more)
def State.unit (s : State) (t : Nat) : List Nat := s.unitOf s.teams.length [t]
/-- A resident team starts to stop; PDIST counts from here (R410). A team that is still inbound, or waits for its cohort, has
issued nothing and is taken back as it stands. -/
def Team.beginStop (t : Team) (waits : Bool) (r : PreReason) : Team :=
  match t.phase with
  | .inbound => { t with phase := .saved, pre := some r }
  | .resident =>
    if waits then { t with phase := .saved, pre := some r }
    else { t with phase := .stopping, pre := some r, roles := t.roles.map (fun x => { x with issued := 0 }) }
  | _ => t
/-- Request the pre-emption of a team and of those that stop with it (R78, R82). -/
def State.requestStop (s : State) (t : Nat) (r : PreReason) : State :=
  let us := s.unit t
  { s with teams := s.teams.map (fun e =>
      if us.contains e.1 then (e.1, e.2.beginStop (!s.together e.1 e.2) r) else e) }

/-! Operations. -/

/-- Add an operation; names rise in issue order. -/
def State.addOp (s : State) (o : EngOp) : State :=
  { s with
    ops := s.ops ++ [(s.nextOp, { o with id := s.nextOp, fenced := ((s.role? o.owner).map Role.fencedAt).getD 0 })]
    nextOp := s.nextOp + 1 }
def State.op? (s : State) (id : Nat) : Option EngOp := tget s.ops id
def State.modOp (s : State) (id : Nat) (f : EngOp → EngOp) : State := { s with ops := tmod s.ops id f }
def State.delOp (s : State) (id : Nat) : State := { s with ops := tdel s.ops id }

/-- Do two read or write ranges conflict (R277, R278)? -/
def Lock.clash (a b : Lock) : Bool :=
  a.kind != .bar && b.kind != .bar && a.space == b.space && a.lo ≤ b.hi && b.lo ≤ a.hi && (a.kind == .write || b.kind == .write)
/-- Must an operation wait for an earlier one of its range-lock tables (R278)? -/
def State.behind (s : State) (id : Nat) (o : EngOp) : Bool :=
  s.ops.any (fun e => e.1 < id &&
    o.locks.any (fun a => s.sameTable o.owner.team e.2 a.space && e.2.locks.any (fun b => a.clash b)))
/-- A range of whole sectors over [lo, hi). -/
def lockOf (space : LockSpace) (kind : LockKind) (lo hi : Nat) : Lock :=
  { space := space, lo := lo / 32, hi := (hi - 1) / 32, kind := kind }

/-! Operand buffers. -/

abbrev obBytes : Nat := 32768
/-- The buffers and scale memory as a team takes them (R323). -/
def OpBufs.fresh : OpBufs :=
  { mem := Memory.zero, gens := List.replicate 8 { gen := 0, latched := false, cons := false }, scale := Memory.zero }
/-- Does another team hold the buffers of the team's core (R323)? -/
def State.obTaken (s : State) (t : Nat) (a : Team) : Bool :=
  a.ob.isNone && s.teams.any (fun e => e.1 != t && e.2.part == a.part && e.2.bulk == a.bulk && e.2.core == a.core &&
    e.2.ob.isSome && e.2.phase != .saved)
/-- The team takes the buffers, if it does not hold them. -/
def Team.takeOb (t : Team) : Team := { t with ob := some (t.ob.getD OpBufs.fresh) }
/-- Run an instruction that names a buffer or scale memory; while another team holds them the issuing team is migrated, with
its core excluded (R323). -/
def State.withOb (s : State) (needs : Bool) (body : State → State) : State :=
  match s.team? s.cur.team with
  | none => s
  | some t =>
    if !needs then body s
    else if s.obTaken s.cur.team t then
      ((s.parkCur .obMigrate).modTeam s.cur.team (fun t =>
        { t with excl := (t.bulk, t.core) :: t.excl.filter (fun e => e != (t.bulk, t.core)) })).requestStop
        s.cur.team .buffers
    else body (s.modTeam s.cur.team Team.takeOb)

def OpBufs.gen (o : OpBufs) (n : Nat) : ObGen := o.gens[n]?.getD { gen := 0, latched := false, cons := false }
/-- The generation of a buffer that a matrix operand latched. -/
def MOpnd.reads (n : Nat) (g : BitVec 16) : MOpnd → Bool
  | .buf k _ h _ => k.toNat == n && h == g
  | _ => false
/-- Does an operation read a generation of a buffer? -/
def MOp.reads (o : MOp) (n : Nat) (g : BitVec 16) : Bool := o.pieces.any (fun p => p.a.reads n g || p.b.reads n g)
/-- Does a filled entry of a gang read a generation of a buffer (R326)? -/
def Team.gangReads (t : Team) (n : Nat) (g : BitVec 16) : Bool :=
  t.gangs.any (fun k => k.fills.any (fun f => f.2.piece.a.reads n g || f.2.piece.b.reads n g))
/-- Has a generation of a team's buffer a reader that has not completed: in flight, filled into a gang, or suspended and
not dropped (R324, R329)? -/
def State.obReaders (s : State) (t n : Nat) (g : BitVec 16) : Bool :=
  s.ops.any (fun e => e.2.owner.team == t && (match e.2.kind with | .mat m => m.reads n g | _ => false)) ||
  ((s.team? t).map (fun a => a.roles.any (fun r => r.susp.any (fun x => !x.gone && x.op.reads n g)) || a.gangReads n g)).getD
    false

/-- Copy-schedule fields (R15). -/
abbrev seStage (e : BitVec 512) : Nat := (e.extractLsb' 0 16).toNat
abbrev seRole (e : BitVec 512) : Nat := (e.extractLsb' 16 8).toNat
abbrev seConsumed (e : BitVec 512) : Bool := e.getLsbD 31
abbrev seTrigBuf (e : BitVec 512) : Nat := (e.extractLsb' 24 3).toNat

/-- The operands-consumed event of a buffer: it releases the due entries that wait for it (R17, R324). -/
def Team.consumed (t : Team) (l : Launch) (n : Nat) : Team :=
  { t with released := t.released ++ (t.due.map DueEntry.idx).filter (fun i =>
      !t.released.contains i && (l.sched[i]?.map (fun e => seConsumed e && seTrigBuf e == n)).getD false) }
def State.consumed (s : State) (t n : Nat) : State :=
  match s.team? t with
  | none => s
  | some a =>
    match (s.part? a.part).bind (fun p => p.launch? a.serial) with
    | some l => s.setTeam t (a.consumed l n)
    | none => s
/-- Seal a buffer's current generation and advance it (R324). -/
def State.obSeal (s : State) (t n : Nat) : State :=
  match (s.team? t).bind Team.ob with
  | none => s
  | some o =>
    let g := o.gen n
    let fired := !s.obReaders t n g.gen
    let new : ObGen := { gen := g.gen + 1, latched := false, cons := fired }
    let s := s.modTeam t (fun a => { a with ob := some { o with gens := lset o.gens n new } })
    if fired then s.consumed t n else s
/-- A reader of a generation has completed or been dropped: the event of a sealed generation fires with its last reader
(R324). -/
def State.obReaderDone (s : State) (t n : Nat) (g : BitVec 16) : State :=
  match (s.team? t).bind Team.ob with
  | none => s
  | some o =>
    let c := o.gen n
    if c.gen == g || s.obReaders t n g then s
    else
      let s := if c.gen == g + 1 then
          s.modTeam t (fun a => { a with ob := some { o with gens := lset o.gens n { c with cons := true } } })
        else s
      s.consumed t n
/-- The buffers and generations that an operand, a piece and an operation read. -/
def MOpnd.bufs : MOpnd → List (Nat × BitVec 16)
  | .buf n _ g _ => [(n.toNat, g)]
  | _ => []
def MPiece.bufs (p : MPiece) : List (Nat × BitVec 16) := p.a.bufs ++ p.b.bufs
def MOp.bufs (o : MOp) : List (Nat × BitVec 16) := o.pieces.flatMap MPiece.bufs
/-- Tell the buffers that an operation read of its completion. -/
def State.readersDone (s : State) (t : Nat) (o : MOp) : State := o.bufs.foldl (fun s e => s.obReaderDone t e.1 e.2) s
/-- Has a reader latched the current generation of a buffer (R324)? The entries of a gang that has not fired count while they
are filled, so that a mismatch leaves nothing latched (R326). -/
def Team.obLatched (t : Team) (n : Nat) : Bool :=
  (t.ob.map (fun o => (o.gen n).latched || t.gangReads n (o.gen n).gen)).getD false
/-- A copy into a buffer is issued into the current generation, which is sealed first when a reader has latched it (R324);
the state, and the generation. -/
def State.obFill (s : State) (t n : Nat) : State × BitVec 16 :=
  let latched := ((s.team? t).map (fun a => a.obLatched n)).getD false
  let s := if latched then s.obSeal t n else s
  (s, (((s.team? t).bind Team.ob).map (fun o => (o.gen n).gen)).getD 0)

/-! Byte barriers. -/

abbrev bbPending (v : Nat) : Nat := v % 2 ^ 32
abbrev bbArrivals (v : Nat) : Nat := v / 2 ^ 32 % 2 ^ 31
abbrev bbPhase (v : Nat) : Nat := v / 2 ^ 63 % 2
def bbWord (phase arrivals pending : Nat) : Nat := phase % 2 * 2 ^ 63 + arrivals % 2 ^ 31 * 2 ^ 32 + pending % 2 ^ 32
/-- A completing copy of n bytes counts into a barrier of its role's team; the sector keeps its state (R297, R299). -/
def State.barDeliver (s : State) (who : RoleRef) (off n : Nat) : State :=
  match s.team? who.team with
  | none => s
  | some t =>
    let v := t.scratch.rdNat off 8
    let p := bbPending v
    let w := if p = n then bbWord (1 - bbPhase v) 0 0
      else bbWord (bbPhase v) (bbArrivals v + 1) ((p + 2 ^ 32 - n % 2 ^ 32) % 2 ^ 32)
    let s := (s.forget (.t who.team) (off / 32) (off / 32)).modTeam who.team (fun t => { t with scratch := t.scratch.wrNat off 8 w })
    if p < n then s.defer who .barOverflow 1 else s

/-- Reach a byte barrier of the issuing role's team (R297). -/
def withBarrier (s : State) (a : BitVec 7) (ns : List (BitVec 7)) (body : Ctx → Nat → State) : Out :=
  withScalars s (a :: ns) fun c =>
    let off := (c.role.sreg a).val.toNat
    if off % 8 != 0 then s.trapCur .align 0 c.role.mask
    else if c.launch.scratch < off + 8 then s.offCur c.role.mask
    else body c off
/-- The state that BINIT and BEXP write (R297). -/
def Role.barSt (r : Role) (a : BitVec 7) (ns : List (BitVec 7)) : Standing :=
  markSt r.taint (addrSt (r.sreg a).st (joinAll (.S :: ns.map (fun n => (r.sreg n).st))))
def State.putBarrier (s : State) (off v : Nat) (st : Standing) : State :=
  let s := s.noteStore st (((s.team? s.cur.team).map (fun t => t.scratch.oldSecs (.t s.cur.team) off 8)).getD [])
  s.modTeam s.cur.team (fun t => { t with scratch := t.scratch.store off 8 v st })
/-- BINIT (R297). -/
def execBinit (a : BitVec 7) (n : BitVec 32) (s : State) : Out :=
  withBarrier s a [] fun c off =>
    match s.lockHit s.cur.team .t (off / 32) (off / 32) true with
    | some h => s.trapCur .rangeConflict h c.role.mask
    | none => s.putBarrier off n.toNat (c.role.barSt a [])
/-- BEXP (R298). -/
def execBexp (a : BitVec 7) (n : Cnt) (s : State) : Out :=
  withBarrier s a (Cnt.regs n) fun c off =>
    let v := c.team.scratch.rdNat off 8
    let p := bbPending v + c.role.count n
    if 2 ^ 32 ≤ p then s.trapCur .barOverflow 0 c.role.mask
    else s.putBarrier off (if p = 0 then bbWord (1 - bbPhase v) 0 0 else bbWord (bbPhase v) (bbArrivals v) p)
      (c.role.barSt a (Cnt.regs n))
/-- BWAIT (R300): it observes the copies that have counted into the barrier, and is an acquire at TEAM scope (R368, R372). -/
def execBwait (a : BitVec 7) (phase : Bool) (s : State) : Out :=
  withBarrier s a [] fun c off =>
    if bbPhase (c.team.scratch.rdNat off 8) == phase.toNat then s.parkCur .bwait
    else (s.observe (fun _ m => m.owner.team == s.cur.team && m.bar == some off)).acquire .team

end Sys2Proof.Machine
end

