-- ==== Sys2Proof/Machine/Copy.lean ====
section
/-!
DEFINITION. Copies: surfaces (R19 to R22), the checks and the issue of COPY (R288 to R292), the copy schedule and its due
points (R15 to R18, R295), and what a copy reads and writes (R291, R293).
-/
namespace Sys2Proof.Machine

/-! Surface records (R19). -/

abbrev sfBase (r : BitVec 512) : Nat := (r.extractLsb' 0 64).toNat
abbrev sfType (r : BitVec 512) : BitVec 8 := r.extractLsb' 64 8
abbrev sfDims (r : BitVec 512) : Nat := (r.extractLsb' 72 8).toNat
abbrev sfLayout (r : BitVec 512) : Bool := r.getLsbD 80
abbrev sfCmp (r : BitVec 512) : Bool := r.getLsbD 81
abbrev sfProp (r : BitVec 512) : Bool := r.getLsbD 82
abbrev sfScl (r : BitVec 512) : Bool := r.getLsbD 83
abbrev sfPlanes (r : BitVec 512) : Nat := (r.extractLsb' 88 8).toNat
def sfExt (r : BitVec 512) : List Nat := (List.range 4).map (fun k => (r.extractLsb' (128 + 32 * k) 32).toNat)
def sfPitch (r : BitVec 512) : List Nat := (List.range 3).map (fun k => (r.extractLsb' (256 + 32 * k) 32).toNat)
abbrev sfMode (r : BitVec 512) : Nat := (r.extractLsb' 352 16).toNat
abbrev sfScaleRec (r : BitVec 512) : Nat := (r.extractLsb' 384 64).toNat
abbrev sfAperture (r : BitVec 512) : BitVec 64 := r.extractLsb' 448 64
/-- A surface's element type. -/
def sfTy (r : BitVec 512) : Ty := (Ty.ofCode (r.extractLsb' 64 4)).getD .i8
/-- Bytes of an element; a BPI element counts as one byte of its blocks (R20, R180). -/
def elemBytes (ty : Ty) : Nat := match ty with | .bpi => 1 | t => tyBytes t

/-! Boxes. -/

def nth (l : List Nat) (k : Nat) : Nat := l[k]?.getD 0
/-- The byte pitches of dimensions 0 to 3 of an endpoint (R290). -/
def Ep.pitches (e : Ep) (ext : List Nat) (es : Nat) : List Nat :=
  match e with
  | .surf r _ _ => es :: sfPitch r
  | _ => [es, es * nth ext 0, es * nth ext 0 * nth ext 1, es * nth ext 0 * nth ext 1 * nth ext 2]
/-- An endpoint's first byte. -/
def Ep.first (e : Ep) (es : Nat) : Nat :=
  match e with
  | .g va _ => va.toNat
  | .surf r org _ => sfBase r + ((List.range 4).map (fun d => nth org d * nth (es :: sfPitch r) d)).sum
  | .t off => off
  | .b a => a
  | .ob _ off _ => off
/-- The end of an endpoint's bytes. -/
def Ep.last (e : Ep) (ext : List Nat) (es : Nat) : Nat :=
  e.first es + ((List.range 4).map (fun d => (nth ext d - 1) * nth (e.pitches ext es) d)).sum + es
/-- The first bytes of an endpoint's rows, dimension 1 fastest. -/
def Ep.rows (e : Ep) (ext : List Nat) (es : Nat) : List Nat :=
  let p := e.pitches ext es
  (List.range (nth ext 3)).flatMap (fun k => (List.range (nth ext 2)).flatMap (fun j =>
    (List.range (nth ext 1)).map (fun i => e.first es + i * nth p 1 + j * nth p 2 + k * nth p 3)))

/-- Is a box of a BPI surface a run of whole blocks in linear order (R290)? -/
def blockRun (sext org ext : List Nat) : Bool :=
  let full := (List.range 4).all (fun d => nth ext d == 1 || (List.range d).all (fun e => nth ext e == nth sext e))
  let first := nth org 0 + nth sext 0 * (nth org 1 + nth sext 1 * (nth org 2 + nth sext 2 * nth org 3))
  full && first % 128 == 0 && (nth ext 0 * nth ext 1 * nth ext 2 * nth ext 3) % 128 == 0

/-! What is asked and what is planned. -/

/-- An endpoint as a descriptor or a schedule entry names it. -/
inductive EpReq where
  | g (va : DWord)
  | surf (idx : Nat)
  | t (off : Nat)
  | b (addr : Nat)
  | ob (n : BitVec 3) (off : Nat)
  deriving DecidableEq, Repr
structure CopyReq where
  src : EpReq
  dst : EpReq
  ext : List Nat
  sorg : List Nat
  dorg : List Nat
  ty : Ty
  smoff : Nat
  bar : Option Nat
  dep : Option DWord
  stag : BitVec 14
  dtag : BitVec 14
  deriving DecidableEq, Repr
/-- A request that has passed its checks. -/
structure CopyPlan where
  src : Ep
  dst : Ep
  ty : Ty
  planes : Nat
  prop : Bool
  scale : Option ScalePlace
  locks : List Lock
  deriving DecidableEq, Repr
/-- What stops a request. -/
inductive CopyBad where
  | trap (t : TCode) (aux : DWord)
  | off
  deriving DecidableEq, Repr

/-- The surface record that an endpoint names. -/
def EpReq.surfRec (q : EpReq) (l : Launch) : Option (BitVec 512) := match q with | .surf i => l.surfs[i]? | _ => none
/-- The surface index that an endpoint names. -/
def EpReq.idx (q : EpReq) : Option Nat := match q with | .surf i => some i | _ => none
/-- The endpoint of a request. -/
def EpReq.ep (q : EpReq) (l : Launch) (org : List Nat) (tag : BitVec 14) : Ep :=
  match q with
  | .g va => .g va tag
  | .surf i => .surf (l.surfs[i]?.getD 0) org tag
  | .t off => .t off
  | .b a => .b a
  | .ob n off => .ob n off 0
/-- The element type of a request (R290). -/
def CopyReq.elem (q : CopyReq) (l : Launch) : Ty :=
  match q.src.surfRec l, q.dst.surfRec l with
  | some r, _ => sfTy r
  | none, some r => sfTy r
  | none, none => q.ty
/-- The scales that a request places: the first and the count (R291). -/
def CopyReq.scales (q : CopyReq) (l : Launch) : Option (Nat × Nat) :=
  match q.src.surfRec l with
  | some r =>
    if q.smoff != 0xFFFF && sfScl r then
      some (match sfMode r with
        | 0 => (0, 1)
        | 1 => (nth q.sorg 1, nth q.ext 1)
        | _ => (nth q.sorg 0, nth q.ext 0))
    else none
  | none => none
/-- The place of the scales, from the scale record of the source (R20, R291). -/
def CopyReq.scalePlace (q : CopyReq) (l : Launch) : Option ScalePlace :=
  match q.scales l, q.src.idx with
  | some (first, n), some i =>
    let r := (tget l.scales i).getD 0
    some { smoff := q.smoff, first := first, count := n, base := r.extractLsb' 0 64, prop := sfProp r }
  | _, _ => none
/-- The bytes of scale memory's source. -/
def ScalePlace.range (p : ScalePlace) : Nat × Nat := (p.base.toNat + 4 * p.first, p.base.toNat + 4 * (p.first + p.count))

/-- PROT's conditions (R289, R290, R292), the first that fails. -/
def CopyReq.prot (q : CopyReq) (l : Launch) : Option DWord :=
  let badIdx (e : EpReq) : Bool := e.idx.isSome && (e.surfRec l).isNone
  let types := match q.src.surfRec l, q.dst.surfRec l with
    | some a, some b => sfTy a != sfTy b
    | none, none => q.ty == .bpi
    | _, _ => false
  let org (e : EpReq) (o : List Nat) : Bool := (e.surfRec l).isNone && o.any (fun x => x != 0)
  let run (e : EpReq) (o : List Nat) : Bool :=
    match e.surfRec l with
    | some r => sfTy r == .bpi && !blockRun (sfExt r) o q.ext
    | none => false
  if badIdx q.src || badIdx q.dst then some 2
  else if types || q.ext.any (fun x => x == 0) || org q.src q.sorg || org q.dst q.dorg || run q.src q.sorg ||
      run q.dst q.dorg then some 1
  else if ((q.scales l).map (fun e => decide (8192 < q.smoff + e.2))).getD false then some 3
  else none
/-- Does the box leave a surface? -/
def CopyReq.leaves (q : CopyReq) (l : Launch) (e : EpReq) (org : List Nat) : Bool :=
  match e.surfRec l with
  | some r => (List.range 4).any (fun d => nth (sfExt r) d < nth org d + nth q.ext d)
  | none => false
/-- RANGE_CONFLICT's %trapaux for a surface: its index and the destination's mark (R292). DEDUCED (log 15): the rule's
"bits [2:0] are 0" cannot hold for an index that has them. -/
def leaveAux (e : EpReq) (dst : Bool) : DWord := BitVec.ofNat 64 ((e.idx.getD 0) + (if dst then 4096 else 0))
/-- Is an address endpoint misaligned? -/
def EpReq.misaligned (e : EpReq) (al : Nat) : Bool :=
  match e with
  | .g va => va.toNat % al != 0
  | .t off | .ob _ off => off % al != 0
  | .b a => a % al != 0
  | .surf _ => false
/-- Does an endpoint leave its space (R290, R292)? -/
def Ep.outside (e : Ep) (c : Ctx) (ext : List Nat) (es : Nat) : Bool :=
  match e with
  | .t _ => c.launch.scratch < e.last ext es
  | .ob _ _ _ => obBytes < e.last ext es
  | .b a =>
    let k := a / 2 ^ 24
    2 ^ 27 ≤ a || c.part.cfg.size ≤ k || (c.part.cfg.carve[k]?).getD 0 < e.last ext es - k * 2 ^ 24
  | _ => false
/-- The ranges of an endpoint, which end short of the planes of the last block that are not read (R19, R276). -/
def Ep.lock (e : Ep) (kind : LockKind) (ext : List Nat) (es planes : Nat) : List Lock :=
  let hi := e.last ext es - 16 * (8 - planes)
  match e with
  | .t _ => [lockOf .t kind (e.first es) hi]
  | .b _ => [lockOf .b kind (e.first es) hi]
  | .g _ _ | .surf _ _ _ => [lockOf .g kind (e.first es) hi]
  | .ob _ _ _ => []
/-- A request's plan, whatever its checks say. -/
def CopyReq.plan (q : CopyReq) (l : Launch) : CopyPlan :=
  let ty := q.elem l
  let es := elemBytes ty
  let src := q.src.ep l q.sorg q.stag
  let dst := q.dst.ep l q.dorg q.dtag
  let sc := q.scalePlace l
  let planes := match ty, q.src.surfRec l with | .bpi, some r => sfPlanes r | _, _ => 8
  { src := src, dst := dst, ty := ty,
    planes := planes
    prop := ((q.src.surfRec l).map (fun r => sfProp r)).getD false || ((q.dst.surfRec l).map (fun r => sfProp r)).getD false
    scale := sc
    locks := src.lock .read q.ext es planes ++ dst.lock .write q.ext es 8 ++
      (match sc with | some p => [lockOf .g .read p.range.1 p.range.2] | none => []) ++
      (match q.bar with | some o => [lockOf .t .bar o (o + 8)] | none => []) }
/-- The checks of R292 up to SCRATCH_RANGE, in its order. -/
def CopyReq.check (q : CopyReq) (c : Ctx) : CopyBad ⊕ CopyPlan :=
  let l := c.launch
  match q.prot l with
  | some n => .inl (.trap .prot n)
  | none =>
    let p := q.plan l
    let es := elemBytes p.ty
    let al := if p.ty == .bpi then 128 else es
    if q.leaves l q.src q.sorg then .inl (.trap .rangeConflict (leaveAux q.src false))
    else if q.leaves l q.dst q.dorg then .inl (.trap .rangeConflict (leaveAux q.dst true))
    else if q.src.misaligned al || q.dst.misaligned al || ((q.bar.map (fun o : Nat => o % 8 != 0)).getD false) ||
        (q.dep.map (fun a => a.toNat % 4 != 0)).getD false then .inl (.trap .align 0)
    else if p.src.outside c q.ext es || p.dst.outside c q.ext es ||
        (q.bar.map (fun o => decide (c.launch.scratch < o + 8))).getD false then .inl .off
    else .inr p

/-! Translation at issue (R291). -/

/-- The 64 KiB pages of rows of n bytes, without repeats of neighbours. -/
def pagesOf (n : Nat) (rows : List Nat) : List Nat :=
  (rows.flatMap (fun r => (List.range ((r + n - 1) / 65536 + 1 - r / 65536)).map (fun i => r / 65536 + i))).foldr
    (fun p acc => if acc.head? == some p then acc else p :: acc) []
/-- What translating a copy's pages has found. -/
structure Walked where
  s : State
  xls : List Hit
  prot : Bool
  window : Bool
  wait : Option Park
  deriving DecidableEq, Repr
/-- Nothing translated yet. -/
def Walked.start (s : State) : Walked := { s := s, xls := [], prot := false, window := false, wait := none }
/-- Translate one page for the issuing role. -/
def Walked.page (w : Walked) (c : Ctx) (need : Need) (page : Nat) : Walked :=
  let va := page * 65536 % 2 ^ 64
  match w.s.xlate c.team.part [] (need.at_ c.team.bulk) c.role.accessErr va with
  | (s, .ok h) => { w with s := s, xls := if w.xls.contains h then w.xls else w.xls ++ [h] }
  | (s, .prot) => { w with s := s, prot := true }
  | (s, .window) => { w with s := s, window := true }
  | (s, r) => { w with s := s, wait := match w.wait with | some p => some p | none => r.park va }
/-- Translate an endpoint's pages; bulkhead scratch is reached without translation. -/
def Walked.ep (w : Walked) (c : Ctx) (write : Bool) (e : Ep) (ext : List Nat) (es : Nat) : Walked :=
  match e with
  | .g _ _ | .surf _ _ _ =>
    (pagesOf (es * nth ext 0) (e.rows ext es)).foldl (fun w p =>
      w.page c (if write then Need.write else Need.read) p) w
  | .b a =>
    if w.s.down c.part c.team.bulk (a / 2 ^ 24) && w.wait.isNone then { w with wait := some (.remote (BitVec.ofNat 64 a)) } else w
  | _ => w
/-- Translate everything that a copy reaches; the counter last. -/
def State.walkCopy (s : State) (c : Ctx) (p : CopyPlan) (ext : List Nat) (dep : Option DWord) : Walked × Option CtrRef :=
  let es := elemBytes p.ty
  let w := ((Walked.start s).ep c false p.src ext es).ep c true p.dst ext es
  let w := match p.scale with
    | some k => (pagesOf (k.range.2 - k.range.1) [k.range.1]).foldl (fun w g =>
        w.page c Need.read g) w
    | none => w
  match dep with
  | none => (w, none)
  | some a =>
    match w.s.counterRef c.team.part c.team.bulk c.role.accessErr a with
    | (s, .ok r) => ({ w with s := s }, some r)
    | (s, .trap .window) => ({ w with s := s, window := true }, none)
    | (s, .trap _) => ({ w with s := s, prot := true }, none)
    | (s, .wait k) => ({ w with s := s, wait := match w.wait with | some p => some p | none => some k }, none)

/-- The tag at which an endpoint is reached. -/
def Ep.tag : Ep → BitVec 14
  | .g _ n => n
  | .surf _ _ n => n
  | _ => 0
/-- Register a planned copy (R276, R291, R324). -/
def State.issueCopy (s : State) (who : RoleRef) (part : Nat) (p : CopyPlan) (ext : List Nat) (bar : Option Nat)
    (dep : Option CtrRef) (xls : List Hit) (mark : Bool) (sched : Option Nat) (flag : Option (BitVec 4)) : State :=
  let r : State × Ep := match p.dst with
    | .ob n off _ =>
      let q := s.obFill who.team n.toNat
      (q.1, .ob n off q.2)
    | e => (s, e)
  let born (e : Ep) : Nat := (((r.1.part? part).bind (fun p => p.ctxEnt? e.tag)).map CtxEnt.born).getD 0
  r.1.addOp { owner := who, part := part, flag := flag, locks := p.locks, batches := [], started := false, moved := false,
              err := none, struck := none,
              kind := .copy { src := p.src, dst := r.2, ext := ext, ty := p.ty, planes := p.planes, prop := p.prop,
                              mark := mark, scale := p.scale, bar := bar, dep := dep, xls := xls, written := 0,
                              sborn := born p.src, dborn := born p.dst } sched }
/-- Does a plan name a buffer or scale memory (R323)? -/
def CopyPlan.namesOb (p : CopyPlan) : Bool := p.scale.isSome || (match p.dst with | .ob _ _ _ => true | _ => false)

/-! COPY (R288 to R292). -/

/-- The request of a COPY from its descriptor (R289). -/
def copyReq (c : Ctx) (o : CopyOps) : CopyReq :=
  let v (k : Nat) : DWord := (c.role.sreg (o.a + BitVec.ofNat 7 k)).val
  let two (k : Nat) : List Nat := [((v k).setWidth 32).toNat, (v k).toNat / 2 ^ 32]
  let tags : DWord := (o.tags.map (fun n => (c.role.sreg n).val)).getD 0
  { src := match o.src with
      | .g => .g (v 0) | .surf => .surf ((v 0).setWidth 12).toNat | .t => .t (v 0).toNat | .b => .b (v 0).toNat
    dst := match o.dst with
      | .g => .g (v 1) | .surf => .surf ((v 1).setWidth 12).toNat | .t => .t (v 1).toNat | .b => .b (v 1).toNat
      | .ob n => .ob n (v 1).toNat
    ext := two 2 ++ two 3, sorg := two 4 ++ two 5, dorg := two 6 ++ two 7, ty := o.ty, smoff := o.smoff.toNat
    bar := if o.baroff == 0xFFFFFFFF then none else some o.baroff.toNat
    dep := o.dep.map (fun n => (c.role.sreg n).val)
    stag := if o.tags.isSome then tags.setWidth 14 else c.role.ctx
    dtag := if o.tags.isSome then tags.extractLsb' 16 14 else c.role.ctx }
/-- Is an endpoint reached through tags? -/
def Ep.tagged : Ep → Bool
  | .g _ _ | .surf _ _ _ => true
  | _ => false
/-- CTX_DEAD's %trapaux of a COPY (R253, R289, R291); %ctx is not asked where a window leads elsewhere (R49). -/
def State.copyTagFault (s : State) (c : Ctx) (o : CopyOps) (q : CopyReq) (p : CopyPlan) : Option DWord :=
  let es := elemBytes p.ty
  let own (e : Ep) : Bool := e.tagged && (pagesOf (es * nth q.ext 0) (e.rows q.ext es)).any (fun g => !s.inWindow c (g * 65536))
  match o.tags with
  | none => if own p.src || own p.dst then c.ctxFault else none
  | some n =>
    let v := (c.role.sreg n).val
    if v.extractLsb' 14 2 != (0 : BitVec 2) || v.extractLsb' 30 34 != (0 : BitVec 34) then some (ctxAux q.stag 3)
    else match if p.src.tagged then c.part.ctxFault q.stag true else none with
    | some a => some a
    | none =>
      if !p.dst.tagged then none
      else match c.part.ctxFault q.dtag false with
      | some a => some a
      | none => if (c.part.ctxEnt? q.dtag).map CtxEnt.state == some .held then some (ctxAux q.dtag 4) else none
/-- The standing of the tag that CTX_DEAD reports: a COPY.X's tag register's (R289, R405). -/
def copyTagSt (c : Ctx) (o : CopyOps) : Standing := (o.tags.map (fun n => (c.role.sreg n).st)).getD .S
/-- The registers of a COPY. -/
def copyRegs (o : CopyOps) : List (BitVec 7) :=
  (List.range 8).map (fun k => o.a + BitVec.ofNat 7 k) ++ o.dep.toList ++ o.tags.toList
/-! The copy schedule (R15 to R18). -/

abbrev seSmoff (e : BitVec 512) : Nat := (e.extractLsb' 416 16).toNat
abbrev seDep (e : BitVec 512) : BitVec 64 := e.extractLsb' 448 64
abbrev seBar (e : BitVec 512) : BitVec 32 := e.extractLsb' 384 32
abbrev seDkind (e : BitVec 512) : Nat := (e.extractLsb' 64 8).toNat
abbrev seOb (e : BitVec 512) : Nat := (e.extractLsb' 80 8).toNat
abbrev seDoff (e : BitVec 512) : Nat := (e.extractLsb' 96 32).toNat
abbrev seSsurf (e : BitVec 512) : Nat := (e.extractLsb' 32 16).toNat
abbrev seDsurf (e : BitVec 512) : Nat := (e.extractLsb' 48 16).toNat
def seExt (e : BitVec 512) : List Nat := (List.range 4).map (fun k => (e.extractLsb' (256 + 32 * k) 32).toNat)
def seOrg (e : BitVec 512) : List Nat := (List.range 4).map (fun k => (e.extractLsb' (128 + 32 * k) 32).toNat)
/-- The request of a schedule entry (R15).
DESIGN CHOICE (log 52): no field names the bulkhead of a DKIND 2 destination, so DOFF is taken whole as a `.B` address,
with the logical bulkhead in bits [26:24] (R216). -/
def schedReq (e : BitVec 512) : CopyReq :=
  { src := .surf (seSsurf e)
    dst := match seDkind e with
      | 0 => .t (seDoff e) | 1 => .ob (BitVec.ofNat 3 (seOb e)) (seDoff e) | 2 => .b (seDoff e) | _ => .surf (seDsurf e)
    ext := seExt e, sorg := seOrg e, dorg := if seDkind e = 3 then seOrg e else [0, 0, 0, 0], ty := .i8
    smoff := seSmoff e, bar := if seBar e == 0xFFFFFFFF then none else some (seBar e).toNat
    dep := if seDep e = 0 then none else some (seDep e), stag := 0, dtag := 0 }

/-- Register the released entries of a team, in table order role by role; one that finds too few range entries waits, and
the later ones of its role with it (R17, R276). -/
def State.flushTeam (s : State) (t : Nat) : State :=
  match s.team? t with
  | none => s
  | some a =>
    match (s.part? a.part).bind (fun p => p.launch? a.serial) with
    | none => s
    | some l =>
      (a.due.foldl (fun (g : State × List Nat) d =>
        match l.sched[d.idx]?, g.1.team? t with
        | some e, some a =>
          let p := (schedReq e).plan l
          if !a.released.contains d.idx then g
          else if g.2.contains (seRole e) || !g.1.lockRoom t p.locks then (g.1, seRole e :: g.2)
          else
            let s := g.1.modTeam t (fun a =>
              { (if p.namesOb then a.takeOb else a) with due := a.due.filter (fun x => x.idx != d.idx) })
            (s.issueCopy { team := t, role := seRole e } a.part p (schedReq e).ext (schedReq e).bar d.dep d.xls d.taint
              (some d.idx) none, g.2)
        | _, _ => g) (s, [])).1
/-- Register released entries, as often as a registration can release a further one (R17, R324). -/
def State.flushTimes : Nat → Nat → State → State
  | 0, _, s => s
  | n + 1, t, s => State.flushTimes n t (s.flushTeam t)
def State.flush (s : State) (t : Nat) : State := State.flushTimes (1 + ((s.team? t).map (fun a => a.due.length)).getD 0) t s
/-- Range entries have become free: released entries of the core's and the bulkhead's teams may register. -/
def State.flushAll (s : State) : State := s.teams.foldl (fun s e => if e.2.due.isEmpty then s else s.flush e.1) s

/-- COPY (R288 to R292). The copy may seal a generation, whose event releases entries of the schedule (R17, R324). -/
def execCopy (o : CopyOps) (s : State) : Out :=
  let s := s.ownRetired
  withScalars s (copyRegs o) fun c =>
    let q := copyReq c o
    match q.check c with
    | .inl (.trap t a) => s.trapCur t a c.role.mask
    | .inl .off => s.offCur c.role.mask
    | .inr p =>
      match s.copyTagFault c o q p with
      | some a => s.trap s.cur .ctxDead { val := a, st := copyTagSt c o } c.role.mask false
      | none =>
        let w := s.walkCopy c p q.ext q.dep
        let s := w.1.s
        if w.1.prot then s.trapCur .prot 0 c.role.mask
        else if w.1.window then s.trapCur .window 0 c.role.mask
        else match w.1.wait with
        | some k => s.parkAt k
        | none =>
          s.withOb p.namesOb fun s =>
            if !s.lockRoom s.cur.team p.locks then s.parkCur .ranges
            else
              let mark := c.role.taint || (copyRegs o).any (fun n => unsettled (c.role.sreg n).st)
              ((s.issueCopy s.cur c.team.part p q.ext q.bar w.2 w.1.xls mark none (c.role.flagOf o.fs)).lanesDone).flush
                s.cur.team

/-- What a due point has found. -/
inductive DueRes where
  | ok (s : State) (ds : List DueEntry)
  | bad (s : State)
  deriving DecidableEq, Repr
/-- A due point of the issuing role: each entry's checks and translations, in table order (R18, steps 1 to 3).
DESIGN CHOICE (log 52): one entry is validated and translated before the next is looked at, so that of two entries which
fault the lower one is reported. -/
def State.dueCheck (s : State) (c : Ctx) (stage : Nat) : DueRes :=
  let es := ((List.range c.launch.sched.length).zip c.launch.sched).filter (fun e =>
    seRole e.2 == s.cur.role && seStage e.2 == stage)
  es.foldl (fun g e =>
    match g with
    | .bad s => .bad s
    | .ok s ds =>
      let q := schedReq e.2
      let aux (a : DWord) : DWord := (a &&& 0x1FFF) ||| BitVec.ofNat 64 (e.1 * 2 ^ 32)
      match q.check c with
      | .inl (.trap t a) => .bad (s.trapCur t (aux a) c.role.mask)
      | .inl .off => .bad (s.offCur c.role.mask)
      | .inr p =>
        let w := s.walkCopy c p q.ext q.dep
        if w.1.prot then .bad (w.1.s.trapCur .prot (aux 0) c.role.mask)
        else if w.1.window then .bad (w.1.s.trapCur .window (aux 0) c.role.mask)
        else match w.1.wait with
        | some k => .bad (w.1.s.parkAt k)
        | none => .ok w.1.s (ds ++ [{ idx := e.1, taint := c.role.taint, xls := w.1.xls, dep := w.2 }])) (.ok s [])
/-- Insert a due entry in table order. -/
def insertDue (d : DueEntry) : List DueEntry → List DueEntry
  | [] => [d]
  | e :: t => if d.idx < e.idx then d :: e :: t else e :: insertDue d t
/-- A due point (R18): on success the entries become due, f changes the role, and stage-release entries are released. -/
def State.duePoint (s : State) (c : Ctx) (stage : Nat) (f : Role → Role) : State :=
  match s.dueCheck c stage with
  | .bad s => s
  | .ok s ds =>
    let now := (ds.map DueEntry.idx).filter (fun i => (c.launch.sched[i]?.map (fun e => !seConsumed e)).getD false)
    let names := now.any (fun i => (c.launch.sched[i]?.map (fun e => ((schedReq e).plan c.launch).namesOb)).getD false)
    s.withOb names fun s =>
      (s.modTeam s.cur.team (fun t =>
        { (t.modRole s.cur.role (fun r => { f r with accessErr := none, heldSeq := none })) with
          due := ds.foldl (fun l d => insertDue d l) t.due, released := t.released ++ now })).flush s.cur.team
/-- STAGE (R295). -/
def execStage (s : State) : Out :=
  withCtx s fun c =>
    if c.role.stage = 0xFFFF then s
    else s.duePoint c (c.role.stage.toNat + 1) (fun r => { r with stage := r.stage + 1 })

/-! What a copy does (R291). -/

/-- The translation of a list that covers an address as it is named, moved on to that address. -/
def hitAt (xls : List Hit) (va : Nat) : Option Hit :=
  (xls.find? (fun h => h.named / 65536 == va / 65536)).map (fun h => { h with named := va, va := h.va + (va - h.named) })
/-- The tag at which a translated address is reached: 0 through a window (R49). -/
def Hit.tagOf (h : Hit) (tag : BitVec 14) : BitVec 14 := if h.via.isSome then 0 else tag
/-- Is a place beyond reach: its link has been lost, or its held requests have been completed with error (R58, R236)? -/
def State.lostAt (s : State) (err : Option Nat) (write : Bool) (h : Hit) : Bool :=
  !s.reachable h.pp h.x write h.va || s.segErr err write (h.seg 1)
/-- Is bulkhead scratch at an address beyond an operation's reach (R58, R236)? -/
def State.bsLost (s : State) (o : EngOp) (a : Nat) : Bool :=
  s.bsErr o.err o.part a ||
  ((s.part? o.part).map (fun p => s.down p (((s.team? o.owner.team).map Team.bulk).getD 0) (a / 2 ^ 24))).getD false

/-- A run of bytes within one source sector, one destination sector and, for BPI, one plane. -/
structure Piece where
  src : Nat
  dst : Nat
  len : Nat
  deriving DecidableEq, Repr
def cutPieces (unit src dst : Nat) : Nat → Nat → List Piece
  | 0, _ => []
  | fuel + 1, n =>
    if n = 0 then []
    else
      let k := min n (min (unit - src % unit) (32 - dst % 32))
      { src := src, dst := dst, len := k } :: cutPieces unit (src + k) (dst + k) fuel (n - k)
def CopyOp.pieces (o : CopyOp) : List Piece :=
  let es := elemBytes o.ty
  let n := es * nth o.ext 0
  ((o.src.rows o.ext es).zip (o.dst.rows o.ext es)).flatMap (fun e =>
    cutPieces (if o.planes < 8 then 16 else 32) e.1 e.2 n n)

/-- Read n bytes of one sector of storage. -/
def Memory.get (m : Memory) (a n : Nat) : Nat × Standing := (m.rdNat a n, m.st (a / 32))
/-- Write n bytes of one sector of storage (R142). -/
def Memory.put (m : Memory) (a n v : Nat) (st : Standing) : Memory :=
  (m.wrNat a n v).setSt (a / 32) (coverSt a n (m.st (a / 32)) st)

/-- What an operation reads of n bytes of one sector that holds v and st (R294, R373): units of some size each on its own. -/
def State.engPast (s : State) (o : EngOp) (unit : Nat) (loc : SecLoc) (a n : Nat) (r : Nat × Standing) : State × Nat × Standing :=
  s.readPast (.op o.owner o.fenced) true unit loc a n r.1 r.2
/-- Read n bytes of one sector in virtual memory for an engine operation; a lost place gives Z (R236). -/
def State.engRead (s : State) (o : EngOp) (xls : List Hit) (unit : Nat) (tag : BitVec 14) (va n : Nat) :
    State × Nat × Standing :=
  match hitAt xls va with
  | none => (s, 0, .Z)
  | some h =>
    if s.lostAt o.err false h then
      let b := s.freeBytes n
      (b.1, b.2, .Z)
    else
      let tag := h.tagOf tag
      let r := s.rdPiece h.pp h.x tag true h.va n
      match r.1.readAt h.pp h.x tag h.va with
      | some l => r.1.engPast o unit l.1 l.2 n r.2
      | none => r
/-- Does a tag of a partition still name the context that it named at some moment (R375)? -/
def State.tagStands (s : State) (pp : Nat) (tag : BitVec 14) (born : Nat) : Bool :=
  tag == 0 || ((s.part? pp).bind (fun p => p.ctxEnt? tag)).any (fun e => e.born == born)
/-- Read at a copy's source; a context that is no longer there has no cells (R375). -/
def State.readEp (s : State) (o : EngOp) (k : CopyOp) (a n : Nat) : State × Nat × Standing :=
  match k.src with
  | .g _ tag | .surf _ _ tag => s.engRead o k.xls 4 (if s.tagStands o.part tag k.sborn then tag else 0) a n
  | .t _ =>
    s.engPast o 4 (.t o.owner.team) a n (((s.team? o.owner.team).map (fun t => t.scratch.get a n)).getD (0, .Z))
  | .b _ =>
    if s.bsLost o a then
      let b := s.freeBytes n
      (b.1, b.2, .Z)
    else
      s.engPast o 4 (.b o.part) a n (((s.part? o.part).map (fun p => p.bscratch.get a n)).getD (0, .Z))
  | .ob i _ _ => (s, (((s.team? o.owner.team).bind Team.ob).map (fun b => b.mem.get (obBytes * i.toNat + a) n)).getD (0, .Z))

/-- What a destination sector receives: its pieces with their values, and the states of the source sectors. -/
structure Gather where
  sec : Nat
  parts : List (Nat × Nat × Nat)
  sts : List Standing
  deriving DecidableEq, Repr
/-- Read every piece and gather the pieces by destination sector; a plane that is not delivered arrives as zeros and brings
no state (R179). -/
def State.gatherCopy (s : State) (o : EngOp) (k : CopyOp) : State × List Gather :=
  let r := k.pieces.foldl (fun (g : State × List Gather) p =>
    let v : State × Nat × List Standing :=
      if k.planes ≤ p.src % 128 / 16 then (g.1, 0, [])
      else
        let q := g.1.readEp o k p.src p.len
        (q.1, q.2.1, [q.2.2])
    match g.2 with
    | h :: t =>
      if h.sec == p.dst / 32 then
        (v.1, { h with parts := h.parts ++ [(p.dst, p.len, v.2.1)], sts := h.sts ++ v.2.2 } :: t)
      else (v.1, { sec := p.dst / 32, parts := [(p.dst, p.len, v.2.1)], sts := v.2.2 } :: h :: t)
    | [] => (v.1, [{ sec := p.dst / 32, parts := [(p.dst, p.len, v.2.1)], sts := v.2.2 }])) (s, [])
  (r.1, r.2.reverse)
def Gather.len (g : Gather) : Nat := (g.parts.map (fun p => p.2.1)).sum
/-- A proposal surface marks what passes it, but for Z (R21). -/
def propSt (prop : Bool) (st : Standing) : Standing := if prop then if st == .Z then .Z else .P else st
/-- The state that a destination sector receives (R21, R129, R291). -/
def Gather.st (g : Gather) (k : CopyOp) : Standing :=
  markSt k.mark (propSt k.prop (joinAll g.sts))
/-- The writes of a sector: one of the whole sector when the pieces fill it. -/
def Gather.writes (g : Gather) : List (Nat × Nat × Nat) :=
  if g.len = 32 then [(32 * g.sec, 32, (g.parts.map (fun p => p.2.2 * 2 ^ (8 * (p.1 % 32)))).sum)] else g.parts

/-- An operation writes v and st over n bytes of one sector that hold cur: what the bytes come to beside stores that FENCE.E has
not ordered (R364). -/
def State.engWrites (s : State) (o : EngOp) (loc : SecLoc) (a n cur v : Nat) (st : Standing) (was : List OldSec) :
    State × Nat × Standing :=
  let r := s.underStores o loc a n cur v st
  (r.1.noteEngine o st was, r.2)
/-- An operation writes n bytes of one sector at a tag. -/
def State.engStore (s : State) (o : EngOp) (h : Hit) (tag : BitVec 14) (unit : Bool) (n v : Nat) (st : Standing) : State :=
  let r := match s.writeAt h.pp h.x tag h.va with
    | some l => s.engWrites o l.1 l.2 n (s.rdPiece h.pp h.x tag true h.va n).2.1 v st (s.oldVirt h.pp h.x tag h.va n)
    | none => (s, v, st)
  r.1.wrVirt h.pp [h.x] tag unit h.va n r.2.1 r.2.2
/-- What the writing of a copy has come to. -/
structure CopyRun where
  s : State
  written : Nat
  lost : Bool
  full : Bool
  deriving DecidableEq, Repr
/-- One write at a copy's destination; block tells that it belongs to a compressed block that the copy replaces (R266), and unit
that the copy covers its unit (R260). No write is performed on a freed tag (R375). -/
def CopyRun.write (g : CopyRun) (o : EngOp) (k : CopyOp) (block unit : Bool) (st : Standing) (w : Nat × Nat × Nat) : CopyRun :=
  let s := g.s
  let done (s : State) : CopyRun := { g with s := s, written := g.written + w.2.1 }
  match k.dst with
  | .t _ =>
    let m := ((s.team? o.owner.team).map Team.scratch).getD Memory.zero
    let r := s.engWrites o (.t o.owner.team) w.1 w.2.1 (m.rdNat w.1 w.2.1) w.2.2 st (m.oldSecs (.t o.owner.team) w.1 w.2.1)
    done (r.1.modTeam o.owner.team (fun t => { t with scratch := t.scratch.put w.1 w.2.1 r.2.1 r.2.2 }))
  | .b _ =>
    if s.bsLost o w.1 then { g with lost := true }
    else
      let m := ((s.part? o.part).map Part.bscratch).getD Memory.zero
      let r := s.engWrites o (.b o.part) w.1 w.2.1 (m.rdNat w.1 w.2.1) w.2.2 st (m.oldSecs (.b o.part) w.1 w.2.1)
      done (r.1.modPart o.part (fun p => { p with bscratch := p.bscratch.put w.1 w.2.1 r.2.1 r.2.2 }))
  | .ob n _ _ => done (s.modTeam o.owner.team (fun t =>
      { t with ob := t.ob.map (fun b => { b with mem := b.mem.put (obBytes * n.toNat + w.1) w.2.1 w.2.2 st }) }))
  | .g _ tag | .surf _ _ tag =>
    match (hitAt k.xls w.1).bind (fun h => (s.part? h.pp).map (fun p => (h, p))) with
    | some (h, p) =>
      let tag := h.tagOf tag
      if s.lostAt o.err true h then { g with lost := true }
      else if !s.tagStands o.part tag k.dborn then g
      else if p.needsCell h.x tag h.va && p.poolFree (poolOf h.x h.va) = 0 then { g with full := true }
      else done (s.engStore o h tag (if pteCmp h.x.entry then block else unit) w.2.1 w.2.2 st)
    | none => { g with lost := true }
/-- Write the destination sectors in order; a missing pool line ends the copy there (R246). -/
def State.scatterCopy (s : State) (o : EngOp) (k : CopyOp) (gs : List Gather) : CopyRun :=
  gs.foldl (fun r g =>
    if r.full then r
    else
      let all (n : Nat) : Bool := (gs.filter (fun h => h.sec / n == g.sec / n && h.len == 32)).length == n
      g.writes.foldl (fun r w => if r.full then r else r.write o k (all 16) (all 2) (g.st k) w) r)
    { s := s, written := 0, lost := false, full := false }
/-- Place the scales of a copy (R291). -/
def State.placeScales (s : State) (o : EngOp) (k : CopyOp) (p : ScalePlace) : State :=
  (List.range p.count).foldl (fun s i =>
    let r := s.engRead o k.xls 4 0 (p.range.1 + 4 * i) 4
    let st := markSt k.mark (propSt p.prop r.2.2)
    r.1.modTeam o.owner.team (fun t => { t with ob := t.ob.map (fun b =>
      { b with scale := (b.scale.wrNat (4 * (p.smoff + i)) 4 r.2.1).setSt (p.smoff + i) st }) })) s

/-- Which of X, W, P0 and P1 an operation of the Sinter engine uses (R267). -/
structure NmcUse where
  x : Bool
  w : Bool
  p0 : Bool
  p1 : Bool
  deriving DecidableEq, Repr
def nmcUse (code : BitVec 4) : NmcUse :=
  match code.toNat with
  | 0 => { x := true, w := false, p0 := true, p1 := false }
  | 1 => { x := true, w := false, p0 := true, p1 := true }
  | 2 => { x := true, w := false, p0 := true, p1 := true }
  | 3 => { x := true, w := true, p0 := false, p1 := false }
  | 4 => { x := false, w := false, p0 := true, p1 := true }
  | _ => { x := false, w := false, p0 := true, p1 := false }
/-- The virtual bytes that a copy reaches, as (address, length, writing). -/
def CopyOp.reach (k : CopyOp) : List (Nat × Nat × Bool) :=
  let es := elemBytes k.ty
  let n := es * nth k.ext 0
  (if k.src.tagged then (k.src.rows k.ext es).map (fun r => (r, n, false)) else []) ++
  (if k.dst.tagged then (k.dst.rows k.ext es).map (fun r => (r, n, true)) else []) ++
  (match k.scale with | some p => [(p.range.1, p.range.2 - p.range.1, false)] | none => [])
/-- The virtual bytes that a command reaches. -/
def NmcOp.reach (k : NmcOp) : List (Nat × Nat × Bool) :=
  let u := nmcUse k.code
  let n := k.n * (if k.f64 then 8 else 4)
  [(k.y.toNat, n, true)] ++ (if u.x then [(k.x.toNat, n, false)] else []) ++ (if u.w then [(k.w.toNat, n, false)] else []) ++
    [(k.recAddr.toNat, 32, true)]
/-- The virtual bytes that an operation has still to reach, and its translations: once it has moved its data, a copy has its
counter left and a command its record. -/
def EngOp.reach (o : EngOp) : List (Nat × Nat × Bool) × List Hit :=
  match o.kind with
  | .copy k _ => (if o.moved then [] else k.reach, k.xls)
  | .nmc k => (if o.moved then [(k.recAddr.toNat, 32, true)] else k.reach, k.xls)
  | .mat _ => ([], [])
/-- The counter that a copy has still to decrement, once it has moved its data. -/
def EngOp.counter (o : EngOp) : Option CtrRef :=
  match o.kind with
  | .copy k _ => if o.moved then k.dep else none
  | _ => none
/-- The address of a counter as an operation's translation. -/
def CtrRef.hit (r : CtrRef) : Hit := { named := r.named.toNat, pp := r.pp, va := r.va, x := r.x, via := none }
/-- The addresses of bulkhead scratch that a copy has still to reach. -/
def EngOp.bsAddrs (o : EngOp) : List Nat :=
  match o.kind with
  | .copy k _ => if o.moved then [] else [k.src, k.dst].filterMap (fun e => match e with | .b a => some a | _ => none)
  | _ => []
/-- The translations of an operation's pages that are still good, with their partitions and whether it writes there. -/
def State.opPages (s : State) (o : EngOp) : List (Hit × Part × Bool) :=
  let good (h : Hit) (write : Bool) : Option (Hit × Part × Bool) :=
    if s.lostAt o.err write h then none else (s.part? h.pp).map (fun p => (h, p, write))
  o.reach.1.flatMap (fun e => (pagesOf e.2.1 [e.1]).filterMap (fun g =>
    (hitAt o.reach.2 (g * 65536)).bind (fun h => good h e.2.2))) ++
  (o.counter.bind (fun r => good r.hit true)).toList
/-- The physical bulkheads whose stacks or gates hold an operation's requests (R58, R272). -/
def State.opStuck (s : State) (o : EngOp) : List Nat :=
  (s.opPages o).flatMap (fun e =>
    ((e.2.1.reached e.1.x e.2.2 e.1.va).map e.2.1.bulkOf).filter (s.stuck o.err)) ++
  (match s.part? o.part with
    | some p => ((o.bsAddrs.filter (fun a => !s.bsLost o a)).map (fun a => p.bulkOf (a / 2 ^ 24))).filter (fun b => (s.bulk b).hung)
    | none => [])
/-- Does an operation wait for a stack or a gate that holds its requests (R58, R272), or for a page that is being moved
(R232)? -/
def State.engHeld (s : State) (o : EngOp) : Bool :=
  !(s.opStuck o).isEmpty ||
  (s.opPages o).any (fun e => e.2.2 && e.2.1.moves.any (fun m => e.1.x.va ≤ m.va.toNat && m.va.toNat < e.1.x.va + e.1.x.size))
/-- Are there requests that were accepted earlier and that nothing holds any more: they are performed first (R232, R272)? -/
def State.heldBefore (s : State) (k : Nat) : Bool :=
  s.teams.any (fun e => ((List.range e.2.roles.length).zip e.2.roles).any (fun r =>
    r.2.heldSeq.any (fun j => decide (j < k)) && r.2.park.isNone && s.mayIssue { team := e.1, role := r.1 })) ||
  s.ops.any (fun e => e.2.hold.any (fun j => decide (j < k)) && !e.2.started && !s.engHeld e.2) ||
  s.outside.any (fun e => e.1 < k && e.2.1.isNone)
/-- An operation whose turn has come starts, unless its requests are held or earlier ones are still to be performed. -/
def State.startOp (s : State) (id : Nat) (o : EngOp) (go : State → State) : State :=
  if s.engHeld o then
    if o.hold.isSome then s
    else { s with seq := s.seq + 1, ops := tmod s.ops id (fun o => { o with hold := some s.seq }) }
  else if o.hold.any s.heldBefore then s
  else go s
/-- Is a copy's turn at its operand buffer (R276, R324)? -/
def State.obTurn (s : State) (id : Nat) (o : EngOp) (k : CopyOp) : Bool :=
  match k.dst with
  | .ob n _ g =>
    !s.obReaders o.owner.team n.toNat (g - 1) &&
    !s.ops.any (fun e => e.1 < id && e.2.owner.team == o.owner.team && !e.2.moved &&
      (match e.2.kind with | .copy q _ => (match q.dst with | .ob m _ _ => m == n | _ => false) | _ => false))
  | _ => true
/-- Pool lines that a copy lacks while a retire may yet free some (R246). -/
def State.lacksLines (s : State) (o : EngOp) (k : CopyOp) (gs : List Gather) : Bool :=
  match k.dst, s.part? o.part with
  | .g _ tag, some p | .surf _ _ tag, some p =>
    !p.retires.isEmpty &&
    (let need := distinctLines (gs.filterMap (fun g =>
        match hitAt k.xls (32 * g.sec) with
        | some h => if h.via.isNone && p.needsCell h.x tag h.va then some (0, poolOf h.x h.va, g.sec / 4) else none
        | none => none))
     (List.range 8).any (fun b => p.poolFree b < (need.filter (fun e => e.1 == b)).length))
  | _, _ => false

/-- COPY_START (R278, R291, R294): a copy whose order and stacks allow it reads and writes everything. -/
def execCopyStart (op : Nat) (s : State) : Out :=
  .next (match s.op? op with
    | some o =>
      match o.kind with
      | .copy k _ =>
        if o.started || s.behind op o || !s.obTurn op o k then s
        else s.startOp op o fun s =>
          let g := s.gatherCopy o k
          if s.lacksLines o k g.2 then s
          else
            let r := g.1.scatterCopy o k g.2
            let s := match k.scale with
              | some p => r.s.placeScales o k p
              | none => r.s
            let s := if r.full then s.defer o.owner .overlayFull 0 else s
            let s := if r.lost then s.defer o.owner .remoteGone 0 else s
            s.modOp op (fun o => { o with started := true, moved := true, kind := match o.kind with
              | .copy k sc => .copy { k with written := r.written } sc
              | e => e })
      | _ => s
    | none => s)
/-- A copy's own writes are ordered before what its decrement releases (R396). -/
def State.releaseOp (s : State) (o : EngOp) : State :=
  { s with past := s.past.map (fun w =>
      if w.op.any (fun m => m.id == o.id) then { w with rels := w.rels ++ [(o.owner, .part, s.clock)] } else w) }
/-- COPY_COMPLETE (R293): the barrier, the counter, the ranges and the flag. -/
def execCopyComplete (op : Nat) (s : State) : Out :=
  .next (match s.op? op with
    | some o =>
      match o.kind with
      | .copy k _ =>
        if !o.moved || s.engHeld o then s
        else
          let s := match k.bar with
            | some b => s.barDeliver o.owner b k.written
            | none => s
          let s := match k.dep with
            | some r =>
              if !s.reachable r.pp r.x true r.va || s.ctrErr o.err r then s.defer o.owner .remoteGone 0
              else (s.releaseOp o).decrement o.owner r
            | none => s
          (s.delOp op).flushAll
      | _ => s
    | none => s)

end Sys2Proof.Machine
end

