-- ==== Sys2Proof/Machine/Context.lean ====
section
/-!
DEFINITION. Context instructions (R238 to R254, R301 to R306), sharing groups (R79 to R82, R307, R308), and the events that
complete long-latency instructions and retry stalled ones (R89, R136, R240, R246).
-/
namespace Sys2Proof.Machine

/-! Sub-windows (R12). -/

/-- The first tag of the sub-window of the team with index t; none when CTXSUB is 0. -/
def Launch.subWindow (l : Launch) (t : Nat) : Option Nat :=
  if l.ctxSub = 0 then none else some (l.ctxBase + t % (l.ctxSize / l.ctxSub) * l.ctxSub)
/-- The tags of a team's sub-window. -/
def Launch.tags (l : Launch) (t : Nat) : List Nat :=
  match l.subWindow t with
  | none => []
  | some b => (List.range l.ctxSub).map (fun i => b + i)
/-- The tags of the issuing team's sub-window. -/
def Ctx.tags (c : Ctx) : List Nat := c.launch.tags c.team.taskidx.toNat

/-- Does a copy of the issuing role still use a tag (R249, R250)? -/
def State.tagBusy (s : State) (tag : BitVec 14) : Bool :=
  let uses (e : Ep) : Bool := match e with | .g _ t | .surf _ _ t => t == tag | _ => false
  s.ops.any (fun e => e.2.owner == s.cur && (match e.2.kind with | .copy k _ => uses k.src || uses k.dst | _ => false))

/-! CTXNEW (R240, R302). -/


/-- CTX_EXHAUSTED with its cause. -/
def State.ctxExhausted (s : State) (c : Ctx) (cause : DWord) : State := s.trapCur .ctxExhausted cause c.role.mask
/-- CTXNEW: the lowest FREE tag of the sub-window; it stalls while a retire of the team will free one (R240). -/
def execCtxnew (fs : Bool) (d : BitVec 7) (s : State) : Out :=
  let s := s.ownRetired
  withCtx s fun c =>
    match c.ctxFault with
    | some a => s.trapCur .ctxDead a c.role.mask
    | none =>
      if c.launch.ctxSub = 0 then s.ctxExhausted c 2
      else if 15 ≤ c.part.depthOf c.role.ctx then s.ctxExhausted c 1
      else match c.tags.find? (fun t => (tget c.part.ctxs t).isNone) with
      | some t =>
        let e : CtxEnt :=
          { state := .live, parent := c.role.ctx, depth := c.part.depthOf c.role.ctx + 1, owner := s.cur.team,
            adopter := none, born := s.seq + 1 }
        ((({ s with seq := s.seq + 1 } : State).modPart c.team.part (fun p => { p with ctxs := tset p.ctxs t e })).putS d (BitVec.ofNat 64 t) .S).modCur
          (fun r => r.issueLong fs)
      | none =>
        if c.part.retires.any (fun x => x.role.team == s.cur.team &&
            (c.part.retiring x).any (fun t => c.tags.contains t.toNat)) then
          s.parkCur .ctxnew
        else s.ctxExhausted c 0

/-! CTXSET (R247, R303). -/

/-- The role's context changes. -/
def State.setCtx (s : State) (tag : BitVec 14) : State :=
  let born := (((s.ctx?).bind (fun c => c.part.ctxEnt? tag)).map CtxEnt.born).getD 0
  s.modCur (fun r => { r with ctx := tag, ctxBorn := born })
/-- CTXSET: a HELD target becomes LIVE and is adopted by the team. -/
def execCtxset (fs : Bool) (a : BitVec 7) (s : State) : Out :=
  let s := s.ownRetired
  withControl s a fun c v =>
    let tag : BitVec 14 := v.setWidth 14
    if v.extractLsb' 14 50 != (0 : BitVec 50) then s.trapCur .ctxDead (ctxAux tag 3) c.role.mask
    else match c.part.ctxFault tag false with
    | some x => s.trapCur .ctxDead x c.role.mask
    | none =>
      let s := s.modPart c.team.part (fun p => { p with ctxs := tmod p.ctxs tag.toNat (fun e =>
        if e.state == .held then { e with state := .live, adopter := some s.cur.team } else e) })
      (s.setCtx tag).modCur (fun r => r.issueLong fs)

/-! CTXEND (R249, R250, R304). -/

/-- Why CTXEND is refused: %ctx is 0, FREE or PENDING (R253). -/
def ctxEndFault (c : Ctx) : Option DWord := if c.role.ctx = 0 then some 0 else c.ctxFault
/-- CTXEND.DISCARD: the context and what descends from it by then become FREE, and the cells return, when it completes
(R249). -/
def execCtxendDiscard (fs : Bool) (s : State) : Out :=
  let s := s.ownRetired
  withCtx s fun c =>
    match ctxEndFault c with
    | some a => s.trapCur .ctxDead a c.role.mask
    | none =>
      if s.tagBusy c.role.ctx then s.parkCur .earlier
      else
        let x : Retire := { role := s.cur, flag := c.role.flagOf fs, tags := [c.role.ctx] }
        (s.modPart c.team.part (fun p => { p with retires := p.retires ++ [x] })).setCtx (c.part.parentOf c.role.ctx)
/-- CTXEND.COMMIT (R250). -/
def execCtxendCommit (fs : Bool) (s : State) : Out :=
  let s := s.ownRetired
  withCtx s fun c =>
    match ctxEndFault c with
    | some a => s.trapCur .ctxDead a c.role.mask
    | none =>
      if !(c.part.children c.role.ctx).isEmpty then s.trapCur .ctxDead (ctxAux c.role.ctx 2) c.role.mask
      else if s.tagBusy c.role.ctx then s.parkCur .earlier
      else
        (((s.release .part).modPart c.team.part (fun p => { p with ctxs := tmod p.ctxs c.role.ctx.toNat (fun e =>
          { e with state := .pending }) })).setCtx (c.part.parentOf c.role.ctx)).modCur (fun r => r.issueLong fs)

/-! CTXMERGE (R251, R252, R305). -/

/-- Was a line written in a context after a moment (R252)? -/
def Part.writtenSince (p : Part) (tag : BitVec 14) (line since : Nat) : Bool :=
  p.lastWrite.any (fun e => e.1 == tag && e.2.1 == line && since < e.2.2)
/-- The PENDING children of a tag that no running CTXMERGE has taken, in ascending order. -/
def Part.pendingKids (p : Part) (tag : BitVec 14) : List (Nat × CtxEnt) :=
  (p.children tag).filter (fun e => e.2.state == .pending && !p.retires.any (fun x => x.tags.any (fun t => t.toNat == e.1)))
/-- The cells of a tag in ascending order of their lines. -/
def Part.cellsOf (p : Part) (tag : Nat) : List CtxCell :=
  (p.cells.filter (fun c => c.tag.toNat == tag)).mergeSort (fun a b => a.line ≤ b.line)

/-- Translate the pages of lines for the base; the wait or the trap of the first that cannot be written. -/
def State.walkLines (s : State) (c : Ctx) (lines : List Nat) : Walked :=
  (pagesOf 1 (lines.map (fun l => 128 * l))).foldl (fun w g => w.page c Need.write g) (Walked.start s)

/-- The data of a cell as a read under a key finds it. -/
def State.lineSeen (s : State) (p : Part) (k : CtxCell) (key : Nat) : BitVec 1024 :=
  s.cellSeen p k key 1 ++ s.cellSeen p k key 0
/-- Apply one cell of a child to the parent: to the base line, to the parent's cell, or by passing it on (R251). -/
def State.applyCell (s : State) (pp : Nat) (p : Part) (xls : List Hit) (parent : BitVec 14) (mark : Bool) (k : CtxCell) :
    State :=
  let k := if s.flawless then k else
    ((((s.touchCell pp p k 0).touchCell pp p k 1).part? pp).bind (fun p => p.cell? k.tag k.line)).getD k
  let s := (s.touchCell pp p k 0).touchCell pp p k 1
  let k := { k with st := k.st.map (markSt mark) }
  if parent = 0 then
    match hitAt xls (128 * k.line) with
    | none => s
    | some h =>
      let d := s.lineSeen p k (s.keyName (pteKey h.x.entry))
      let s := s.forgetVirt h.pp h.x 0 h.va 128
      (List.range 4).foldl (fun s i =>
        s.wrVirt h.pp [h.x] 0 (!pteCmp h.x.entry) (h.va + 32 * i) 32 (lineGet d (32 * i) 32) (k.st[i]?.getD .S)) s
  else match p.cell? parent k.line with
    | some c =>
      (((s.forget (p.cellLoc pp parent) (4 * k.line) (4 * k.line + 3)).freshLine (p.cellAt c)).modPart pp (fun q => q.modCell parent k.line (fun c =>
        { c with data := k.data, st := k.st, keys := k.keys }))).noteWrite pp parent k.line
    | none => (s.modPart pp (fun q => { q with cells := { k with tag := parent } :: q.cells })).noteWrite pp parent k.line

/-- CTXMERGE (R251): the cells are applied or dropped at once; the tags become FREE when it completes. It is an acquire at PART
scope (R368). -/
def execCtxmerge (fs : Bool) (d : BitVec 7) (s : State) : Out :=
  let s := s.ownRetired
  withCtx s fun c =>
    match c.ctxFault with
    | some a => s.trapCur .ctxDead a c.role.mask
    | none =>
      let p := c.role.ctx
      let kids := c.part.pendingKids p
      let cells := kids.flatMap (fun e => (c.part.cellsOf e.1).map (fun k => (k, c.part.writtenSince p k.line e.2.born)))
      let apply := (cells.filter (fun e => !e.2)).map Prod.fst
      let w := if p = 0 then s.walkLines c (apply.map CtxCell.line) else Walked.start s
      if w.prot then w.s.trapCur .prot 0 c.role.mask
      else if w.window then w.s.trapCur .window 0 c.role.mask
      else match w.wait with
      | some k => w.s.parkAt k
      | none =>
        let x : Retire := { role := s.cur, flag := c.role.flagOf fs, tags := kids.map (fun e => BitVec.ofNat 14 e.1) }
        let s := apply.foldl (fun s k =>
          match s.part? c.team.part with
          | some q => s.applyCell c.team.part q w.xls p c.role.taint k
          | none => s) w.s
        let s := s.modPart c.team.part (fun q =>
          { q with cells := q.cells.filter (fun k => !kids.any (fun e => e.1 == k.tag.toNat)), retires := q.retires ++ [x] })
        (s.putS d (BitVec.ofNat 64 (kids.length * 2 ^ 32 + (cells.filter (fun e => e.2)).length)) .S).lanesDone.acquire .part

/-! CTXQ (R254, R306). -/

/-- The context-table entry of a tag as CTXQ reads it. -/
def ctxEntry (c : Ctx) (tag : BitVec 14) : DWord :=
  let inwin := if c.tags.contains tag.toNat then 2 ^ 16 else 0
  let kids := (c.part.children tag).length
  match if tag = 0 then some { state := .live, parent := 0, depth := 0, owner := 0, adopter := none, born := 0 }
      else c.part.ctxEnt? tag with
  | none => BitVec.ofNat 64 (tag.toNat + inwin)
  | some e =>
    let st := match e.state with | .live => 1 | .pending => 2 | .held => 3
    BitVec.ofNat 64 (tag.toNat + st * 2 ^ 14 + inwin + e.depth * 2 ^ 20 + e.parent.toNat * 2 ^ 24 + kids * 2 ^ 38)
/-- CTXQ (R254, R306). -/
def execCtxq (fs : Bool) (d : BitVec 7) (a : BitVec 7) (s : State) : Out :=
  let s := s.ownRetired
  withScalars s [a] fun c =>
    let x := c.role.sreg a
    let tag : BitVec 14 := x.val.setWidth 14
    if x.val.extractLsb' 14 50 != (0 : BitVec 50) then
      s.trap s.cur .ctxDead { val := ctxAux tag 3, st := x.st } c.role.mask false
    else (s.putS d (ctxEntry c tag) (joinSt .S x.st)).modCur (fun r => r.issueLong fs)

/-! Sharing groups. -/

/-- The members of a group of the issuing team's launch: their names and teams. -/
def State.sgMembers (s : State) (c : Ctx) (gid : BitVec 4) : List (Nat × Team) :=
  s.teams.filter (fun e => e.2.part == c.team.part && e.2.serial == c.team.serial && e.2.sg.map Prod.fst == some gid)
/-- How many groups have members on a logical bulkhead (R79). -/
def State.sgGroups (s : State) (part bulk : Nat) : Nat :=
  (s.teams.filterMap (fun e =>
    if e.2.part == part && e.2.bulk == bulk then e.2.sg.map (fun g => (e.2.serial, g.1)) else none)).eraseDups.length
/-- The cores that a group's members hold. -/
def sgCores (ms : List (Nat × Team)) : List Nat := ((ms.filter (fun e => e.2.phase != .saved)).map (fun e => e.2.core)).eraseDups
/-- The team of the issuing role becomes a member. With a member that is being pre-empted, or has been, all members are: the others
stop with a joiner that stops, and a joiner stops with a group that does (R82). -/
def State.becomeMember (s : State) (c : Ctx) (ms : List (Nat × Team)) (gid slot : BitVec 4) : State :=
  let away (t : Team) : Bool := t.phase == .stopping || t.phase == .saved
  let s := if ms.any (fun e => away e.2) then s.requestStop s.cur.team .sharing else s
  let s := s.modTeam s.cur.team (fun t => { t with sg := some (gid, slot) })
  if c.team.phase == .stopping then s.requestStop s.cur.team .sharing else s
/-- SGJOIN of a team that is a member of no group (R79). A member of a cohort that would have to migrate waits until the group
ends. DESIGN CHOICE (log 51): a joiner that migrates is saved whether or not a core can accept it, and waits for one with its
charge released. -/
def State.joinGroup (s : State) (c : Ctx) (gid slot : BitVec 4) : State :=
  let ms := s.sgMembers c gid
  let bulk := (ms.head?.map (fun e => e.2.bulk)).getD c.team.bulk
  let cores := sgCores ms
  if ms.any (fun e => e.2.sg == some (gid, slot)) then s.parkCur .sgjoin
  else if ms.isEmpty && 16 ≤ s.sgGroups c.team.part bulk then s.parkCur .sgjoin
  else if bulk == c.team.bulk && (cores.contains c.team.core || cores.length < 8) then
    s.becomeMember c ms gid slot
  else if c.team.cohort.isSome then s.parkCur (.sgEnd gid)
  else
    ((s.parkCur .sgMigrate).modTeam s.cur.team (fun t =>
      { t with limit := some bulk, members := if 8 ≤ cores.length then some gid else none })).requestStop s.cur.team .sharing
/-- SGJOIN (R79, R307): a member first leaves its group. -/
def execSgjoin (sel : SgSel) (s : State) : Out :=
  let go (gid slot : BitVec 4) (s : State) : State :=
    let s := s.modTeam s.cur.team (fun t => { t with sg := none })
    match s.ctx? with
    | some c => s.joinGroup c gid slot
    | none => s
  match sel with
  | .imm gid slot => withCtx s fun _ => go gid slot s
  | .s r =>
    withControl s r fun c v =>
      if v.extractLsb' 8 56 != (0 : BitVec 56) then s.trapCur .illegalEnc 14 c.role.mask
      else go (v.setWidth 4) (v.extractLsb' 4 4) s
/-- SGLEAVE (R81, R308). -/
def execSgleave (s : State) : Out := withCtx s fun _ => s.modTeam s.cur.team (fun t => { t with sg := none })

/-! Completion of long-latency instructions. -/

/-- Complete the first CTXEND.DISCARD or CTXMERGE of a role. -/
def Part.completeRetire (p : Part) (r : RoleRef) : Part :=
  match p.retires.find? (fun x => x.role == r) with
  | some x => { (p.freeTags (p.retiring x)) with retires := p.retires.erase x }
  | none => p
/-- LONG_LATENCY_COMPLETE (R89): a role's oldest context retire completes, else its oldest long-latency instruction. -/
def execLongLatencyComplete (r : RoleRef) (s : State) : Out :=
  .next (match s.team? r.team with
    | none => s
    | some t =>
      if ((s.part? t.part).map (fun p => p.retires.any (fun x => x.role == r))).getD false then
        s.modPart t.part (fun p => p.completeRetire r)
      else s.modRole r (fun x => { x with out := x.out.drop 1 }))
/-- Let a role that is parked for a reason execute its instruction again. -/
def State.unpark (s : State) (r : RoleRef) (k : Park → Bool) : State :=
  s.modRole r (fun x => if (x.park.map k).getD false then { x with park := none } else x)
/-- BUDGET_RETRY (R136): the write is tested again once the earlier instructions have completed. -/
def execBudgetRetry (r : RoleRef) (s : State) : Out :=
  .next (match s.team? r.team, s.role? r with
    | some t, some x =>
      if x.out.isEmpty && !((s.part? t.part).map (fun p => p.retires.any (fun y => y.role == r))).getD false then
        s.unpark r (fun k => k == .budget)
      else s
    | _, _ => s)
/-- CTXNEW_RETRY (R240). -/
def execCtxnewRetry (r : RoleRef) (s : State) : Out := .next (s.unpark r (fun k => k == .ctxnew))
/-- OVERLAY_RETRY (R246). -/
def execOverlayRetry (r : RoleRef) (s : State) : Out := .next (s.unpark r (fun k => k == .overlay))
/-- FAIRNESS_SERVE (R132): a role that waits is served next. -/
def execFairnessServe (r : RoleRef) (s : State) : Out := .next (if s.mayIssue r then { s with turn := some r } else s)
/-- YIELD_EXPIRY (R158). -/
def execYieldExpiry (r : RoleRef) (s : State) : Out := .next (s.modRole r (fun x => { x with yielded := false }))

end Sys2Proof.Machine
end

