-- ==== Sys2Proof/Machine/Control.lean ====
section
/-!
DEFINITION. Clause headers, control transfer and divergence (R87 to R89, R126 to R130, R145 to R158), and the system
entries: TRAP, TRET, PCHK, TLBI, LPSW and the opcodes that are not assigned (R99, R113, R420 to R424).
-/
namespace Sys2Proof.Machine

/-! Transfers. -/

/-- The offset of the header that follows the clause that ends at a role's program counter, past a tail word (R85, R154). -/
def Role.fallOff (r : Role) : BitVec 32 := if r.pos.pc % 32 = 28 then r.pos.pc + 4 else r.pos.pc
/-- Continue at the header at an offset (R86). -/
def Role.jump (r : Role) (off : BitVec 32) : Role := { r with pos := CodePos.header off }
/-- Is a code target in an s register well formed (R145)? -/
def regTargetOk (v : DWord) : Bool := v.extractLsb' 32 32 == (0 : BitVec 32) && v.extractLsb' 0 2 == (0 : BitVec 2)
/-- ILLEGAL_ENC with cause 6 at the transferring instruction (R145). -/
def State.badTarget (s : State) (c : Ctx) : State := s.trapCur .illegalEnc 6 c.role.mask

/-- CLAUSE_START (R87, R89): the role passes its header once the flags it waits for are clear. -/
def execClauseStart (h : Header) (s : State) : Out := withCtx s fun c => s.openClause c h
/-- NOP: only a Z guard bit has an effect (R149). -/
def execNop (g : Guard) (s : State) : Out := withLanes s g (fun _ => false) (fun _ _ => false) fun _ s _ => s
/-- BRA (R150). -/
def execBra (target : BitVec 32) (s : State) : Out := withCtx s fun _ => s.modCur (fun r => r.jump target)

/-- The lanes of the mask whose bit of a p register is 1. -/
def Role.takenOf (r : Role) (p : BitVec 7) : Mask := maskOf (r.all.filter (fun l => (r.preg p l).1))
/-- BRD's push (R127, steps 2 to 4). -/
def Role.branch (r : Role) (p : BitVec 7) (target join : BitVec 32) : Role :=
  let taken := r.takenOf p
  let e : DivEntry :=
    { mask := r.mask, taken := taken, falloff := r.fallOff, joinoff := join,
      taint := r.all.any (fun l => unsettled (r.preg p l).2), phase := taken == 0 }
  if taken != 0 then { (r.jump target) with div := e :: r.div, mask := taken }
  else { (r.jump r.fallOff) with div := e :: r.div }
/-- BRD (R127, R130, R151): lanes whose predicate is Z die first. -/
def execBrd (p : BitVec 7) (target : BitVec 32) (join : BitVec 32) (s : State) : Out :=
  withCtx s fun c =>
    let z := maskOf (c.role.all.filter (fun l => (c.role.preg p l).2 == .Z))
    let s := if z = 0 then s else s.poisonCur z
    match s.ctx? with
    | none => s
    | some c =>
      if z != 0 && c.role.over then s
      else if 32 ≤ c.role.div.length then s.trapCur .divStack 0 c.role.mask
      else s.modCur (fun r => r.branch p target join)

/-- What JOIN does with the top entry (R128). -/
def Role.joinTop (r : Role) : Role :=
  match r.div with
  | [] => r
  | e :: t =>
    if !e.phase && e.mask &&& ~~~e.taken != 0 then
      { (r.jump e.falloff) with div := { e with phase := true } :: t, mask := e.mask &&& ~~~e.taken }
    else { (r.jump e.joinoff) with div := t, mask := e.mask }
/-- JOIN (R128, R130, R152). -/
def execJoin (s : State) : Out :=
  withCtx s fun c =>
    if c.role.div.isEmpty then s.trapCur .divStack 1 c.role.mask else s.modCur Role.joinTop

/-- BRX (R147, R153). -/
def execBrx (a : BitVec 7) (s : State) : Out :=
  withControl s a fun c v => if regTargetOk v then s.modCur (fun r => r.jump (v.setWidth 32)) else s.badTarget c

/-- CALL's effect (R146, R154). -/
def State.callTo (s : State) (c : Ctx) (target : BitVec 32) : State :=
  if 16 ≤ c.role.ret.length then s.trapCur .callStack 0 c.role.mask
  else s.modCur (fun r => { (r.jump target) with ret := { off := r.fallOff, depth := r.div.length } :: r.ret })
/-- CALL (R154). -/
def execCall (target : BitVec 32) (s : State) : Out := withCtx s fun c => s.callTo c target
/-- CALL through a register (R147, R154). -/
def execCallInd (a : BitVec 7) (s : State) : Out :=
  withControl s a fun c v => if regTargetOk v then s.callTo c (v.setWidth 32) else s.badTarget c
/-- RET (R146, R155). -/
def execRet (s : State) : Out :=
  withCtx s fun c =>
    match c.role.ret with
    | [] => s.trapCur .callStack 1 c.role.mask
    | e :: t =>
      if e.depth != c.role.div.length then s.trapCur .callStack 2 c.role.mask
      else s.modCur (fun r => { (r.jump e.off) with ret := t })
/-- LOOP (R147, R156). -/
def execLoop (a : BitVec 7) (target : BitVec 32) (s : State) : Out :=
  withControl s a fun _ v =>
    if v = 0 then s
    else
      let s := s.putS a (v - 1) .S
      if v = 1 then s else s.modCur (fun r => r.jump target)

/-- EXIT's effect on the role: the lanes leave; an empty mask over a stack with lanes acts as JOIN (R157, steps 2 to 4).
DESIGN CHOICE (log 49): it acts as JOIN once, and goes on at JOINOFF with an empty mask when that pops one. -/
def Role.exitLanes (r : Role) (m : Mask) : Role :=
  let r := Role.freeDead { r.dropLanes m with exited := r.exited ||| m }
  if r.mask == 0 && !r.empty then r.joinTop else r
/-- EXIT (R157). The EXIT that ends its role waits until the role's outstanding instructions have completed. -/
def execExit (g : Guard) (s : State) : Out :=
  withCtx s fun c =>
    match s.deliver c.role true (maskOf (c.role.live g)) with
    | some s => s
    | none =>
      let z := c.role.kills g false (fun _ => false)
      let s := if z = 0 then s else s.poisonCur z
      match s.ctx? with
      | none => s
      | some c =>
        let m := maskOf (c.role.live g)
        if z != 0 && c.role.over then s
        else if (c.role.dropLanes m).empty && s.outstanding then s.parkCur .earlier
        else (s.modCur (fun r => r.exitLanes m)).settleCur

/-- YIELD (R158). -/
def execYield (s : State) : Out := withCtx s fun _ => s.modCur (fun r => { r with yielded := true })

/-! System entries. -/

/-- TRAP (R420): with no live lane it has no effect. -/
def execTrap (g : Guard) (n : BitVec 8) (s : State) : Out :=
  withLanes s g (fun _ => false) (fun _ _ => false) fun _ s ls =>
    if ls.isEmpty then s else s.trapAfter .user (n.setWidth 64) (maskOf ls)

/-- TRET (R421): the checks end the team from inside the handler (R406). -/
def execTret (s : State) : Out :=
  withCtx s fun c =>
    match c.role.entry with
    | none => s.trapCur .priv 0 c.role.mask
    | some e =>
      if c.role.div.length != e.divDepth || c.role.ret.length != e.retDepth then s.trapCur .callStack 3 c.role.mask
      else if e.pcw && c.role.trap.pc.extractLsb' 0 2 != (0 : BitVec 2) then s.badTarget c
      else s.trapReturn e

/-- PCHK (R410, R412, R422): the role stops here when a pre-emption of its team has been requested. -/
def execPchk (s : State) : Out :=
  withCtx s fun c =>
    if c.team.phase == .stopping && c.role.stop.isNone && !c.team.gangHeld s.cur.role then
      s.modCur (fun r => r.stopAs .next)
    else s

/-- Clear the last-page registers of every resident lane of a partition (R226). -/
def State.sweepLanes (s : State) (pp : Nat) : State :=
  { s with teams := s.teams.map (fun e =>
      if e.2.part == pp then (e.1, { e.2 with roles := e.2.roles.map (fun r => { r with lastPage := [] }) }) else e) }
/-- Remove a partition's cached translations whose page meets [lo, lo + n), and sweep (R226, R423). -/
def State.invalidate (s : State) (pp lo n : Nat) : State :=
  (s.modPart pp (fun p => { p with tlb := p.tlb.filter (fun x => !(x.va < lo + n && lo < x.va + x.size)) })).sweepLanes pp
/-- TLBI (R423); it then orders as FENCE.FULL at PART scope. -/
def execTlbi (range : Option (BitVec 7 × BitVec 32)) (s : State) : Out :=
  match range with
  | none => withCtx s fun c => (s.invalidate c.team.part 0 (2 ^ 64)).fenceOrder .full .part
  | some (a, n) =>
    withScalars s [a] fun c =>
      let x := c.role.sreg a
      let lo := x.val.toNat
      if lo % 65536 != 0 || 2 ^ 56 < lo + 65536 * n.toNat then s.trap s.cur .prot x c.role.mask false
      else (s.invalidate c.team.part lo (65536 * n.toNat)).fenceOrder .full .part

/-- LPSW: in every role that a launch starts it raises PRIV (R424). -/
def execLpsw (s : State) : Out := withCtx s fun c => s.trapCur .priv 0 c.role.mask

/-- An opcode that is not assigned, or a header in an instruction slot: ILLEGAL_ENC with cause 1 or 2 (R86, R99, R113). -/
def execReservedOpcode (header : Bool) (s : State) : Out :=
  withCtx s fun c => s.trapCur .illegalEnc (if header then 2 else 1) c.role.mask

end Sys2Proof.Machine
end

