-- ==== Sys2Proof/Machine/Cross.lean ====
section
/-!
DEFINITION. The cross-lane instructions (R165, R167 to R171) and those of the conversions that gather over lanes (R213,
R214), with the other conversions and RAND (R210 to R212, R215).
-/
namespace Sys2Proof.Machine

/-! SGET and SHFL move lanes (R165, R168). -/

/-- SGET (R165): it consumes no Z. -/
def execSget (ty : Ty) (d : BitVec 7) (a : BitVec 8) (lane : LaneSel) (s : State) : Out :=
  withCtx s fun c =>
    let i : Nat × Standing := match lane with
      | .imm l => (l.toNat, .S)
      | .s r => ((c.role.sreg r).val.toNat, (c.role.sreg r).st)
    let v : SVal :=
      if i.1 < c.role.lanes && c.role.mask.getLsbD i.1 then c.role.vval ty.is64 a i.1 else { val := 0, st := .S }
    s.putS d v.val (match lane with
      | .imm _ => v.st
      | .s _ => joinSt v.st i.2)

/-- The source lane of SHFL and whether it is in range, for a contributor at lane l with value d (R168). -/
def shflSource (mode : ShflMode) (seg : Nat) (d : Word) (l : Nat) : Option Nat :=
  let n := 2 ^ seg
  let o := l % n
  let b := l - o
  match mode with
  | .pick => some (b + d.toNat % n)
  | .slide =>
    let z : Int := (o : Int) + d.toInt
    if 0 ≤ z && z < (n : Int) then some (b + z.toNat) else none
  | .rot => some (b + (o + d.toNat) % n)
  | .mirr => if d.toNat < n then some (b + (o ^^^ d.toNat)) else none

/-- SHFL (R168): it consumes no Z, not even in d. -/
def execShfl (g : Guard) (mode : ShflMode) (seg : BitVec 4) (ty : Ty) (d : BitVec 8) (a : VSrc) (b : Src)
    (fill : BitVec 32) (s : State) : Out :=
  withLanes s g (fun _ => false) (fun _ _ => false) fun c s ls =>
    s.putV g ((Opnd.reg ty (.v a.r a.last)).freed ++ (Opnd.reg .u32 b).freed) ty.is64 d (ls.map fun l =>
      let x := c.role.src .u32 b l
      let v : SVal := match shflSource mode seg.toNat (x.val.setWidth 32) l with
        | some k => if ls.contains k then c.role.vval ty.is64 a.r k else { val := fill.setWidth 64, st := .S }
        | none => { val := fill.setWidth 64, st := .S }
      (l, v.val, joinSt v.st x.st))

/-! Votes (R169, R170). -/

/-- VOTE (R169). -/
def execVote (g : Guard) (d : VoteDst) (a : BitVec 7) (s : State) : Out :=
  withLanes s g (fun _ => false) (fun r l => (r.preg a l).2 == .Z) fun c s ls =>
    let st := joinAll (ls.map (fun l => (c.role.preg a l).2))
    let on (l : Nat) : Bool := ls.contains l && (c.role.preg a l).1
    let word (k : Nat) : Nat := natOfBits (fun i => on (32 * k + i)) 32
    match d with
    | .all d => s.putP g [] d (ls.map (fun l => (l, ls.all on, st)))
    | .any d => s.putP g [] d (ls.map (fun l => (l, ls.any on, st)))
    | .word d => s.putV g [] false d (ls.map (fun l => (l, BitVec.ofNat 64 (word (l / 32)), st)))
    | .sum d =>
      let v := BitVec.ofNat 64 (natOfBits (fun k => word k != 0) 32)
      s.putV g [] false d (ls.map (fun l => (l, v, st)))
    | .count d =>
      let v := BitVec.ofNat 64 (ls.filter on).length
      s.putV g [] false d (ls.map (fun l => (l, v, st)))
/-- ELECT (R170). -/
def execElect (g : Guard) (d : BitVec 7) (a : BitVec 7) (s : State) : Out :=
  withLanes s g (fun _ => false) (fun r l => (r.preg a l).2 == .Z) fun c s ls =>
    let st := joinAll (ls.map (fun l => (c.role.preg a l).2))
    let e := ls.find? (fun l => (c.role.preg a l).1)
    s.putP g [] d (ls.map (fun l => (l, e == some l, st)))

/-! Reductions (R171). -/

/-- A leaf or node of the fixed trees; integers are kept exact until the end. -/
inductive RNode where
  | int (z : Int)
  | flt (b : Nat)
  deriving DecidableEq, Repr

/-- One node of the tree: x op y (R171). -/
def redOp (op : RedOp) (ty : Ty) (rm : Rnd) (x y : RNode) : RNode :=
  match x, y with
  | .flt a, .flt b =>
    let f := Fmt.ofTy ty
    .flt (match op with
      | .min => f.min a b
      | .max => f.max a b
      | _ => f.add rm a b)
  | .int a, .int b =>
    .int (match op with
      | .add => a + b
      | .min => if a ≤ b then a else b
      | .max => if a ≤ b then b else a
      | .and => readInt ty (BitVec.ofInt 64 a &&& BitVec.ofInt 64 b)
      | .or => readInt ty (BitVec.ofInt 64 a ||| BitVec.ofInt 64 b)
      | .xor => readInt ty (BitVec.ofInt 64 a ^^^ BitVec.ofInt 64 b))
  | x, _ => x
/-- comb: an absent side gives the other (R171). -/
def redComb (op : RedOp) (ty : Ty) (rm : Rnd) : Option RNode → Option RNode → Option RNode
  | none, y => y
  | x, none => x
  | some x, some y => some (redOp op ty rm x y)

/-- The identity of an operation (R167). -/
def redIdentity (op : RedOp) (ty : Ty) : DWord :=
  if ty.isFloat then
    let f := Fmt.ofTy ty
    match op with
    | .min => ofPattern f.inf
    | .max => ofPattern (f.withSign true f.inf)
    | _ => 0
  else match op with
    | .min => wrapInt ty (tyMax ty)
    | .max => wrapInt ty (tyMin ty)
    | .and => wrapInt ty (-1)
    | _ => 0
/-- A node's result: an integer is wrapped or saturated once, by SAT in the mode field, and a NaN is canonical (R171, R174). -/
def redValue (o : Red) (x : Option RNode) : DWord :=
  match x with
  | none => redIdentity o.op o.ty
  | some (.flt b) => let f := Fmt.ofTy o.ty; ofPattern (if f.isNan b then f.nan else b)
  | some (.int z) => intResult o.ty (o.op == .add && o.mode == .rz) z

/-- One level of REDUX's tree: pairs of neighbours. -/
def redPairs (f : Option RNode → Option RNode → Option RNode) : List (Option RNode) → List (Option RNode)
  | x :: y :: t => f x y :: redPairs f t
  | t => t
/-- REDUX's tree of ten levels. -/
def redTree (f : Option RNode → Option RNode → Option RNode) (xs : List (Option RNode)) : List (Option RNode) :=
  (List.range 10).foldl (fun xs _ => redPairs f xs) xs
/-- SCAN's ten steps with doubling distances. -/
def scanSteps (f : Option RNode → Option RNode → Option RNode) (xs : List (Option RNode)) : List (Option RNode) :=
  (List.range 10).foldl (fun xs t =>
    let d := 2 ^ t
    xs.take d ++ (List.zip xs (xs.drop d)).map (fun e => f e.1 e.2)) xs

/-- The leaf of a role lane that contributes. -/
def Role.redLeaf (r : Role) (ty : Ty) (a : VSrc) (ls : List Nat) (l : Nat) : Option RNode :=
  if ls.contains l then
    let v := (r.vval ty.is64 a.r l).val
    some (if ty.isFloat then .flt (floatBits ty v) else .int (readInt ty v))
  else none

/-- REDUX (R171). -/
def execRedux (o : Red) (d : BitVec 7) (s : State) : Out :=
  let x : Opnd := .reg o.ty (.v o.a.r o.a.last)
  withLanes s o.g (fun _ => false) (fun r l => r.laneZ [x] l) fun c s ls =>
    let leaves := (List.range 1024).map (c.role.redLeaf o.ty o.a ls)
    let v := (redTree (redComb o.op o.ty o.mode) leaves).head?.getD none
    let s := s.modCur (fun r => r.freeRows x.freed (groupsOf r.ngroups r.mask))
    s.putS d (redValue o v) (joinAll (ls.map (fun l => (c.role.opnd x l).st)))
/-- SCAN (R171). -/
def execScan (o : Red) (exc : Bool) (d : BitVec 8) (s : State) : Out :=
  let x : Opnd := .reg o.ty (.v o.a.r o.a.last)
  withLanes s o.g (fun _ => false) (fun r l => r.laneZ [x] l) fun c s ls =>
    let leaves := (List.range 1024).map (c.role.redLeaf o.ty o.a ls)
    let leaves := if exc then none :: leaves.take 1023 else leaves
    let vs := scanSteps (redComb o.op o.ty o.mode) leaves
    s.putV o.g x.freed o.ty.is64 d (ls.map fun l =>
      (l, redValue o (vs[l]?.getD none),
        joinAll ((ls.filter (fun k => if exc then k < l else k ≤ l)).map (fun k => (c.role.opnd x k).st))))

/-! Conversions (R210 to R215). -/

/-- CVT (R210). -/
def execCvt (g : Guard) (dty : Ty) (sty : Ty) (mode : Rnd) (d : BitVec 8) (a : Src) (s : State) : Out :=
  execVec g [.reg sty a] true (tySt dty) dty.is64 d (fun v => cvtVal dty sty mode (v 0)) s
/-- QNT (R211). -/
def execQnt (g : Guard) (sty : Ty) (rnd : Rnd) (d : BitVec 8) (a : Src) (b : Src) (s : State) : Out :=
  execVec g [.reg sty a, .reg .f32 b] true narrowSt false d (fun v => qntVal sty rnd (v 0) ((v 1).setWidth 32)) s
/-- DQNT (R212); w holds w − 1. -/
def execDqnt (g : Guard) (dty : Ty) (w : BitVec 3) (rnd : Rnd) (d : BitVec 8) (a : Src) (b : Src) (s : State) : Out :=
  execVec g [.reg .i8 a, .reg .f32 b] true narrowSt dty.is64 d
    (fun v => dqntVal dty (w.toNat + 1) rnd ((v 0).setWidth 8) ((v 1).setWidth 32)) s
/-- PLANE (R213): contributors at positions from 32 up keep vD. -/
def execPlane (g : Guard) (d : BitVec 8) (a : VSrc) (s : State) : Out :=
  let x : Opnd := .reg .bpi (.v a.r a.last)
  withLanes s g (fun _ => false) (fun r l => r.laneZ [x] l) fun c s ls =>
    s.putV g x.freed false d ((ls.filter (fun l => l % 128 < 32)).map fun l =>
      let code (p : Nat) : BitVec 8 :=
        let k := l / 128 * 128 + p
        if ls.contains k then (c.role.vreg a.r k).1.setWidth 8 else 0
      (l, (planeWord code (l % 128)).setWidth 64, .P))
/-- UNPLANE (R214); w holds w − 1. -/
def execUnplane (g : Guard) (w : BitVec 3) (d : BitVec 8) (a : VSrc) (s : State) : Out :=
  let x : Opnd := .reg .u32 (.v a.r a.last)
  withLanes s g (fun _ => false) (fun r l => l % 128 < 32 && r.laneZ [x] l) fun c s ls =>
    s.putV g x.freed false d (ls.map fun l =>
      let byte (i : Nat) : Byte :=
        let k := l / 128 * 128 + i / 4
        if ls.contains k then (c.role.vreg a.r k).1.extractLsb' (8 * (i % 4)) 8 else 0
      (l, BitVec.ofInt 64 (codeTop (w.toNat + 1) (planeCode byte (l % 128))), .P))
/-- RAND (R215). -/
def execRand (g : Guard) (ty : Ty) (d : BitVec 8) (a : Src) (b : Src) (s : State) : Out :=
  execVec g [.reg .u32 a, .reg .u32 b] true id ty.is64 d
    (fun v => randVal ty ((v 0).setWidth 32) ((v 1).setWidth 32)) s
/-- RAND with an immediate index (R215). -/
def execRandImm (g : Guard) (ty : Ty) (d : BitVec 8) (a : Src) (imm : BitVec 32) (s : State) : Out :=
  execVec g [.reg .u32 a, .imm (imm.setWidth 64)] true id ty.is64 d
    (fun v => randVal ty ((v 0).setWidth 32) ((v 1).setWidth 32)) s

end Sys2Proof.Machine
end

