-- ==== Sys2Proof/Machine/Nmc.lean ====
section
/-!
DEFINITION. Near-memory commands of the Sinter engine (R267 to R271, R309 to R313).
-/
namespace Sys2Proof.Machine

/-! Operations (R267). -/

/-- The new y (R267): the exact value rounded once in RN, and FMIN and FMAX for CLAMP. -/
def nmcVal (code : BitVec 4) (f64 : Bool) (p0 p1 y x w : Nat) : Nat :=
  let f := if f64 then Fmt.f64 else Fmt.f32
  let v := f.dec
  match code.toNat with
  | 0 => f.sumVal .rn ((v p0).mul (v x)) (v y)
  | 1 => f.sumVal .rn ((v p0).mul (v x)) ((v p1).mul (v y))
  | 2 => f.sumVal .rn (v y) ((v p0).mul (addExact (v x) ((v p1).mul (v y)))).negate
  | 3 => f.sumVal .rn ((v x).mul (v w)) (v y)
  | 4 => f.min (f.max y p0) p1
  | _ => p0

/-! Issue (R268, R309 to R311). -/

/-- A command's fields before its checks. -/
structure NmcReq where
  code : BitVec 4
  f64 : Bool
  n : Nat
  y : DWord
  x : DWord
  w : DWord
  p0 : DWord
  p1 : DWord
  recAddr : DWord
  deriving DecidableEq, Repr
def NmcReq.bytes (q : NmcReq) : Nat := q.n * (if q.f64 then 8 else 4)
/-- The vectors that an operation reaches, Y first. -/
def NmcReq.vecs (q : NmcReq) : List DWord :=
  let u := nmcUse q.code
  [q.y] ++ (if u.x then [q.x] else []) ++ (if u.w then [q.w] else [])
/-- Cause 5 of R268: something unused is not 0, or an FP32 scalar has upper bits. -/
def NmcReq.unusedSet (q : NmcReq) : Bool :=
  let u := nmcUse q.code
  let hi (v : DWord) : Bool := !q.f64 && v.extractLsb' 32 32 != (0 : BitVec 32)
  (!u.x && q.x != 0) || (!u.w && q.w != 0) || (!u.p0 && q.p0 != 0) || (!u.p1 && q.p1 != 0) || hi q.p0 || hi q.p1
/-- Cause 4 of R268: Y overlaps X or W without being the same range. -/
def NmcReq.overlaps (q : NmcReq) : Bool :=
  (q.vecs.drop 1).any (fun v => v != q.y && v.toNat < q.y.toNat + q.bytes && q.y.toNat < v.toNat + q.bytes)
/-- Does an operand page break cause 3 of R268: CMP, RP, or in the aperture range? -/
def Part.nmcBadPage (p : Part) (x : Xl) (va : Nat) : Bool :=
  let a := pteAddr x.entry + (va - x.va)
  let w := p.cwin (a / bulkSpan)
  pteCmp x.entry || pteRp x.entry || (w.2.1 ≤ a % bulkSpan && a % bulkSpan < w.2.1 + w.2.2)
/-- The logical bulkhead of each page of the vectors; none where a page lies outside the partition's stacks. -/
def NmcReq.homes (q : NmcReq) (xls : List Hit) : List (Option Nat) :=
  q.vecs.flatMap (fun v => (pagesOf q.bytes [v.toNat]).map (fun g =>
    match hitAt xls (g * 65536) with
    | some h =>
      if pteTier h.x.entry ≤ 1 && h.via.isNone then some ((pteAddr h.x.entry + (h.va - h.x.va)) / bulkSpan) else none
    | none => none))
/-- NMC_ERROR's cause after translation (R268). -/
def NmcReq.cause (q : NmcReq) (p : Part) (xls : List Hit) : Option DWord :=
  match q.homes xls with
  | [] => some 1
  | h :: t =>
    if h.isNone || t.any (fun k => k != h) then some 1
    else if q.vecs.any (fun v => (pagesOf q.bytes [v.toNat]).any (fun g =>
        match hitAt xls (g * 65536) with | some h => p.nmcBadPage h.x h.va | none => true)) then some 3
    else if q.overlaps then some 4
    else none
/-- A command's ranges (R269, R311). -/
def NmcReq.locks (q : NmcReq) : List Lock :=
  let r (kind : LockKind) (v : DWord) (n : Nat) : Lock := lockOf .g kind v.toNat (v.toNat + n)
  r .write q.y q.bytes :: (q.vecs.drop 1).map (fun v => r .read v q.bytes) ++ [r .write q.recAddr 32]
/-- The commands queued at a physical bulkhead's stack. -/
def State.nmcAt (s : State) (b : Nat) : List (Nat × EngOp) :=
  s.ops.filter (fun e => match e.2.kind with | .nmc k => k.bulk == b | _ => false)
/-- Commands that the Sinter engine queues (R267). -/
abbrev nmcRoom : Nat := 64

/-- NMC (R309 to R311). -/
def execNmc (code : BitVec 4) (o : NmcOps) (s : State) : Out :=
  let regs := (List.range 6).map (fun k => o.a + BitVec.ofNat 7 k)
  withScalars s regs fun c =>
    let v (k : Nat) : DWord := (c.role.sreg (o.a + BitVec.ofNat 7 k)).val
    let q : NmcReq :=
      { code := code, f64 := o.f64, n := o.n.toNat, y := v 0, x := v 1, w := v 2, p0 := v 3, p1 := v 4, recAddr := v 5 }
    let es := if o.f64 then 8 else 4
    if q.unusedSet then s.trapCur .nmcError 5 c.role.mask
    else if q.vecs.any (fun a => a.toNat % es != 0) || q.recAddr.toNat % 32 != 0 then s.trapCur .align 0 c.role.mask
    else
      let walk (w : Walked) (need : Need) (a : DWord) (n : Nat) : Walked :=
        (pagesOf n [a.toNat]).foldl (fun w g => w.page c need g) w
      let w := walk (walk (Walked.start s) Need.write q.y q.bytes) Need.write q.recAddr 32
      let w := (q.vecs.drop 1).foldl (fun w a => walk w Need.read a q.bytes) w
      let s := w.s
      if w.prot then s.trapCur .prot 0 c.role.mask
      else if w.window then s.trapCur .window 0 c.role.mask
      else match w.wait with
      | some k => s.parkAt k
      | none =>
        match q.cause c.part w.xls with
        | some n => s.trapCur .nmcError n c.role.mask
        | none =>
          let b := c.part.bulkOf (((q.homes w.xls).head?.getD none).getD 0)
          if nmcRoom ≤ (s.nmcAt b).length then s.parkCur .nmcQueue
          else if !s.lockRoom s.cur.team q.locks then s.parkCur .ranges
          else
            let k : NmcOp :=
              { serial := c.role.nmcCount, sstand := markSt c.role.taint (joinAll (regs.map (fun r => (c.role.sreg r).st))),
                f64 := o.f64, code := code, n := q.n, recAddr := q.recAddr, p1 := q.p1, p0 := q.p0, w := q.w, x := q.x,
                y := q.y, bulk := b, xls := w.xls, nerr := 0, firstErr := 0xFFFFFFFF, lost := false }
            ((s.addOp
              { owner := s.cur, part := c.team.part, flag := c.role.flagOf o.fs, locks := q.locks, batches := [],
                started := false, moved := false, err := none, struck := none, kind := .nmc k }).modCur
                (fun r => { r with nmcCount := r.nmcCount + 1 })).lanesDone
def execNmcAxpy (o : NmcOps) (s : State) : Out := execNmc 0 o s
def execNmcScale (o : NmcOps) (s : State) : Out := execNmc 1 o s
def execNmcFade (o : NmcOps) (s : State) : Out := execNmc 2 o s
def execNmcFma (o : NmcOps) (s : State) : Out := execNmc 3 o s
def execNmcClamp (o : NmcOps) (s : State) : Out := execNmc 4 o s
def execNmcFill (o : NmcOps) (s : State) : Out := execNmc 5 o s

/-! The engine (R269, R270, R312). -/

/-- Must a command wait for its stack's order (R269): an earlier command has not started, or is uncompleted and conflicts? -/
def State.nmcBehind (s : State) (id : Nat) (o : EngOp) (k : NmcOp) : Bool :=
  (s.nmcAt k.bulk).any (fun e => e.1 < id &&
    (!e.2.started || (e.2.part == o.part && o.locks.any (fun a => e.2.locks.any (fun b => a.clash b)))))
/-- Write n bytes of one sector for an engine operation at tag 0; unit tells that it covers the sector's whole unit. True tells that the place is lost (R236). -/
def State.engWrite (s : State) (o : EngOp) (xls : List Hit) (unit : Bool) (va n v : Nat) (st : Standing) : State × Bool :=
  match hitAt xls va with
  | none => (s, true)
  | some h => if s.lostAt o.err true h then (s, true) else (s.engStore o h 0 unit n v st, false)

/-- What a run of a command has gathered: each element's value and state, the errors and the lowest errored index. -/
structure NmcRun where
  s : State
  ys : List (Nat × Standing)
  nerr : Nat
  first : BitVec 32
  deriving DecidableEq, Repr
/-- Compute element i (R267, R270); an errored element is the canonical NaN in state Z (R427). -/
def NmcRun.elem (g : NmcRun) (o : EngOp) (k : NmcOp) (i : Nat) : NmcRun :=
  let es := if k.f64 then 8 else 4
  let u := nmcUse k.code
  let rd (s : State) (use : Bool) (a : DWord) : State × Nat × List Standing :=
    if use then
      let r := s.engRead o k.xls es 0 (a.toNat + i * es) es
      (r.1, r.2.1, [r.2.2])
    else (s, 0, [])
  let y := rd g.s (k.code != 5) k.y
  let x := rd y.1 u.x k.x
  let w := rd x.1 u.w k.w
  if (y.2.2 ++ x.2.2 ++ w.2.2).contains .Z then
    { s := w.1, ys := g.ys ++ [((if k.f64 then Fmt.f64 else Fmt.f32).nan, .Z)], nerr := g.nerr + 1, first := if g.nerr = 0 then BitVec.ofNat 32 i else g.first }
  else
    let v := nmcVal k.code k.f64 k.p0.toNat k.p1.toNat y.2.1 x.2.1 w.2.1
    { g with s := w.1, ys := g.ys ++ [(v, joinAll (y.2.2 ++ x.2.2 ++ w.2.2 ++ [k.sstand]))] }
/-- Write the elements, sector by sector: a sector that Y covers whole takes the join of its elements (R142, R270). -/
def State.nmcWrite (s : State) (o : EngOp) (k : NmcOp) (ys : List (Nat × Standing)) : State × Bool :=
  let es := if k.f64 then 8 else 4
  let all := ((List.range ys.length).zip ys).map (fun e => (k.y.toNat + e.1 * es, e.2))
  let secs := (all.map (fun e => e.1 / 32)).eraseDups
  secs.foldl (fun g sec =>
    let es' := all.filter (fun e => e.1 / 32 == sec)
    let lo := (es'.head?.map Prod.fst).getD 0
    let n := es'.length * es
    let v := (es'.map (fun e => e.2.1 * 2 ^ (8 * (e.1 - lo)))).sum
    let unit := k.y.toNat ≤ sec / 2 * 64 && sec / 2 * 64 + 64 ≤ k.y.toNat + all.length * es
    let r := g.1.engWrite o k.xls unit lo n v (joinAll (es'.map (fun e => e.2.2)))
    (r.1, g.2 || r.2)) (s, false)
/-- NMC_START (R269, R270). -/
def execNmcStart (op : Nat) (s : State) : Out :=
  .next (match s.op? op with
    | some o =>
      match o.kind with
      | .nmc k =>
        if o.started || s.behind op o || s.nmcBehind op o k then s
        else s.startOp op o fun s =>
          let g0 : NmcRun := { s := s, ys := [], nerr := 0, first := 0xFFFFFFFF }
          let g := (List.range k.n).foldl (fun g i => g.elem o k i) g0
          let w := g.s.nmcWrite o k g.ys
          let k2 : NmcOp := { k with nerr := g.nerr, firstErr := g.first, lost := w.2 }
          w.1.modOp op (fun o => { o with started := true, moved := true, kind := .nmc k2 })
      | _ => s
    | none => s)

/-- A completion record (R312). -/
def nmcRecord (k : NmcOp) (status : Nat) : Nat :=
  status + 2 ^ 7 + (if k.f64 then 2 ^ 8 else 0) + k.code.toNat * 2 ^ 12 + k.n * 2 ^ 64 + k.firstErr.toNat * 2 ^ 96 +
  k.nerr * 2 ^ 128 + k.serial.toNat * 2 ^ 160 + k.y.toNat * 2 ^ 192
/-- NMC_COMPLETE (R271, R312): the record is written, settled, and a status other than 0 stays to be reported (R313). -/
def execNmcComplete (op : Nat) (s : State) : Out :=
  .next (match s.op? op with
    | some o =>
      match o.kind with
      | .nmc k =>
        if !o.moved || s.engHeld o then s
        else
          let status := if k.lost then 2 else if k.nerr = 0 then 0 else 1
          let r := s.engWrite o k.xls false k.recAddr.toNat 32 (nmcRecord k status) .S
          let s := if k.lost || r.2 then r.1.defer o.owner .remoteGone 0 else r.1
          let s := if status = 0 then s
            else s.modRole o.owner (fun x => { x with nmcErr := some (match x.nmcErr with
              | some n => if n < k.serial then n else k.serial
              | none => k.serial) })
          (s.delOp op).flushAll
      | _ => s
    | none => s)

/-- NMWAIT (R313): a FENCE.ACQ of BULK or wider after it observes the commands (R271); it raises NMC_ERROR for the lowest command that is not yet reported, and reports them all. -/
def execNmwait (s : State) : Out :=
  withCtx s fun c =>
    if s.ops.any (fun e => e.2.owner == s.cur && (match e.2.kind with | .nmc _ => true | _ => false)) then s.parkCur .nmwait
    else
    let s := s.modCur (fun r => { r with nmAt := s.clock })
    match c.role.nmcErr with
    | none => s
    | some n =>
      (s.modCur (fun r => { r with nmcErr := none })).trapAfter .nmcError (n.setWidth 64 ||| (1 <<< 32)) c.role.mask

end Sys2Proof.Machine
end

