-- ==== Sys2Proof/Machine/Matrix.lean ====
section
/-!
DEFINITION. The matrix engine: tiles and operands (R314 to R318), the checks and the issue of MMA, MMAR, MZERO, MINIT and
MDRAIN (R319, R321, R331 to R336), what an operation computes (R175 to R182, R332, R333), gangs (R326, R337), batches (R327,
R338), suspension (R328, R329, R339, R340), the code table (R330, R341) and OBREL (R342).
-/
namespace Sys2Proof.Machine

/-! Tiles (R314). -/

/-- A tile: rows, columns, the depth of a K-group, and the bytes of an operand and of an accumulator element. -/
structure Tile where
  m : Nat
  n : Nat
  d : Nat
  s : Nat
  e : Nat
  deriving DecidableEq, Repr
def tileOf (fmt : Ty) (ct : Bool) : Tile :=
  match fmt with
  | .f64 => { m := 32, n := 32, d := 8, s := 8, e := 16 }
  | .f32 => { m := 32, n := 64, d := 8, s := 4, e := 16 }
  | .bpi => { m := 64, n := 128, d := 32, s := 1, e := if ct then 8 else 4 }
  | _ => { m := 64, n := 64, d := 16, s := 2, e := 8 }
/-- The format of a float accumulator (R175, R176). -/
def accFmt : Ty → Fmt
  | .f64 | .f32 => Fmt.w128
  | _ => Fmt.f64
/-- Is the accumulator I32? -/
def accInt (fmt : Ty) (ct : Bool) : Bool := fmt == .bpi && !ct
def Tile.rows (t : Tile) (isA : Bool) : Nat := if isA then t.m else t.n
/-- Registers of an element: two for F64 (R315). -/
def Tile.q (t : Tile) : Nat := if t.s = 8 then 2 else 1
abbrev at256 (u : BitVec 11) : Nat := 256 * u.toNat
/-- The bytes of an accumulator. -/
def Tile.accBytes (t : Tile) : Nat := t.m * t.n * t.e

/-! Operands (R315 to R318). -/

abbrev dBase (d : DWord) : Nat := (d.extractLsb' 0 32).toNat
abbrev dRp (d : DWord) : Nat := (d.extractLsb' 32 16).toNat
abbrev dTp (d : DWord) : Nat := (d.extractLsb' 48 16).toNat
abbrev dRot (d : DWord) : Nat := (d.extractLsb' 0 4).toNat
/-- The address of element (r, k) of a scratch operand (R316). -/
def scrAddr (t : Tile) (d0 d1 : DWord) (tr : Bool) (r k : Nat) : Nat :=
  let g := k / t.d
  if tr then dBase d0 + g * dTp d0 + k % t.d * dRp d0 + r * t.s
  else dBase d0 + g * dTp d0 + r * dRp d0 + ((k % t.d * t.s) ^^^ (16 * (r % 2 ^ dRot d1)))
/-- The address of element (r, k) in its buffer, for a K of kk (R317). -/
def bufAddr (t : Tile) (off : BitVec 7) (tr : Bool) (rows kk r k : Nat) : Nat :=
  256 * off.toNat + (if tr then k * rows + r else r * kk + k) * t.s

/-- PROT's condition: a reserved bit of the descriptor (R333). -/
def MOpnd.prot : MOpnd → Bool
  | .scr _ d1 _ => d1.extractLsb' 32 32 != (0 : BitVec 32) || d1.extractLsb' 4 12 != (0 : BitVec 12)
  | _ => false
/-- The bytes of scratch that an operand reads, whole blocks for BPI codes (R180, R276). -/
def MOpnd.range (t : Tile) (isA bpi : Bool) (groups : Nat) : MOpnd → Option (Nat × Nat)
  | .scr d0 _ tr =>
    let rows := t.rows isA
    let hi := dBase d0 + (groups - 1) * dTp d0 +
      (if tr then (t.d - 1) * dRp d0 + rows * t.s else (rows - 1) * dRp d0 + t.d * t.s)
    some (if bpi && isA then (dBase d0 / 128 * 128, (hi + 127) / 128 * 128) else (dBase d0, hi))
  | _ => none
/-- The causes of MMA_SHAPE of an operand (R334). -/
def MOpnd.shape (t : Tile) (isA bpi : Bool) (groups : Nat) : MOpnd → List Nat
  | .regs _ => []
  | .scr d0 d1 tr =>
    (if (tr && dRot d1 != 0) || t.d * t.s < 16 * 2 ^ dRot d1 then [4] else []) ++
    (if bpi && isA && (dBase d0 % 32 != 0 || dRp d0 % 32 != 0 || dTp d0 % 32 != 0) then [6] else [])
  | .buf _ off _ _ => if obBytes < 256 * off.toNat + t.rows isA * (groups * t.d) * t.s then [3] else []
/-- Is an element address of a scratch operand misaligned (R316)? -/
def MOpnd.misaligned (t : Tile) (groups : Nat) : MOpnd → Bool
  | .scr d0 _ _ => dBase d0 % t.s != 0 || dRp d0 % t.s != 0 || (1 < groups && dTp d0 % t.s != 0)
  | _ => false
/-- The causes of a register operand (R315, R334). -/
def regShape (r : Role) (t : Tile) (isA : Bool) (groups : Nat) : MSrc → List Nat
  | .reg n _ =>
    (if 255 < n.toNat + groups * t.d * t.q - 1 then [1] else []) ++ (if r.lanes < t.rows isA then [2] else [])
  | _ => []
/-- The descriptor registers of a source. -/
def srcDescs : MSrc → List (BitVec 7)
  | .scr n _ => [n, n + 1]
  | _ => []
/-- A source without its registers' values and its buffer's generation. -/
def srcOpnd (r : Role) : MSrc → MOpnd
  | .reg _ _ => .regs []
  | .scr n tr => .scr (r.sreg n).val (r.sreg (n + 1)).val tr
  | .buf n off tr => .buf n off 0 tr
def srcIsBuf : MSrc → Bool
  | .buf _ _ _ => true
  | _ => false
def srcIsReg : MSrc → Bool
  | .reg _ _ => true
  | _ => false

/-- The elements of a row of a register operand that lie in v0 to v255 (R315). -/
def Role.regRow (r : Role) (t : Tile) (groups : Nat) (n : BitVec 8) (l : Nat) : List SVal :=
  ((List.range (groups * t.d)).filter (fun k => n.toNat + (k + 1) * t.q - 1 ≤ 255)).map (fun k =>
    r.vval (t.q == 2) (n + BitVec.ofNat 8 (k * t.q)) l)
/-- The lanes that a register operand kills (R315). -/
def Role.regKills (r : Role) (t : Tile) (isA : Bool) (groups : Nat) : MSrc → Mask
  | .reg n _ => maskOf ((List.range (min (t.rows isA) r.lanes)).filter (fun l =>
      !(r.dead ||| r.off ||| r.exited).getLsbD l && (r.regRow t groups n l).any (fun x => x.st == .Z)))
  | _ => 0
/-- The values of a register operand, row by row; a dead lane reads +0 in P (R315). -/
def Role.regVals (r : Role) (t : Tile) (isA : Bool) (groups : Nat) (n : BitVec 8) : List SVal :=
  (List.range (t.rows isA)).flatMap (fun l =>
    let row := r.regRow t groups n l
    if (r.dead ||| r.off).getLsbD l || row.any (fun x => x.st == .Z) then row.map (fun _ => { val := 0, st := .P })
    else row)
/-- The registers whose rows a marked source frees (R315). -/
def srcFrees (t : Tile) (groups : Nat) : MSrc → List (BitVec 8)
  | .reg n true => (List.range (groups * t.d * t.q)).map (fun k => n + BitVec.ofNat 8 k)
  | _ => []

/-! A tile operation that is asked for. -/

/-- An MMA or MMAR before its checks; b0 is the whole offset of B0 in sD (R333). -/
structure MReq where
  kind : MKind
  fmt : Ty
  ct : Bool
  w : BitVec 3
  groups : Nat
  acc : BitVec 11
  sa : MSrc
  sb : MSrc
  a : MOpnd
  b : MOpnd
  b0 : Nat := 0
  deriving DecidableEq, Repr
def MReq.tile (q : MReq) : Tile := tileOf q.fmt q.ct
def MReq.bpi (q : MReq) : Bool := q.fmt == .bpi
/-- The scratch ranges that an operation reads: A, B and B0. -/
def MReq.reads (q : MReq) : List (Nat × Nat) :=
  (q.a.range q.tile true q.bpi q.groups).toList ++ (q.b.range q.tile false q.bpi q.groups).toList ++
  (match q.kind with | .mmar true _ => [(q.b0, q.b0 + 8 * (q.tile.m * q.tile.n))] | _ => [])
def MReq.accRange (q : MReq) : Nat × Nat := (at256 q.acc, at256 q.acc + q.tile.accBytes)
/-- Do two ranges of bytes overlap? -/
def overlap (a b : Nat × Nat) : Bool := a.1 < b.2 && b.1 < a.2
/-- The smallest element of a list. -/
def smallest : List Nat → Option Nat
  | [] => none
  | a :: t => some (match smallest t with | some b => min a b | none => a)
/-- The causes of MMA_SHAPE (R334). -/
def MReq.shape (q : MReq) (r : Role) : Option Nat :=
  smallest (regShape r q.tile true q.groups q.sa ++ regShape r q.tile false q.groups q.sb ++
    q.a.shape q.tile true q.bpi q.groups ++ q.b.shape q.tile false q.bpi q.groups ++
    (if q.ct && (!q.bpi || q.w != 3) then [5] else []) ++
    (if q.reads.any (fun x => overlap x q.accRange) then [7] else []))
/-- ALIGN and SCRATCH_RANGE (R333). -/
def MReq.place (q : MReq) (c : Ctx) : Option CopyBad :=
  let b0 := match q.kind with | .mmar true _ => q.b0 % 256 != 0 | _ => false
  if q.a.misaligned q.tile q.groups || q.b.misaligned q.tile q.groups || b0 then some (.trap .align 0)
  else if (q.accRange :: q.reads).any (fun x => decide (c.launch.scratch < x.2)) then some .off
  else none
/-- The checks of R333, in its order. -/
def MReq.check (q : MReq) (c : Ctx) : Option CopyBad :=
  if q.a.prot || q.b.prot then some (.trap .prot 0)
  else match q.shape c.role with
  | some n => some (.trap .mmaShape (BitVec.ofNat 64 n))
  | none => q.place c
/-- The read ranges of an operation, and with its accumulator all that it registers (R321). -/
def MReq.readLocks (q : MReq) : List Lock := q.reads.map (fun x => lockOf .t .read x.1 x.2)
def accLock (kind : LockKind) (t : Tile) (acc : BitVec 11) : Lock := lockOf .t kind (at256 acc) (at256 acc + t.accBytes)

/-- The bits of an instruction (R328). -/
def wordsOf (i : Instr) : DWord × DWord :=
  match encode i with
  | some w => (w.extractLsb' 0 64, w.extractLsb' 64 64)
  | none => (0, 0)

/-! Issue. -/

/-- An operand with its registers' values, or with the generation of its buffer. -/
def captureOpnd (c : Ctx) (t : Tile) (isA : Bool) (groups : Nat) (src : MSrc) (x : MOpnd) : MOpnd :=
  match src, x with
  | .reg n _, _ => .regs (c.role.regVals t isA groups n)
  | _, .buf n off _ tr => .buf n off ((c.team.ob.map (fun o => (o.gen n.toNat).gen)).getD 0) tr
  | _, x => x
/-- The piece of an operation that a role issues: what R315, R318, R324 and R330 read and latch. -/
def MReq.piece (q : MReq) (c : Ctx) (who : RoleRef) (sstand : Standing) : MPiece :=
  { role := who, a := captureOpnd c q.tile true q.groups q.sa q.a, b := captureOpnd c q.tile false q.groups q.sb q.b,
    groups := q.groups, done := 0, sstand := sstand, slot := if q.ct then some c.role.ctNew else none,
    table := if c.role.ctNew then c.role.ct1 else c.role.ct0, fenced := c.role.fencedAt }
/-- A reader latches the generation of a buffer that it reads, while it is the current one (R324). -/
def Team.latchOb (t : Team) (n : Nat) (g : BitVec 16) : Team :=
  { t with ob := t.ob.map (fun o =>
      { o with gens := lset o.gens n { o.gen n with latched := (o.gen n).latched || (o.gen n).gen == g } }) }
def Team.latchPiece (t : Team) (p : MPiece) : Team := p.bufs.foldl (fun t e => t.latchOb e.1 e.2) t
/-- Add a matrix operation of some roles: it joins their open batches and is their latest (R327). -/
def State.addMat (s : State) (owner : RoleRef) (part : Nat) (roles : List RoleRef) (locks : List Lock) (m : MOp)
    (struck : Option (Nat × Nat) := none) : State :=
  let batches := roles.map (fun r => (r, ((s.role? r).map Role.batch).getD 0 + 1))
  let id := s.nextOp
  let s := s.addOp
    { owner := owner, part := part, flag := none, locks := locks, batches := batches, started := false, moved := false,
      err := none, struck := struck, kind := .mat m }
  roles.foldl (fun s r => s.modRole r (fun x => { x with latest := some id })) s
/-- Free the rows of marked registers of a role (R135). -/
def Role.freeMarked (r : Role) (ns : List (BitVec 8)) : Role := r.freeRows ns (groupsOf r.ngroups r.mask)

/-- A gang of the issuing team. -/
def Team.gang (t : Team) (g : BitVec 2) : Gang := t.gangs[g.toNat]?.getD { roles := [], fills := [] }
def Team.setFills (t : Team) (g : BitVec 2) (fs : List (Nat × GangFill)) : Team :=
  { t with gangs := lset t.gangs g.toNat { t.gang g with fills := fs } }
/-- The entries of a role in a gang's list that are not filled. -/
def Gang.unfilled (k : Gang) (r : Nat) : List Nat :=
  (List.range k.roles.length).filter (fun e => k.roles[e]?.map BitVec.toNat == some r && (tget k.fills e).isNone)
/-- The index of the first entry that differs from entry 0 (R326). -/
def gangDiffers (fs : List (Nat × GangFill)) : Option Nat :=
  match fs with
  | [] => none
  | (_, f) :: t => (t.find? (fun e => e.2.fmt != f.fmt || e.2.acc != f.acc || e.2.ct != f.ct || e.2.w != f.w)).map Prod.fst
/-- The members of a gang. -/
def Gang.members (k : Gang) : List Nat := (List.range 4).filter (fun r => k.roles.any (fun x => x.toNat == r))
/-- The joint operation of a filled gang. -/
def jointOp (fs : List (Nat × GangFill)) : Option MOp :=
  match fs with
  | [] => none
  | (_, f) :: _ => some
    { kind := .mma, fmt := f.fmt, ct := f.ct, w := f.w, acc := f.acc, pieces := fs.map (fun e => e.2.piece), joint := true,
      word0 := f.word0, x64 := f.x64, sstand := .S }
/-- The scratch that a piece reads. -/
def MPiece.reads (p : MPiece) (t : Tile) (bpi : Bool) : List (Nat × Nat) :=
  (p.a.range t true bpi p.groups).toList ++ (p.b.range t false bpi p.groups).toList
def MOp.tile (m : MOp) : Tile := tileOf m.fmt m.ct
/-- The ranges of an MMA or MMAR. -/
def MOp.locks (m : MOp) : List Lock :=
  (m.pieces.flatMap (fun p => p.reads m.tile (m.fmt == .bpi))).map (fun x => lockOf .t .read x.1 x.2) ++
  (match m.kind with
    | .mmar true b0 => [lockOf .t .read b0.toNat (b0.toNat + 8 * (m.tile.m * m.tile.n))]
    | _ => []) ++ [accLock .write m.tile m.acc]
/-- Every listed role raises GANG_MISMATCH at its last MMA.J; the entries have had no effect (R326). -/
def State.gangMismatch (s : State) (g : BitVec 2) (k : Gang) (idx : Nat) : State :=
  let s := s.modTeam s.cur.team (fun t => t.setFills g [])
  let s := k.members.foldl (fun s r =>
    let who : RoleRef := { team := s.cur.team, role := r }
    match s.role? who with
    | some x => s.trap who .gangMismatch { val := BitVec.ofNat 64 idx, st := .S } x.mask false
    | none => s) s
  ((k.fills.flatMap (fun e => e.2.piece.bufs)).foldl (fun s e => s.obReaderDone s.cur.team e.1 e.2) s).flush s.cur.team
/-- A full gang fires: one joint operation, in every member's open batch; the members go on (R326). -/
def State.gangFire (s : State) (g : BitVec 2) (k : Gang) (m : MOp) : State :=
  let owner : RoleRef := { team := s.cur.team, role := ((k.roles.head?).map BitVec.toNat).getD 0 }
  let roles : List RoleRef := k.members.map (fun r => { team := s.cur.team, role := r })
  let part := ((s.team? s.cur.team).map Team.part).getD 0
  let s := s.modTeam s.cur.team (fun t => k.fills.foldl (fun t e => t.latchPiece e.2.piece) (t.setFills g []))
  let s := k.fills.foldl (fun s e => s.modRole e.2.piece.role (fun x => x.freeMarked e.2.frees)) s
  let s := roles.foldl (fun s r => s.modRole r (fun x => { x with park := none })) s
  s.addMat owner part roles m.locks m
/-- An MMA.J whose checks have passed (R326). -/
def State.joinGang (s : State) (c : Ctx) (q : MReq) (sstand : Standing) (i : Instr) (g : BitVec 2) : State :=
  let k := c.team.gang g
  match k.unfilled s.cur.role with
  | [] => s.trapCur .gangMismatch 0xFF c.role.mask
  | e :: rest =>
    let marked := srcFrees q.tile q.groups q.sa ++ srcFrees q.tile q.groups q.sb
    let f : GangFill :=
      { piece := q.piece c s.cur sstand, frees := if rest.isEmpty then marked else [], fmt := q.fmt, acc := q.acc,
        ct := q.ct, w := q.w, word0 := (wordsOf i).1, x64 := (wordsOf i).2 }
    let k2 : Gang := { k with fills := tset k.fills e f }
    let full := k2.fills.length == k2.roles.length
    let joint := if full && (gangDiffers k2.fills).isNone then jointOp k2.fills else none
    if (joint.map (fun m => !s.lockRoom s.cur.team m.locks)).getD false then s.parkCur .ranges
    else
      let s := s.modTeam s.cur.team (fun t =>
        (t.setFills g k2.fills).modRole s.cur.role (fun r =>
          if rest.isEmpty then { r with park := some (.gang g) } else r.freeMarked marked))
      match full, gangDiffers k2.fills, joint with
      | true, some n, _ => s.gangMismatch g k2 n
      | true, none, some m => s.gangFire g k2 m
      | _, _, _ => s

/-- An MMA or MMAR: the kills of register operands, the checks of R333, the buffers, and the issue. -/
def State.startMma (s : State) (q : MReq) (gang : Option (BitVec 2)) (i : Instr) : State :=
  match s.ctx? with
  | none => s
  | some c =>
    let m := c.role.regKills q.tile true q.groups q.sa ||| c.role.regKills q.tile false q.groups q.sb
    let s := if m = 0 then s else s.poisonCur m
    match s.ctx? with
    | none => s
    | some c =>
      if m != 0 && c.role.over then s
      else match q.check c with
      | some (.trap t a) => s.trapCur t a c.role.mask
      | some .off => s.offCur c.role.mask
      | none =>
        s.withOb (srcIsBuf q.sa || srcIsBuf q.sb) fun s =>
          match s.ctx? with
          | none => s
          | some c =>
            let sstand := markSt c.role.taint
              (joinAll ((srcDescs q.sa ++ srcDescs q.sb).map (fun n => (c.role.sreg n).st)))
            match gang with
            | some g => s.joinGang c q sstand i g
            | none =>
              let p := q.piece c s.cur sstand
              let w := wordsOf i
              let op : MOp :=
                { kind := q.kind, fmt := q.fmt, ct := q.ct, w := q.w, acc := q.acc, pieces := [p], joint := false,
                  word0 := w.1, x64 := w.2, sstand := sstand }
              if !s.lockRoom s.cur.team op.locks then s.parkCur .ranges
              else
                (s.modTeam s.cur.team (fun t => (t.latchPiece p).modRole s.cur.role (fun r =>
                  r.freeMarked (srcFrees q.tile q.groups q.sa ++ srcFrees q.tile q.groups q.sb)))).addMat s.cur
                  c.team.part [s.cur] op.locks op

/-- MMA (R331, R332). -/
def execMma (o : MmaOps) (s : State) : Out :=
  withScalars s (srcDescs o.a ++ srcDescs o.b) fun c =>
    s.startMma { kind := .mma, fmt := o.fmt, ct := o.ct, w := o.w, groups := o.kg.toNat + 1, acc := o.acc, sa := o.a,
                 sb := o.b, a := srcOpnd c.role o.a, b := srcOpnd c.role o.b } o.gang (.mma o)
/-- The request of an MMAR. -/
def mmarReq (r : Role) (o : MmarOps) : MReq :=
  { kind := .mmar o.init ((r.sreg o.d).val.setWidth 32), fmt := .f64, ct := o.ct, w := 0, groups := o.kg.toNat + 1,
    acc := o.acc, sa := o.a, sb := o.b, a := srcOpnd r o.a, b := srcOpnd r o.b, b0 := (r.sreg o.d).val.toNat }
/-- MMAR (R331, R333). -/
def execMmar (o : MmarOps) (s : State) : Out :=
  withScalars s (srcDescs o.a ++ srcDescs o.b ++ [o.d]) fun c => s.startMma (mmarReq c.role o) none (.mmar o)

/-- Issue an operation that has no A and B. -/
def State.issuePlain (s : State) (c : Ctx) (kind : MKind) (fmt : Ty) (ct : Bool) (w : BitVec 3) (acc : BitVec 11)
    (shape : List Nat) (rd wr : Nat × Nat) (i : Instr) : State :=
  match smallest shape with
  | some n => s.trapCur .mmaShape (BitVec.ofNat 64 n) c.role.mask
  | none =>
    if c.launch.scratch < rd.2 || c.launch.scratch < wr.2 then s.offCur c.role.mask
    else
      let locks := (if rd.1 < rd.2 then [lockOf .t .read rd.1 rd.2] else []) ++ [lockOf .t .write wr.1 wr.2]
      s.withOb (match kind with | .mdrain _ => fmt == .bpi | _ => false) fun s =>
        if !s.lockRoom s.cur.team locks then s.parkCur .ranges
        else s.addMat s.cur c.team.part [s.cur] locks
          { kind := kind, fmt := fmt, ct := ct, w := w, acc := acc, pieces := [], joint := false, word0 := (wordsOf i).1,
            x64 := (wordsOf i).2, sstand := markSt c.role.taint .S }
/-- CT with a format other than BPI (R334). -/
def ctShape (fmt : Ty) (ct : Bool) : List Nat := if ct && fmt != .bpi then [5] else []
/-- MZERO (R335). -/
def execMzero (fmt : Ty) (ct : Bool) (acc : BitVec 11) (s : State) : Out :=
  withCtx s fun c =>
    s.issuePlain c .mzero fmt ct 0 acc (ctShape fmt ct) (0, 0) (at256 acc, at256 acc + (tileOf fmt ct).accBytes)
      (.mzero fmt ct acc)
/-- MINIT (R335). -/
def execMinit (fmt : Ty) (ct : Bool) (acc : BitVec 11) (src : BitVec 11) (s : State) : Out :=
  withCtx s fun c =>
    let t := tileOf fmt ct
    let rd := (at256 src, at256 src + 8 * (t.m * t.n))
    let wr := (at256 acc, at256 acc + t.accBytes)
    s.issuePlain c (.minit src) fmt ct 0 acc (ctShape fmt ct ++ (if overlap rd wr then [7] else [])) rd wr
      (.minit fmt ct acc src)
/-- MDRAIN (R336). -/
def execMdrain (o : MdrainOps) (s : State) : Out :=
  withCtx s fun c =>
    let t := tileOf o.sf o.ct
    let bad8 := o.sf == .bpi && (o.row == 2 || 8191 < o.smoff.toNat + (if o.row == 1 then t.m - 1 else 0))
    s.issuePlain c (.mdrain o) o.sf o.ct o.w o.acc
      ((if o.ct && (o.sf != .bpi || o.w != 3) then [5] else []) ++ (if bad8 then [8] else []))
      (at256 o.acc, at256 o.acc + t.accBytes) (at256 o.dst, at256 o.dst + t.m * t.n * tyBytes o.dty) (.mdrain o)

/-! What an operation computes. -/

/-- A row of an operand: the bits of its elements for the groups that are applied, and the join of the elements it has left
to read (R318). -/
structure MLine where
  vals : List Nat
  st : Standing
  deriving DecidableEq, Repr
/-- One element of an operand: its bits and its standing. A BPI code is read from its block (R180). -/
def Team.mElem (tm : Team) (view : Option Memory) (t : Tile) (isA bpi : Bool) (groups : Nat) (x : MOpnd) (r k : Nat) :
    Nat × Standing :=
  let code (m : Memory) (a : Nat) : Nat × Standing :=
    let b := a / 128 * 128
    ((planeCode (fun i => m.rd (b + i)) (a % 128)).toNat, m.joinRange b 128)
  match x with
  | .regs vs =>
    let v := (vs[r * (groups * t.d) + k]?).getD { val := 0, st := .P }
    (v.val.toNat % 2 ^ (8 * t.s), v.st)
  | .scr d0 d1 tr =>
    let a := scrAddr t d0 d1 tr r k
    let m := view.getD tm.scratch
    if bpi && isA then code m a else (m.rdNat a t.s, m.st (a / 32))
  | .buf n off _ tr =>
    let a := obBytes * n.toNat + bufAddr t off tr (t.rows isA) (groups * t.d) r k
    match tm.ob with
    | some o => if bpi && isA then code o.mem a else (o.mem.rdNat a t.s, o.mem.st (a / 32))
    | none => (0, .Z)
/-- The rows of an operand: the values of groups done to done + n − 1, and the standing of those from done to the end. -/
def Team.mLines (tm : Team) (view : Option Memory) (t : Tile) (isA bpi : Bool) (groups done n : Nat) (x : MOpnd) : List MLine :=
  (List.range (t.rows isA)).map (fun r =>
    let es := (List.range ((groups - done) * t.d)).map (fun k => tm.mElem view t isA bpi groups x r (done * t.d + k))
    { vals := (es.take (n * t.d)).map Prod.fst, st := joinAll (es.map Prod.snd) })

/-- The exact value of a K-group's terms, with R177's rules for NaN, ∞ and zero, rounded once in RN. -/
def groupSum (f : Fmt) (acc : Nat) (terms : List FVal) : Nat := f.ofVal .rn (terms.foldl addExact (f.dec acc))
/-- An I32 group: the new accumulator, and whether the exact sum left its range (R176). -/
def groupInt (acc : Nat) (terms : List Int) : Nat × Bool :=
  let z := (BitVec.ofNat 32 acc).toInt + terms.sum
  ((BitVec.ofInt 32 z).toNat, decide (z < -(2 ^ 31)) || decide ((2 ^ 31 : Int) ≤ z))
/-- code_w of a code (R179). -/
def codeW (w : BitVec 3) (c : Nat) : Int := (BitVec.ofNat 8 c).toInt >>> (7 - w.toNat)
/-- The code-table entry that code_4 selects (R182). -/
def tableEntry (table : BitVec 256) (c : Int) : Nat := (table.extractLsb' (16 * (c % 16).toNat) 16).toNat
/-- A product of a float operation (R177, R182, R333: MMAR's are subtracted). -/
def mProd (m : MOp) (table : BitVec 256) (a b : Nat) : FVal :=
  match m.fmt with
  | .bpi =>
    let i := (BitVec.ofNat 8 b).toInt
    (Fmt.f16.dec (tableEntry table (codeW m.w a))).mul (.fin (decide (i < 0)) i.natAbs 0)
  | ty =>
    let p := ((Fmt.ofTy ty).dec a).mul ((Fmt.ofTy ty).dec b)
    match m.kind with
    | .mmar _ _ => p.negate
    | _ => p
def mProdInt (w : BitVec 3) (a b : Nat) : Int := codeW w a * (BitVec.ofNat 8 b).toInt
/-- Cut a list into groups of d. -/
def chunks {α : Type} (d : Nat) : Nat → List α → List (List α)
  | 0, _ => []
  | n + 1, l => l.take d :: chunks d n (l.drop d)

/-- A slice: the rows of one piece that are applied now. -/
structure Slice where
  groups : Nat
  table : BitVec 256
  sstand : Standing
  tableSt : Standing
  a : List MLine
  b : List MLine
  deriving DecidableEq, Repr
/-- The groups of an element over the slices, in order: the accumulator and the overflow (R177, R332). -/
def mAccum (m : MOp) (t : Tile) (xs : List (Slice × MLine × MLine)) (acc : Nat) : Nat × Bool :=
  xs.foldl (fun g x =>
    if accInt m.fmt m.ct then
      (chunks t.d x.1.groups (List.zipWith (mProdInt m.w) x.2.1.vals x.2.2.vals)).foldl (fun g c =>
        let r := groupInt g.1 c
        (r.1, g.2 || r.2)) g
    else
      ((chunks t.d x.1.groups (List.zipWith (mProd m x.1.table) x.2.1.vals x.2.2.vals)).foldl (fun g c =>
        groupSum (accFmt m.fmt) g c) g.1, g.2)) (acc, false)
/-- The standing of an element (R318, R332, R333); right is that of the accumulator or of B0. SSTAND joins as the taint does:
P or R gives P, S leaves the join as it is (R139, R318; DEDUCED, log entry 22). -/
def mStand (m : MOp) (xs : List (Slice × MLine × MLine)) (right : Standing) : Standing :=
  let sa := xs.map (fun x => x.2.1.st)
  let sb := xs.map (fun x => x.2.2.st)
  let ss := xs.map (fun x => x.1.sstand)
  let all := joinAll (right :: sa ++ sb ++ (if m.ct then xs.map (fun x => x.1.tableSt) else []))
  if all == .Z then .Z
  else if ss.any (fun x => x == .Z) then .Z
  else match m.kind with
  | .mmar _ _ =>
    if sa.all (fun x => x == .S) && (right == .S || right == .R) && sb.all (fun x => x == .S || x == .P) &&
        ss.all (fun x => x == .S) then .R
    else .P
  | _ =>
    match m.fmt with
    | .f64 | .f32 => if ss.any unsettled then .P else all
    | _ => .P

/-- Write the elements of a dense array, sector by sector, each with the join of its elements (R319). -/
def Memory.putSectors (m : Memory) (base e : Nat) : Nat → List (Nat × Standing) → Memory
  | 0, _ => m
  | n + 1, xs =>
    let c := xs.take (32 / e)
    let v := ((List.range c.length).zip c).map (fun x => x.2.1 % 2 ^ (8 * e) * 2 ^ (8 * e * x.1))
    Memory.putSectors ((m.wrNat base 32 v.sum).setSt (base / 32) (joinAll (c.map Prod.snd))) (base + 32) e n
      (xs.drop (32 / e))
def Memory.putDense (m : Memory) (base e : Nat) (xs : List (Nat × Standing)) : Memory :=
  m.putSectors base e (xs.length * e / 32) xs
/-- The elements of a dense array. -/
def Memory.getDense (m : Memory) (base e n : Nat) : List (Nat × Standing) :=
  (List.range n).map (fun x => (m.rdNat (base + x * e) e, m.st ((base + x * e) / 32)))

/-- Divide a number of groups over the pieces, in order: how many of each are applied now. -/
def shareGroups : Nat → List MPiece → List Nat
  | _, [] => []
  | n, p :: t => min n (p.groups - p.done) :: shareGroups (n - (p.groups - p.done)) t
/-- The accumulator as the next groups of an operation find it. The elements keep their own standing while their sector's state
is still the join that they have given it, so that where an operation is cut does not show (R329, R332). -/
def Team.accNow (tm : Team) (m : MOp) : List (Nat × Standing) :=
  let t := m.tile
  let old := tm.scratch.getDense (at256 m.acc) t.e (t.m * t.n)
  let per := 32 / t.e
  let joins := (chunks per (m.accSt.length / per) m.accSt).map joinAll
  ((List.range old.length).zip old).map (fun e =>
    match m.accSt[e.1]?, joins[e.1 / per]? with
    | some st, some j => if j == e.2.2 then (e.2.1, st) else e.2
    | _, _ => e.2)
/-- Apply n further groups of an MMA or MMAR (R326, R332, R333): the team, the operation and whether a group overflowed. -/
def Team.applyMma (tm : Team) (m : MOp) (n : Nat) : Team × MOp × Bool :=
  let t := m.tile
  let share := shareGroups n m.pieces
  let first := m.pieces.all (fun p => p.done == 0)
  let slices : List Slice := (m.pieces.zip share).map (fun e =>
    { groups := e.2, table := e.1.table.entries, sstand := e.1.sstand, tableSt := e.1.table.st,
      a := tm.mLines e.1.viewA t true (m.fmt == .bpi) e.1.groups e.1.done e.2 e.1.a,
      b := tm.mLines e.1.viewB t false (m.fmt == .bpi) e.1.groups e.1.done e.2 e.1.b })
  let old := tm.accNow m
  let b0 : Option (List (Nat × Standing)) := match m.kind, first with
    | .mmar true b, true => some (((m.src.getD tm.scratch).getDense b.toNat 8 (t.m * t.n)).map (fun x =>
        (Fmt.f64.convert Fmt.w128 .rn x.1, x.2)))
    | _, _ => none
  let start := b0.getD old
  let line (l : List MLine) (i : Nat) : MLine := l[i]?.getD { vals := [], st := .Z }
  let cells := (List.range t.m).flatMap (fun i => (List.range t.n).map (fun j =>
    let x := start[i * t.n + j]?.getD (0, .Z)
    let xs := slices.map (fun k => (k, line k.a i, line k.b j))
    let st := mStand m xs x.2
    if st == .Z then ((old[i * t.n + j]?.getD (0, .Z)).1, Standing.Z, false)
    else
      let r := mAccum m t xs x.1
      (r.1, st, r.2)))
  ({ tm with scratch := tm.scratch.putDense (at256 m.acc) t.e (cells.map (fun x => (x.1, x.2.1))) },
   { m with pieces := (m.pieces.zip share).map (fun e => { e.1 with done := e.1.done + e.2 })
            accSt := cells.map (fun x => x.2.1) },
   cells.any (fun x => x.2.2))

/-- A value of an accumulator (R319). -/
def accVal (fmt : Ty) (ct : Bool) (v : Nat) : FVal :=
  if accInt fmt ct then
    let z := (BitVec.ofNat 32 v).toInt
    .fin (decide (z < 0)) z.natAbs 0
  else (accFmt fmt).dec v
/-- MZERO, MINIT and MDRAIN (R335, R336). -/
def Team.applyPlain (tm : Team) (m : MOp) : Team :=
  let t := m.tile
  let count := t.m * t.n
  match m.kind with
  | .mzero => { tm with scratch := tm.scratch.putDense (at256 m.acc) t.e (List.replicate count (0, m.sstand)) }
  | .minit src =>
    let conv (v : Nat) : Nat :=
      if accInt m.fmt m.ct then ((floatToInt Fmt.f64 .i32 false v).setWidth 32).toNat
      else Fmt.f64.convert (accFmt m.fmt) .rn v
    let xs := ((m.src.getD tm.scratch).getDense (at256 src) 8 count).map (fun x => (conv x.1, markSt (unsettled m.sstand) x.2))
    { tm with scratch := tm.scratch.putDense (at256 m.acc) t.e xs }
  | .mdrain o =>
    let scale (i : Nat) : Nat × Standing :=
      let n := o.smoff.toNat + (if o.row == 1 then i else 0)
      match tm.ob with
      | some b => (b.scale.rdNat (4 * n) 4, b.scale.st n)
      | none => (0, .Z)
    let one (x : Nat) (v : Nat × Standing) : Nat × Standing :=
      let a := accVal m.fmt m.ct v.1
      let r : FVal × Standing :=
        if m.fmt == .bpi then
          let sc := scale (x / t.n)
          ((a.mul (Fmt.f32.dec sc.1)).mul (.fin false (if m.ct then 1 else 2 ^ (7 - o.w.toNat)) 0), joinSt v.2 sc.2)
        else (a, v.2)
      let st := markSt (unsettled m.sstand) r.2
      ((Fmt.ofTy o.dty).ofVal o.rnd r.1, if o.dty == .bf16 then joinSt st .P else st)
    let xs := tm.scratch.getDense (at256 m.acc) t.e count
    let ys := ((List.range count).zip xs).map (fun e => one e.1 e.2)
    { tm with scratch := tm.scratch.putDense (at256 o.dst) (tyBytes o.dty) ys }
  | _ => tm

/-- Does an operation go by groups? -/
def MKind.grouped : MKind → Bool
  | .mma | .mmar _ _ => true
  | _ => false
/-- Have all the groups been applied? -/
def MOp.finished (m : MOp) : Bool := m.pieces.all (fun p => p.groups ≤ p.done)
/-- May a matrix operation start: its ranges are free, the copies into its generations are complete and its team runs (R278,
R324)? -/
def State.matReady (s : State) (id : Nat) (o : EngOp) (m : MOp) : Bool :=
  let runs := ((s.team? o.owner.team).map (fun t => t.phase != .saved)).getD false
  let filled := m.bufs.all (fun e => !s.ops.any (fun x => x.2.owner.team == o.owner.team &&
    (match x.2.kind with
      | .copy k _ => (match k.dst with | .ob n _ g => n.toNat == e.1 && g == e.2 | _ => false)
      | _ => false)))
  runs && !o.moved && !s.behind id o && filled
/-- Sectors of a range as an entry of the operand cache has them or as they stand, each by a free choice (R325). -/
def State.mixSectors (s : State) (old : Memory) : Nat → Nat → Memory → State × Memory
  | _, 0, m => (s, m)
  | q, n + 1, m =>
    let m := if Config.freeBool s.free then (m.wrNat (32 * q) 32 (old.rdNat (32 * q) 32)).setSt q (old.st q) else m
    State.mixSectors { s with free := s.free + 1 } old (q + 1) n m
/-- What a range of scratch is read as for a role's operation, beside words stored and not fenced: none where it is as it stands
(R294, R322). -/
def State.viewRange (s : State) (who : RoleRef) (tm : Team) (fenced : Nat) (lo hi : Nat) : State × Option Memory :=
  s.viewPast (.op who fenced) (.t who.team) (lo / 32) ((hi - 1) / 32) tm.scratch
/-- The operand cache of a core (R325). -/
def State.cacheOf (s : State) (core : Nat × Nat) : List CacheEnt := (tget (s.bulk core.1).coreCache core.2).getD []
def State.addCache (s : State) (core : Nat × Nat) (es : List CacheEnt) : State :=
  s.modBulk core.1 (fun b => { b with coreCache := tset b.coreCache core.2 (s.cacheOf core ++ es) })
/-- What a scratch operand is read as, and the entry that its read leaves in the operand cache (R325). -/
def State.viewOpnd (s : State) (team : Nat) (tm : Team) (m : MOp) (p : MPiece) (isA : Bool) (x : MOpnd) :
    State × Option Memory × List CacheEnt :=
  match x, x.range m.tile isA (m.fmt == .bpi) p.groups with
  | .scr d0 d1 tr, some (lo, hi) =>
    let v := s.viewRange p.role tm p.fenced lo hi
    if d1.extractLsb' 16 16 = (0 : BitVec 16) then (v.1, v.2, [])
    else
      let e : CacheEnt :=
        { team := team, d0 := d0, d1 := d1, fmt := m.fmt, groups := p.groups, rows := m.tile.rows isA, tr := tr
          gen := s.coreGen (s.coreOf tm), mem := tm.scratch }
      let hits := (s.cacheOf (s.coreOf tm)).filter (fun h => { h with mem := e.mem } == e)
      let r := hits.foldl (fun (g : State × Memory) h => g.1.mixSectors h.mem (lo / 32) ((hi - 1) / 32 + 1 - lo / 32) g.2)
        (v.1, v.2.getD tm.scratch)
      (r.1, if hits.isEmpty then v.2 else some r.2, [{ e with mem := r.2 }])
  | _, _ => (s, none, [])
/-- The views of an operation's operands are chosen when it first runs (R294, R322, R325). -/
def State.openMat (s : State) (o : EngOp) (tm : Team) (m : MOp) : State × MOp :=
  if m.opened then (s, m)
  else
    let g := m.pieces.foldl (fun (g : State × List MPiece × List CacheEnt) p =>
      let a := g.1.viewOpnd o.owner.team tm m p true p.a
      let b := a.1.viewOpnd o.owner.team tm m p false p.b
      (b.1, g.2.1 ++ [{ p with viewA := a.2.1, viewB := b.2.1 }], g.2.2 ++ a.2.2 ++ b.2.2)) (s, [], [])
    let n := 8 * (m.tile.m * m.tile.n)
    let r : State × Option Memory := match m.kind with
      | .mmar true b0 => g.1.viewRange o.owner tm o.fenced b0.toNat (b0.toNat + n)
      | .minit src => g.1.viewRange o.owner tm o.fenced (at256 src) (at256 src + n)
      | _ => (g.1, none)
    (if g.2.2.isEmpty then r.1 else r.1.addCache (s.coreOf tm) g.2.2,
     { m with pieces := g.2.1, src := r.2, opened := true })
/-- The scratch that an operation writes: its first byte and its length. -/
def MOp.target (m : MOp) : Nat × Nat :=
  match m.kind with
  | .mdrain o => (at256 o.dst, tyBytes o.dty * (m.tile.m * m.tile.n))
  | _ => (at256 m.acc, m.tile.accBytes)
/-- Apply groups of an operation, or the whole of one without groups. -/
def State.matGroups (s : State) (id : Nat) (o : EngOp) (m : MOp) (groups : Nat) : State :=
  match s.team? o.owner.team with
  | none => s
  | some t =>
    let s := s.noteEngine o .S (t.scratch.oldSecs (.t o.owner.team) m.target.1 m.target.2)
    if m.kind.grouped then
      let r := t.applyMma m groups
      let s := s.setTeam o.owner.team r.1
      let s := if r.2.2 then o.batches.foldl (fun s b => s.modRole b.1 (fun x => { x with ovf := true })) s else s
      s.modOp id (fun o => { o with started := true, moved := r.2.1.finished, kind := .mat r.2.1 })
    else
      (s.setTeam o.owner.team (t.applyPlain m)).modOp id (fun o => { o with started := true, moved := true })
/-- Choose what an operation's operands are read as, and apply groups. -/
def State.matApply (s : State) (id : Nat) (o : EngOp) (m : MOp) (groups : Nat) : State :=
  match s.team? o.owner.team with
  | none => s
  | some t =>
    let v := s.openMat o t m
    v.1.matGroups id o v.2 groups
/-- Take an operation out of the engine as a suspended one of its role (R329). -/
def State.suspend (s : State) (id : Nat) (o : EngOp) (m : MOp) (pre : Option (List (RoleRef × BitVec 32)))
    (struck : Option (Nat × Nat)) : State :=
  ((s.delOp id).modRole o.owner (fun r =>
    { r with susp := r.susp ++ [{ op := m, gone := false, pre := pre, struck := struck }] })).flushAll
/-- A lasting mismatch of the engine: the group is not written, and the operation is held as a suspended one (R408), its ranges
released (R329); on a second core the team ends, and an operation of a team that has ended goes no further (R137, R320). -/
def State.matDispute (s : State) (id : Nat) (o : EngOp) (m : MOp) : State :=
  match s.team? o.owner.team with
  | none => s
  | some t =>
    let s := s.modBulk (s.coreOf t).1 (fun k => { k with lasting := satInc k.lasting })
    if o.struck.any (fun c => c != s.coreOf t) || t.phase == .finishing then
      let s := s.modTeam o.owner.team (fun t => t.finish
        { code := TCode.dualMismatch.num, role := o.owner.role
          pc := ((s.role? o.owner).map (fun r => if r.park.isSome then r.item.pc else 0xFFFFFFFF)).getD 0xFFFFFFFF
          aux := 0, user := false, reset := false })
      ((s.delOp id).readersDone o.owner.team m).flushAll
    else s.suspend id o m (some o.batches) (some (s.coreOf t))
/-- MATRIX_OP_START (R320, R332, R335, R336): the engine applies some further groups of an operation that may start. -/
def execMatrixOpStart (op : Nat) (groups : Nat) (s : State) : Out :=
  .next (match s.op? op with
    | some o =>
      match o.kind with
      | .mat m =>
        if !s.matReady op o m then s
        else
          let core := ((s.team? o.owner.team).map s.coreOf).getD (0, 0)
          match tget (s.bulk core.1).coreFault core.2 with
          | none => s.matApply op o m groups
          | some .transient =>
            (s.modBulk core.1 (fun k => { k with coreFault := tdel k.coreFault core.2, transient := satInc k.transient })).matApply
              op o m groups
          | some .lasting => s.matDispute op o m
      | _ => s
    | none => s)
/-- MATRIX_OP_COMPLETE (R321, R324, R327). -/
def execMatrixOpComplete (op : Nat) (s : State) : Out :=
  .next (match s.op? op with
    | some o =>
      match o.kind with
      | .mat m => if !o.moved then s else ((s.delOp op).readersDone o.owner.team m).flushAll
      | _ => s
    | none => s)

/-! Gangs and batches. -/

/-- GSET (R337). -/
def execGset (gid : BitVec 2) (roles : List (BitVec 2)) (s : State) : Out :=
  withCtx s fun c =>
    if roles.any (fun r => c.launch.roles ≤ r.toNat) then s.trapCur .illegalEnc 14 c.role.mask
    else if !(c.team.gang gid).fills.isEmpty then s.parkCur .gset
    else s.modTeam s.cur.team (fun t => { t with gangs := lset t.gangs gid.toNat { roles := roles, fills := [] } })
/-- MFENCE (R327, R338). -/
def execMfence (fs : Bool) (d : BitVec 7) (s : State) : Out :=
  withCtx s fun c =>
    let n := c.role.batch + 1
    s.modCur (fun r => ({ r with batch := n }.setS d (n.setWidth 64) .S).issueLong fs)
/-- Has the role an uncompleted operation in a batch numbered n or less that has been closed (R327)? -/
def State.batchWaits (s : State) (r : Role) (n : Nat) : Bool :=
  s.ops.any (fun e => e.2.batches.any (fun b => b.1 == s.cur && b.2.toNat ≤ min n r.batch.toNat))
/-- MWAIT n (R327, R328, R338): it observes the operations of the batches that it waits for (R372). -/
def State.mwait (s : State) (c : Ctx) (clr : Bool) (n : Nat) : State :=
  if s.batchWaits c.role n then s.parkCur .mwait
  else (s.observe (fun _ m => m.batches.any (fun b => b.1 == s.cur && b.2.toNat ≤ n))).modCur (fun r =>
    let w := r.ms[7]?.getD 0
    { r with ms := lset r.ms 7 ((w &&& ~~~1) ||| (if r.ovf then 1 else 0)), ovf := r.ovf && !clr })
def execMwait (clr : Bool) (a : BitVec 7) (s : State) : Out :=
  withControl s a fun c v => s.mwait c clr (v.setWidth 32).toNat
def execMwaitImm (clr : Bool) (n : BitVec 32) (s : State) : Out := withCtx s fun c => s.mwait c clr n.toNat

/-! Suspension (R328, R329). -/

def MOpnd.words : MOpnd → DWord × DWord
  | .scr d0 d1 _ => (d0, d1)
  | _ => (0, 0)
def MOpnd.genOf : MOpnd → BitVec 16
  | .buf _ _ g _ => g
  | _ => 0
def MOpnd.isRegs : MOpnd → Bool
  | .regs _ => true
  | _ => false
/-- The record of a suspended operation; bit 0 of its last word is left 0 (R328). -/
def MOp.record (m : MOp) : List DWord :=
  match m.pieces with
  | p :: _ =>
    let b0 : BitVec 32 := match m.kind with | .mmar _ b => b | _ => 0
    let st : BitVec 2 := stCode p.sstand
    [m.word0, m.x64, p.a.words.1, p.a.words.2, p.b.words.1, p.b.words.2, p.b.genOf ++ p.a.genOf ++ b0,
     (1 : BitVec 1) ++ (0 : BitVec 1) ++ st ++ BitVec.ofBool (p.slot.getD false) ++ BitVec.ofNat 6 p.done ++ (0 : BitVec 53)]
  | [] => List.replicate 8 0
/-- May an operation be suspended: an MMA or MMAR without a register operand that is not joint (R339, R411)? -/
def MOp.suspendable (m : MOp) : Bool :=
  m.kind.grouped && !m.joint && m.pieces.all (fun p => !p.a.isRegs && !p.b.isRegs)
/-- The matrix operations of a role, its latest apart. -/
def State.otherMats (s : State) (r : RoleRef) (latest : Option Nat) : Bool :=
  s.ops.any (fun e => e.2.ofRole r && some e.1 != latest && (match e.2.kind with | .mat _ => true | _ => false))
/-- The latest matrix operation of a role, while it is not complete. -/
def State.latestMat (s : State) (latest : Option Nat) : Option (Nat × EngOp × MOp) :=
  match latest with
  | none => none
  | some id => (s.op? id).bind (fun o => match o.kind with | .mat m => some (id, o, m) | _ => none)
/-- Write a record at a scratch offset and into %ms0 to %ms7 (R339). -/
def State.putRecord (s : State) (c : Ctx) (off : Nat) (ws : List DWord) : State :=
  let low : DWord := (c.role.ms[7]?.getD 0) &&& 1
  let ws := lset ws 7 ((ws[7]?.getD 0) ||| low)
  let v := ((List.range 8).map (fun k => (ws[k]?.getD 0).toNat * 2 ^ (64 * k))).sum
  let st := markSt c.role.taint .S
  (s.noteStore st (c.team.scratch.oldSecs (.t s.cur.team) off 64)).modTeam s.cur.team (fun t =>
    { (t.modRole s.cur.role (fun r => { r with ms := ws })) with scratch := t.scratch.store off 64 v st })
/-- The address checks of MSAVE and MRESUME. -/
def withRecord (s : State) (off : BitVec 32) (body : Ctx → State) : Out :=
  withCtx s fun c =>
    if off.toNat % 64 != 0 then s.trapCur .align 0 c.role.mask
    else if c.launch.scratch < off.toNat + 64 then s.offCur c.role.mask
    else body c
/-- MSAVE (R339). -/
def execMsave (off : BitVec 32) (s : State) : Out :=
  withRecord s off fun c =>
    if s.otherMats s.cur c.role.latest then s.parkCur .msave
    else match s.latestMat c.role.latest with
    | none => s.putRecord c off.toNat (List.replicate 8 0)
    | some (id, o, m) =>
      if !m.suspendable || o.moved then s.parkCur .msave
      else (s.suspend id o m none o.struck).putRecord c off.toNat m.record

/-- The request that a record describes: an MMA or MMAR with scratch or buffer operands, not joint (R340). -/
def recordReq (ws : List DWord) : Option MReq :=
  let w (k : Nat) : DWord := ws[k]?.getD 0
  let opnd (x : MSrc) (k : Nat) (gen : BitVec 16) : Option MOpnd :=
    match x with
    | .reg _ _ => none
    | .scr _ tr => some (.scr (w k) (w (k + 1)) tr)
    | .buf n off tr => some (.buf n off gen tr)
  let ga : BitVec 16 := (w 6).extractLsb' 32 16
  let gb : BitVec 16 := (w 6).extractLsb' 48 16
  match decodeItem (w 1 ++ w 0) with
  | .ok (.mma o) =>
    match o.gang, opnd o.a 2 ga, opnd o.b 4 gb with
    | none, some a, some b => some
      { kind := .mma, fmt := o.fmt, ct := o.ct, w := o.w, groups := o.kg.toNat + 1, acc := o.acc, sa := o.a, sb := o.b,
        a := a, b := b }
    | _, _, _ => none
  | .ok (.mmar o) =>
    match opnd o.a 2 ga, opnd o.b 4 gb with
    | some a, some b => some
      { kind := .mmar o.init ((w 6).setWidth 32), fmt := .f64, ct := o.ct, w := 0, groups := o.kg.toNat + 1, acc := o.acc,
        sa := o.a, sb := o.b, a := a, b := b, b0 := ((w 6).setWidth 32 : BitVec 32).toNat }
    | _, _ => none
  | _ => none
/-- The code-table slots that an operation keeps latched. -/
def MOp.slots (m : MOp) : List Bool := m.pieces.filterMap MPiece.slot
/-- Is everything that a record's operation keeps latched held by suspended operations? -/
def heldBy (xs : List Susp) (bufs : List (Nat × BitVec 16)) (slot : Option Bool) : Bool :=
  bufs.all (fun b => xs.any (fun x => x.op.bufs.contains b)) && (slot.toList).all (fun k => xs.any (fun x => x.op.slots.contains k))
/-- ENGINE_STATE's cause (R340), the smallest. -/
def MReq.engineState (q : MReq) (r : Role) (ws : List DWord) (kdone : Nat) (slot : Option Bool) : Option DWord :=
  let bufs := q.a.bufs ++ q.b.bufs
  let live := r.susp.filter (fun x => !x.gone)
  let same (x : Susp) : Bool := x.op.record == ws
  if (q.shape r).isSome then some 1
  else if q.groups - 1 < kdone then some 2
  else if !heldBy r.susp bufs slot then some 3
  else if live.any same then none
  else if r.susp.any same || !heldBy live bufs slot then some 4
  else none
/-- The suspended operation that a record resumes: the one it was written for, else the one that holds its latches. -/
def resumeIndex (xs : List Susp) (ws : List DWord) (bufs : List (Nat × BitVec 16)) (slot : Option Bool) : Option Nat :=
  let find (f : Susp → Bool) : Option Nat :=
    (List.range xs.length).find? (fun i => (xs[i]?.map (fun x => !x.gone && f x)).getD false)
  match find (fun x => x.op.record == ws) with
  | some i => some i
  | none => if bufs.isEmpty && slot.isNone then none else find (fun x => heldBy [x] bufs slot)
/-- MRESUME of a valid record (R340). -/
def State.resumeMat (s : State) (c : Ctx) (ws : List DWord) (st : Standing) : State :=
  let w7 : DWord := ws[7]?.getD 0
  match recordReq ws with
  | none => s.trapCur .engineState 1 c.role.mask
  | some q =>
    let kdone := (w7.extractLsb' 53 6).toNat
    let slot := if q.ct then some (w7.getLsbD 59) else none
    match q.engineState c.role ws kdone slot with
    | some n => s.trapCur .engineState n c.role.mask
    | none =>
      if q.a.prot || q.b.prot then s.trapCur .prot 0 c.role.mask
      else match q.place c with
      | some (.trap t a) => s.trapCur t a c.role.mask
      | some .off => s.offCur c.role.mask
      | none =>
        let p : MPiece :=
          { role := s.cur, a := q.a, b := q.b, groups := q.groups, done := kdone,
            sstand := joinSt (stOf (w7.extractLsb' 60 2)) st, slot := slot,
            table := if slot.getD c.role.ctNew then c.role.ct1 else c.role.ct0, fenced := c.role.fencedAt }
        let found := resumeIndex c.role.susp ws (q.a.bufs ++ q.b.bufs) slot
        let op : MOp :=
          { kind := q.kind, fmt := q.fmt, ct := q.ct, w := q.w, acc := q.acc, pieces := [p], joint := false,
            word0 := ws[0]?.getD 0, x64 := ws[1]?.getD 0, sstand := p.sstand
            accSt := ((found.bind (fun i => c.role.susp[i]?)).map (fun x => x.op.accSt)).getD [] }
        if !s.lockRoom s.cur.team op.locks then s.parkCur .ranges
        else
          let s := match found with
            | some i => s.modCur (fun r => { r with susp := match r.susp[i]? with
                | some x => lset r.susp i { x with gone := true }
                | none => r.susp })
            | none => s
          s.addMat s.cur c.team.part [s.cur] op.locks op ((found.bind (fun i => c.role.susp[i]?)).bind Susp.struck)
/-- MRESUME (R340). -/
def execMresume (off : BitVec 32) (s : State) : Out :=
  withRecord s off fun c =>
    let m := c.team.scratch
    let st := m.joinRange off.toNat 64
    let ws := (List.range 8).map (fun k => BitVec.ofNat 64 (m.rdNat (off.toNat + 8 * k) 8))
    let w7 : DWord := ws[7]?.getD 0
    if st == .Z then s.poisonCur c.role.mask
    else if !w7.getLsbD 63 then s
    else s.resumeMat c (lset ws 7 (w7 &&& ~~~1)) st

/-! The code table and OBREL. -/

/-- Is a code-table slot of the issuing role latched by an operation that is not complete (R330)? -/
def State.slotLatched (s : State) (c : Ctx) (slot : Bool) : Bool :=
  let has (p : MPiece) : Bool := p.role == s.cur && p.slot == some slot
  s.ops.any (fun e => match e.2.kind with | .mat m => m.pieces.any has | _ => false) ||
  c.role.susp.any (fun x => !x.gone && x.op.pieces.any has) ||
  c.team.gangs.any (fun g => g.fills.any (fun f => has f.2.piece))
/-- CTBL (R330, R341). -/
def execCtbl (a : BitVec 7) (s : State) : Out :=
  withScalars s [a, a + 1, a + 2, a + 3] fun c =>
    let slot := !c.role.ctNew
    if s.slotLatched c slot then s.parkCur .ctbl
    else
      let v (k : BitVec 7) : SVal := c.role.sreg (a + k)
      let t : CtSlot :=
        { entries := (v 3).val ++ (v 2).val ++ (v 1).val ++ (v 0).val
          st := markSt c.role.taint (joinAll [(v 0).st, (v 1).st, (v 2).st, (v 3).st]) }
      s.modCur (fun r => if slot then { r with ct1 := t, ctNew := true } else { r with ct0 := t, ctNew := false })
/-- Drop the suspended readers of every generation of a buffer (R342): the state, and what they read. -/
def State.dropReaders (s : State) (t n : Nat) : State × List (Nat × BitVec 16) :=
  match s.team? t with
  | none => (s, [])
  | some a =>
    let hit (x : Susp) : Bool := !x.gone && x.op.bufs.any (fun b => b.1 == n)
    let bufs := a.roles.flatMap (fun r => (r.susp.filter hit).flatMap (fun x => x.op.bufs))
    (s.setTeam t { a with roles := a.roles.map (fun r =>
      { r with susp := r.susp.map (fun x => if hit x then { x with gone := true } else x) }) }, bufs)
/-- OBREL (R342). -/
def execObrel (n : BitVec 3) (s : State) : Out :=
  withCtx s fun _ =>
    s.withOb true fun s =>
      let r := s.dropReaders s.cur.team n.toNat
      ((r.2.foldl (fun s e => s.obReaderDone s.cur.team e.1 e.2) r.1).obSeal s.cur.team n.toNat).flush s.cur.team

end Sys2Proof.Machine
end

