-- ==== Sys2Proof/Machine/Firmware.lean ====
section
/-!
DEFINITION. What firmware does to memory and to parked roles (R407): migration of pages (R230, R231), moves of valid pages
(R232), the replay after a lost link (R236), the recovery from a lasting fault (R137, R69), the sweep of last-page registers
(R424), and the gate timeout (R58).
-/
namespace Sys2Proof.Machine

/-! Leaves. -/

/-- Does a leaf describe a page that awaits migration (R230)? -/
def LeafAt.awaits (l : LeafAt) (p : Part) : Bool :=
  !pteV l.e && 2 ≤ pteTier l.e && pteFrame l.e != 0 && !p.badLeaf l.lvl l.e
/-- A leaf with another frame, tier and V. -/
def leafWith (e : BitVec 64) (v : Bool) (tier : BitVec 2) (frame : BitVec 39) : BitVec 64 :=
  frame ++ e.extractLsb' 10 15 ++ tier ++ e.extractLsb' 7 1 ++ (0 : BitVec 1) ++ e.extractLsb' 1 5 ++ BitVec.ofBool v
/-- Firmware writes an entry, and issues TLBI for its page. -/
def State.writeLeaf (s : State) (pp : Nat) (p : Part) (l : LeafAt) (va : Nat) (e : BitVec 64) : State :=
  (s.wrStore (s.keyName p.cfg.slotFirst) (p.phys l.at_) 8 e.toNat .S).invalidate pp (va / pageSize l.lvl * pageSize l.lvl)
    (pageSize l.lvl)

/-! Copying pages. -/

/-- A page is read through the error path: where it is reached through compressed slots, block by block (R265). -/
def State.touchPage (s : State) (r : Nat × Option Nat) (n : Nat) : State :=
  match r.2 with
  | some slot => if s.flawless then s else (List.range (n / 512)).foldl (fun s i => s.touchSlot (slot + 512 * i)) s
  | none => s.touch r.1 n
/-- Copy 64 KiB at an offset of a page to a page's new place, with its standing, read and written under the page's key; host
memory has no standing, and uncorrectable sectors arrive Z (R230, R232). -/
def State.copyChunk (p : Part) (old new : Xl) (s : State) (o : Nat) : State :=
  let a := s.loc p old (old.va + o)
  let b := s.loc p new (new.va + o)
  let std := pteTier old.entry != 3
  match a.reps with
  | [] => s
  | r :: _ =>
    let s := if a.ext then s else s.touchPage r 65536
    let src := if a.ext then s.extMem else s.seenRegion a.key r.1 65536
    b.reps.foldl (fun s d =>
      let s := (s.forget (.m a.ext) (r.1 / 32) (r.1 / 32 + 2047)).forget (.m b.ext) (d.1 / 32) (d.1 / 32 + 2047)
      if b.ext then { s with extMem := s.extMem.copyFrom src r.1 d.1 65536 std }
      else s.writeRegion b.key src r.1 d.1 65536 std) s
/-- Copy a page between two places. -/
def State.copyPage (s : State) (p : Part) (old new : Xl) : State :=
  ((List.range (old.size / 65536)).map (65536 * ·)).foldl (State.copyChunk p old new) s

/-! What holds a translation of a page follows it. -/

/-- A translation of a page that has got another entry; it stays at its gate. -/
def followXl (p : Part) (e : BitVec 64) (x : Xl) : Xl := { x with entry := e, gen := p.genOf x.gate e }
/-- Let an operation's translations of a page follow it. -/
def followXls (pp : Nat) (p : Part) (page : Xl) (xls : List Hit) : List Hit :=
  xls.map (fun h => if h.pp == pp && h.x.va == page.va then { h with x := followXl p page.entry h.x } else h)
/-- Let a counter follow its page. -/
def followDep (pp : Nat) (p : Part) (page : Xl) (d : Option CtrRef) : Option CtrRef :=
  d.map (fun r => if r.pp == pp && r.x.va == page.va then { r with x := followXl p page.entry r.x } else r)
/-- Operations and waiting records follow a page that has got another frame (R230, R232). -/
def State.followMove (s : State) (pp : Nat) (p : Part) (old new : Xl) : State :=
  let mv (h : Nat) : Nat :=
    let a : CtrRef := { named := 0, pp := pp, va := old.va, x := old }
    let b : CtrRef := { named := 0, pp := pp, va := new.va, x := new }
    if a.home ≤ h && h < a.home + old.size then h - a.home + b.home else h
  { s with
    ops := s.ops.map (fun e => (e.1, { e.2 with kind := match e.2.kind with
      | .copy k c => .copy { k with xls := followXls pp p new k.xls, dep := followDep pp p new k.dep } c
      | .nmc k => .nmc { k with xls := followXls pp p new k.xls }
      | k => k }))
    teams := s.teams.map (fun e => (e.1, { e.2 with due := e.2.due.map (fun d =>
      { d with xls := followXls pp p new d.xls, dep := followDep pp p new d.dep }) }))
    parts := s.parts.map (fun e => (e.1, { e.2 with waiting := e.2.waiting.map (fun w => { w with ctr := w.ctr.map mv }) })) }
/-- The partition and the address that a waiting request from outside names, a host's or a grantee's. -/
def outsideAddr : Instr → Option (Nat × Nat)
  | .hostRead pp _ va _ | .hostWrite pp _ _ va _ | .windowAccess pp va _ _ => some (pp, va.toNat)
  | _ => none
/-- What waits for a page that was being moved may go on, in the order in which it was held (R232). -/
def State.releaseMoved (s : State) (pp va size : Nat) : State :=
  let here (w : Nat × Nat) : Bool := w.1 == pp && va ≤ w.2 && w.2 < va + size
  { s with
    teams := s.teams.map (fun e => (e.1, { e.2 with roles := e.2.roles.map (fun r =>
      match r.park with
      | some (.moving a _) => if here (s.behindWindow e.2.part a.toNat) then { r with park := none } else r
      | _ => r) }))
    outside := s.outside.map (fun e => match e.2.1 with
      | some (.moving a _) =>
        if ((outsideAddr e.2.2).map (fun w => here (s.behindWindow w.1 a.toNat))).getD false then (e.1, none, e.2.2) else e
      | _ => e) }

/-! Migration (R230, R231). -/

/-- The migration pool of a logical bulkhead: the topmost frames of its stack's capacity for pages (log 16), and a free run for
a page. -/
def Part.poolFrame (p : Part) (k size : Nat) : Option Nat :=
  let n := p.cfg.migFrames[k]?.getD 0
  let hi := p.pageEnd k
  let lo := (hi - 65536 * n + size - 1) / size * size
  let free (a : Nat) : Bool := !p.migrated.any (fun m => m.frame < k * bulkSpan + a + size && k * bulkSpan + a < m.frame + m.size)
  (((List.range (65536 * n / size)).map (fun i => lo + i * size)).find? (fun a => a + size ≤ hi && free a)).map
    (fun a => k * bulkSpan + a)
/-- Evict the oldest migrated page that has not been written since it arrived: its entry is as it was, and operations that hold
a translation of it go on at its former place, which holds the same bytes (log 16). -/
def State.evict (s : State) (pp : Nat) : Option State :=
  match s.part? pp with
  | none => none
  | some p =>
    (p.migrated.find? (fun m => !m.written)).map (fun m =>
      let s := match s.leafAt p m.va with
        | some l =>
          let old := l.xl p m.va
          ((s.writeLeaf pp p l m.va m.former).followMove pp p old { old with entry := m.former }).releaseMoved pp m.va m.size
        | none => s
      s.modPart pp (fun p =>
        { p with migrated := p.migrated.filter (fun x => x.va != m.va), moves := p.moves.filter (fun x => !m.covers x.va.toNat) }))
/-- A frame of a pool, after as many evictions as it takes. -/
def State.takeFrame (pp k size : Nat) : Nat → State → Option (State × Nat)
  | 0, _ => none
  | n + 1, s =>
    match s.part? pp with
    | none => none
    | some p =>
      match p.poolFrame k size with
      | some a => some (s, a)
      | none =>
        match s.evict pp with
        | some s => State.takeFrame pp k size n s
        | none => none
/-- Migrate the page of an address that awaits it (R230). -/
def State.migratePage (s : State) (pp va : Nat) : Option State :=
  match s.part? pp with
  | none => none
  | some p =>
    match s.leafAt p va with
    | none => none
    | some l =>
      if !l.awaits p then none
      else match State.takeFrame pp (pteAff l.e) (pageSize l.lvl) (p.migrated.length + 1) s with
      | none => none
      | some (s, a) =>
        let old := l.xl p va
        let e := leafWith l.e true 0 (BitVec.ofNat 39 (a / 65536))
        let new := followXl p e old
        let s := ((s.copyPage p old new).writeLeaf pp p l va e).followMove pp p old new
        some (s.modPart pp (fun p => { p with migrated := p.migrated ++
          [{ va := old.va, size := old.size, former := l.e, frame := a, written := false }] }))
/-- Is the 64 KiB at an address resident at TIER 0 or 1 (R231)? -/
def State.residentAt (s : State) (p : Part) (va : Nat) : Bool :=
  ((s.leafAt p va).map (fun l => pteV l.e && pteTier l.e ≤ 1)).getD false
/-- The neighbourhood of a migrated page (R231). -/
def State.neighbours (pp va : Nat) : Nat → Nat → State → State
  | 0, _, s => s
  | n + 1, size, s =>
    match s.part? pp with
    | none => s
    | some p =>
      if p.blockSize ≤ size then s
      else
        let lo := va / (2 * size) * (2 * size)
        let pages := (List.range (2 * size / 65536)).map (fun i => lo + 65536 * i)
        let count := (pages.filter (s.residentAt p)).length
        if count * 65536 * 16 ≤ p.threshold * (2 * size) then s
        else State.neighbours pp va n (2 * size) (pages.foldl (fun s a => (s.migratePage pp a).getD s) s)
/-- Resolve a PAGE fault (R230, R231): the state, and whether the page is resident now. -/
def State.resolvePage (s : State) (pp va : Nat) : State × Bool :=
  match s.part? pp with
  | none => (s, false)
  | some p =>
    if ((s.leafAt p va).map (fun l => pteV l.e)).getD false then (s, true)
    else match s.migratePage pp va with
    | some s => (State.neighbours pp (va / 65536 * 65536) 14 65536 s, true)
    | none => (s, false)

/-- End a role's team with a system fault's code (R407, R435). -/
def State.endTeam (s : State) (r : RoleRef) (c : TCode) : State :=
  let x := s.role? r
  let pc := match x.bind Role.park with
    | some _ => (x.map (fun y => y.item.pc)).getD 0xFFFFFFFF
    | none => 0xFFFFFFFF
  s.modTeam r.team (fun t => t.finish { code := c.num, role := r.role, pc := pc, aux := 0, user := false, reset := false })
/-- MIGRATION (R230, R231, R407): the page of a parked role's fault is migrated and the role replays, or its team ends. -/
def execMigration (r : RoleRef) (s : State) : Out :=
  .next (match s.team? r.team, (s.role? r).bind Role.park with
    | some t, some (.page va) =>
      let w := s.behindWindow t.part va.toNat
      match s.resolvePage w.1 w.2 with
      | (s, true) => s.unpark r (fun k => k == .page va)
      | (s, false) => s.endTeam r .page
    | _, _ => s)

/-! Moves of valid pages (R232). -/

/-- PAGE_MOVE: firmware sets MIG and issues TLBI; writes to the page wait from then on. It moves only valid pages that are
not replicated, to a place that R223 and R224 allow. -/
def execPageMove (part : Nat) (va : BitVec 64) (tier : BitVec 2) (frame : BitVec 39) (s : State) : Out :=
  .next (match s.part? part with
    | none => s
    | some p =>
      match s.leafAt p va.toNat with
      | none => s
      | some l =>
        if !pteV l.e || pteMig l.e || pteRp l.e || p.badLeaf l.lvl (leafWith l.e true tier frame) ||
            p.badLeaf l.lvl l.e then s
        else
          (s.writeLeaf part p l va.toNat (l.e ||| 0x40)).modPart part (fun p =>
            { p with moves := p.moves ++ [{ va := va, tier := tier, frame := frame }] }))

/-- MIGRATION_SWITCH: the data has been copied, the new frame is installed, MIG clears, TLBI is issued, and what was held is
performed (R232). -/
def execMigrationSwitch (part : Nat) (va : BitVec 64) (s : State) : Out :=
  .next (match s.part? part with
    | none => s
    | some p =>
      match p.moves.find? (fun m => m.va == va), s.leafAt p va.toNat with
      | some m, some l =>
        let old := l.xl p va.toNat
        let e := leafWith l.e true m.tier m.frame
        let new := followXl p e old
        let s := (s.copyPage p old new).writeLeaf part p l va.toNat e
        let s := s.modPart part (fun p =>
          { p with moves := p.moves.filter (fun x => x.va != va), migrated := p.migrated.filter (fun x => x.va != old.va) })
        (s.followMove part p old new).releaseMoved part new.va new.size
      | _, _ => s)

/-! Lost links, lasting faults and held requests. -/

/-- Discard the translations of a partition whose link generation is no longer current (R236). -/
def State.dropStale (s : State) (pp : Nat) : State :=
  match s.part? pp with
  | none => s
  | some p =>
    let ok (x : Xl) : Bool := x.gen == p.genOf x.gate x.entry
    let s := s.setPart pp { p with tlb := p.tlb.filter ok }
    { s with teams := s.teams.map (fun e =>
        if e.2.part == pp then
          (e.1, { e.2 with roles := e.2.roles.map (fun r => { r with lastPage := r.lastPage.filter (fun x => ok x.2) }) })
        else e) }
/-- REMOTE_GONE_REPLAY (R47, R236, R407): the role replays once its target can be reached; when it never can, its team
ends. -/
def execRemoteGoneReplay (r : RoleRef) (reachable : Bool) (s : State) : Out :=
  .next (match s.team? r.team, (s.role? r).bind Role.park with
    | some t, some (.remote va) =>
      if reachable then ((s.dropStale t.part).dropStale (s.behindWindow t.part va.toNat).1).unpark r (fun k => k == .remote va)
      else s.endTeam r .remoteGone
    | _, _ => s)

/-- Is a core number of a physical bulkhead in service: its core, or the spare core that has taken its number (R69)? -/
def Bulk.inService (b : Bulk) (n : Nat) : Bool := !b.coresOut.contains (if b.spare = BitVec.ofNat 8 n then 24 else n)
/-- Mark a core out of service; when it was the last one, the spare core takes its number (R69, R137). -/
def Bulk.retireCore (b : Bulk) (core number : Nat) : Bulk :=
  let b := { b with coresOut := if b.coresOut.contains core then b.coresOut else core :: b.coresOut }
  if !(List.range 24).any b.inService && b.spare = 0xFF && !b.coresOut.contains 24 then
    { b with spare := BitVec.ofNat 8 number }
  else b
/-- DUAL_MISMATCH_RECOVERY (R137, R320, R407, R408). -/
def execDualMismatchRecovery (r : RoleRef) (s : State) : Out :=
  .next (match s.team? r.team, (s.role? r).bind Role.park with
    | some t, some .dual =>
      if t.phase == .resident then
        let c := s.coreOf t
        (s.modBulk c.1 (fun b => b.retireCore c.2 t.core)).requestStop r.team .dual
      else s
    | _, _ => s)
/-- FIRMWARE_LP_SWEEP (R226, R424). -/
def execFirmwareLpSweep (part : Nat) (s : State) : Out := .next (s.sweepLanes part)

/-- The requests that some operations hold at a physical bulkhead are completed with error. -/
def State.failOps (s : State) (b : Nat) (which : EngOp → Bool) : State :=
  { s with ops := s.ops.map (fun e =>
      if which e.2 && (s.opStuck e.2).contains b then (e.1, { e.2 with err := some b }) else e) }
/-- GATE_TIMEOUT (R58): the held request of a role, and those of its operations, are completed with error. -/
def execGateTimeout (r : RoleRef) (s : State) : Out :=
  let bulks := (List.range 16).filter (fun b => (s.bulk b).hung)
  let s := bulks.foldl (fun s b => s.failOps b (fun o => o.owner == r)) s
  .next (match (s.role? r).bind Role.park with
    | some (.hung b) => s.modRole r (fun x => { x with park := none, accessErr := some b })
    | some (.held b) =>
      if (s.bulk b).hung then s.modRole r (fun x => { x with park := none, accessErr := some b }) else s
    | _ => s)

end Sys2Proof.Machine
end

