-- ==== Sys2Proof/Machine/Host.lean ====
section
/-!
DEFINITION. The host interface: how the device and a host reach a partition's memory (R8, R40, R449), the control region (R23
to R29), launch windows (R30, R31), grants and windows (R49 to R53), attestation (R66, R67) and the status block (R446).
-/
namespace Sys2Proof.Machine

/-! The device's own reads and writes. -/

/-- How a request of the device itself ends. -/
inductive DevRes where
  | ok | bad | wait
  deriving DecidableEq, Repr
/-- Translate for the device, a PAGE fault being resolved by firmware (R8, R40). -/
def State.devXlate (s : State) (pp : Nat) (need : Need) (va : Nat) : State × XRes :=
  match (s.dropStale pp).xlate pp [] need none va with
  | (s, .page) =>
    let w := s.behindWindow pp va
    match s.resolvePage w.1 w.2 with
    | (s, true) => s.xlate pp [] need none va
    | (s, false) => (s, .page)
  | r => r
/-- A target out of reach is lost unless a reset or a remap in progress will bring it back (R40, R236). -/
def State.comesBack (s : State) (pp va : Nat) : Bool :=
  match s.part? (s.behindWindow pp va).1 with
  | some p => !p.remapping.isEmpty || (List.range p.cfg.size).any (fun k => (s.bulk (p.bulkOf k)).state != .running)
  | none => false
/-- What a translation comes to for the device; rcd refuses replicated and compressed pages and the aperture (R40).
DESIGN CHOICE (log 27): R66 names no outcome for an ATTDEST out of reach; as for R40's records, the device waits for a target
that a reset, a remap, a self-refresh or a page move holds, and takes one behind a lost link as bad. -/
def State.devRes (s : State) (pp va : Nat) (rcd : Bool) : XRes → DevRes
  | .ok h => if rcd && (pteRp h.x.entry || pteCmp h.x.entry) then .bad else .ok
  | .gone => if s.comesBack pp va then .wait else .bad
  | .moving _ => .wait
  | .held _ => .wait
  | _ => .bad
/-- The sectors of a range as they have been translated: offset, length and place. -/
abbrev Pieces := List (Nat × Nat × Hit)
/-- Translate the sectors of a range, and the worst outcome. -/
def State.devWalk (s : State) (pp : Nat) (need : Need) (rcd : Bool) (va n : Nat) : State × Pieces × DevRes :=
  (cutSectors va n n).foldl (fun (g : State × Pieces × DevRes) e =>
    let r := g.1.devXlate pp need (va + e.1)
    let k := r.1.devRes pp (va + e.1) rcd r.2
    let worst := if g.2.2 == .bad || k == .bad then DevRes.bad else if g.2.2 == .wait || k == .wait then .wait else .ok
    match r.2 with
    | .ok h => (r.1, g.2.1 ++ [(e.1, e.2, h)], worst)
    | _ => (r.1, g.2.1, worst)) (s, [], .ok)
/-- The needs of a record's write: a store that the aperture refuses (R40, R264). -/
def Need.rcd : Need := { w := true, cell := true }
/-- Does a range cover the whole 64-byte unit at an offset of it? -/
def coversUnit (va n o : Nat) : Bool := va ≤ (va + o) / 64 * 64 && (va + o) / 64 * 64 + 64 ≤ va + n
/-- Write bytes at tag 0 through pages already translated. -/
def State.writePieces (s : State) (xs : Pieces) (va : Nat) (bytes : List Byte) (st : Standing) : State :=
  xs.foldl (fun s e =>
    (s.noteOutside st (s.oldVirt e.2.2.pp e.2.2.x 0 e.2.2.va e.2.1)).wrPiece e.2.2.pp e.2.2.x 0 (!pteCmp e.2.2.x.entry && coversUnit va bytes.length e.1) e.2.2.va e.2.1
      (bytesNat ((bytes.drop e.1).take e.2.1)) st) s
/-- Read n bytes at tag 0 through pages already translated: their value and standing. -/
def State.readPieces (s : State) (xs : Pieces) : State × Nat × List Standing :=
  xs.foldl (fun g e =>
    let r := g.1.rdPiece e.2.2.pp e.2.2.x 0 false e.2.2.va e.2.1
    let r := match r.1.readAt e.2.2.pp e.2.2.x 0 e.2.2.va with
      | some l => r.1.readPast .outside true 8 l.1 l.2 e.2.1 r.2.1 r.2.2
      | none => r
    (r.1, g.2.1 + r.2.1 * 2 ^ (8 * e.1), g.2.2 ++ [r.2.2])) (s, 0, [])
/-- Write bytes at tag 0 as the device does, settled, all or nothing. -/
def State.devWrite (s : State) (pp : Nat) (va : Nat) (bytes : List Byte) : State × DevRes :=
  let w := s.devWalk pp Need.rcd true va bytes.length
  if w.2.2 != .ok then (w.1, w.2.2) else (w.1.writePieces w.2.1 va bytes .S, .ok)
/-- Read n bytes as the device reads a launch's tables: a sector that reads as Z is a failure (R8). -/
def State.devRead (s : State) (pp : Nat) (va n : Nat) : State × Nat × DevRes :=
  let w := s.devWalk pp Need.read false va n
  if w.2.2 != .ok then (w.1, 0, w.2.2)
  else
    let r := w.1.readPieces w.2.1
    (r.1, r.2.1, if r.2.2.contains .Z then .bad else .ok)

/-! Requests from outside: a host's accesses (R449) and a grantee's (R49). -/

/-- Is a node one of an open partition's hosts (R23, R443)? -/
def Part.serves (p : Part) (node : BitVec 10) : Bool := p.opened && p.cfg.hosts.contains node
/-- An answer to a request from outside. -/
def State.answer (s : State) (r : Reply) : State := { s with reply := r, serving := none }
/-- A request from outside that is held is answered later; it keeps the number under which it was accepted (R232, R272). -/
def State.holdOutside (s : State) (why : Park) (i : Instr) : State :=
  { s with
    seq := s.seq + 1, reply := .none, serving := none
    outside := (s.outside.filter (fun e => e.1 < s.serving.getD s.seq)) ++ [(s.serving.getD s.seq, some why, i)] ++
      s.outside.filter (fun e => s.serving.getD s.seq < e.1) }
/-- How a request from outside ends. DESIGN CHOICE (log 45): at a hung gate it is answered with an error. -/
inductive OutsideRes where
  | ok | refused
  | held (why : Park)
  deriving DecidableEq, Repr
/-- What a translation comes to for a request from outside; a grantee's waits for a target that comes back (R236). -/
def State.outsideRes (s : State) (pp va : Nat) (waits : Bool) : XRes → OutsideRes
  | .ok _ => .ok
  | .held b => if (s.bulk b).hung then .refused else .held (.held b)
  | .moving b => .held (.moving (BitVec.ofNat 64 va) b)
  | .gone => if waits && s.comesBack pp va then .held (.remote (BitVec.ofNat 64 va)) else .refused
  | _ => .refused
/-- Translate the sectors of a range for a request from outside, and how it ends: it is refused when any of them is, and held
when one is. -/
def State.outsideWalk (s : State) (pp : Nat) (need : Need) (waits : Bool) (va n : Nat) : State × Pieces × OutsideRes :=
  (cutSectors va n n).foldl (fun (g : State × Pieces × OutsideRes) e =>
    let r := g.1.devXlate pp need (va + e.1)
    let k := r.1.outsideRes pp (va + e.1) waits r.2
    let worst := if g.2.2 == .refused || k == .refused then OutsideRes.refused else if g.2.2 == .ok then k else g.2.2
    match r.2 with
    | .ok h => (r.1, g.2.1 ++ [(e.1, e.2, h)], worst)
    | _ => (r.1, g.2.1, worst)) (s, [], .ok)
/-- Perform a request from outside on the sectors of a range. -/
def State.fromOutside (s : State) (i : Instr) (pp : Nat) (need : Need) (waits : Bool) (va n : Nat)
    (act : State → Pieces → State) : State :=
  let w := s.outsideWalk pp need waits va n
  match w.2.2 with
  | .ok => act w.1 w.2.1
  | .refused => w.1.answer .error
  | .held why => w.1.holdOutside why i
/-- Answer a read of n bytes. -/
def State.answerRead (n : Nat) (s : State) (xs : Pieces) : State :=
  let r := s.readPieces xs
  r.1.answer (.data (natBytes n r.2.1) (joinAll r.2.2))
/-- Perform and answer a write. -/
def State.answerWrite (va : Nat) (bytes : List Byte) (st : Standing) (s : State) (xs : Pieces) : State :=
  (s.writePieces xs va bytes st).answer .done

/-! Registers (R24 to R29, R446). -/

def Part.queue (p : Part) (q : Nat) : Queue := p.queues[q]?.getD Queue.fresh
def Part.modQueue (p : Part) (q : Nat) (f : Queue → Queue) : Part := { p with queues := lset p.queues q (f (p.queue q)) }
/-- The grid teams of a launch. -/
def Launch.total (l : Launch) : Nat := l.gridX.toNat * l.gridY.toNat * l.gridZ.toNat
/-- Has a launch grid teams that are not distributed yet (R27)? -/
def Launch.unplaced (l : Launch) : Bool := l.phase == .appended || (l.phase == .running && l.next < l.total)
/-- The records that a queue holds (R27, R30). -/
def Part.queueCount (p : Part) (q : Nat) : Nat := (p.launches.filter (fun l => l.queue.toNat == q && l.unplaced)).length
/-- MAP (R25): bit 3 of a nibble is set for a bulkhead of another package. -/
def Part.mapBits (p : Part) : BitVec 32 :=
  BitVec.ofNat 32 (((List.range p.map.length).zip p.map).map (fun e => e.2 % 16 * 16 ^ e.1)).sum
/-- PINFO (R25). -/
def Part.pinfo (p : Part) : DWord := p.cfg.pid ++ (0 : BitVec 8) ++ BitVec.ofNat 8 p.cfg.size ++ p.mapBits
/-- A queue's registers as they read (R26 to R29). -/
def Part.queueReg (p : Part) (q off : Nat) : DWord :=
  let x := p.queue q
  let b (v : Bool) (k : Nat) : Nat := if v then 2 ^ k else 0
  match off with
  | 0x00 => BitVec.ofNat 64 (b x.ser 11 + b x.en 10 + x.prio.toNat)
  | 0x08 => BitVec.ofNat 64 (b x.bad 31 + b x.ovf 30 + b x.resErr 29 + b x.doneErr 28 + p.queueCount q)
  | 0x10 => x.res.setWidth 64
  | 0x18 => BitVec.ofNat 64 (8 * x.notify.toNat)
  | _ => 0
/-- An aligned 8-byte read of the control region; an offset that is not listed reads as zero (R24). -/
def Part.regRead (p : Part) (off : Nat) : DWord :=
  if off = 0 then p.pinfo
  else if 0x100 ≤ off && off < 0x120 then p.attNonce.extractLsb' (8 * (off - 0x100)) 64
  else if off = 0x120 then p.attDest
  else if off = 0x128 then BitVec.ofNat 64 ((if p.attGo then 1 else 0) + (if p.attErr then 2 else 0))
  else if 0x200 ≤ off && off < 0x2A0 then p.grantIn.extractLsb' (8 * (off - 0x200)) 64
  else if off = 0x2A0 then p.grantStat.setWidth 64
  else if 0x1000 ≤ off && off < 0x2000 then p.queueReg ((off - 0x1000) / 0x40) ((off - 0x1000) % 0x40)
  else 0
/-- BSTAT.STATE. -/
def BState.code : BState → Nat
  | .running => 0 | .reset => 1 | .remap => 2 | .out => 3
/-- The registers of a bulkhead in the status block (R446). -/
def Bulk.statusReg (b : Bulk) (off : Nat) : DWord :=
  let f (v : Bool) (k : Nat) : Nat := if v then 2 ^ k else 0
  match off with
  | 0x00 => BitVec.ofNat 64 (b.clk % 4096 * 2 ^ 20 + f b.lim 15 + f b.therm 14 + f b.sref 13 + b.state.code * 2 ^ 8 +
      b.spare.toNat)
  | 0x08 => b.uncorr ++ b.corr ++ b.trans
  | 0x10 => b.lasting ++ b.transient
  | _ => 0
/-- An aligned 8-byte read of the status block (R446); a bulkhead that is being remapped reads STATE 2. -/
def State.statusRead (s : State) (p : Part) (off : Nat) : DWord :=
  if off = 0 then Config.devInfo ++ (0 : BitVec 32)
  else if 0x40 ≤ off && off < 0x40 + 0x40 * p.cfg.size then
    let k := (off - 0x40) / 0x40
    let b := s.bulk (p.bulkOf k)
    (if p.remapStop.contains k || p.remapping.contains k then { b with state := .remap } else b).statusReg ((off - 0x40) % 0x40)
  else 0

/-- The reservations of all queues for a logical bulkhead (R28). -/
def resOf (v : BitVec 40) (k : Nat) : Nat := (v.extractLsb' (5 * k) 5).toNat
/-- May a queue take a reservation (R28)? -/
def Part.resOk (p : Part) (q : Nat) (v : BitVec 40) : Bool :=
  (List.range 8).all (fun k =>
    let others := ((List.range 64).filter (fun j => j != q)).map (fun j => resOf (p.queue j).res k)
    resOf v k ≤ 24 && (k < p.cfg.size || resOf v k = 0) && others.sum + resOf v k ≤ 24)
/-- A write of QRES (R28). -/
def Part.writeRes (p : Part) (q : Nat) (v : DWord) : Part :=
  let r : BitVec 40 := v.setWidth 40
  p.modQueue q (fun x => if p.resOk q r then { x with res := r } else { x with resErr := true })
/-- A write of a queue's register. -/
def Part.writeQueue (p : Part) (q off : Nat) (v : DWord) : Part :=
  match off with
  | 0x00 => p.modQueue q (fun x => { x with ser := v.getLsbD 11, en := v.getLsbD 10, prio := v.setWidth 3 })
  | 0x08 => p.modQueue q (fun x =>
      { x with bad := x.bad && !v.getLsbD 31, ovf := x.ovf && !v.getLsbD 30, resErr := x.resErr && !v.getLsbD 29,
               doneErr := x.doneErr && !v.getLsbD 28 })
  | 0x10 => p.writeRes q v
  | 0x18 => p.modQueue q (fun x => { x with notify := v.extractLsb' 3 53 })
  | _ => p
/-- Put a 64-bit word into a wide register. -/
def putWord {n : Nat} (x : BitVec n) (k : Nat) (v : DWord) : BitVec n :=
  (x &&& ~~~((0xFFFFFFFFFFFFFFFF : DWord).setWidth n <<< (64 * k))) ||| (v.setWidth n <<< (64 * k))
/-- A write of GRANTIN; the one to its last word starts verification, and none counts while one runs (R51). -/
def Part.writeGrant (p : Part) (k : Nat) (v : DWord) : Part :=
  if p.grantStat = 1 then p
  else { p with grantIn := putWord p.grantIn k v, grantStat := if k = 19 then 1 else p.grantStat }

/-- Translate an attestation report's destination (R66). -/
def State.attWalk (s : State) (pp : Nat) : State × Pieces × DevRes :=
  match s.part? pp with
  | none => (s, [], .bad)
  | some p => if p.attDest.toNat % 256 != 0 then (s, [], .bad) else s.devWalk pp Need.rcd true p.attDest.toNat 256
/-- A write of ATTCTL: ERR is cleared by a one; GO requests a report, or sets ERR when the destination fails its checks (R66). -/
def State.writeAtt (s : State) (pp : Nat) (v : DWord) : State :=
  let s := s.modPart pp (fun p => { p with attErr := p.attErr && !v.getLsbD 1 })
  if !v.getLsbD 0 || ((s.part? pp).map Part.attGo).getD false then s
  else
    let w := s.attWalk pp
    w.1.modPart pp (fun p => if w.2.2 == .bad then { p with attErr := true } else { p with attGo := true })
/-- An aligned 8-byte write of the control region outside the launch windows; an offset that is not listed, and a register
that is read only, ignore it (R24). -/
def State.regWrite (s : State) (pp off : Nat) (v : DWord) : State :=
  if 0x100 ≤ off && off < 0x120 then s.modPart pp (fun p => { p with attNonce := putWord p.attNonce ((off - 0x100) / 8) v })
  else if off = 0x120 then s.modPart pp (fun p => { p with attDest := v })
  else if off = 0x128 then s.writeAtt pp v
  else if 0x200 ≤ off && off < 0x2A0 then s.modPart pp (fun p => p.writeGrant ((off - 0x200) / 8) v)
  else if 0x1000 ≤ off && off < 0x2000 then
    s.modPart pp (fun p => p.writeQueue ((off - 0x1000) / 0x40) ((off - 0x1000) % 0x40) v)
  else s
/-- Run a request to a partition's control region, refused from any node but its hosts (R23, R443). -/
def withHost (part : Nat) (node : BitVec 10) (s : State) (body : Part → State) : Out :=
  .next (match s.part? part with
    | some p => if p.serves node then body p else s.answer .error
    | none => s.answer .error)

/-- A write to a launch window (R14, R30, R31). -/
def State.launchAppend (s : State) (part : Nat) (q off len : Nat) (lrec : BitVec 2048) (p : Part) : State :=
  if len != 256 || off % 256 != 0 then
    (s.modPart part (fun p => p.modQueue q (fun x => { x with bad := true }))).answer .error
  else if !(p.queue q).en || 256 ≤ p.queueCount q then
    (s.modPart part (fun p => p.modQueue q (fun x => { x with ovf := true }))).answer .error
  else
    let l : Launch :=
      { lrec := lrec, serial := p.appends, queue := BitVec.ofNat 6 q, phase := .appended, prio := none, next := 0, side := [],
        surfs := [], scales := [], sched := [], teams := 0, tasks := 0, stranded := 0, deadTeams := 0, firstIdx := none,
        faulted := false, reset := false }
    (s.modPart part (fun p => { p with appends := p.appends + 1, launches := p.launches ++ [l] })).answer .done
/-- A write of a register (R24): an aligned 8-byte write; any other, and a piece of a launch window, is refused. -/
def State.registerWrite (s : State) (part off len : Nat) (val : DWord) : State :=
  if 0x10000 ≤ off && off < 0x50000 then
    (s.modPart part (fun p => p.modQueue ((off - 0x10000) / 0x1000) (fun x => { x with bad := true }))).answer .error
  else if len != 8 || off % 8 != 0 || 0x50000 ≤ off then s.answer .error
  else (s.regWrite part off val).answer .done
/-- LAUNCH_APPEND (R14, R30, R31). -/
def execLaunchAppend (part : Nat) (node : BitVec 10) (q : BitVec 6) (off : BitVec 12) (len : Nat) (lrec : BitVec 2048)
    (s : State) : Out :=
  withHost part node s (s.launchAppend part q.toNat off.toNat len lrec)
/-- QRES_WRITE (R28). -/
def execQresWrite (part : Nat) (node : BitVec 10) (q : BitVec 6) (val : BitVec 64) (s : State) : Out :=
  withHost part node s fun _ => (s.modPart part (fun p => p.writeRes q.toNat val)).answer .done
/-- REGISTER_WRITE (R24). -/
def execRegisterWrite (part : Nat) (node : BitVec 10) (off : BitVec 20) (len : Nat) (val : BitVec 64) (s : State) : Out :=
  withHost part node s fun _ => s.registerWrite part off.toNat len val
/-- GRANT_SUBMIT (R51): the write to the last 8 bytes of GRANTIN. -/
def execGrantSubmit (part : Nat) (node : BitVec 10) (val : BitVec 64) (s : State) : Out :=
  withHost part node s fun _ => (s.modPart part (fun p => p.writeGrant 19 val)).answer .done
/-- ATTCTL_GO (R66). -/
def execAttctlGo (part : Nat) (node : BitVec 10) (val : BitVec 64) (s : State) : Out :=
  withHost part node s fun _ => (s.writeAtt part val).answer .done

/-- The needs of a host's access: every check of R224 but those of W and X (R449). -/
def Need.ofHost (write : Bool) : Need := { w := write, host := true }
/-- Where a fabric address lies: at an offset of the control region, or of the status block (R23, R446). -/
def Part.fabric (p : Part) (fab : Nat) : Option (Nat ⊕ Nat) :=
  if p.cfg.ctlBase.toNat ≤ fab && fab - p.cfg.ctlBase.toNat < 0x50000 then some (.inl (fab - p.cfg.ctlBase.toNat))
  else if p.cfg.statusBase.toNat ≤ fab && fab - p.cfg.statusBase.toNat < 0x1000 then some (.inr (fab - p.cfg.statusBase.toNat))
  else none
/-- HOST_READ (R24, R446, R449): a read of partition memory; an address with bit 63 set names a fabric address of the control
region or of the status block (log 17). -/
def execHostRead (part : Nat) (node : BitVec 10) (va : BitVec 64) (len : Nat) (s : State) : Out :=
  withHost part node s fun p =>
    if va.getLsbD 63 then
      if len != 8 || va.toNat % 8 != 0 then s.answer .error
      else match p.fabric (va.toNat - 2 ^ 63) with
      | some (.inl o) => s.answer (.data (natBytes 8 (p.regRead o).toNat) .S)
      | some (.inr o) => s.answer (.data (natBytes 8 (s.statusRead p o).toNat) .S)
      | none => s.answer .error
    else s.fromOutside (.hostRead part node va len) part (Need.ofHost false) false va.toNat len (State.answerRead len)
/-- A write at a fabric address (log 17): of a register or into a launch window (R24); the status block ignores it (R446). -/
def State.fabricWrite (s : State) (part : Nat) (p : Part) (fab : Nat) (data : List Byte) : State :=
  match p.fabric fab with
  | some (.inl o) =>
    if 0x10000 ≤ o then
      s.launchAppend part ((o - 0x10000) / 0x1000) (o % 0x1000) data.length (BitVec.ofNat 2048 (bytesNat data)) p
    else s.registerWrite part o data.length (BitVec.ofNat 64 (bytesNat data))
  | some (.inr _) => s.answer .done
  | none => s.answer .error
/-- HOST_WRITE (R449): a translated write, or an untranslated one of page-table storage at a partition physical address, under
the partition's first key slot (R64). -/
def execHostWrite (part : Nat) (node : BitVec 10) (phys : Bool) (va : BitVec 64) (data : List Byte) (s : State) : Out :=
  withHost part node s fun p =>
    if phys then
      let k := va.toNat / bulkSpan
      let b := p.bulkOf k
      if p.cfg.size ≤ k || storageEnd < va.toNat % bulkSpan + data.length || s.down p k k || (s.bulk b).hung then s.answer .error
      else if (s.bulk b).sref then s.holdOutside (.held b) (.hostWrite part node phys va data)
      else
        let s := s.forget (.m false) (p.phys va.toNat / 32) ((p.phys va.toNat + data.length) / 32)
        (s.wrStore (s.keyName p.cfg.slotFirst) (p.phys va.toNat) data.length (bytesNat data) .S).answer .done
    else if va.getLsbD 63 then s.fabricWrite part p (va.toNat - 2 ^ 63) data
    else s.fromOutside (.hostWrite part node phys va data) part (Need.ofHost true) false va.toNat data.length
      (State.answerWrite va.toNat data .S)

/-! Windows and grants (R49 to R53). -/

/-- WINDOW_ACCESS (R49, R52, R263): an access of a grantee into a window is carried to the grantor's memory at tag 0, or
faults; a request that no window admits is refused. -/
def execWindowAccess (part : Nat) (va : BitVec 64) (len : Nat) (store : Option (List Byte × Standing)) (s : State) : Out :=
  .next (match (s.part? part).bind (fun p => s.window? p.cfg.pid va.toNat) with
    | none => s.answer .error
    | some (_, _, w) =>
      let n := match store with | some d => d.1.length | none => len
      if w.view.toNat + w.size.toNat < va.toNat + n then s.answer .error
      else s.fromOutside (.windowAccess part va len store) part (if store.isSome then Need.store else Need.load) true va.toNat n
        (match store with
          | none => State.answerRead n
          | some d => State.answerWrite va.toNat d.1 d.2))

/-- A grant's fields (R50). -/
abbrev grMagic (g : BitVec 1280) : BitVec 16 := g.extractLsb' 0 16
abbrev grVersion (g : BitVec 1280) : BitVec 16 := g.extractLsb' 16 16
abbrev grBulk (g : BitVec 1280) : Nat := (g.extractLsb' 72 8).toNat
abbrev grWin (g : BitVec 1280) : Nat := (g.extractLsb' 80 8).toNat
abbrev grAcc (g : BitVec 1280) : Nat := (g.extractLsb' 88 8).toNat
abbrev grGrantee (g : BitVec 1280) : BitVec 16 := g.extractLsb' 96 16
abbrev grGrantor (g : BitVec 1280) : BitVec 16 := g.extractLsb' 112 16
abbrev grRate (g : BitVec 1280) : BitVec 32 := g.extractLsb' 128 32
abbrev grDev (g : BitVec 1280) : BitVec 64 := g.extractLsb' 192 64
abbrev grView (g : BitVec 1280) : DWord := g.extractLsb' 256 64
abbrev grTarget (g : BitVec 1280) : DWord := g.extractLsb' 320 64
abbrev grSize (g : BitVec 1280) : DWord := g.extractLsb' 384 64
abbrev grSerial (g : BitVec 1280) : BitVec 64 := g.extractLsb' 448 64
abbrev grSigner (g : BitVec 1280) : BitVec 256 := g.extractLsb' 512 256
abbrev grSigR (g : BitVec 1280) : BitVec 256 := g.extractLsb' 768 256
abbrev grSigS (g : BitVec 1280) : BitVec 256 := g.extractLsb' 1024 256
/-- Low 64 bits of the SHA-256 of the device identity key (R50, R445). -/
def devSerial : BitVec 64 := Config.devId.setWidth 64
/-- Does a range of the grantor's space lie in a logical bulkhead's memory (R51)? -/
def State.targetIn (s : State) (p : Part) (k lo n : Nat) : Bool :=
  (List.range (n / 65536)).all (fun i =>
    match s.leafAt p (lo + 65536 * i) with
    | some l => pteV l.e && pteTier l.e ≤ 1 && (pteAddr l.e + (lo + 65536 * i) % pageSize l.lvl) / bulkSpan == k
    | none => false)
/-- What verification finds (R51): a code of failure, or the grantor's number. -/
def State.verifyGrant (s : State) (g : BitVec 1280) : Nat ⊕ Nat :=
  if grMagic g != 0x474E || grVersion g != 1 || g.extractLsb' 32 40 != (0 : BitVec 40) ||
      g.extractLsb' 160 32 != (0 : BitVec 32) || 15 < grWin g || 1 < grAcc g || grDev g != devSerial then .inl 6
  else match (s.partOf? (grGrantor g)).bind (fun i => (s.part? i).map (fun p => (i, p))) with
  | none => .inl 4
  | some (i, p) =>
    if grSigner g != p.cfg.tenantKey ||
        !Config.ecdsaVerify p.cfg.tenantKey (Config.sha256 (natBytes 96 (g.setWidth 768).toNat)) (grSigR g) (grSigS g) then .inl 4
    else if grSerial g ≤ p.grantSerial then .inl 5
    else if grGrantor g == grGrantee g || (s.partOf? (grGrantee g)).isNone || p.cfg.size ≤ grBulk g then .inl 6
    else if grSize g != 0 &&
        (grSize g % 65536 != 0 || grTarget g % 65536 != 0 || grView g % 65536 != 0 ||
         !s.targetIn p (grBulk g) (grTarget g).toNat (grSize g).toNat ||
         (List.range 16).any (fun b => ((List.range 16).zip (s.bulk b).wins).any (fun e => match e.2 with
           | some w => w.live && w.grantee == grGrantee g && !(b == p.bulkOf (grBulk g) && e.1 == grWin g) &&
               (grView g).toNat < w.view.toNat + w.size.toNat && w.view.toNat < (grView g).toNat + (grSize g).toNat
           | none => false))) then .inl 6
    else if (s.bulk (p.bulkOf (grBulk g))).state != .running || p.remapStop.contains (grBulk g) ||
        p.remapping.contains (grBulk g) then .inl 7
    else .inr i
/-- Does an operation hold a request that a window entry has accepted: a translation that passed it, or a counter in its view
(R53)? -/
def State.passedBy (s : State) (o : EngOp) (b i : Nat) (w : Win) : Bool :=
  o.reach.2.any (fun h => h.via == some (b, i)) ||
  (match o.kind with
    | .copy k _ => k.dep.any (fun r => r.pp != o.part && (s.part? o.part).map (fun p => p.cfg.pid) == some w.grantee &&
        w.view.toNat ≤ r.named.toNat && r.named.toNat < w.view.toNat + w.size.toNat)
    | _ => false)
/-- GRANT_VERIFY_DONE (R51, R53): the entry is installed or revoked; while an old entry drains, the outcome waits. -/
def execGrantVerifyDone (part : Nat) (s : State) : Out :=
  .next (match s.part? part with
    | none => s
    | some p =>
      if p.grantStat != 1 || p.grantWait.isSome then s
      else
        let g := p.grantIn
        match s.verifyGrant g with
        | .inl n => s.modPart part (fun p => { p with grantStat := BitVec.ofNat 8 n })
        | .inr i =>
          let b := ((s.part? i).map (fun q => q.bulkOf (grBulk g))).getD 0
          let old := ((s.bulk b).wins[grWin g]?).getD none
          let w : Option Win :=
            if grSize g = 0 then old.map (fun w => { w with live := false })
            else some { view := grView g, target := grTarget g, size := grSize g, rw := grAcc g == 1, rate := grRate g,
                        grantor := grGrantor g, grantee := grGrantee g, live := true }
          let code : BitVec 8 := if grSize g = 0 then 3 else 2
          let passed := (s.ops.filter (fun e => old.any (s.passedBy e.2 b (grWin g)))).map Prod.fst
          let s := s.modBulk b (fun k => { k with wins := lset k.wins (grWin g) w })
          let s := s.modPart i (fun q => { q with grantSerial := grSerial g })
          s.modPart part (fun p =>
            if (old.map Win.live).getD false then
              { p with grantWait := some { bulk := b, win := grWin g, code := code, ops := passed } }
            else { p with grantStat := code }))
/-- REVOCATION_DRAINED (R53): the operations that the old entry had let pass have completed. -/
def execRevocationDrained (part : Nat) (s : State) : Out :=
  .next (s.modPart part (fun p => match p.grantWait with
    | some w => if w.ops.any (fun i => (s.op? i).isSome) then p else { p with grantWait := none, grantStat := w.code }
    | none => p))

/-! Attestation (R61, R66, R67). -/

/-- A partition's firmware measurement (R61). -/
def State.fwMeas (s : State) (p : Part) : BitVec 256 :=
  Config.sha256 (p.map.flatMap (fun b => natBytes 32 (s.bulk b).meas.toNat))
/-- A window entry's bytes in WINMEAS (log 18). -/
def Win.bytes (w : Win) : List Byte :=
  natBytes 8 w.view.toNat ++ natBytes 8 w.target.toNat ++ natBytes 8 w.size.toNat ++ natBytes 4 w.rate.toNat ++
  natBytes 2 w.grantor.toNat ++ natBytes 2 w.grantee.toNat ++ natBytes 1 w.rw.toNat
def State.winMeas (s : State) (p : Part) : BitVec 256 :=
  Config.sha256 (p.map.flatMap (fun b => ((s.bulk b).wins.filterMap id).flatMap (fun w => if w.live then w.bytes else [])))
/-- The root that signs a partition's reports is that of the package which holds its logical bulkhead 0 (R61). -/
def Part.elsewhere (p : Part) : Bool := 8 ≤ p.bulkOf 0
/-- The report's bits [1535:0] (R67), with the identity and the serial of the root that signs it. -/
def State.reportBody (s : State) (p : Part) (id : BitVec 256) (serial : BitVec 64) : BitVec 1536 :=
  p.attNonce ++ s.fwMeas p ++ s.cfgDigest ++ s.winMeas p ++ id ++ serial ++ (0 : BitVec 64) ++ p.cfg.pid ++
  BitVec.ofNat 8 p.cfg.size ++ p.mapBits ++ (0 : BitVec 8) ++ BitVec.ofNat 16 p.cfg.slotFirst ++
  BitVec.ofNat 16 p.cfg.slotCount ++ (1 : BitVec 16) ++ (0x4154 : BitVec 16)
/-- The signed report. DESIGN CHOICE (log 9): another package's count of its reports is a free value. -/
def State.report256 (s : State) (p : Part) : State × List Byte :=
  let body := if p.elsewhere then s.reportBody p Config.otherDevId (Config.otherReports s.free)
    else s.reportBody p Config.devId s.repSerial
  let sign := if p.elsewhere then Config.otherSign else Config.ecdsaSign
  let sig := sign (s.fwMeas p) (Config.sha256 (natBytes 192 body.toNat))
  (if p.elsewhere then { s with free := s.free + 1 } else { s with repSerial := s.repSerial + 1 },
    natBytes 192 body.toNat ++ natBytes 32 sig.1.toNat ++ natBytes 32 sig.2.toNat)
/-- ATTESTATION_REPORT (R66, R67): the signed report is written, settled, and GO clears. DESIGN CHOICE (log 27): ATTNONCE and
ATTDEST are read here; a target that will be back is waited for, and one that is lost sets ERR. -/
def execAttestationReport (part : Nat) (s : State) : Out :=
  .next (match s.part? part with
    | none => s
    | some p =>
      if !p.attGo then s
      else
        let w := s.attWalk part
        match w.2.2 with
        | .wait => w.1
        | .bad => w.1.modPart part (fun p => { p with attGo := false, attErr := true })
        | .ok =>
          let r := w.1.report256 p
          (r.1.writePieces w.2.1 p.attDest.toNat r.2 .S).modPart part (fun p => { p with attGo := false }))

end Sys2Proof.Machine
end

