-- ==== Sys2Proof/Machine/Launching.lean ====
section
/-!
DEFINITION. Launch records: the checks of R7 to R13, R16, R19 and R20 at acceptance, and completion (R36 to R40).
-/
namespace Sys2Proof.Machine

/-! The record itself (R9, R10, R12, R13). -/

/-- Does a role descriptor from some group on continue the ranges? The group after it, when it does. -/
def descNext (g : Nat) (d : BitVec 128) : Option Nat :=
  if rdFirst d == g && 1 ≤ rdGroups d && rdGroups d ≤ rdBudget d && d.extractLsb' 96 32 == (0 : BitVec 32) then
    some (g + rdGroups d)
  else none
/-- Do the role descriptors cover the team's groups (R10)? -/
def Launch.descsOk (l : Launch) : Bool :=
  let used := (List.range l.roles).map l.roleDesc
  used.foldl (fun g d => g.bind (fun n => descNext n d)) (some 0) == some l.groups &&
  (used.map (fun d => rdBudget d)).sum ≤ 32768 &&
  (List.range 4).all (fun k => k < l.roles || l.roleDesc k == 0)
/-- The fields of the context window (R12). -/
def Launch.windowOk (l : Launch) : Bool :=
  if l.ctxSub = 0 then l.ctxBase == 0 && l.ctxSize == 0
  else l.ctxSize != 0 && l.ctxSize % l.ctxSub == 0 && 1 ≤ l.ctxBase && l.ctxBase + l.ctxSize - 1 ≤ 16383
/-- The ranges and alignments of R9. -/
def Launch.rangesOk (l : Launch) : Bool :=
  l.lrec.extractLsb' 800 224 == (0 : BitVec 224) && l.surfCount ≤ 4096 && l.schedCount ≤ 1024 &&
  (l.prioField.toNat ≤ 7 || l.prioField == 0xFF) && l.cohort ≤ 24 && 1 ≤ l.roles && l.roles ≤ 4 && 1 ≤ l.groups &&
  l.groups ≤ 128 && l.spill % 16 == 0 && l.spill ≤ 65536 && l.scratch % 256 == 0 && l.scratch ≤ 524288 &&
  1 ≤ l.gridX.toNat && 1 ≤ l.gridY.toNat && 1 ≤ l.gridZ.toNat && l.total ≤ 2 ^ 32 - 1 && l.pdist.toNat ≤ 2 ^ 24 &&
  l.doneAddr.toNat % 32 == 0 && l.spillBase.toNat % 256 == 0 && l.surfTab.toNat % 64 == 0 &&
  (l.surfCount != 0 || l.surfTab == 0) && l.schedAddr.toNat % 64 == 0 && (l.schedCount != 0 || l.schedAddr == 0) &&
  l.sideTab.toNat % 8 == 0 && l.codeBase.toNat % 256 == 0
/-- Is the record well formed, its tables apart (R13)? -/
def Launch.recordOk (l : Launch) : Bool :=
  l.queueField.toNat == l.queue.toNat && l.rangesOk && l.windowOk && l.descsOk

/-! The tables. -/

/-- What reading the tables comes to: the records read so far, while nothing has failed. -/
structure Tables where
  s : State
  res : DevRes
  recs : List Nat
  deriving DecidableEq, Repr
/-- Read n records of w bytes from an address (R8). -/
def State.readRecs (s : State) (pp va w n : Nat) : Tables :=
  (List.range n).foldl (fun g i =>
    if g.res != .ok then g
    else
      let r := g.s.devRead pp (va + w * i) w
      { s := r.1, res := r.2.2, recs := g.recs ++ [r.2.1] }) { s := s, res := .ok, recs := [] }

/-- A side-table entry (R7). -/
def sideEntry (v : Nat) : SideEntry :=
  let b : BitVec 576 := BitVec.ofNat 576 v
  { off := b.extractLsb' 0 32, vlive := b.extractLsb' 64 256, plive := b.extractLsb' 320 128, slive := b.extractLsb' 448 128 }
/-- Are the entries in order, with their reserved fields zero (R8)? -/
def sideOk : List Nat → Bool
  | [] => true
  | [a] => a / 2 ^ 32 % 2 ^ 32 == 0
  | a :: b :: t => a / 2 ^ 32 % 2 ^ 32 == 0 && a % 2 ^ 32 < b % 2 ^ 32 && sideOk (b :: t)
/-- A surface record is valid (R19, R20). -/
def surfOk (r : BitVec 512) : Bool :=
  let bpi := sfType r == 12
  let es := elemBytes (sfTy r)
  let p := sfPitch r
  let e := sfExt r
  let cover (k : Nat) (below : Nat) : Bool := nth p k % es == 0 && below ≤ nth p k && (!bpi || nth p k == below)
  (sfType r).toNat ≤ 12 && sfLayout r == bpi && 1 ≤ sfDims r && sfDims r ≤ 4 &&
  cover 0 (es * nth e 0) && cover 1 (nth p 0 * nth e 1) && cover 2 (nth p 1 * nth e 2) &&
  sfScl r == bpi && r.extractLsb' 84 4 == (0 : BitVec 4) && r.extractLsb' 96 32 == (0 : BitVec 32) &&
  r.extractLsb' 368 16 == (0 : BitVec 16) && sfBase r % 128 == 0 &&
  (if bpi then 1 ≤ sfPlanes r && sfPlanes r ≤ 8 else sfPlanes r == 0) &&
  sfMode r ≤ 2 && (sfScl r || sfMode r == 0) && (sfScaleRec r != 0) == sfScl r && (sfCmp r || sfAperture r == 0) &&
  (List.range 4).all (fun k => k < sfDims r || nth e k == 1) &&
  (!bpi || (nth e 0 * nth e 1 * nth e 2 * nth e 3) % 128 == 0)
/-- A copy-schedule entry is valid (R15, R16). -/
def schedOk (l : Launch) (surfs : List (BitVec 512)) (e : BitVec 512) : Bool :=
  let f (a n : Nat) : Nat := (e.extractLsb' a n).toNat
  let kind := f 64 8
  let smoff := f 416 16
  let ext (k : Nat) : Nat := f (256 + 32 * k) 32
  let src := surfs[f 32 16]?
  let scales (r : BitVec 512) : Nat := match sfMode r with | 0 => 1 | 1 => ext 1 | _ => ext 0
  f 72 8 == 0 && f 88 8 == 0 && f 432 16 == 0 && kind ≤ 3 &&
  (if kind == 1 then f 80 8 ≤ 7 else f 80 8 == 0) &&
  (if kind == 3 then
    (match src, surfs[f 48 16]? with | some a, some b => sfType a == sfType b | _, _ => false)
   else f 48 16 == 0xFFFF) &&
  (kind != 3 || f 96 32 == 0) && src.isSome && f 16 8 < l.roles && f 27 4 == 0 &&
  (List.range 4).all (fun k => 1 ≤ ext k) &&
  (smoff == 0xFFFF || (match src with | some r => sfScl r && smoff + scales r ≤ 8192 | none => false)) &&
  f 448 64 % 4 == 0 && (f 384 32 == 0xFFFFFFFF || f 384 32 % 8 == 0)

/-- What acceptance finds. -/
inductive Accept where
  | ok (s : State) (l : Launch)
  | malformed (s : State)
  | wait (s : State)
  deriving DecidableEq, Repr
/-- Go on with records that have been read and are valid. -/
def Tables.next (g : Tables) (valid : List Nat → Bool) (body : State → List Nat → Accept) : Accept :=
  match g.res with
  | .wait => .wait g.s
  | .bad => .malformed g.s
  | .ok => if valid g.recs then body g.s g.recs else .malformed g.s
/-- The scale records that the surfaces name; one that cannot be read is left out. -/
def State.readScales (s : State) (pp : Nat) (surfs : List (BitVec 512)) : State × Tab (BitVec 512) :=
  ((List.range surfs.length).zip surfs).foldl (fun (g : State × Tab (BitVec 512)) e =>
    if sfScl e.2 then
      let r := g.1.devRead pp (sfScaleRec e.2) 64
      (r.1, if r.2.2 == .ok then tset g.2 e.1 (BitVec.ofNat 512 r.2.1) else g.2)
    else g) (s, [])
/-- Check a record against its tables (R8, R13).
DESIGN CHOICE (log 27): R14 leaves open whether a table word changed during the launch is seen; the side table, the surface
table and the schedule are kept as they are read here, code is read as it stands at each fetch. -/
def State.acceptCheck (s : State) (pp : Nat) (l : Launch) : Accept :=
  if !l.recordOk then .malformed s
  else
    (s.readRecs pp l.sideTab.toNat 16 1).next (fun h => h.all (fun v => v / 2 ^ 32 == 0 && v ≤ 1048576)) fun s h =>
    (s.readRecs pp (l.sideTab.toNat + 16) 72 (h.head?.getD 0)).next sideOk fun s side =>
    (s.readRecs pp l.surfTab.toNat 64 l.surfCount).next (fun rs => rs.all (fun r => surfOk (BitVec.ofNat 512 r))) fun s rs =>
    let surfs : List (BitVec 512) := rs.map (BitVec.ofNat 512)
    (s.readRecs pp l.schedAddr.toNat 64 l.schedCount).next
      (fun es => es.all (fun e => schedOk l surfs (BitVec.ofNat 512 e))) fun s es =>
    let sc := s.readScales pp surfs
    .ok sc.1 { l with
      phase := .running, side := side.map sideEntry, surfs := surfs, scales := sc.2, sched := es.map (BitVec.ofNat 512) }

/-! Completion (R36 to R40). -/

/-- The status of a launch that has run (R37, R436). -/
def Launch.status (l : Launch) : Nat :=
  if l.reset then 4 else if l.faulted then 2 else if l.deadTeams != 0 then 1 else 0
/-- A completion record (R37). -/
def Launch.completion (l : Launch) (status : Nat) : BitVec 256 :=
  let w (n : Nat) : BitVec 32 := BitVec.ofNat 32 n
  let f := l.firstIdx.getD (0xFFFFFFFF, 0)
  l.serial ++ w l.teams ++ w l.tasks ++ w l.stranded ++ w l.deadTeams ++ f.1 ++ f.2 ++ l.prio.getD 0 ++ l.queue ++
  (0 : BitVec 7) ++ (1 : BitVec 1) ++ BitVec.ofNat 7 status
/-- Set DONEERR of a queue after an abandoned write (R40). -/
def State.doneErr (s : State) (pp : Nat) (q : BitVec 6) (r : DevRes) : State :=
  if r == .bad then s.modPart pp (fun p => p.modQueue q.toNat (fun x => { x with doneErr := true })) else s
/-- Write a completion record and then the notify word (R36, R38, R40); none while a write has to wait. -/
def State.report (s : State) (pp : Nat) (l : Launch) (status : Nat) : Option State :=
  let a := s.devWrite pp l.doneAddr.toNat (natBytes 32 (l.completion status).toNat)
  let s := a.1.doneErr pp l.queue a.2
  let note := 8 * (((s.part? pp).map (fun (p : Part) => (p.queue l.queue.toNat).notify.toNat)).getD 0)
  let b := if note = 0 then (s, DevRes.ok) else s.devWrite pp note (natBytes 8 l.serial.toNat)
  if a.2 == .wait || b.2 == .wait then none else some (b.1.doneErr pp l.queue b.2)
/-- Has a launch written a completion record (R39)? -/
def Launch.reported (l : Launch) : Bool := l.phase == .residue || l.phase == .done || l.stranded != 0
/-- The launch before another one in its queue (R32). -/
def Part.before? (p : Part) (l : Launch) : Option Launch :=
  (p.launches.filter (fun x => x.queue == l.queue && x.serial < l.serial)).getLast?
/-- May a launch go before its queue's serial order allows it (R26, R32, R36)? -/
def Part.serOk (p : Part) (l : Launch) : Bool :=
  !(p.queue l.queue.toNat).ser || ((p.before? l).map Launch.reported).getD true

/-- Does a record belong to a launch? -/
def TaskRec.of (t : TaskRec) (l : Launch) : Bool := t.serial == l.serial
/-- Is a launch complete: its grid has retired and of its tasks only stranded ones are left (R36)? -/
def State.finished (s : State) (pp : Nat) (p : Part) (l : Launch) : Bool :=
  l.phase == .running && l.teams == l.total && !s.teams.any (fun e => e.2.part == pp && e.2.serial == l.serial) &&
  !p.ready.any (fun t => t.of l) && p.waiting.all (fun t => !t.of l || t.ctr.isSome)
/-- LAUNCH_ACCEPT (R8, R13, R36): a malformed record completes at once. -/
def execLaunchAccept (part : Nat) (serial : BitVec 64) (s : State) : Out :=
  .next (match s.part? part with
    | none => s
    | some p =>
      match p.launch? serial with
      | none => s
      | some l =>
        if l.phase != .appended then s
        else match s.acceptCheck part l with
        | .ok s l => s.modPart part (fun p => p.modLaunch serial (fun _ => l))
        | .wait s => s
        | .malformed s =>
          if !p.serOk l then s
          else match s.report part l 3 with
          | some s => s.modPart part (fun p => p.modLaunch serial (fun l => { l with phase := .done }))
          | none => s)
/-- LAUNCH_COMPLETE (R36 to R39). -/
def execLaunchComplete (part : Nat) (serial : BitVec 64) (s : State) : Out :=
  .next (match s.part? part with
    | none => s
    | some p =>
      match p.launch? serial with
      | none => s
      | some l =>
        if !s.finished part p l || !p.serOk l then s
        else
          let l := { l with stranded := (p.waiting.filter (fun t => t.of l)).length }
          match s.report part l l.status with
          | none => s
          | some s => s.modPart part (fun p =>
              { (p.modLaunch serial (fun x =>
                  { x with stranded := l.stranded, phase := if l.stranded = 0 then .done else .residue })) with
                waiting := p.waiting.map (fun t => if t.of l then { t with stranded := true } else t) }))

end Sys2Proof.Machine
end

