-- ==== Sys2Proof/Machine/Place.lean ====
section
/-!
DEFINITION. Where teams go: eligible cores (R69, R70), what a core holds (R71, R72), the mixer (R73, R74), the positions of
cohorts (R76), what a team must wait for (R12, R217, R242), and the teams of a grid and of a continuation record (R11, R395).
-/
namespace Sys2Proof.Machine

/-! Cores. -/

/-- The queue that a core is reserved for (R70). -/
def Part.reservation (p : Part) (k c : Nat) : Option Nat :=
  ((List.range 64).foldl (fun (a : Nat × Option Nat) q =>
    let n := resOf (p.queue q).res k
    (a.1 - n, if a.2.isNone && a.1 - n ≤ c && c < a.1 then some q else a.2)) (24, none)).2
/-- Does a gathering hold a core? -/
def Gathering.holds (g : Gathering) (c : Nat × Nat) : Bool := g.bulk == c.1 && g.start ≤ c.2 && c.2 < g.start + g.size
/-- The eligible list of a queue (R69). -/
def State.eligible (s : State) (p : Part) (q : Nat) : List (Nat × Nat) :=
  (List.range p.cfg.size).flatMap (fun k =>
    let b := s.bulk (p.bulkOf k)
    if b.state != .running || p.remapStop.contains k || p.remapping.contains k then []
    else ((List.range 24).filter (fun c =>
      b.inService c && ((p.reservation k c).map (fun j => j == q)).getD true)).map (fun c => (k, c)))

/-- What a team is charged with (R71). -/
structure Charge where
  groups : Nat
  rows : Nat
  scratch : Nat
  roles : Nat
  deriving DecidableEq, Repr
def Launch.charge (l : Launch) : Charge :=
  { groups := l.groups, rows := ((List.range l.roles).map (fun k => rdBudget (l.roleDesc k))).sum, scratch := l.scratch,
    roles := l.roles }
/-- The teams that a core holds: a saved team has given its charge back (R72). -/
def State.onCore (s : State) (pp : Nat) (c : Nat × Nat) : List (Nat × Team) :=
  s.teams.filter (fun e => e.2.part == pp && e.2.bulk == c.1 && e.2.core == c.2 && e.2.phase != .saved)
/-- Can a core accept a team of a launch (R71, R72)? ob tells that the team holds operand buffers (R323). -/
def State.canAccept (s : State) (pp : Nat) (p : Part) (l : Launch) (ob : Bool) (c : Nat × Nat) : Bool :=
  let ts := s.onCore pp c
  let cs := l.charge :: ts.filterMap (fun e => (p.launch? e.2.serial).map Launch.charge)
  (cs.map Charge.groups).sum ≤ 512 && (cs.map Charge.rows).sum ≤ 32768 && (cs.map Charge.scratch).sum ≤ 524288 &&
  (cs.map Charge.roles).sum ≤ 128 && ts.length < 64 && (ts.filter (fun e => e.2.phase == .inbound)).length < 8 &&
  !(ob && ts.any (fun e => e.2.ob.isSome))

/-- Can a team be handed to a core now: no new team is handed to cores that are being gathered (R77)? -/
def State.canHand (s : State) (pp : Nat) (p : Part) (l : Launch) (ob : Bool) (c : Nat × Nat) : Bool :=
  s.canAccept pp p l ob c && !p.gathers.any (fun g => g.holds c)

/-- The mixer (R73). -/
def mix (seed j : DWord) : Nat :=
  (rand32 (seed.setWidth 32 ^^^ seed.extractLsb' 32 32) (j.setWidth 32 ^^^ (j.extractLsb' 32 32 * 0x9E3779B9))).toNat
/-- The probes of R74 over a list of candidates, and then its lowest entry. -/
def probe {α : Type} (seed : DWord) (t : Nat) (xs : List α) (ok : α → Bool) : Option α :=
  if xs.isEmpty then none
  else
    match (List.range 64).findSome? (fun k =>
      (xs[mix seed (BitVec.ofNat 64 (t + k * 2 ^ 32)) % xs.length]?).bind (fun c => if ok c then some c else none)) with
    | some c => some c
    | none => xs.find? ok
/-- The positions of a cohort of n teams over a list of eligible cores (R76). -/
def positions (es : List (Nat × Nat)) (n : Nat) : List (Nat × Nat) :=
  es.filter (fun c => (List.range n).all (fun i => es.contains (c.1, c.2 + i)))

/-! Teams that start. -/

/-- Do two teams of different launches own sub-windows that share a tag (R242)? -/
def Launch.sharesTag (l : Launch) (t : Nat) (k : Launch) (u : Nat) : Bool :=
  match l.subWindow t, k.subWindow u with
  | some a, some b => a < b + k.ctxSub && b < a + l.ctxSub
  | _, _ => false
/-- Must an index of a launch wait for a resident team of another launch with a tag of its sub-window (R242)? -/
def State.tagsTaken (s : State) (pp : Nat) (l : Launch) (t : Nat) : Bool :=
  s.teams.any (fun e => e.2.part == pp && e.2.serial != l.serial && e.2.phase != .saved &&
    (((s.part? pp).bind (fun p => p.launch? e.2.serial)).map (fun k => l.sharesTag t k e.2.taskidx.toNat)).getD false)
/-- Must an index of a launch wait for another team's sub-window (R12, R242) or spill slot (R217)? -/
def State.slotBusy (s : State) (pp : Nat) (l : Launch) (t : Nat) : Bool :=
  s.tagsTaken pp l t ||
  s.teams.any (fun e => e.2.part == pp && e.2.serial == l.serial &&
    (((l.subWindow t).isSome && l.subWindow e.2.taskidx.toNat == l.subWindow t) || (l.spill != 0 && e.2.taskidx.toNat == t)))
/-- Hand a team to a core's inbound queue; what happened before its start is ordered before it (R369, R396). -/
def State.handOver (s : State) (t : Team) : State :=
  { s.setTeam s.nextTeam { t with roles := t.roles.map (fun r => { r with acq := s.startAcq }) } with nextTeam := s.nextTeam + 1 }
/-- Team t of a launch's grid on a core (R9, R11). -/
def Launch.gridTeam (l : Launch) (pp t : Nat) (prio : BitVec 3) (c : Nat × Nat) (order : Nat) : Team :=
  let x := l.gridX.toNat
  let y := l.gridY.toNat
  { l.team pp (BitVec.ofNat 32 t) false (BitVec.ofNat 32 (t % x)) (BitVec.ofNat 32 (t / x % y))
      (BitVec.ofNat 32 (t / (x * y))) prio c.1 c.2 order ((List.range l.roles).map l.role) with
    cohort := if 2 ≤ l.cohort then some (t / l.cohort) else none }

/-! Continuation records (R389). -/

abbrev TaskRec.entry (t : TaskRec) : BitVec 32 := t.trec.extractLsb' 320 32
abbrev TaskRec.idx (t : TaskRec) : BitVec 32 := t.trec.extractLsb' 352 32
abbrev TaskRec.lprio (t : TaskRec) : BitVec 3 := t.trec.extractLsb' 392 3
/-- A task as a team of its launch (R395). -/
def TaskRec.team (t : TaskRec) (l : Launch) (pp : Nat) (c : Nat × Nat) (order : Nat) : Team :=
  let args := (List.range 4).map (fun k => (t.trec.extractLsb' (64 * k) 64 : DWord)) ++ (List.range 4).map (fun k => l.arg (4 + k))
  let role (k : Nat) : Role :=
    let d := l.roleDesc k
    Role.fresh (rdFirst d) (rdGroups d) (rdBudget d) (if k = 0 then t.entry else rdEntry d) args
  l.team pp t.idx true t.idx 0 0 t.lprio c.1 c.2 order ((List.range l.roles).map role)
/-- The head of the ready queue of a logical bulkhead (R394). -/
def Part.readyHead (p : Part) (k : Nat) : Option TaskRec :=
  (p.ready.filter (fun t => t.target == k)).foldl (fun h t =>
    match h with
    | none => some t
    | some x => if x.lprio < t.lprio || (x.lprio == t.lprio && t.idx < x.idx) then some t else some x) none

/-- TEAM_RESIDENT (R72, R219, R383): a team leaves its inbound queue with its role state loaded. -/
def execTeamResident (team : Nat) (s : State) : Out :=
  .next (s.modTeam team (fun t => if t.phase == .inbound then { t with phase := .resident } else t))

end Sys2Proof.Machine
end

