-- ==== Sys2Proof/Machine/Save.lean ====
section
/-!
DEFINITION. The save record of a team (R413 to R418): its layout, where firmware writes it in the save areas (R44, R46, R64), and
how it is loaded (R419).
-/
namespace Sys2Proof.Machine

/-! Fields of a record. -/

/-- Numbers written at offsets of a record, as (offset, bytes, value). -/
abbrev Fields := List (Nat × Nat × Nat)
/-- Write fields. -/
def Memory.put_ (m : Memory) (fs : Fields) : Memory := fs.foldl (fun m f => m.wrNat f.1 f.2.1 f.2.2) m
/-- A size padded to whole units. -/
def pad64 (n : Nat) : Nat := (n + 63) / 64 * 64
/-- The values of a list as one number, each of w bits, the first lowest. -/
def packNat (w : Nat) : List Nat → Nat
  | [] => 0
  | a :: t => a % 2 ^ w + 2 ^ w * packNat w t
/-- Element i of w bits of a number. -/
def fieldNat (v w i : Nat) : Nat := v / 2 ^ (w * i) % 2 ^ w
/-- States as one number, element i in bits 2i and 2i + 1. -/
def packSt (xs : List Standing) : Nat := packNat 2 (xs.map (fun x => (stCode x).toNat))
/-- State i of such a number. -/
def stAt (v i : Nat) : Standing := stOf (BitVec.ofNat 2 (fieldNat v 2 i))
/-- The codes of R410. -/
def RKind.code : RKind → BitVec 4
  | .header => 0 | .next => 1 | .reissue => 2 | .await => 3 | .replay => 4 | .ended => 5
def RKind.ofCode (c : BitVec 4) : RKind :=
  match c.toNat with
  | 0 => .header | 1 => .next | 2 => .reissue | 3 => .await | 4 => .replay | _ => .ended

/-! The register section (R413, R418). -/

/-- The v, p and s registers that a stop saves (R413). p127 is a constant (R133). -/
structure SavedSets where
  v : BitVec 256
  p : BitVec 128
  s : BitVec 128
  deriving DecidableEq, Repr
def Role.sets (x : Role) (l : Launch) : SavedSets :=
  match if x.ended then some .ended else x.stop, l.side.find? (fun e => e.off == x.pos.pc) with
  | some .ended, _ => { v := 0, p := 0, s := 0 }
  | some .header, some e => { v := e.vlive, p := e.plive, s := e.slive }
  | _, _ =>
    { v := BitVec.ofNat 256 (natOfBits (fun n => x.v.any (fun r => r.1 / 128 == n)) 256), p := BitVec.allOnes 127 |>.setWidth 128
      s := BitVec.allOnes 128 }
/-- The members of a set, in ascending order. -/
def indices {n : Nat} (b : BitVec n) : List Nat := (List.range n).filter (fun i => b.getLsbD i)
/-- The bytes of a p block and of a v block of a role of n groups. -/
def pBlock (n : Nat) : Nat := pad64 (3 * n)
def vBlock (n : Nat) : Nat := pad64 (64 + 34 * n)
/-- REGLEN. -/
def SavedSets.len (k : SavedSets) (n : Nat) : Nat := (indices k.p).length * pBlock n + (indices k.v).length * vBlock n
/-- The values and the standing of a p register. -/
def Role.prow (x : Role) (n : Nat) : PRow :=
  if n = 127 then { val := lowMask x.lanes, lo := 0, hi := 0 } else (tget x.p n).getD { val := 0, lo := 0, hi := 0 }
/-- The register section of a role, at an offset. -/
def Role.regFields (x : Role) (k : SavedSets) (at_ : Nat) : Fields :=
  let n := x.ngroups
  let ps := indices k.p
  let vAt := at_ + ps.length * pBlock n
  ((List.range ps.length).zip ps).flatMap (fun e =>
    let r := x.prow e.2
    let st := packNat 2 ((List.range (8 * n)).map (fun l => (r.lo.getLsbD l).toNat + 2 * (r.hi.getLsbD l).toNat))
    [(at_ + e.1 * pBlock n, n, r.val.toNat), (at_ + e.1 * pBlock n + n, 2 * n, st)]) ++
  ((List.range (indices k.v).length).zip (indices k.v)).flatMap (fun e =>
    let b := vAt + e.1 * vBlock n
    let row (g : Nat) : Option VRow := tget x.v (128 * e.2 + g)
    (b, 16, natOfBits (fun g => (row g).isSome) n) ::
    (List.range n).flatMap (fun g =>
      match row g with
      | some r => [(b + 64 + 32 * g, 32, r.vals.toNat), (b + 64 + 32 * n + 2 * g, 2, r.st.toNat)]
      | none => []))
/-- The registers that a section restores: the rows that the heads name, and the p registers (R418). -/
def Role.loadRegs (x : Role) (m : Memory) (k : SavedSets) (at_ : Nat) : Role :=
  let n := x.ngroups
  let ps := indices k.p
  let vs := indices k.v
  let vAt := at_ + ps.length * pBlock n
  let prow (i : Nat) : PRow :=
    let b := at_ + i * pBlock n
    let st := m.rdNat (b + n) (2 * n)
    { val := BitVec.ofNat 1024 (m.rdNat b n)
      lo := BitVec.ofNat 1024 (natOfBits (fun l => st.testBit (2 * l)) (8 * n))
      hi := BitVec.ofNat 1024 (natOfBits (fun l => st.testBit (2 * l + 1)) (8 * n)) }
  let rows (i : Nat) (r : Nat) : List (Nat × VRow) :=
    let b := vAt + i * vBlock n
    ((List.range n).filter (fun g => (m.rdNat b 16).testBit g)).map (fun g =>
      (128 * r + g, { vals := BitVec.ofNat 256 (m.rdNat (b + 64 + 32 * g) 32)
                      st := BitVec.ofNat 16 (m.rdNat (b + 64 + 32 * n + 2 * g) 2) }))
  { x with
    p := (((List.range ps.length).zip ps).map (fun e => (e.2, prow e.1))).filter (fun e =>
      e.1 != 127 && e.2 != { val := 0, lo := 0, hi := 0 })
    v := ((List.range vs.length).zip vs).flatMap (fun e => rows e.1 e.2) }

/-! The role control record (R416, R417). -/

/-- PC and CLAUSE: the item at which a role resumes, and the header of its clause. -/
def Role.resumeAt (x : Role) : BitVec 32 × BitVec 32 :=
  match x.stop with
  | some .header => (x.pos.pc, x.pos.pc)
  | some .await => (x.item.pc, x.item.hdr)
  | _ => (x.pos.pc, x.pos.hdr)
/-- The role control block (R417). -/
def Role.controlBlock (x : Role) (regLen : Nat) : BitVec 512 :=
  let b (f : TrapEntry → Bool) : BitVec 1 := BitVec.ofBool ((x.entry.map f).getD false)
  let d : BitVec 4 := BitVec.ofBool x.deferred.remote.isSome ++ BitVec.ofBool x.deferred.bar.isSome ++
    BitVec.ofBool x.deferred.overlay.isSome ++ BitVec.ofBool x.deferred.dep.isSome
  let n8 (f : TrapEntry → Nat) : BitVec 8 := BitVec.ofNat 8 ((x.entry.map f).getD 0)
  x.resumeAt.1 ++ x.resumeAt.2 ++ (if x.ended then RKind.ended else x.stop.getD .next).code ++ (0 : BitVec 4) ++
  BitVec.ofNat 8 x.div.length ++ BitVec.ofNat 8 x.ret.length ++ x.stage ++ x.ctx ++ BitVec.ofBool x.ovf ++
  BitVec.ofBool x.ctNew ++ b (fun _ => true) ++ b TrapEntry.pcw ++ b TrapEntry.next ++ (0 : BitVec 1) ++ stCode x.ct1.st ++
  stCode x.ct0.st ++ x.batch ++ x.nmcCount ++ (x.entry.map TrapEntry.trClause).getD 0 ++ n8 TrapEntry.divDepth ++
  n8 TrapEntry.retDepth ++ (0 : BitVec 16) ++ BitVec.ofNat 32 regLen ++ (0 : BitVec 4) ++ d ++ (0 : BitVec 216)
/-- A divergence-stack entry (R126). -/
def DivEntry.bits (e : DivEntry) : BitVec 2176 :=
  (0 : BitVec 62) ++ BitVec.ofBool e.phase ++ BitVec.ofBool e.taint ++ e.joinoff ++ e.falloff ++ e.taken ++ e.mask
def DivEntry.ofBits (b : BitVec 2176) : DivEntry :=
  { mask := b.extractLsb' 0 1024, taken := b.extractLsb' 1024 1024, falloff := b.extractLsb' 2048 32
    joinoff := b.extractLsb' 2080 32, taint := b.getLsbD 2112, phase := b.getLsbD 2113 }
/-- The solve-state registers in the order of their words. -/
def Solve.regs (k : Solve) : List SVal := [k.tol, k.pass, k.grow, k.limit, k.max, k.stat, k.wsstat]
/-- The suspension that a role's record holds (R411). -/
def Role.suspended (x : Role) : Option Susp := x.susp.find? (fun y => !y.gone && y.pre.isSome)
/-- A role's record at an offset (R416). -/
def Role.fields (x : Role) (l : Launch) (b : Nat) : Fields :=
  let k := x.sets l
  let dword (v : Option DWord) : Nat := (v.getD 0).toNat
  let sv (i : Nat) : SVal := if k.s.getLsbD i then x.sreg (BitVec.ofNat 7 i) else { val := 0, st := .S }
  let lane (o : Nat) (m : Mask) : Nat × Nat × Nat := (b + o, 128, m.toNat)
  [(b, 64, (x.controlBlock (k.len x.ngroups)).toNat), lane 0x40 x.mask, lane 0xC0 (x.unfinished.getD 0), lane 0x140 x.dead,
   lane 0x1C0 x.off, lane 0x240 x.trap.lanes, lane 0x2C0 ((x.entry.map TrapEntry.mask).getD 0),
   (b + 0x340, 128, packNat 64 (x.ret.map (fun e => e.off.toNat + 2 ^ 32 * (e.depth % 256)))),
   (b + 0x3C0, 56, packNat 64 (x.solve.regs.map (fun v => v.val.toNat))),
   (b + 0x3F8, 8, packSt (x.solve.regs.map SVal.st)),
   (b + 0x400, 24, packNat 64 [x.solve.cmax.toNat, x.solve.npend, x.solve.box.toNat]),
   (b + 0x440, 64, packNat 64 (x.ms.map BitVec.toNat)),
   (b + 0x480, 64, packNat 64 (((x.suspended.map (fun y => y.op.record)).getD []).map BitVec.toNat)),
   (b + 0x4C0, 64, x.ct0.entries.toNat + 2 ^ 256 * x.ct1.entries.toNat),
   (b + 0x500, 64, packNat 64 [x.trap.code.toNat, x.trap.pc.toNat, x.trap.aux.val.toNat, dword x.deferred.dep,
     dword x.deferred.overlay, dword x.deferred.bar, dword x.deferred.remote, (stCode x.trap.aux.st).toNat]),
   (b + 0x540, 1024, packNat 64 ((List.range 128).map (fun i => (sv i).val.toNat))),
   (b + 0x940, 32, packSt ((List.range 128).map (fun i => (sv i).st))),
   (b + 0x960, 64, k.v.toNat + 2 ^ 256 * k.p.toNat + 2 ^ 384 * k.s.toNat),
   (b + 0x9A0, 8, (x.nmcErr.map (fun v => v.toNat + 2 ^ 32)).getD 0)] ++
  ((List.range x.div.length).zip x.div).map (fun e => (b + 0x1000 + 272 * e.1, 272, e.2.bits.toNat))
/-- A deferred fault as a record holds it. -/
def deferredAt (v : Nat) (pend : Bool) (i : Nat) : Option DWord :=
  if pend then some (BitVec.ofNat 64 (fieldNat v 64 i)) else none
/-- A role with what its record holds: at b the role's record, at reg its register section. What no field holds stays with the
role (log 50). -/
def Role.load (x : Role) (m : Memory) (b reg : Nat) : Role :=
  let rd (o n : Nat) : Nat := m.rdNat (b + o) n
  let c : BitVec 512 := BitVec.ofNat 512 (rd 0 64)
  let f (lo n : Nat) : Nat := (c.extractLsb' lo n).toNat
  let mask (o : Nat) : Mask := BitVec.ofNat 1024 (rd o 128)
  let kind := RKind.ofCode (c.extractLsb' 444 4)
  let pc : BitVec 32 := c.extractLsb' 480 32
  let clause : BitVec 32 := c.extractLsb' 448 32
  let words (o i : Nat) : DWord := BitVec.ofNat 64 (rd (o + 8 * i) 8)
  let solve (i : Nat) : SVal := { val := words 0x3C0 i, st := stAt (rd 0x3F8 8) i }
  let tr := rd 0x500 64
  let sets : SavedSets :=
    { v := BitVec.ofNat 256 (rd 0x960 32), p := BitVec.ofNat 128 (rd 0x980 16), s := BitVec.ofNat 128 (rd 0x990 16) }
  let slot (o : Nat) (st : BitVec 2) : CtSlot := { entries := BitVec.ofNat 256 (rd o 32), st := stOf st }
  let x : Role := { x with
    stop := some kind, ended := kind == .ended
    pos := if kind == .await then x.pos else { x.pos with pc := pc, hdr := if kind == .header then x.pos.hdr else clause }
    item := if kind == .await then { x.item with pc := pc, hdr := clause } else x.item
    stage := c.extractLsb' 408 16, ctx := c.extractLsb' 394 14, ovf := c.getLsbD 393, ctNew := c.getLsbD 392
    batch := c.extractLsb' 352 32, nmcCount := c.extractLsb' 320 32
    entry := if c.getLsbD 391 then some
        { mask := mask 0x2C0, divDepth := f 280 8, retDepth := f 272 8, trClause := c.extractLsb' 288 32
          resume := (x.entry.map TrapEntry.resume).getD (CodePos.header (c.extractLsb' 288 32))
          next := c.getLsbD 389, pcw := c.getLsbD 390 }
      else none
    mask := mask 0x40, dead := mask 0x140, off := mask 0x1C0
    unfinished := if kind == .replay then x.unfinished.map (fun _ => mask 0xC0) else x.unfinished
    ret := (List.range (f 424 8)).map (fun i =>
      { off := (words 0x340 i).setWidth 32, depth := fieldNat (words 0x340 i).toNat 8 4 })
    div := (List.range (f 432 8)).map (fun i => DivEntry.ofBits (BitVec.ofNat 2176 (rd (0x1000 + 272 * i) 272)))
    solve := { tol := solve 0, pass := solve 1, grow := solve 2, limit := solve 3, max := solve 4, stat := solve 5
               wsstat := solve 6, cmax := words 0x400 0, npend := (words 0x400 1).toNat, box := words 0x400 2 != 0 }
    ms := (List.range 8).map (words 0x440)
    ct0 := slot 0x4C0 (c.extractLsb' 384 2), ct1 := slot 0x4E0 (c.extractLsb' 386 2)
    trap := { code := BitVec.ofNat 8 tr, pc := BitVec.ofNat 32 (fieldNat tr 64 1)
              aux := { val := BitVec.ofNat 64 (fieldNat tr 64 2), st := stAt (fieldNat tr 64 7) 0 }, lanes := mask 0x240 }
    deferred := { dep := deferredAt tr (c.getLsbD 216) 3, overlay := deferredAt tr (c.getLsbD 217) 4
                  bar := deferredAt tr (c.getLsbD 218) 5, remote := deferredAt tr (c.getLsbD 219) 6 }
    nmcErr := if (rd 0x9A0 8).testBit 32 then some (BitVec.ofNat 32 (rd 0x9A0 8)) else none
    s := ((indices sets.s).map (fun i => (i, ({ val := words 0x540 i, st := stAt (rd 0x940 32) i } : SVal)))).filter (fun e =>
      e.2 != { val := 0, st := .S }) }
  x.loadRegs m sets reg
/-- The eight words of the suspension in a role's record. -/
def suspWords (m : Memory) (b : Nat) : List DWord := (List.range 8).map (fun i => BitVec.ofNat 64 (m.rdNat (b + 0x480 + 8 * i) 8))
/-- A suspended operation as its record gives it (R328, R419); what no field holds stays with it: register operands, the other
pieces of a joint operation, and an operation that has no groups. -/
def MOp.load (m : MOp) (ws : List DWord) : MOp :=
  let w7 : DWord := ws[7]?.getD 0
  match recordReq ws, m.pieces with
  | some q, [p] => { m with
      kind := q.kind, fmt := q.fmt, ct := q.ct, w := q.w, acc := q.acc, word0 := ws[0]?.getD 0, x64 := ws[1]?.getD 0
      pieces := [{ p with a := q.a, b := q.b, groups := q.groups, done := (w7.extractLsb' 53 6).toNat
                          sstand := stOf (w7.extractLsb' 60 2), slot := if q.ct then some (w7.getLsbD 59) else none }] }
  | _, _ => m

/-! The team (R414, R415). -/

/-- Where the sections of a record stand: the scratch, the operand buffers, scale memory, and the register section of each role;
and the record's length. -/
structure RecordMap where
  scratch : Nat
  bufs : Nat
  scale : Nat
  regs : List Nat
  len : Nat
  deriving DecidableEq, Repr
/-- The sections of a record of a team with these saved sets. -/
def recordMap (roles scratch : Nat) (held : Bool) (lens : List Nat) : RecordMap :=
  let a := 0x200 + 16384 * roles
  let b := a + pad64 (scratch + scratch / 128)
  let c := if held then b + 264192 else b
  let d := if held then c + 34816 else c
  { scratch := a, bufs := b, scale := c, regs := (List.range lens.length).map (fun i => d + (lens.take i).sum), len := d + lens.sum }
/-- The length of a role's register section. -/
def Role.regLen (x : Role) (l : Launch) : Nat := (x.sets l).len x.ngroups
def Team.recordMap (t : Team) (l : Launch) : RecordMap :=
  Sys2Proof.Machine.recordMap t.roles.length l.scratch t.ob.isSome (t.roles.map (fun x => x.regLen l))
/-- The team control block (R415). -/
def Team.controlBlock (t : Team) (l : Launch) : BitVec 512 :=
  let g (n : Nat) : ObGen := (t.ob.map (fun o => o.gen n)).getD { gen := 0, latched := false, cons := false }
  let flags (f : Nat → Bool) : BitVec 8 := BitVec.ofNat 8 (natOfBits f 8)
  let sg := t.sg.getD (0, 0)
  t.serial ++ t.taskidx ++ BitVec.ofNat 32 (t.recordMap l).len ++ BitVec.ofNat 20 l.scratch ++ BitVec.ofNat 4 t.roles.length ++
  (0 : BitVec 8) ++ (0x5356 : BitVec 16) ++ (1 : BitVec 16) ++
  BitVec.ofNat 128 (packNat 16 ((List.range 8).map (fun n => (g n).gen.toNat))) ++ flags t.obLatched ++
  flags (fun n => (g n).cons) ++ BitVec.ofBool t.ob.isSome ++ BitVec.ofBool t.sg.isSome ++ sg.1 ++ sg.2 ++ t.prio ++
  (0 : BitVec 163)
/-- A barrier's 16 bits (R414). -/
def Barrier.bits (b : Barrier) : BitVec 16 :=
  (0 : BitVec 6) ++ b.arrived ++ b.latched.getD 0 ++ BitVec.ofBool b.latched.isSome ++ BitVec.ofBool b.phase
def Barrier.ofBits (b : BitVec 16) : Barrier :=
  { phase := b.getLsbD 0, latched := if b.getLsbD 1 then some (b.extractLsb' 2 4) else none, arrived := b.extractLsb' 6 4 }
/-- A gang's list as GSET gives it (R337, R414). -/
def Gang.bits (k : Gang) : Nat := packNat 3 (k.roles.map (fun r => 4 + r.toNat))
def gangRoles (v : Nat) : List (BitVec 2) :=
  ((List.range 6).filter (fun e => 4 ≤ fieldNat v 3 e)).map (fun e => BitVec.ofNat 2 (fieldNat v 3 e))
/-- Bytes of a storage at another place, without their standing. -/
def Memory.place (m src : Memory) (a b n : Nat) : Memory := m.copyFrom src a b n false
/-- The states of n sectors or entries from q, 2 bits each, as fields of 64 entries. -/
def stdFields (m : Memory) (q at_ n : Nat) : Fields :=
  (List.range ((n + 31) / 32)).map (fun i => (at_ + 8 * i, min 8 ((n - 32 * i + 3) / 4),
    packSt ((List.range (min 32 (n - 32 * i))).map (fun j => m.st (q + 32 * i + j)))))
/-- Set n states from q as such fields hold them. -/
def Memory.loadStd (m src : Memory) (q at_ n : Nat) : Memory :=
  (List.range n).foldl (fun m i => m.setSt (q + i) (stAt (src.rd (at_ + i / 4)).toNat (i % 4))) m
/-- The save record of a team (R414), from offset 0. -/
def Team.saveRecord (t : Team) (l : Launch) : Memory :=
  let k := t.recordMap l
  let idx (n : Nat) : List Nat := List.range n
  let head : Fields :=
    [(0, 64, (t.controlBlock l).toNat), (0x40, 32, packNat 16 (t.bars.map (fun b => b.bits.toNat))),
     (0x60, 8, packNat 16 (t.roles.map (fun x => x.barOut.toNat))), (0x80, 64, packNat 128 (t.gangs.map Gang.bits)),
     (0xC0, 128, natOfBits (fun e => t.released.contains e) 1024)]
  let roles := (idx t.roles.length).zip t.roles
  let m := Memory.zero.put_ (head ++ roles.flatMap (fun e =>
    e.2.fields l (0x200 + 16384 * e.1) ++ e.2.regFields (e.2.sets l) (k.regs[e.1]?.getD 0)))
  let m := (m.place t.scratch 0 k.scratch l.scratch).put_ (stdFields t.scratch 0 (k.scratch + l.scratch) (l.scratch / 32))
  match t.ob with
  | none => m
  | some o =>
    let m := (m.place o.mem 0 k.bufs (8 * obBytes)).put_ (stdFields o.mem 0 (k.bufs + 8 * obBytes) 8192)
    (m.place o.scale 0 k.scale 32768).put_ (stdFields o.scale 0 (k.scale + 32768) 8192)
/-- A team with what its record at b holds (R419). -/
def Team.load (t : Team) (l : Launch) (m : Memory) (b : Nat) : Team :=
  let c : BitVec 512 := BitVec.ofNat 512 (m.rdNat b 64)
  let at_ (i : Nat) : Nat := b + 0x200 + 16384 * i
  let lens := (List.range t.roles.length).map (fun i => (BitVec.ofNat 512 (m.rdNat (at_ i) 64)).extractLsb' 224 32 |>.toNat)
  let k := Sys2Proof.Machine.recordMap t.roles.length l.scratch (c.getLsbD 175) lens
  let role (i : Nat) (x : Role) : Role :=
    let x := x.load m (at_ i) (b + k.regs[i]?.getD 0)
    { x with barOut := BitVec.ofNat 16 (m.rdNat (b + 0x60 + 2 * i) 2) }
  let gen (n : Nat) : ObGen :=
    { gen := BitVec.ofNat 16 (fieldNat (c.extractLsb' 192 128).toNat 16 n), latched := c.getLsbD (184 + n)
      cons := c.getLsbD (176 + n) }
  { t with
    serial := c.extractLsb' 448 64, taskidx := c.extractLsb' 416 32, prio := c.extractLsb' 163 3
    roles := ((List.range t.roles.length).zip t.roles).map (fun e => role e.1 e.2)
    bars := (List.range 16).map (fun i => Barrier.ofBits (BitVec.ofNat 16 (m.rdNat (b + 0x40 + 2 * i) 2)))
    gangs := (List.range 4).map (fun i => { roles := gangRoles (m.rdNat (b + 0x80 + 16 * i) 16), fills := [] })
    released := indices (BitVec.ofNat 1024 (m.rdNat (b + 0xC0) 128))
    scratch := (Memory.zero.place m (b + k.scratch) 0 l.scratch).loadStd m 0 (b + k.scratch + l.scratch) (l.scratch / 32)
    ob := if c.getLsbD 175 then some
        { mem := (Memory.zero.place m (b + k.bufs) 0 (8 * obBytes)).loadStd m 0 (b + k.bufs + 8 * obBytes) 8192
          gens := (List.range 8).map gen
          scale := (Memory.zero.place m (b + k.scale) 0 32768).loadStd m 0 (b + k.scale + 32768) 8192 }
      else none
    sg := if c.getLsbD 174 then some (c.extractLsb' 170 4, c.extractLsb' 166 4) else none }

/-! Where records are kept (R44, R46). -/

/-- The spare save area in a designated spare: its offset and its size (R44). -/
def Part.spareSave (p : Part) (spare : Nat) : Nat × Nat :=
  ((p.cfg.spares.findIdx? (fun b => b == spare)).bind (fun i => p.cfg.spareSaves[i]?)).getD (0, 0)
/-- The area that takes the record of a team: the partition's, or the spare's while its bulkhead is being remapped and the
partition's area lies there (R46). It is named by its spare, its first address and its size. -/
def Part.areaFor (p : Part) (k : Nat) : Option Nat × Nat × Nat :=
  let a := p.cfg.saveArea
  match if p.remapStop.contains k && a.1 == k then (p.remapTo.find? (fun r => r.1 == k)).map Prod.snd else none with
  | some b => (some b, (p.spareSave b).1, (p.spareSave b).2)
  | none => (none, a.1 * bulkSpan + a.2.1, a.2.2)
/-- The storage where a record begins. -/
def Part.recordAt (p : Part) (r : SaveRec) : Nat :=
  match r.spare with
  | some b => b * bulkSpan + r.at_
  | none => p.phys r.at_
/-- Can the stack that holds a record be reached now? -/
def State.recordOpen (s : State) (p : Part) (r : SaveRec) : Bool :=
  let b := s.bulk (p.recordAt r / bulkSpan)
  b.state == .running && !b.sref && !b.hung && (r.spare.isSome || !p.remapping.contains (r.at_ / bulkSpan))
/-- The place of a new record: the lowest 64-byte-aligned one of its area that no other record meets. DESIGN CHOICE (log 50):
firmware chooses it, and a save waits while there is none. -/
def State.placeRecord (s : State) (pp : Nat) (p : Part) (k len : Nat) : Option SaveRec :=
  let a := p.areaFor k
  let others := s.teams.filterMap (fun e => if e.2.part == pp then e.2.record.filter (fun r => r.spare == a.1) else none)
  let free (x : Nat) : Bool := x + len ≤ a.2.1 + a.2.2 && others.all (fun r => x + len ≤ r.at_ || r.at_ + r.len ≤ x)
  let tries := (a.2.1 + 63) / 64 * 64 :: (others.map (fun r => (r.at_ + r.len + 63) / 64 * 64)).filter (fun x => a.2.1 ≤ x)
  ((tries.filter free).foldl (fun (m : Option Nat) x => some (min x (m.getD x))) none).bind (fun x =>
    let r : SaveRec := { spare := a.1, at_ := x, len := len }
    if s.recordOpen p r then some r else none)
/-- Write the record of a team that has stopped, under the partition's first key slot (R64, R414); none while there is no room. -/
def State.writeRecord (s : State) (id : Nat) (p : Part) (l : Launch) : Option State :=
  (s.team? id).bind (fun t =>
    (s.placeRecord t.part p t.bulk (t.recordMap l).len).map (fun r =>
      (s.writeRegion (s.keyName p.cfg.slotFirst) (t.saveRecord l) 0 (p.recordAt r) r.len true).modTeam id (fun t =>
        { t with record := some r })))
/-- May the record of a team be read now? -/
def State.recordReady (s : State) (t : Team) : Bool :=
  match t.record, s.part? t.part with
  | some r, some p => s.recordOpen p r
  | _, _ => true
/-- Load a team's record, through the error path (R260, R419); its place is free again. What a record's bytes give is taken as it
is (log 50). -/
def State.loadRecord (s : State) (id : Nat) : State :=
  match s.team? id with
  | none => s
  | some t =>
    match t.record, s.part? t.part with
    | some r, some p =>
      match p.launch? t.serial with
      | none => s
      | some l =>
        let a := p.recordAt r
        let s := s.touch a r.len
        let m := s.seenRegion (s.keyName p.cfg.slotFirst) a r.len
        let ops (i : Nat) (x : Role) : Role :=
          { x with susp := x.susp.map (fun y =>
              if !y.gone && y.pre.isSome then { y with op := y.op.load (suspWords m (a + 0x200 + 16384 * i)) } else y) }
        s.modTeam id (fun t =>
          let t := t.load l m a
          { t with record := none, roles := ((List.range t.roles.length).zip t.roles).map (fun e => ops e.1 e.2) })
    | _, _ => s
/-- A remap has completed: the records in the spare's save area lie in the logical bulkhead's stack from now on (R46). -/
def State.adoptRecords (s : State) (pp k spare : Nat) : State :=
  { s with teams := s.teams.map (fun e =>
      if e.2.part == pp then
        (e.1, { e.2 with record := e.2.record.map (fun r =>
          if r.spare == some spare then { r with spare := none, at_ := k * bulkSpan + r.at_ } else r) })
      else e) }

end Sys2Proof.Machine
end

