-- ==== Sys2Proof/Machine/Special.lean ====
section
/-!
DEFINITION. The special registers (R134, R164): what SRS reads, what SWS writes and when it raises PRIV.
-/
namespace Sys2Proof.Machine

/-- How many lanes of a mask are set among the first n. -/
def countLanes (n : Nat) (m : Mask) : Nat := (lanesOf n m).length
/-- Bit k of a role's hierarchical summary of a mask, k from 0 to 31 (R125). -/
def summary (m : Mask) : Nat := natOfBits (fun k => (m >>> (32 * k)).setWidth 32 != (0 : BitVec 32)) 32
/-- %deadmask (R134). -/
def Role.deadMask (r : Role) : DWord :=
  let m := r.dead ||| r.off
  BitVec.ofNat 64 (summary m + countLanes r.lanes m * 2 ^ 32)
/-- %faultmask (R134). -/
def Role.faultMask (r : Role) : DWord :=
  BitVec.ofNat 64 ((if r.dead != 0 then 1 else 0) + (if r.off != 0 then 2 else 0) + countLanes r.lanes r.off * 2 ^ 32)

/-- A role-scope special register (R134), with its standing. -/
def Ctx.special (c : Ctx) (role : Nat) (num : BitVec 8) : SVal :=
  let r := c.role
  let w (n : Nat) : SVal := { val := BitVec.ofNat 64 n, st := .S }
  match num.toNat with
  | 0x02 => w role
  | 0x03 => w c.team.gx.toNat
  | 0x04 => w c.team.gy.toNat
  | 0x05 => w c.team.gz.toNat
  | 0x06 => w c.launch.gridX.toNat
  | 0x07 => w c.launch.gridY.toNat
  | 0x08 => w c.launch.gridZ.toNat
  | 0x09 => w c.team.taskidx.toNat
  | 0x0A => w c.launch.seed.toNat
  | 0x0B => w r.ctx.toNat
  | 0x0C => w (c.part.parentOf r.ctx).toNat
  | 0x0D => w c.team.bulk
  | 0x0E => w c.part.cfg.pid.toNat
  | 0x0F => w c.team.core
  | 0x10 => { val := r.deadMask, st := .S }
  | 0x11 => { val := r.faultMask, st := .S }
  | 0x12 => r.solve.tol
  | 0x13 => r.solve.pass
  | 0x14 => r.solve.grow
  | 0x15 => r.solve.limit
  | 0x16 => r.solve.max
  | 0x17 => r.solve.stat
  | 0x18 => r.solve.wsstat
  | 0x19 => w r.batch.toNat
  | 0x28 => w r.trap.code.toNat
  | 0x29 => w r.trap.pc.toNat
  | 0x2A => r.trap.aux
  | n => { val := (r.ms[n - 0x20]?).getD 0, st := .S }
/-- A lane-scope special register (R134). -/
def Ctx.laneSpecial (c : Ctx) (num : BitVec 8) (l : Nat) : DWord :=
  let lane := l + 8 * c.role.first
  match num.toNat with
  | 0x00 => BitVec.ofNat 64 lane
  | 0x01 => BitVec.ofNat 64 (lane / 8)
  | _ => if c.role.trap.lanes.getLsbD l then 1 else 0

/-- The guard of an unguarded instruction (R94). -/
def noGuard : Guard := { p := 127, neg := false }

/-- SRS (R164). -/
def execSrs (d : SpReg) (num : BitVec 8) (s : State) : Out :=
  withCtx s fun c =>
    match d with
    | .v n => s.putV noGuard [] false n (c.role.all.map (fun l => (l, c.laneSpecial num l, .S)))
    | .s n =>
      let x := c.special s.cur.role num
      s.putS n x.val x.st

/-- The solve-state registers that SWS writes, with their writable bits (R343, R344). -/
def solveBits (num : Nat) : Option DWord :=
  match num with
  | 0x12 | 0x16 => some 0xFFFFFFFFFFFFFFFF
  | 0x13 | 0x15 => some 0xFFFFFFFF
  | 0x14 => some 0xFF
  | 0x17 => some 0xFFFFFF0F
  | _ => none
/-- Write a solve-state register (R343 to R345). -/
def Solve.write (x : Solve) (num : Nat) (v : SVal) : Solve :=
  match num with
  | 0x12 => { x with tol := v }
  | 0x13 => { x with pass := v }
  | 0x14 => { x with grow := v }
  | 0x15 => { x with limit := v }
  | 0x16 => { x with max := v }
  | _ => { x with stat := v }
/-- Write a trap register in a handler (R405, R417): a written %trappc is where TRET goes. -/
def Role.writeTrap (r : Role) (num : Nat) (v : SVal) : Role :=
  match num with
  | 0x28 => { r with trap := { r.trap with code := v.val.setWidth 8 } }
  | 0x29 =>
    { r with trap := { r.trap with pc := v.val.setWidth 32 }, entry := r.entry.map (fun e => { e with pcw := true }) }
  | _ => { r with trap := { r.trap with aux := v } }
/-- May SWS write a register: a solve-state register, or a trap register inside a handler (R134)? -/
def Role.mayWrite (r : Role) (num : Nat) : Bool := (solveBits num).isSome || (0x28 ≤ num && r.entry.isSome)

/-- SWS (R134, R164): a Z s register is consumed first, then PRIV; %traplanes takes bit 0 and consumes nothing. -/
def execSws (num : BitVec 8) (a : SpReg) (s : State) : Out :=
  match a with
  | .s n =>
    withScalars s [n] fun c =>
      if !c.role.mayWrite num.toNat then s.trapCur .priv 0 c.role.mask
      else
        let x := c.role.sreg n
        let st := markSt c.role.taint x.st
        match solveBits num.toNat with
        | some m => s.modCur (fun r => { r with solve := r.solve.write num.toNat { val := x.val &&& m, st := st } })
        | none => s.modCur (fun r => r.writeTrap num.toNat { val := x.val, st := st })
  | .v n =>
    withCtx s fun c =>
      if !c.role.mayWrite num.toNat then s.trapCur .priv 0 c.role.mask
      else
        let on := maskOf (c.role.all.filter (fun l => (c.role.vreg n l).1.getLsbD 0))
        s.modCur (fun r => { r with trap := { r.trap with lanes := (r.trap.lanes &&& ~~~r.mask) ||| on } })

end Sys2Proof.Machine
end

