-- ==== Sys2Proof/Machine/Preempt.lean ====
section
/-!
DEFINITION. Pre-emption of a team (R410 to R413), its save and its restore (R419, with R74, R76 and R82), the timeout of a
partly filled gang (R409, R412), and retirement with the exit record (R431 to R436).
-/
namespace Sys2Proof.Machine

/-! The request and the stops. -/

/-- PREEMPT_REQUEST (R410). -/
def execPreemptRequest (team : Nat) (s : State) : Out := .next (s.requestStop team .priority)
/-- PDIST_EXPIRY (R9, R410, R412): a role that has issued PDIST instructions since the request stops. -/
def execPdistExpiry (r : RoleRef) (s : State) : Out :=
  .next (match s.team? r.team, s.role? r with
    | some t, some x =>
      match (s.part? t.part).bind (fun p => p.launch? t.serial) with
      | some l =>
        if t.phase == .stopping && x.stop.isNone && !x.ended && x.park.isNone && stopKind t l r.role x == some .next then
          s.modRole r (fun x => x.stopAs .next)
        else s
      | none => s
    | _, _ => s)
/-- GANG_PREEMPT_TIMEOUT (R409, R412). -/
def execGangPreemptTimeout (team : Nat) (s : State) : Out :=
  .next (match s.team? team with
    | some t =>
      if t.phase == .stopping && t.gangs.any (fun g => !g.fills.isEmpty) then s.endTeam { team := team, role := 0 } .timeout
      else s
    | none => s)

/-! The drain and the save (R411). -/

/-- Does a copy of the team wait for a generation that an operation has latched (R324, R411)? -/
def State.copyWaits (s : State) (t : Nat) (m : MOp) : Bool :=
  s.ops.any (fun e => e.2.owner.team == t && (match e.2.kind with
    | .copy k _ => (match k.dst with | .ob n _ g => m.reads n.toNat (g - 1) | _ => false)
    | _ => false))
/-- May an operation of a team that drains be suspended as it stands: the latest of its role (R411)? A role's record has room
for one, so that it completes while a dispute has suspended another (R408, R416; log 31). -/
def State.maySuspend (s : State) (t id : Nat) (o : EngOp) : Bool :=
  match o.kind with
  | .mat m =>
    m.suspendable && !o.moved && !s.copyWaits t m &&
    ((s.role? o.owner).map (fun r => r.latest == some id && !r.susp.any (fun x => !x.gone && x.pre.isSome))).getD false
  | _ => false
/-- A role as it is saved: its instructions have completed, and a stop at a header keeps the registers that the side table
marks live (R413). -/
def Role.saved (x : Role) (l : Launch) : Role :=
  let x := { x with out := [], lastPage := [], yielded := false, issued := 0, heldSeq := none }
  match x.stop, l.side.find? (fun e => e.off == x.pos.pc) with
  | some .header, some e =>
    { x with
      v := x.v.filter (fun r => e.vlive.getLsbD (r.1 / 128))
      p := x.p.filter (fun r => e.plive.getLsbD r.1)
      s := x.s.filter (fun r => e.slive.getLsbD r.1) }
  | _, _ => x
/-- Save a team that has drained: the engines stop its last operations, its record is written, and its charge is released (R72,
R411, R414); none while the record has no place. -/
def State.saveTeam (s : State) (id : Nat) (t : Team) (l : Launch) (last : List (Nat × EngOp)) : Option State :=
  let s := last.foldl (fun s e => match e.2.kind with
    | .mat m => s.suspend e.1 e.2 m (some e.2.batches) e.2.struck
    | _ => s) s
  let s := s.modPart t.part (fun p =>
    (List.range t.roles.length).foldl (fun p r => p.completeRetires { team := id, role := r }) p)
  let s := s.settleTeam id
  let s := s.modTeam id (fun t => { t with phase := .saved, roles := t.roles.map (fun r =>
    { r.saved l with acq := s.startAcq, rels := [] }) })
  (s.part? t.part).bind (fun p => s.writeRecord id p l)
/-- PREEMPT_DRAIN (R411): once every role has stopped and the engine work has drained, the team is saved. -/
def execPreemptDrain (team : Nat) (s : State) : Out :=
  .next (match s.team? team with
    | none => s
    | some t =>
      match (s.part? t.part).bind (fun p => p.launch? t.serial) with
      | none => s
      | some l =>
        let own := s.ops.filter (fun e => e.2.owner.team == team)
        let last := own.filter (fun e => s.maySuspend team e.1 e.2)
        if t.phase != .stopping || t.roles.any (fun r => r.stop.isNone && !r.ended) ||
            t.gangs.any (fun g => !g.fills.isEmpty) || t.due.any (fun d => t.released.contains d.idx) ||
            own.any (fun e => !s.maySuspend team e.1 e.2) then s
        else (s.saveTeam team t l last).getD s)

/-! The restore (R419). -/

/-- A saved team is on a core again. -/
def Team.putOn (t : Team) (c : Nat × Nat) : Team :=
  { t with phase := .resident, bulk := c.1, core := c.2, pre := none, limit := none, excl := [], members := none }
/-- The cores that members of a group of a launch hold. -/
def State.groupCores (s : State) (t : Team) (gid : BitVec 4) : List Nat :=
  ((s.teams.filter (fun e => e.2.part == t.part && e.2.serial == t.serial && e.2.sg.map Prod.fst == some gid &&
    e.2.phase != .saved)).map (fun e => e.2.core)).eraseDups
/-- The cores on which a saved team may be placed, in one bulkhead when b names it (R74, R77, R79, R82, R323). -/
def State.coresAgain (s : State) (p : Part) (t : Team) (l : Launch) (b : Option Nat) : List (Nat × Nat) :=
  let ms := match t.members, t.sg with
    | some g, _ => s.groupCores t g
    | none, some g => s.groupCores t g.1
    | none, none => []
  (s.eligible p l.queue.toNat).filter (fun c =>
    (b.map (fun k => k == c.1)).getD true && (t.limit.map (fun k => k == c.1)).getD true && !t.excl.contains c &&
    (ms.length < 8 || ms.contains c.2))
/-- Must a saved team wait for a placed team that uses its sub-window or a tag of it (R12, R242)? DESIGN CHOICE (log 51): a unit
that is placed together does not wait for its own members, though two of them may own one sub-window. -/
def State.windowBusy (s : State) (unit : List Nat) (t : Team) (l : Launch) : Bool :=
  (l.subWindow t.taskidx.toNat).isSome && s.teams.any (fun e => e.2.part == t.part && e.2.serial == t.serial &&
    !unit.contains e.1 && e.2.phase != .saved && l.subWindow e.2.taskidx.toNat == l.subWindow t.taskidx.toNat) ||
  s.tagsTaken t.part l t.taskidx.toNat
/-- Place one saved team by R74. A team that was gathered away and finds no core goes back to its own, and the gathering is
abandoned (R77). -/
def State.placeOne (s : State) (p : Part) (l : Launch) (b : Option Nat) (id : Nat) (t : Team) : Option State :=
  match probe l.seed t.taskidx.toNat (s.coresAgain p t l b) (s.canHand t.part p l t.ob.isSome) with
  | some c => some (s.modTeam id (fun t => t.putOn c))
  | none =>
    let own := (t.bulk, t.core)
    if t.pre == some .gather && s.canAccept t.part p l t.ob.isSome own && (s.bulk (p.bulkOf t.bulk)).state == .running then
      some ((s.modTeam id (fun t => t.putOn own)).modPart t.part (fun p =>
        { p with gathers := p.gathers.filter (fun g => !g.holds own) }))
    else none
/-- Place the saved members of a cohort as a unit by R76: with the cohort's size and its first %taskidx, member i on core n + i; a
core whose member has retired takes none. -/
def State.placeCohort (s : State) (p : Part) (l : Launch) (b : Option Nat) (t : Team) : Option State :=
  let ms := s.teams.filter (fun e => e.2.part == t.part && e.2.serial == t.serial && e.2.cohort == t.cohort && e.2.phase == .saved)
  let first := t.cohort.getD 0 * l.cohort
  let size := min l.cohort (l.total - first)
  let core (c : Nat × Nat) (a : Team) : Nat × Nat := (c.1, c.2 + (a.taskidx.toNat - first))
  let es := ((s.eligible p l.queue.toNat).filter (fun c => (b.map (fun k => k == c.1)).getD true))
  let fits (c : Nat × Nat) : Bool :=
    ms.all (fun e => s.canHand t.part p l e.2.ob.isSome (core c e.2) && !e.2.excl.contains (core c e.2) &&
      (e.2.limit.map (fun k => k == c.1)).getD true)
  (probe l.seed first (positions es size) fits).map (fun c =>
    ms.foldl (fun s e => s.modTeam e.1 (fun t => t.putOn (core c e.2))) s)
/-- Place a unit of saved teams, one by one. -/
def State.placeUnit (p : Part) (b : Option Nat) (unit : List Nat) : List Nat → State → Option State
  | [], s => some s
  | id :: rest, s =>
    match s.team? id with
    | none => State.placeUnit p b unit rest s
    | some t =>
      if t.phase != .saved then State.placeUnit p b unit rest s
      else match p.launch? t.serial with
      | none => none
      | some l =>
        if s.windowBusy unit t l then none
        else (if t.cohort.isSome then s.placeCohort p l b t else s.placeOne p l b id t).bind
          (State.placeUnit p b unit rest)
/-- Sort team names by ascending %taskidx. -/
def State.byIndex (s : State) (ts : List Nat) : List Nat :=
  let key (t : Nat) : Nat := ((s.team? t).map (fun a => a.taskidx.toNat)).getD 0
  ts.foldl (fun l t => l.takeWhile (fun x => key x ≤ key t) ++ [t] ++ l.dropWhile (fun x => key x ≤ key t)) []

/-- A role as it resumes (R419): a REPLAY, a REISSUE and a stop at a header execute at the resume point, and a BAR goes on
waiting. -/
def Role.resumed (x : Role) : Role :=
  { x with
    stop := none
    park := match x.stop, x.park with
      | some .await, some (.bar b) => some (.bar b)
      | _, _ => none
    pos := if x.stop = some .header then CodePos.header x.pos.pc else x.pos }
/-- Re-issue the operation that a pre-emption suspended (R411, R419). -/
def State.reissue (s : State) (id part r : Nat) : State :=
  match s.role? { team := id, role := r } with
  | none => s
  | some x =>
    let keep := x.susp.filter (fun y => y.pre.isNone)
    (x.susp.filter (fun y => y.pre.isSome)).foldl (fun s y =>
      let n := s.nextOp
      let s := s.addOp
        { owner := { team := id, role := r }, part := part, flag := none, locks := y.op.locks, batches := y.pre.getD [],
          started := false, moved := false, err := none, struck := y.struck, kind := .mat y.op }
      s.modRole { team := id, role := r } (fun x => { x with latest := some n }))
      (s.modRole { team := id, role := r } (fun x => { x with susp := keep }))
/-- Load a team that has been placed again (R419). -/
def State.loadTeam (s : State) (id : Nat) : State :=
  let s := s.loadRecord id
  match s.team? id with
  | none => s
  | some t =>
    let s := s.modTeam id (fun t => { t with roles := t.roles.map Role.resumed })
    (List.range t.roles.length).foldl (fun s r => s.reissue id t.part r) s
/-- Place and load a unit of saved teams, all together. -/
def State.restoreUnit (s : State) (p : Part) (unit : List Nat) : Option State :=
  let grouped := unit.any (fun i => ((s.team? i).map (fun t => t.sg.isSome)).getD false)
  let tries : List (Option Nat) := if grouped then (List.range p.cfg.size).map some else [none]
  match tries.findSome? (fun b => State.placeUnit p b unit (s.byIndex unit) s) with
  | none => none
  | some s =>
    let s := unit.foldl State.loadTeam s
    if unit.all (fun i => s.lockRoom i []) then some s else none
/-- May a saved team be placed again: is all that it stops with saved, and can the records be read (R419)? -/
def State.mayRestore (s : State) (team : Nat) : Bool :=
  (s.unit team).all (fun i => ((s.team? i).map (fun t => t.phase == .saved && s.recordReady t)).getD true)
/-- Place and load a saved team with all that it stops with, if that can be done now. -/
def State.restoreTeam (s : State) (p : Part) (team : Nat) : Option State :=
  if s.mayRestore team then s.restoreUnit p (s.unit team) else none

/-! Retirement (R431 to R436). -/

/-- Drop the suspended matrix operations of a finished team, as OBREL drops them (R342, R431); a gang that has not fired is no
operation, and its entries go with it. -/
def State.dropSuspended (s : State) (id : Nat) : State :=
  match s.team? id with
  | none => s
  | some t =>
    let live (x : Susp) : Bool := !x.gone
    if !t.roles.any (fun r => r.susp.any live) && t.gangs.all (fun g => g.fills.isEmpty) then s
    else
      let bits : BitVec 4 := BitVec.ofNat 4 (natOfBits (fun r => (t.roles[r]?.map (fun x => x.susp.any live)).getD false) 4)
      let bufs := t.roles.flatMap (fun r => (r.susp.filter live).flatMap (fun x => x.op.bufs)) ++
        t.gangs.flatMap (fun g => g.fills.flatMap (fun f => f.2.piece.bufs))
      let s := s.setTeam id { t with
        dropped := t.dropped ||| bits
        gangs := t.gangs.map (fun g => { g with fills := [] })
        roles := t.roles.map (fun r => { r with susp := r.susp.map (fun x => { x with gone := true }) }) }
      (bufs.foldl (fun s e => s.obReaderDone id e.1 e.2) s).flush id
/-- The LIVE tags that a team allocated or adopted (R431, step 3). -/
def Part.liveOf (p : Part) (id : Nat) : List Nat :=
  (p.ctxs.filter (fun e => e.2.state == .live &&
    (match e.2.adopter with | some a => a == id | none => e.2.owner == id))).map (fun e => e.1)
/-- The PENDING tags that a team allocated. -/
def Part.pendOf (p : Part) (id : Nat) : List Nat :=
  (p.ctxs.filter (fun e => e.2.state == .pending && e.2.owner == id)).map (fun e => e.1)
/-- Make tags HELD. -/
def Part.holdTags (p : Part) (tags : List Nat) : Part :=
  { p with ctxs := p.ctxs.map (fun e => if tags.contains e.1 then (e.1, { e.2 with state := .held, adopter := none }) else e) }

/-- Role lanes as team lanes. -/
def Role.teamLanes (r : Role) (m : Mask) : Mask := BitVec.shiftLeft m (8 * r.first)
/-- The lanes of a team that were killed with POISON_CONSUMED, and those that were switched off (R434). -/
def Team.poisoned (t : Team) : Mask := t.roles.foldl (fun (m : Mask) r => m ||| r.teamLanes r.dead) 0
def Team.switched (t : Team) : Mask := t.roles.foldl (fun (m : Mask) r => m ||| r.teamLanes r.off) 0
/-- The exit status (R435). -/
def Team.exitStatus (t : Team) : Nat :=
  let died := t.poisoned ||| t.switched != 0
  match t.fin with
  | some f => if f.reset then 4 else 3
  | none => if !died then 0 else if t.roles.any (fun r => r.exited != 0) then 1 else 2
/-- The header of an exit record (R435). -/
def Team.exitHeader (t : Team) (held pend : List Nat) : BitVec 512 :=
  let st := t.exitStatus
  let b16 (n : Nat) : BitVec 16 := BitVec.ofNat 16 n
  let b11 (n : Nat) : BitVec 11 := BitVec.ofNat 11 n
  let tag (l : List Nat) : BitVec 14 := BitVec.ofNat 14 (l.head?.getD 0)
  let pc : BitVec 32 := if st = 3 then (t.fin.map TeamEnd.pc).getD 0xFFFFFFFF else 0xFFFFFFFF
  let aux : DWord := if st = 3 then (t.fin.map (fun f => if f.user then f.aux else 0)).getD 0 else 0
  let has (f : Deferred → Bool) : BitVec 1 := BitVec.ofBool ((st == 3 || st == 4) && t.roles.any (fun r => f r.deferred))
  let fm : BitVec 2 := t.roles.foldl (fun m r => m ||| (r.faultMask).setWidth 2) 0
  let role : BitVec 2 := BitVec.ofNat 2 ((t.fin.map TeamEnd.role).getD 0)
  t.serial ++ t.taskidx ++ pc ++ aux ++ tag held ++ tag pend ++ (0 : BitVec 4) ++ b16 held.length ++ b16 pend.length ++
  b11 (countLanes 1024 t.poisoned) ++ b11 (countLanes 1024 t.switched) ++ (0 : BitVec 2) ++ (t.fin.map TeamEnd.code).getD 0 ++ role ++
  has (fun d => d.remote.isSome) ++ has (fun d => d.bar.isSome) ++ has (fun d => d.overlay.isSome) ++
  has (fun d => d.dep.isSome) ++ t.dropped ++ (0 : BitVec 4) ++ fm ++ (0 : BitVec 200) ++ (1 : BitVec 1) ++ BitVec.ofNat 7 st
/-- An exit record (R434). -/
def Team.exitRecord (t : Team) (held pend : List Nat) : List Byte :=
  natBytes 64 (t.exitHeader held pend).toNat ++ natBytes 128 t.poisoned.toNat ++ natBytes 128 t.switched.toNat
/-- A team counts as retired towards its launch (R36, R436). -/
def Launch.retired (l : Launch) (t : Team) : Launch :=
  let st := t.exitStatus
  let code := (t.fin.map TeamEnd.code).getD 0
  { l with
    teams := if t.task then l.teams else l.teams + 1
    tasks := if t.task then l.tasks + 1 else l.tasks
    deadTeams := if t.poisoned ||| t.switched != 0 then l.deadTeams + 1 else l.deadTeams
    firstIdx :=
      if t.task || st != 3 then l.firstIdx
      else match l.firstIdx with
        | some f => if t.taskidx < f.1 then some (t.taskidx, code) else some f
        | none => some (t.taskidx, code)
    faulted := l.faulted || st == 3
    reset := l.reset || st == 4 }
/-- Steps 2 and 3 of R431 for a finished team whose work has completed: it leaves its sharing group, and its LIVE tags become
HELD. -/
def State.leaveAll (s : State) (id : Nat) (t : Team) (p : Part) : State :=
  if t.retiring.isSome then s
  else
    let p := (List.range t.roles.length).foldl (fun p r => p.completeRetires { team := id, role := r }) p
    (s.setPart t.part (p.holdTags (p.liveOf id))).modTeam id (fun t =>
      { t with sg := none, retiring := some (p.liveOf id, p.pendOf id) })
/-- Steps 4 to 6 of R431; while the exit record has to wait, the team stays as it is. -/
def State.retireTeam (s : State) (id : Nat) (t : Team) (l : Launch) : State :=
  let tags := t.retiring.getD ([], [])
  let w := if t.task then (s, DevRes.ok)
    else s.devWrite t.part (l.doneAddr.toNat + 0x40 + 0x140 * t.taskidx.toNat) (t.exitRecord tags.1 tags.2)
  if w.2 == .wait then s
  else
    let s := w.1.doneErr t.part l.queue w.2
    let s := s.modPart t.part (fun p => p.modLaunch t.serial (fun l => l.retired t))
    ({ s.settleTeam id with teams := tdel s.teams id } : State).flushAll
/-- TEAM_RETIRE (R431). -/
def execTeamRetire (team : Nat) (s : State) : Out :=
  .next (match s.team? team with
    | none => s
    | some t =>
      if t.phase != .finishing then s
      else
        let s := s.dropSuspended team
        if s.ops.any (fun e => e.2.owner.team == team) then s
        else match s.team? team, s.part? t.part with
        | some t, some p =>
          if t.due.any (fun d => t.released.contains d.idx) then s
          else match p.launch? t.serial with
          | some l =>
            let s := s.leaveAll team t p
            s.retireTeam team ((s.team? team).getD t) l
          | none => s
        | _, _ => s)

end Sys2Proof.Machine
end

