-- ==== Sys2Proof/Machine/Distribute.lean ====
section
/-!
DEFINITION. The distributor: the order of heads, ready tasks and saved teams (R32, R33, R394), placement (R74, R76), gathering
(R77), and pre-emption for priority (R35).
-/
namespace Sys2Proof.Machine

/-! The order of heads (R32, R394). -/

/-- What the distributor chooses among. -/
inductive Cand where
  | task (k : Nat)
  | again (team : Nat)
  | head (serial : BitVec 64)
  deriving DecidableEq, Repr
/-- A head's priority (R32). -/
def Part.headPrio (p : Part) (l : Launch) : BitVec 3 :=
  l.prio.getD (if l.prioField.toNat ≤ 7 then l.prioField.setWidth 3 else (p.queue l.queue.toNat).prio)
/-- The head of a queue, when it is eligible (R32); a record whose tables are not read yet, or that waits for a team of its
own that was pre-empted (R35), is not. -/
def State.headOf (s : State) (pp : Nat) (p : Part) (q : Nat) : Option Launch :=
  match p.launches.find? (fun l => l.queue.toNat == q && l.unplaced) with
  | some l =>
    if l.phase == .running && p.serOk l &&
        !s.teams.any (fun e => e.2.part == pp && e.2.serial == l.serial && e.2.phase == .saved && e.2.pre == some .priority) then
      some l
    else none
  | none => none
/-- The candidates in the order in which the distributor takes them, with their priorities: at one priority the ready tasks
first, then the saved teams, then the heads (R32, R35, R394; DEDUCED, log entry 23). -/
def State.candidates (s : State) (pp : Nat) (p : Part) : List (Cand × BitVec 3) :=
  let qs := (List.range 64).map (fun i => (p.lastQueue.toNat + 1 + i) % 64)
  ((List.range 8).reverse.map (BitVec.ofNat 3)).flatMap (fun pr =>
    ((List.range p.cfg.size).filter (fun k => ((p.readyHead k).map (fun t => t.lprio == pr)).getD false)).map
      (fun k => (Cand.task k, pr)) ++
    (s.teams.filter (fun e => e.2.part == pp && e.2.phase == .saved && e.2.prio == pr)).map (fun e => (Cand.again e.1, pr)) ++
    (qs.filterMap (fun q => (s.headOf pp p q).bind (fun l =>
      if p.headPrio l == pr then some (Cand.head l.serial, pr) else none))))

/-! Placement. -/

/-- The size of the next cohort of a launch; 1 without cohorts (R76). -/
def Launch.nextSize (l : Launch) : Nat := if 2 ≤ l.cohort then min l.cohort (l.total - l.next) else 1
/-- The start of the next teams of a head on cores n to n + size - 1 of a bulkhead (R33, R74, R76). -/
def State.startHead (s : State) (pp : Nat) (l : Launch) (prio : BitVec 3) (c : Nat × Nat) : State :=
  let s := (List.range l.nextSize).foldl (fun s i =>
    s.handOver (l.gridTeam pp (l.next + i) prio (c.1, c.2 + i) s.nextTeam)) s
  s.modPart pp (fun p =>
    { (p.modLaunch l.serial (fun l => { l with next := l.next + l.nextSize, prio := some prio })) with
      lastQueue := l.queue, gathers := p.gathers.filter (fun g => g.serial != l.serial) })
/-- Are the cores of a gathered position still eligible for its launch? -/
def State.gatherStands (s : State) (p : Part) (l : Launch) (g : Gathering) : Bool :=
  let es := s.eligible p l.queue.toNat
  (List.range g.size).all (fun i => es.contains (g.bulk, g.start + i))
/-- Is a team that was moved out of a gathered position still to be placed (R77, step 2)? -/
def State.moving (s : State) (pp : Nat) (g : Gathering) : Bool :=
  s.teams.any (fun e => e.2.part == pp && e.2.pre == some .gather && e.2.excl.contains (g.bulk, g.start) &&
    (e.2.phase == .saved || e.2.phase == .stopping))
/-- Where the next team or cohort of a head goes, if anywhere; a gathered position takes its cohort once the teams that were in
its way have been placed (R77). DESIGN CHOICE (log 51): the members of a cohort are placed together, though two of them may own
one sub-window (R12). -/
def State.spotFor (s : State) (pp : Nat) (p : Part) (l : Launch) : Option (Nat × Nat) :=
  let n := l.nextSize
  let fits (ok : Nat × Nat → Bool) (c : Nat × Nat) : Bool := (List.range n).all (fun i => ok (c.1, c.2 + i))
  if (List.range n).any (fun i => s.slotBusy pp l (l.next + i)) then none
  else match p.gathers.find? (fun g => g.serial == l.serial) with
  | some g =>
    if s.gatherStands p l g && !s.moving pp g && fits (s.canAccept pp p l false) (g.bulk, g.start) then some (g.bulk, g.start)
    else none
  | none =>
    let es := s.eligible p l.queue.toNat
    probe l.seed l.next (if 2 ≤ l.cohort then positions es n else es) (fits (s.canHand pp p l false))
/-- Place a candidate, if it can be placed. -/
def State.tryCand (s : State) (pp : Nat) (p : Part) (pr : BitVec 3) : Cand → Option State
  | .head serial =>
    (p.launch? serial).bind (fun l => (s.spotFor pp p l).map (fun c => s.startHead pp l pr c))
  | .again team => s.restoreTeam p team
  | .task k =>
    match p.readyHead k with
    | none => none
    | some t =>
      (p.launch? t.serial).bind (fun l =>
        if s.slotBusy pp l t.idx.toNat then none
        else
          let es := (s.eligible p l.queue.toNat).filter (fun c => c.1 == k)
          (probe l.seed t.idx.toNat es (s.canHand pp p l false)).map (fun c =>
            (s.handOver (t.team l pp c s.nextTeam)).modPart pp (fun p => Part.advance { p with ready := p.ready.erase t })))

/-! Pre-emption for priority and gathering. -/

/-- The eligible cores of a candidate. -/
def State.coresFor (s : State) (p : Part) : Cand → List (Nat × Nat)
  | .head serial => ((p.launch? serial).map (fun l => s.eligible p l.queue.toNat)).getD []
  | .again team =>
    ((s.team? team).bind (fun t => (p.launch? t.serial).map (fun l => s.coresAgain p t l none))).getD []
  | .task k =>
    (((p.readyHead k).bind (fun t => p.launch? t.serial)).map (fun l =>
      (s.eligible p l.queue.toNat).filter (fun c => c.1 == k))).getD []
/-- Pre-empt the resident team of lowest priority, the one distributed last among equals, for a candidate that cannot be
placed; one at a time (R35). -/
def State.preemptFor (s : State) (pp : Nat) (p : Part) (c : Cand) (pr : BitVec 3) : Option State :=
  let cs := s.coresFor p c
  let low := s.teams.filter (fun e => e.2.part == pp && cs.contains (e.2.bulk, e.2.core) && e.2.prio < pr)
  if low.any (fun e => e.2.phase == .stopping && e.2.pre == some .priority) then none
  else
    let best := (low.filter (fun e => e.2.phase == .resident)).foldl (fun (b : Option (Nat × Team)) e =>
      match b with
      | none => some e
      | some x => if e.2.prio < x.2.prio || (e.2.prio == x.2.prio && x.2.order < e.2.order) then some e else some x) none
    best.map (fun e => s.requestStop e.1 .priority)
/-- Resident groups of a position. -/
def State.residentGroups (s : State) (pp : Nat) (p : Part) (n : Nat) (c : Nat × Nat) : Nat :=
  ((List.range n).flatMap (fun i => (s.onCore pp (c.1, c.2 + i)).map (fun e =>
    if e.2.phase == .inbound then 0 else ((p.launch? e.2.serial).map Launch.groups).getD 0))).sum
/-- The resident teams of the gathered cores that cannot accept their members yet (R77, step 2). -/
def State.inTheWay (s : State) (pp : Nat) (p : Part) (l : Launch) (g : Gathering) : List Nat :=
  ((List.range g.size).filter (fun i => !s.canAccept pp p l false (g.bulk, g.start + i))).flatMap (fun i =>
    ((s.onCore pp (g.bulk, g.start + i)).filter (fun e => e.2.phase == .resident)).map (fun e => e.1))
/-- Migrate teams away from the gathered cores. -/
def State.clearGather (s : State) (g : Gathering) (ts : List Nat) : State :=
  let cores := (List.range g.size).map (fun i => (g.bulk, g.start + i))
  ts.foldl (fun s e => (s.modTeam e (fun t => { t with excl := cores ++ t.excl })).requestStop e .gather) s
/-- Gather a position for a cohort that cannot be placed (R77); the state as it is while the teams in its way are being moved.
Positions with cores that are gathered for another cohort are not considered (log 51). -/
def State.gatherFor (s : State) (pp : Nat) (p : Part) (l : Launch) : Option State :=
  match p.gathers.find? (fun g => g.serial == l.serial) with
  | some g =>
    if !s.gatherStands p l g then some (s.modPart pp (fun p => { p with gathers := p.gathers.filter (fun x => x != g) }))
    else
      let ts := s.inTheWay pp p l g
      if !ts.isEmpty then some (s.clearGather g ts) else if s.moving pp g then some s else none
  | none =>
    let n := l.nextSize
    let ps := positions (s.eligible p l.queue.toNat) n
    let at_ := mix l.seed (BitVec.ofNat 64 l.next) % ps.length
    let free (c : Nat × Nat) : Bool :=
      (List.range n).all (fun i => (s.onCore pp (c.1, c.2 + i)).all (fun e => e.2.cohort.isNone && e.2.sg.isNone) &&
        !p.gathers.any (fun g => g.holds (c.1, c.2 + i)))
    let best := ((ps.drop at_ ++ ps.take at_).filter free).foldl (fun (b : Option (Nat × Nat)) c =>
      match b with
      | none => some c
      | some x => if s.residentGroups pp p n c < s.residentGroups pp p n x then some c else some x) none
    best.map (fun c =>
      let g : Gathering := { serial := l.serial, bulk := c.1, start := c.2, size := n }
      (s.modPart pp (fun p => { p with gathers := p.gathers ++ [g] })).clearGather g (s.inTheWay pp p l g))
/-- What the distributor does for a candidate that it cannot place. -/
def State.makeRoom (s : State) (pp : Nat) (p : Part) (c : Cand) (pr : BitVec 3) : Option State :=
  let busy (l : Launch) : Bool := (List.range l.nextSize).any (fun i => s.slotBusy pp l (l.next + i))
  match c with
  | .head serial =>
    match p.launch? serial with
    | none => none
    | some l =>
      if busy l then none
      else match if 2 ≤ l.cohort then s.gatherFor pp p l else none with
      | some s => some s
      | none => s.preemptFor pp p c pr
  | .again team => if s.mayRestore team then s.preemptFor pp p c pr else none
  | .task k =>
    if ((p.readyHead k).bind (fun t => (p.launch? t.serial).map (fun l => s.slotBusy pp l t.idx.toNat))).getD true then none
    else s.preemptFor pp p c pr
/-- Go through the candidates: the first that can be placed is placed, when the step is for it; what cannot be placed is
held, after room has been asked for, and blocks nothing (R32, R35, R74, R77, R394). -/
def State.distribute (pp : Nat) (p : Part) (mine : Cand → Bool) : List (Cand × BitVec 3) → State → State
  | [], s => s
  | (c, pr) :: t, s =>
    match s.tryCand pp p pr c with
    | some r => if mine c then r else s
    | none =>
      match s.makeRoom pp p c pr with
      | some r => if mine c then r else State.distribute pp p mine t s
      | none => State.distribute pp p mine t s
/-- DISTRIBUTE_TEAM (R32, R74). -/
def execDistributeTeam (part : Nat) (s : State) : Out :=
  .next (match s.part? part with
    | none => s
    | some p => State.distribute part p (fun c => match c with | .head _ => true | _ => false) (s.candidates part p) s)
/-- TASK_PLACE (R394). -/
def execTaskPlace (part : Nat) (bulk : Nat) (s : State) : Out :=
  .next (match s.part? part with
    | none => s
    | some p => State.distribute part p (fun c => c == .task bulk) (s.candidates part p) s)
/-- TEAM_RESTORE (R35, R419): the team and all that it stops with are placed by R74 in their turn, loaded and resumed. -/
def execTeamRestore (team : Nat) (s : State) : Out :=
  .next (match s.team? team with
    | none => s
    | some t =>
      match s.part? t.part with
      | none => s
      | some p => State.distribute t.part p (fun c => c == .again team) (s.candidates t.part p) s)

end Sys2Proof.Machine
end

