-- ==== Sys2Proof/Machine/FloatOps.lean ====
section
/-!
DEFINITION. The floating-point instructions (R200 to R209): one definition per opcode over the shared lane operation.
-/
namespace Sys2Proof.Machine

/-- A one-source float instruction; wide tells of a 64-bit result. -/
def execFlt1 (o : F1) (wide : Bool) (f : Fmt → Nat → Nat) (s : State) : Out :=
  execVec o.g [.reg o.ty o.a] true (tySt o.ty) wide o.d
    (fun v => ofPattern (f (Fmt.ofTy o.ty) (floatBits o.ty (v 0)))) s
/-- A two-source float instruction. -/
def execFlt2 (o : F2) (f : Fmt → Nat → Nat → Nat) (s : State) : Out :=
  execVec o.g [.reg o.ty o.a, .reg o.ty o.b] true (tySt o.ty) o.ty.is64 o.d
    (fun v => ofPattern (f (Fmt.ofTy o.ty) (floatBits o.ty (v 0)) (floatBits o.ty (v 1)))) s

/-- FADD (R201). -/
def execFadd (o : F2) (s : State) : Out := execFlt2 o (fun f a b => f.add o.rnd a b) s
/-- FSUB (R201). -/
def execFsub (o : F2) (s : State) : Out := execFlt2 o (fun f a b => f.sub o.rnd a b) s
/-- FMUL (R201). -/
def execFmul (o : F2) (s : State) : Out := execFlt2 o (fun f a b => f.mul o.rnd a b) s
/-- FDIV (R201). -/
def execFdiv (o : F2) (s : State) : Out := execFlt2 o (fun f a b => f.div o.rnd a b) s
/-- FMA, with one rounding (R201). -/
def execFma (o : F3) (s : State) : Out :=
  execVec o.g [.reg o.ty o.a, .reg o.ty o.b, .reg o.ty o.c] true (tySt o.ty) o.ty.is64 o.d
    (fun v => ofPattern ((Fmt.ofTy o.ty).fma o.rnd (floatBits o.ty (v 0)) (floatBits o.ty (v 1))
      (floatBits o.ty (v 2)))) s
/-- FSQRT (R201). -/
def execFsqrt (o : F1) (s : State) : Out := execFlt1 o o.ty.is64 (fun f a => f.sqrt o.rnd a) s
/-- FRCPA (R202). -/
def execFrcpa (o : F1) (s : State) : Out := execFlt1 o o.ty.is64 (fun f a => f.rcpa o.rnd a) s
/-- FRSQA (R202). -/
def execFrsqa (o : F1) (s : State) : Out := execFlt1 o o.ty.is64 (fun f a => f.rsqa o.rnd a) s
/-- FMIN (R203). -/
def execFmin (o : F2) (s : State) : Out := execFlt2 o Fmt.min s
/-- FMAX (R203). -/
def execFmax (o : F2) (s : State) : Out := execFlt2 o Fmt.max s
/-- FABS (R204). -/
def execFabs (o : F1) (s : State) : Out := execFlt1 o o.ty.is64 Fmt.abs s
/-- FNEG (R204). -/
def execFneg (o : F1) (s : State) : Out := execFlt1 o o.ty.is64 Fmt.negate s
/-- FCPYS (R204). -/
def execFcpys (o : F2) (s : State) : Out := execFlt2 o Fmt.cpys s
/-- FCMP (R205): the standing is the join of the sources, whatever the type. -/
def execFcmp (g : Guard) (cc : FCmp) (ty : Ty) (d : BitVec 7) (a : Src) (b : Src) (s : State) : Out :=
  execTest g [.reg ty a, .reg ty b] d
    (fun v => (Fmt.ofTy ty).cmp cc (floatBits ty (v 0)) (floatBits ty (v 1))) s
/-- FCLASS: one 32-bit register (R206). -/
def execFclass (o : F1) (s : State) : Out := execFlt1 o false Fmt.fclass s
/-- FRINT (R207). -/
def execFrint (o : F1) (s : State) : Out := execFlt1 o o.ty.is64 (fun f a => f.rint o.rnd a) s
/-- FSCALE: B is a 32-bit signed exponent (R208). -/
def execFscale (o : F2) (s : State) : Out :=
  execVec o.g [.reg o.ty o.a, .reg .i32 o.b] true (tySt o.ty) o.ty.is64 o.d
    (fun v => ofPattern ((Fmt.ofTy o.ty).scale o.rnd (floatBits o.ty (v 0)) ((v 1).setWidth 32).toInt)) s
/-- FEXPN: one 32-bit register (R209). -/
def execFexpn (o : F1) (s : State) : Out := execFlt1 o false (fun f a => (f.expn a).toNat) s

end Sys2Proof.Machine
end

