-- ==== Sys2Proof/Machine/Integer.lean ====
section
/-!
DEFINITION. The integer instructions (R187 to R199): one definition per opcode over the shared lane operation.
-/
namespace Sys2Proof.Machine

/-- A two-source integer instruction in register form; B is read as tb (R190). -/
def execInt2 (o : I2) (tb : Ty) (f : Ty → Bool → DWord → DWord → DWord) (s : State) : Out :=
  execVec o.g [.reg o.ty o.a, .reg tb o.b] true (tySt o.ty) o.ty.is64 o.d (fun v => f o.ty o.sat (v 0) (v 1)) s
/-- The 96-bit form: the immediate is read as tb (R98, R190). -/
def execInt2I (o : I2I) (tb : Ty) (f : Ty → Bool → DWord → DWord → DWord) (s : State) : Out :=
  execVec o.g [.reg o.ty o.a, .imm (immVal tb o.imm)] true (tySt o.ty) o.ty.is64 o.d
    (fun v => f o.ty o.sat (v 0) (v 1)) s
/-- A one-source integer instruction; the result has 64 bits when wide (R193). -/
def execInt1 (o : I1) (wide : Bool) (f : Ty → Bool → DWord → DWord) (s : State) : Out :=
  execVec o.g [.reg o.ty o.a] true (tySt o.ty) wide o.d (fun v => f o.ty o.sat (v 0)) s

/-- MOV (R188): a Z source moves. -/
def execMov (g : Guard) (ty : Ty) (d : BitVec 8) (a : Src) (s : State) : Out :=
  execVec g [.reg ty a] false id ty.is64 d (fun v => v 0) s
/-- LI (R189). -/
def execLi (g : Guard) (ty : Ty) (d : BitVec 8) (imm : BitVec 32) (s : State) : Out :=
  execVec g [.imm (immVal ty imm)] true (tySt ty) ty.is64 d (fun v => v 0) s

/-- IADD (R190). -/
def execIadd (o : I2) (s : State) : Out := execInt2 o o.ty aluAdd s
/-- IADD with an immediate (R190). -/
def execIaddImm (o : I2I) (s : State) : Out := execInt2I o o.ty aluAdd s
/-- ISUB (R190). -/
def execIsub (o : I2) (s : State) : Out := execInt2 o o.ty aluSub s
/-- ISUB with an immediate (R190). -/
def execIsubImm (o : I2I) (s : State) : Out := execInt2I o o.ty aluSub s
/-- IMUL (R190). -/
def execImul (o : I2) (s : State) : Out := execInt2 o o.ty aluMul s
/-- IMUL with an immediate (R190). -/
def execImulImm (o : I2I) (s : State) : Out := execInt2I o o.ty aluMul s
/-- IMULH (R190). -/
def execImulh (o : I2) (s : State) : Out := execInt2 o o.ty (fun t _ a b => aluMulh t a b) s
/-- IMULH with an immediate (R190). -/
def execImulhImm (o : I2I) (s : State) : Out := execInt2I o o.ty (fun t _ a b => aluMulh t a b) s
/-- IDIV (R191). -/
def execIdiv (o : I2) (s : State) : Out := execInt2 o o.ty aluDiv s
/-- IDIV with an immediate (R191). -/
def execIdivImm (o : I2I) (s : State) : Out := execInt2I o o.ty aluDiv s
/-- IREM (R191). -/
def execIrem (o : I2) (s : State) : Out := execInt2 o o.ty (fun t _ a b => aluRem t a b) s
/-- IREM with an immediate (R191). -/
def execIremImm (o : I2I) (s : State) : Out := execInt2I o o.ty (fun t _ a b => aluRem t a b) s
/-- IMIN (R190). -/
def execImin (o : I2) (s : State) : Out := execInt2 o o.ty (fun t _ a b => aluMin t a b) s
/-- IMIN with an immediate (R190). -/
def execIminImm (o : I2I) (s : State) : Out := execInt2I o o.ty (fun t _ a b => aluMin t a b) s
/-- IMAX (R190). -/
def execImax (o : I2) (s : State) : Out := execInt2 o o.ty (fun t _ a b => aluMax t a b) s
/-- IMAX with an immediate (R190). -/
def execImaxImm (o : I2I) (s : State) : Out := execInt2I o o.ty (fun t _ a b => aluMax t a b) s
/-- AND (R190). -/
def execAnd (o : I2) (s : State) : Out := execInt2 o o.ty (fun t _ a b => aluAnd t a b) s
/-- AND with an immediate (R190). -/
def execAndImm (o : I2I) (s : State) : Out := execInt2I o o.ty (fun t _ a b => aluAnd t a b) s
/-- OR (R190). -/
def execOr (o : I2) (s : State) : Out := execInt2 o o.ty (fun t _ a b => aluOr t a b) s
/-- OR with an immediate (R190). -/
def execOrImm (o : I2I) (s : State) : Out := execInt2I o o.ty (fun t _ a b => aluOr t a b) s
/-- XOR (R190). -/
def execXor (o : I2) (s : State) : Out := execInt2 o o.ty (fun t _ a b => aluXor t a b) s
/-- XOR with an immediate (R190). -/
def execXorImm (o : I2I) (s : State) : Out := execInt2I o o.ty (fun t _ a b => aluXor t a b) s

/-- A count is the whole 32-bit value of B (R190). -/
def count32 (b : DWord) : Nat := (b.setWidth 32).toNat
/-- SHL (R190). -/
def execShl (o : I2) (s : State) : Out := execInt2 o .u32 (fun t _ a b => aluShl t a (count32 b)) s
/-- SHL with an immediate (R190). -/
def execShlImm (o : I2I) (s : State) : Out := execInt2I o .u32 (fun t _ a b => aluShl t a (count32 b)) s
/-- SHR (R190). -/
def execShr (o : I2) (s : State) : Out := execInt2 o .u32 (fun t _ a b => aluShr t a (count32 b)) s
/-- SHR with an immediate (R190). -/
def execShrImm (o : I2I) (s : State) : Out := execInt2I o .u32 (fun t _ a b => aluShr t a (count32 b)) s
/-- SAR (R190). -/
def execSar (o : I2) (s : State) : Out := execInt2 o .u32 (fun t _ a b => aluSar t a (count32 b)) s
/-- SAR with an immediate (R190). -/
def execSarImm (o : I2I) (s : State) : Out := execInt2I o .u32 (fun t _ a b => aluSar t a (count32 b)) s
/-- ROT (R190). -/
def execRot (o : I2) (s : State) : Out := execInt2 o .u32 (fun t _ a b => aluRot t a (count32 b)) s
/-- ROT with an immediate (R190). -/
def execRotImm (o : I2I) (s : State) : Out := execInt2I o .u32 (fun t _ a b => aluRot t a (count32 b)) s

/-- IMAD (R192). -/
def execImad (o : I3) (s : State) : Out :=
  execVec o.g [.reg o.ty o.a, .reg o.ty o.b, .reg o.ty o.c] true (tySt o.ty) o.ty.is64 o.d
    (fun v => aluMad o.ty o.sat (v 0) (v 1) (v 2)) s
/-- IABS (R193). -/
def execIabs (o : I1) (s : State) : Out := execInt1 o o.ty.is64 aluAbs s
/-- INEG (R193). -/
def execIneg (o : I1) (s : State) : Out := execInt1 o o.ty.is64 aluNeg s
/-- NOT (R193). -/
def execNot (o : I1) (s : State) : Out := execInt1 o o.ty.is64 (fun t _ a => aluNot t a) s
/-- POPC: one 32-bit register whatever the type (R193). -/
def execPopc (o : I1) (s : State) : Out := execInt1 o false (fun t _ a => aluPopc t a) s
/-- CLZ: one 32-bit register whatever the type (R193). -/
def execClz (o : I1) (s : State) : Out := execInt1 o false (fun t _ a => aluClz t a) s
/-- BREV (R193). -/
def execBrev (o : I1) (s : State) : Out := execInt1 o o.ty.is64 (fun t _ a => aluBrev t a) s
/-- BFE (R194). -/
def execBfe (o : I2) (s : State) : Out := execInt2 o .u32 (fun t _ a b => aluBfe t a (b.setWidth 32)) s
/-- BFE with an immediate descriptor (R194). -/
def execBfeImm (o : I2I) (s : State) : Out := execInt2I o .u32 (fun t _ a b => aluBfe t a (b.setWidth 32)) s
/-- BFI (R195). -/
def execBfi (o : I3) (s : State) : Out :=
  execVec o.g [.reg o.ty o.a, .reg o.ty o.b, .reg .u32 o.c] true (tySt o.ty) o.ty.is64 o.d
    (fun v => aluBfi o.ty (v 0) (v 1) ((v 2).setWidth 32)) s
/-- A byte permute of the pair A by a selector (R196). -/
def execPermute (g : Guard) (d : BitVec 8) (a : VSrc) (b : Opnd) (s : State) : Out :=
  execVec g [.reg .u64 (.v a.r a.last), b] true id false d
    (fun v => (aluPrmt (v 0) ((v 1).setWidth 32)).setWidth 64) s
/-- PRMT (R196). -/
def execPrmt (g : Guard) (d : BitVec 8) (a : VSrc) (b : Src) (s : State) : Out := execPermute g d a (.reg .u32 b) s
/-- PRMT with an immediate selector (R196). -/
def execPrmtImm (g : Guard) (d : BitVec 8) (a : VSrc) (imm : BitVec 32) (s : State) : Out :=
  execPermute g d a (.imm (imm.setWidth 64)) s
/-- ICMP (R197). -/
def execIcmp (g : Guard) (cc : Cmp) (ty : Ty) (d : BitVec 7) (a : Src) (b : Src) (s : State) : Out :=
  execTest g [.reg ty a, .reg ty b] d (fun v => aluCmp cc ty (v 0) (v 1)) s
/-- ICMP with an immediate (R197). -/
def execIcmpImm (g : Guard) (cc : Cmp) (ty : Ty) (d : BitVec 7) (a : Src) (imm : BitVec 32) (s : State) : Out :=
  execTest g [.reg ty a, .imm (immVal ty imm)] d (fun v => aluCmp cc ty (v 0) (v 1)) s
/-- SEL: every source is consumed, the one not chosen included (R198). -/
def execSel (g : Guard) (ty : Ty) (d : BitVec 8) (a : Src) (b : Src) (p : BitVec 7) (s : State) : Out :=
  let xs : List Opnd := [.reg ty a, .reg ty b]
  withLanes s g (fun r => r.scalZ xs) (fun r l => r.laneZ xs l || (r.preg p l).2 == .Z) fun c s ls =>
    s.putV g (xs.flatMap Opnd.freed) ty.is64 d (ls.map fun l =>
      let va := c.role.src ty a l
      let vb := c.role.src ty b l
      let q := c.role.preg p l
      (l, (if q.1 then va.val else vb.val), joinAll [va.st, vb.st, q.2]))
/-- LEA (R199). -/
def execLea (g : Guard) (ty : Ty) (sh : BitVec 3) (d : BitVec 8) (a : Src) (b : Src) (s : State) : Out :=
  execVec g [.reg ty a, .reg .u32 b] true id ty.is64 d (fun v => aluLea ty sh.toNat (v 0) ((v 1).setWidth 32)) s
/-- LEA with an immediate index (R199). -/
def execLeaImm (g : Guard) (ty : Ty) (sh : BitVec 3) (d : BitVec 8) (a : Src) (imm : BitVec 32) (s : State) : Out :=
  execVec g [.reg ty a, .imm (imm.setWidth 64)] true id ty.is64 d
    (fun v => aluLea ty sh.toNat (v 0) ((v 1).setWidth 32)) s

end Sys2Proof.Machine
end

