-- ==== Sys2Proof/Machine/Mem.lean ====
section
/-!
DEFINITION. Per-lane and uniform memory instructions and fences (R166, R273 to R287).
-/
namespace Sys2Proof.Machine

/-! Elements. -/

/-- Extend an element read from memory (R172, R173, R180). -/
def extendElem (ty : Ty) (v : Nat) : DWord :=
  match ty with
  | .bpi => (BitVec.ofNat 8 v).signExtend 64
  | ty => wrapInt ty v
/-- Read an element at a place; pos is its position in a BPI block (R142, R180, R279). -/
def State.readElem (s : State) (err : Option Nat) (ty : Ty) (pl : Place) (pos : Nat) : State × DWord × Standing :=
  match ty with
  | .bpi =>
    let r := s.ldPlace true err pl 128
    let code := planeCode (fun i => BitVec.ofNat 8 (r.2.1 >>> (8 * i))) pos
    (r.1, code.signExtend 64, narrowSt r.2.2)
  | ty =>
    let r := s.ldPlace true err pl (tyBytes ty)
    (r.1, extendElem ty r.2.1, tySt ty r.2.2)
/-- Write an element at a place; a BPI element is one bit in each of eight bytes (R142, R180). -/
def State.writeElem (s : State) (err : Option Nat) (ty : Ty) (pl : Place) (pos : Nat) (v : DWord) (st : Standing) : State :=
  match ty with
  | .bpi =>
    (List.range 8).foldl (fun s b =>
      let q := pl.at (16 * b + pos / 8)
      let r := s.rdPlace err q 1
      let m := 2 ^ (pos % 8)
      let clear := r.2.1 - r.2.1 / m % 2 * m
      r.1.wrPlace err q 1 (clear + (if v.getLsbD (7 - b) then m else 0)) st) s
  | ty => s.wrPlace err pl (tyBytes ty) (readBits ty v) st

/-- A per-lane access's fixed part. -/
def laneOf (g : Guard) (sp : Space) (ty : Ty) (m : Addr) (off : DWord) (need : Need) : LaneMem :=
  { g := g, sp := sp, m := m, off := off, need := need, size := tyBytes ty, align := tyBytes ty, bpi := ty == .bpi }
/-- The registers that an address's last-use mark frees. -/
def addrFrees (m : Addr) : List (BitVec 8) := (addrOpnds m).flatMap Opnd.freed

/-! Loads. -/

/-- The budget check of a load, which writes in the live lanes that are not switched off (R136). -/
def loadRoom (g : Guard) (frees : List (BitVec 8)) (wide : Bool) (d : BitVec 8) (c : Ctx) (s : State) (got : Got) :
    Option State :=
  let r := c.role.switchOff (maskOf got.off)
  if r.overBudget frees wide d (maskOf (r.live g)) then some (s.budgetTrap d (maskOf (c.role.live g))) else none
/-- The end of a load: the index's row is freed and the flag is set (R89, R135). -/
def loadDone (g : Guard) (frees : List (BitVec 8)) (wide : Bool) (d : BitVec 8) (fs : Bool) (_ : Ctx) (s : State) : State :=
  s.modCur (fun r => (r.finishRows g frees (if wide then [d, d + 1] else [d])).issueLong fs)
/-- Read lanes one after the other: what each receives, P or R in its address joined. -/
def readLanes (o : LaneMem) (read : State → Option Nat → Place → Nat → State × DWord × Standing) (c : Ctx) (s : State)
    (ok : List (Nat × Place)) : State × List (Nat × DWord × Standing) :=
  ok.foldl (fun a e =>
    let ea := c.role.ea o.m o.off e.1
    let r := read a.1 c.role.accessErr e.2 (c.bpiPos o.sp e.1 ea.val.toNat)
    (r.1, a.2 ++ [(e.1, r.2.1, loadSt ea.st r.2.2)])) (s, [])
/-- Load lanes: every group with a live lane gets its rows, and each lane read takes its value and standing. -/
def loadLanes (o : LaneMem) (wide : Bool) (d : BitVec 8)
    (read : State → Option Nat → Place → Nat → State × DWord × Standing) (c : Ctx) (s : State) (ok : List (Nat × Place)) :
    State :=
  let r := readLanes o read c s ok
  r.1.modCur (fun x => r.2.foldl (fun x e => x.setV wide d e.1 e.2.1 (x.guarded o.g e.1 e.2.2))
    (x.mapRows (if wide then [d, d + 1] else [d]) (groupsOf x.ngroups (maskOf (x.live o.g)))))

/-- LD (R279). -/
def execLd (g : Guard) (fs : Bool) (sp : Space) (ty : Ty) (d : BitVec 8) (m : Addr) (off : BitVec 32) (s : State) : Out :=
  let o := laneOf g sp ty m (off.signExtend 64) Need.load
  laneMem o [] [] (ctxTag sp) (loadRoom g (addrFrees m) ty.is64 d)
    (loadLanes o ty.is64 d (fun s f pl pos => s.readElem f ty pl pos)) (loadDone g (addrFrees m) ty.is64 d fs) s

/-- The tag that LDX reads from, or the trap (R248, R253). -/
def ldxTag (form : LdxForm) (c : Ctx) : TagRes :=
  match form with
  | .p =>
    match c.ctxFault with
    | some a => .dead a
    | none => .tag (c.part.parentOf c.role.ctx)
  | .b => .tag 0
  | .c n =>
    let v := (c.role.sreg n).val
    if v.extractLsb' 14 50 != (0 : BitVec 50) then .bad (ctxAux (v.setWidth 14) 3)
    else match c.part.ctxFault (v.setWidth 14) true with
    | some a => .dead a
    | none => .tag (v.setWidth 14)
/-- The s register of LDX.C. -/
def ldxScalar : LdxForm → List (BitVec 7)
  | .c n => [n]
  | _ => []
/-- LDX (R248, R281): after a Z scalar, a P or R sC raises PROV_LOOP. -/
def execLdx (g : Guard) (fs : Bool) (ty : Ty) (d : BitVec 8) (m : Addr) (off : BitVec 32) (form : LdxForm)
    (disp : BitVec 23) (s : State) : Out :=
  let s := s.ownRetired
  let o := laneOf g .g ty m (off.signExtend 64 + disp.signExtend 64 * BitVec.ofNat 64 (tyBytes ty)) Need.load
  let run (s : State) : Out :=
    laneMem o [] (ldxScalar form) (ldxTag form) (loadRoom g (addrFrees m) ty.is64 d)
      (loadLanes o ty.is64 d (fun s f pl pos => s.readElem f ty pl pos)) (loadDone g (addrFrees m) ty.is64 d fs) s
  match s.ctx? with
  | none => .fault .noIssuer
  | some c =>
    let z := c.role.scalZ (addrOpnds m) || (ldxScalar form).any (fun n => (c.role.sreg n).st == .Z)
    if !z && (ldxScalar form).any (fun n => unsettled (c.role.sreg n).st) then
      .next (s.trapCur .provLoop 0 (maskOf (c.role.live g)))
    else run s

/-- SLD (R166). -/
def execSld (fs : Bool) (sp : Space) (ty : Ty) (d : BitVec 7) (a : BitVec 7) (off : BitVec 32) (s : State) : Out :=
  withScalars s [a] fun c =>
    let ea := ((c.role.sreg a).val + off.signExtend 64).toNat
    match (ctxTag sp c).resolve s c [ea] with
    | .inl x => s.trapCur .ctxDead x c.role.mask
    | .inr tag =>
      let ask : Ask :=
        { sp := sp, need := Need.load, size := tyBytes ty, align := tyBytes ty, bpi := false, tag := tag }
      uniformAccess s c ask ea fun s pl =>
        let r := s.readElem c.role.accessErr ty pl 0
        (r.1.putS d r.2.1 (loadSt (c.role.sreg a).st r.2.2)).modCur (fun x => x.issueLong fs)

/-! Stores. -/

/-- The lanes of a store that are not overwritten by a higher lane at the same place (R275). -/
def topWriters (pos : Nat → Nat) : List (Nat × Place) → List (Nat × Place)
  | [] => []
  | e :: t => if t.any (fun f => f.2 == e.2 && pos f.1 == pos e.1) then topWriters pos t else e :: topWriters pos t
/-- The standing that a lane writes: its data's, with the marks of its guard and its address and the taint (R129, R140,
R142). -/
def Role.storeSt (r : Role) (g : Guard) (l : Nat) (a st : Standing) : Standing :=
  markSt r.taint (r.guarded g l (addrSt a st))
/-- The end of a store, atomic or XACC: marked rows are freed. -/
def storeDone (frees : List (BitVec 8)) (_ : Ctx) (s : State) : State :=
  s.modCur (fun r => r.freeRows frees (groupsOf r.ngroups r.mask))

/-- ST (R275, R280). -/
def execSt (g : Guard) (sp : Space) (ty : Ty) (data : Src) (m : Addr) (off : BitVec 32) (s : State) : Out :=
  let o := laneOf g sp ty m (off.signExtend 64) Need.store
  let x := Opnd.reg ty data
  laneMem o [x] [] (ctxTag sp) overlayRoom
    (fun c s ok =>
      (topWriters (fun l => c.bpiPos sp l (c.role.ea m o.off l).val.toNat) ok).foldl (fun s e =>
        let ea := c.role.ea m o.off e.1
        let v := c.role.src ty data e.1
        s.writeElem c.role.accessErr ty e.2 (c.bpiPos sp e.1 ea.val.toNat) v.val (c.role.storeSt g e.1 ea.st v.st)) s)
    (storeDone (addrFrees m ++ x.freed)) s

/-- ATOM's operation on one element (R283). -/
def atomVal (op : AtomOp) (ty : Ty) (old new : DWord) : DWord :=
  if ty.isFloat then
    let f := Fmt.ofTy ty
    match op with
    | .min => ofPattern (f.min (floatBits ty old) (floatBits ty new))
    | _ => ofPattern (f.max (floatBits ty old) (floatBits ty new))
  else match op with
    | .add => aluAdd ty false old new
    | .and => aluAnd ty old new
    | .or => aluOr ty old new
    | .xor => aluXor ty old new
    | .min => aluMin ty old new
    | .max => aluMax ty old new
/-- A release ATOM is a release fence and then the accesses (R363). -/
def State.atomRel (s : State) : AtomOrd → State
  | .release c => s.fenceRel c
  | _ => s
/-- An acquire ATOM is the accesses and then an acquire fence (R363). -/
def State.atomAcq (s : State) : AtomOrd → State
  | .acquire c => s.acquire c
  | _ => s
/-- ATOM (R282, R283). -/
def execAtom (g : Guard) (op : AtomOp) (ord : AtomOrd) (sp : Space) (ty : Ty) (data : Src) (m : Addr)
    (off : BitVec 24) (s : State) : Out :=
  let o := laneOf g sp ty m (off.signExtend 64) Need.atom
  let x := Opnd.reg ty data
  laneMem o [x] [] (ctxTag sp) overlayRoom
    (fun c s ok => ok.foldl (fun s e =>
      let ea := c.role.ea m o.off e.1
      let v := c.role.src ty data e.1
      let r := s.ldPlace false c.role.accessErr e.2 (tyBytes ty)
      r.1.writeElem c.role.accessErr ty e.2 0 (atomVal op ty (extendElem ty r.2.1) v.val)
        (c.role.storeSt g e.1 ea.st (joinSt r.2.2 v.st))) (s.atomRel ord))
    (fun c s => (storeDone (addrFrees m ++ x.freed) c s).atomAcq ord) s

/-- An exact sum cell access's fixed part (R183, R220). -/
def cellOf (g : Guard) (sp : Space) (ty : Ty) (m : Addr) (off : DWord) (need : Need) : LaneMem :=
  { g := g, sp := sp, m := m, off := off, need := need, size := cellBytes ty.is64, align := 64, bpi := false }
/-- XACC (R184, R284): every sector of the cell takes the join over the cell and the data. -/
def execXacc (g : Guard) (sp : Space) (ty : Ty) (data : Src) (m : Addr) (off : BitVec 32) (s : State) : Out :=
  let o := cellOf g sp ty m (off.signExtend 64) Need.atom
  let x := Opnd.reg ty data
  laneMem o [x] [] (ctxTag sp) overlayRoom
    (fun c s ok => ok.foldl (fun s e =>
      let ea := c.role.ea m o.off e.1
      let v := c.role.src ty data e.1
      let r := s.ldPlace false c.role.accessErr e.2 (cellBytes ty.is64)
      r.1.wrPlace c.role.accessErr e.2 (cellBytes ty.is64) (cellAdd ty.is64 r.2.1 (floatBits ty v.val))
        (c.role.storeSt g e.1 ea.st (joinSt r.2.2 v.st))) s)
    (storeDone (addrFrees m ++ x.freed)) s
/-- XRND (R184, R285). -/
def execXrnd (g : Guard) (fs : Bool) (sp : Space) (ty : Ty) (rnd : Rnd) (d : BitVec 8) (m : Addr) (off : BitVec 32)
    (s : State) : Out :=
  let o := cellOf g sp ty m (off.signExtend 64) Need.xrnd
  laneMem o [] [] (ctxTag sp) (loadRoom g (addrFrees m) ty.is64 d)
    (loadLanes o ty.is64 d (fun s f pl _ =>
      let r := s.ldPlace false f pl (cellBytes ty.is64)
      (r.1, ofPattern (cellRound ty.is64 rnd r.2.1), r.2.2)))
    (loadDone g (addrFrees m) ty.is64 d fs) s

/-! Fences (R286, R287). -/

/-- A FENCE delivers a pending deferred fault first (R287). -/
def execFenceWith (remote : Bool) (f : State → State) (s : State) : Out :=
  withCtx s fun c =>
    match s.deliver c.role remote c.role.mask with
    | some s => s
    | none => f s
/-- FENCE.ACQ, FENCE.REL and FENCE.FULL. -/
def execFence (kind : FenceKind) (scope : Scope) (s : State) : Out :=
  execFenceWith (scope == .part || scope == .sys) (fun s => s.fenceOrder kind scope) s
/-- FENCE.E: the role's earlier stores are performed before its later engine operations (R286, R294). -/
def execFenceE (s : State) : Out := execFenceWith false (fun s => s.modCur (fun r => { r with fencedAt := s.clock })) s
/-- The scratch-write generation of the issuing role's core advances, and no older entry hits: those of the core carry an older
generation, and those that the team has left on other cores go (R325). -/
def State.newScratchGen (s : State) : State :=
  match s.team? s.cur.team with
  | none => s
  | some t =>
    let c := s.coreOf t
    let s : State := { s with bulks := s.bulks.map (fun b =>
      { b with coreCache := b.coreCache.map (fun e => (e.1, e.2.filter (fun x => x.team != s.cur.team))) }) }
    s.modBulk c.1 (fun b => { b with coreGens := tset b.coreGens c.2 (s.coreGen c + 1) })
/-- FENCE.T advances the core's scratch-write generation (R325). -/
def execFenceT (s : State) : Out := execFenceWith false State.newScratchGen s

end Sys2Proof.Machine
end

