-- ==== Sys2Proof/Machine/Partition.lean ====
section
/-!
DEFINITION. Bulkheads and partitions: the reset of a bulkhead (R54 to R56), remap to a spare (R45 to R48), links (R65, R235,
R262), creation and dissolution (R42 to R44, R444, R445), and the size of an overlay pool (R246).
-/
namespace Sys2Proof.Machine

/-- The partition that a physical bulkhead belongs to, and its logical number there. -/
def State.ownerOf (s : State) (b : Nat) : Option (Nat × Nat) :=
  s.parts.findSome? (fun e => ((List.range e.2.map.length).find? (fun k => e.2.map[k]? == some b)).map (fun k => (e.1, k)))
/-- The teams that a logical bulkhead holds end; those in an inbound queue are taken back and placed again. -/
def State.endResidents (s : State) (pp k : Nat) (e : Nat → Role → TeamEnd) : State :=
  let at_ (t : Team) : Bool := t.part == pp && t.bulk == k
  let s : State := { s with teams := s.teams.map (fun t =>
    if at_ t.2 && (t.2.phase == .resident || t.2.phase == .stopping) then
      (t.1, match t.2.roles with | r :: _ => t.2.finish (e t.1 r) | [] => t.2)
    else t) }
  ((s.teams.filter (fun t => at_ t.2 && t.2.phase == .inbound)).map (fun t => t.1)).foldl (fun s i => s.requestStop i .remap) s
/-- The end of a team by a system fault that no role raised (R407, R435). -/
def endBy (c : TCode) (x : Role) : TeamEnd :=
  { code := c.num, role := 0, pc := if x.park.isSome then x.item.pc else 0xFFFFFFFF, aux := 0, user := false, reset := false }
/-- The end of a team by a reset without remap (R56, R435). -/
def endByReset : TeamEnd := { code := 0, role := 0, pc := 0xFFFFFFFF, aux := 0, user := false, reset := true }

/-! Link generations and held requests. -/

/-- Is a role or a request from outside held by a physical bulkhead: by its stack, by its gate, or by the move of a page in it? -/
def Park.heldBy (b : Nat) : Park → Bool
  | .held k | .hung k => k == b
  | .moving _ k => k == some b
  | _ => false
/-- The requests of some teams that a physical bulkhead holds are completed with error (R55, R58, R236, R272); a saved team has
none. -/
def State.failTeams (s : State) (b : Nat) (which : Team → Bool) : State :=
  let s := s.failOps b (fun o => ((s.team? o.owner.team).map which).getD false)
  { s with teams := s.teams.map (fun e =>
      if which e.2 && e.2.phase != .saved then (e.1, { e.2 with roles := e.2.roles.map (fun x =>
        if (x.park.map (Park.heldBy b)).getD false then { x with park := none, accessErr := some b } else x) })
      else e) }
/-- Every request that a physical bulkhead holds is completed with error; one from outside is answered so. -/
def State.failHeld (s : State) (b : Nat) : State :=
  let s := s.failTeams b (fun _ => true)
  let hit (e : Nat × Option Park × Instr) : Bool := (e.2.1.map (Park.heldBy b)).getD false
  if s.outside.any hit then { s with outside := s.outside.filter (fun e => !hit e), reply := .error } else s
/-- A gate's link generation for a bulkhead or a node advances (R235). -/
def Part.bumpBulk (p : Part) (gate k : Nat) : Part :=
  { p with linkGen := tset p.linkGen (gate * 8 + k) ((tget p.linkGen (gate * 8 + k)).getD 0 + 1) }
def Part.bumpNode (p : Part) (gate n : Nat) : Part :=
  { p with nodeGen := tset p.nodeGen (gate * 1024 + n) ((tget p.nodeGen (gate * 1024 + n)).getD 0 + 1) }
/-- The generations of some pairs of a gate and a bulkhead advance: the requests in flight between them complete with error
(R235, R236). -/
def State.advanceAt (s : State) (pp : Nat) (pairs : List (Nat × Nat)) : State :=
  pairs.foldl (fun s e =>
    match s.part? pp with
    | none => s
    | some p => (s.setPart pp (p.bumpBulk e.1 e.2)).failTeams (p.bulkOf e.2) (fun t => t.part == pp && t.bulk == e.1)) s
/-- The generation of a logical bulkhead advances at every gate of its partition (R46, R55). -/
def State.advanceGens (s : State) (pp k : Nat) : State :=
  s.advanceAt pp ((List.range (((s.part? pp).map (fun p => p.cfg.size)).getD 0)).map (fun g => (g, k)))

/-! The carve of bulkhead scratch and its backing region (R218). -/

/-- The storage of the backing region of a logical bulkhead's carve, and its size. -/
def Part.carveRegion (p : Part) (k : Nat) : Nat × Nat := (p.phys (k * bulkSpan + p.cfg.carveAt[k]?.getD 0), p.cfg.carve[k]?.getD 0)
/-- The carve of a logical bulkhead is written back, under the partition's first key slot (R64, R218). -/
def State.carveBack (s : State) (pp k : Nat) : State :=
  match s.part? pp with
  | none => s
  | some p =>
    let r := p.carveRegion k
    s.writeRegion (s.keyName p.cfg.slotFirst) p.bscratch (k * 2 ^ 24) r.1 r.2 true
/-- The carve of a logical bulkhead is reloaded, through the error path (R218). -/
def State.carveLoad (s : State) (pp k : Nat) : State :=
  match s.part? pp with
  | none => s
  | some p =>
    let r := p.carveRegion k
    let s := s.touch r.1 r.2
    let src := s.seenRegion (s.keyName p.cfg.slotFirst) r.1 r.2
    s.modPart pp (fun p => { p with bscratch := p.bscratch.copyFrom src r.1 (k * 2 ^ 24) r.2 true })

/-! The reset of a bulkhead. -/

/-- Step 1 of a reset (R55, R56): the gate closes, resident teams end, and requests complete or fail. -/
def State.beginReset (s : State) (b : Nat) : State :=
  let s := s.failHeld b
  let s := match s.ownerOf b with
    | some (pp, k) => s.endResidents pp k (fun _ _ => endByReset)
    | none => s
  s.modBulk b (fun x => { x with gate := false, hung := false, state := .reset, stepOne := true, clean := false })
/-- BULKHEAD_RESET (R54, R55). -/
def execBulkheadReset (b : Nat) (s : State) : Out :=
  .next (if b < s.bulks.length && (s.bulk b).state == .running then s.beginReset b else s)
/-- A cell's pool line becomes Z (R56, R255). -/
def Part.loseCells (p : Part) (lines : List Nat) : Part :=
  { p with cells := p.cells.map (fun c => if lines.contains (p.cellAt c / 128) then { c with st := [.Z, .Z, .Z, .Z] } else c) }
/-- RESET_STEP1_END (R55, R56): the L2 and the carve are written back, recorded lines that were not written back become Z, those
of the carve's backing region and of the overlay pool among them, and the link generation advances. -/
def execResetStep1End (b : Nat) (unwritten : List Nat) (s : State) : Out :=
  .next (if !(s.bulk b).stepOne then s
    else
      let ls := unwritten.filter (fun n => n * 128 / bulkSpan == b && n * 128 % bulkSpan < storageEnd)
      let own := s.ownerOf b
      let s := match own with
        | some (pp, k) => s.carveBack pp k
        | none => s
      let s : State := { s with mem := ls.foldl (fun m n =>
        (List.range 4).foldl (fun m i => m.setSt (4 * n + i) .Z) m) s.mem }
      let s := ({ s with past := [] } : State).modBulk b (fun x => { x with stepOne := false })
      match own with
      | some (pp, k) => (s.modPart pp (fun p => p.loseCells ls)).advanceGens pp k
      | none => s)
/-- The measurement of a firmware image: the register starts at zero and is extended once (R61). -/
def measured (image : BitVec 256) : BitVec 256 := Config.sha256 (List.replicate 32 0 ++ natBytes 32 image.toNat)
/-- BULKHEAD_REJOIN (R46, R55, R59, R61, R444): self-test has passed, the image is measured, the carve is reloaded and the gate
reopens; an image that is not signed keeps the bulkhead in reset, a failed self-test takes it out of service, and one that has
failed at power-up stays in reset. -/
def execBulkheadRejoin (b : Nat) (image : BitVec 256) (s : State) : Out :=
  let x := s.bulk b
  .next (if x.state != .reset || x.stepOne || !x.railOn || x.kept then s
    else if x.failedTest then s.modBulk b (fun x => { x with state := .out })
    else if !Config.firmwareSigned image then s.modBulk b (fun x => { x with meas := 0 })
    else
      let s := s.modBulk b (fun x =>
        { x with meas := measured image, gate := true, state := .running, clk := 3300, lim := false, therm := false,
                 overPower := false, cool := false, clean := true })
      match s.ownerOf b with
      | some (pp, k) => s.carveLoad pp k
      | none => s)

/-! Remap (R45 to R48). -/

/-- Is a physical bulkhead a designated spare that is idle (R45)? -/
def State.idleSpare (s : State) (p : Part) (b : Nat) : Bool :=
  p.cfg.spares.contains b && (s.ownerOf b).isNone && (s.bulk b).state == .running && (s.bulk b).railOn
/-- Steps 1 and 2: a spare that has held data since its last reset steps 3 to 5 runs them first; then the teams of the bulkhead
are pre-empted, to be restored on the spare's cores. -/
def State.remapBegin (s : State) (pp k spare : Nat) : State :=
  if !(s.bulk spare).clean then
    s.modBulk spare (fun x => { x with state := .reset, stepOne := false, gate := false, sref := false, hung := false })
  else
    let s := s.modPart pp (fun p => { p with remapStop := k :: p.remapStop, remapTo := (k, spare) :: p.remapTo })
    let ids := (s.teams.filter (fun e => e.2.part == pp && e.2.bulk == k && e.2.phase != .saved)).map (fun e => e.1)
    ids.foldl (fun s i => (s.requestStop i .remap).modTeam i (fun t => { t with limit := some k })) s
/-- Does a physical bulkhead hold requests, or have it and its like just been released (R47)? -/
def State.holdsAny (s : State) (b : Nat) : Bool :=
  s.teams.any (fun e => e.2.phase != .saved && e.2.roles.any (fun x =>
    (x.park.map (Park.heldBy b)).getD false || (x.heldSeq.isSome && x.park.isNone))) ||
  s.outside.any (fun e => (e.2.1.map (Park.heldBy b)).getD true)
/-- Step 3: once no team is left on it and what it has accepted is performed, the carve is written back, the gate closes and the
link generation advances. -/
def State.remapClose (s : State) (pp : Nat) (p : Part) (k : Nat) : State :=
  let b := p.bulkOf k
  if s.teams.any (fun e => e.2.part == pp && e.2.bulk == k && e.2.phase != .saved) || (s.bulk b).sref || s.holdsAny b then s
  else
    let s := (s.carveBack pp k).modBulk b (fun x => { x with gate := false })
    (s.advanceGens pp k).modPart pp (fun p =>
      { p with remapStop := p.remapStop.filter (fun x => x != k), remapping := k :: p.remapping })
/-- Move the entries of a table of units from one stack to another; keep names the units of the target that stay as they are. -/
def moveUnits {α : Type} (t : Tab α) (old spare : Nat) (keep : Nat → Bool) : Tab α :=
  let n := bulkSpan / 64
  (t.filter (fun e => e.1 / n == old)).foldl (fun t e =>
    if keep (e.1 % n) then t else tset t (spare * n + e.1 % n) e.2)
    (t.filter (fun e => e.1 / n != spare || keep (e.1 % n)))
/-- Step 4: the stack's contents are copied base die to base die, read through the error path, encrypted under the same key slots,
their symbols new; what the spare's save area holds stays (log 50). -/
def State.copyStack (s : State) (pp : Nat) (p : Part) (k spare : Nat) : State :=
  let old := p.bulkOf k
  let w := p.cwin k
  let save := p.spareSave spare
  let s := s.flaws.foldl (fun s f =>
    let off := 64 * f.1 % bulkSpan
    if 64 * f.1 / bulkSpan != old then s
    else if w.1 ≤ off && off < w.1 + w.2.2 then s.touchSlot (64 * f.1 / 512 * 512)
    else s.touch (64 * f.1) 64) s
  let s := (p.cells.filter (fun c => c.pool == k)).foldl (fun s c => (s.touchCell pp p c 0).touchCell pp p c 1) s
  let m := s.mem.copyFrom s.mem (old * bulkSpan) (spare * bulkSpan) storageEnd true
  let at_ := spare * bulkSpan + save.1
  { s with
    mem := m.copyFrom s.mem at_ at_ save.2 true
    ukeys := moveUnits s.ukeys old spare (fun u => save.1 ≤ 64 * u && 64 * u < save.1 + save.2)
    flaws := s.flaws.filter (fun f => 64 * f.1 / bulkSpan != spare)
    symFlaws := s.symFlaws.filter (fun f => 512 * f.1 / bulkSpan != spare) }
/-- Steps 4 and 5: after the copy MAP and the window table follow, the link generation advances, and the old bulkhead goes into
reset. Its counters stay with the logical bulkhead (R446). -/
def State.remapSwitch (s : State) (pp : Nat) (p : Part) (k spare : Nat) : State :=
  let old := p.bulkOf k
  let s := s.copyStack pp p k spare
  let o := s.bulk old
  let s := s.modBulk spare (fun x =>
    { x with wins := o.wins, gate := true, clean := false, uncorr := o.uncorr, corr := o.corr, trans := o.trans,
             lasting := o.lasting, transient := o.transient })
  let s := s.modBulk old (fun x =>
    { x with wins := List.replicate 16 none, gate := false, state := .reset, stepOne := false, clean := false })
  let s := s.modPart pp (fun p =>
    { p with map := lset p.map k spare, remapping := p.remapping.filter (fun x => x != k)
             remapTo := p.remapTo.filter (fun x => x.1 != k) })
  (({ s with past := [] } : State).adoptRecords pp k spare |>.advanceGens pp k).carveLoad pp k
/-- REMAP (R46): the step takes a remap through its steps, from one to the next; a spare is taken by one remap at a time. -/
def execRemap (part : Nat) (k : Nat) (spare : Nat) (s : State) : Out :=
  .next (match s.part? part with
    | none => s
    | some p =>
      if p.cfg.size ≤ k then s
      else if p.remapStop.contains k then s.remapClose part p k
      else if !s.idleSpare p spare then s
      else if p.remapping.contains k then if p.remapTo.contains (k, spare) then s.remapSwitch part p k spare else s
      else if (s.bulk (p.bulkOf k)).state == .running && !s.parts.any (fun e => e.2.remapTo.any (fun r => r.2 == spare)) then
        s.remapBegin part k spare
      else s)
/-- REMAP_PREEMPT_TIMEOUT (R48, R409): the teams that could not be pre-empted end, and the remap goes on at step 3. -/
def execRemapPreemptTimeout (part : Nat) (k : Nat) (s : State) : Out :=
  .next (match s.part? part with
    | none => s
    | some p => if p.remapStop.contains k then s.endResidents part k (fun _ r => endBy .timeout r) else s)

/-! Links. -/

/-- The pairs of a gate and a logical bulkhead of a partition that two states of the ring tell apart: only one of them has a way
between them (R262). -/
def Part.ringDiff (p : Part) (a b : BitVec 8) : List (Nat × Nat) :=
  (List.range p.cfg.size).flatMap (fun g => (List.range p.cfg.size).filterMap (fun k =>
    if ringPath a (p.bulkOf g) (p.bulkOf k) != ringPath b (p.bulkOf g) (p.bulkOf k) then some (g, k) else none))
/-- The ring's links change: the bulkheads that no path reaches any more, or that one reaches again, advance their generations in
every partition (R235, R262). -/
def State.setRing (s : State) (r : BitVec 8) : State :=
  s.parts.foldl (fun t e => t.advanceAt e.1 (e.2.ringDiff s.ring r)) { s with ring := r }
/-- A gate's link to a target is lost: the generation advances, and the target cannot be reached until the link is back. -/
def State.lose (s : State) (pp g : Nat) : LinkTarget → State
  | .ring l => s.setRing (s.ring &&& ~~~((1 : BitVec 8) <<< l.toNat))
  | .bulk k => (s.advanceAt pp [(g, k)]).modPart pp (fun p =>
      { p with downBulk := (g * 8 + k) :: p.downBulk.filter (fun x => x != g * 8 + k) })
  | .node n => s.modPart pp (fun p =>
      { (p.bumpNode g n.toNat) with downNode := (g * 1024 + n.toNat) :: p.downNode.filter (fun x => x != g * 1024 + n.toNat) })
/-- A link is back: the generation advances (R235). -/
def State.regain (s : State) (pp g : Nat) : LinkTarget → State
  | .ring l => s.setRing (s.ring ||| ((1 : BitVec 8) <<< l.toNat))
  | .bulk k => (s.advanceAt pp [(g, k)]).modPart pp (fun p => { p with downBulk := p.downBulk.filter (fun x => x != g * 8 + k) })
  | .node n => s.modPart pp (fun p =>
      { (p.bumpNode g n.toNat) with downNode := p.downNode.filter (fun x => x != g * 1024 + n.toNat) })
/-- LINK_AUTH_FAIL (R65): the flit is discarded, the link retrains and its generation advances; a ring link carries no
authentication tag. -/
def execLinkAuthFail (part : Nat) (l : GateLink) (s : State) : Out :=
  .next (match l.target with
    | .ring _ => s
    | .bulk _ | .node _ => s.lose part l.gate l.target)
/-- LINK_FAIL (R235, R262): after the loss of a ring link only bulkheads that no path reaches are lost. -/
def execLinkFail (part gate : Nat) (t : LinkTarget) (s : State) : Out := .next (s.lose part gate t)
/-- LINK_RETRAINED (R235, R262). -/
def execLinkRetrained (part gate : Nat) (t : LinkTarget) (s : State) : Out := .next (s.regain part gate t)

/-! Creation and dissolution. -/

/-- Is a partition's configuration legal by itself: its size and place (R42), its hosts (R23), key slots (R62), spares (R45), carves
(R218), compressed windows (R264), and regions of its stacks that firmware uses (R44, R246)? -/
def cfgLegal (c : PartCfg) : Bool :=
  [1, 2, 4, 8].contains c.size && c.start < 8 && c.hosts.length ≤ 8 && c.spares.length ≤ 4 &&
  1 ≤ c.slotFirst && 1 ≤ c.slotCount && c.slotFirst + c.slotCount ≤ 4096 &&
  (List.range c.carve.length).all (fun k =>
    let n := c.carve[k]?.getD 0
    n ≤ 2 ^ 24 && n % 2 ^ 20 == 0 && (c.carveAt[k]?.getD 0) % 512 == 0 && (c.carveAt[k]?.getD 0) + n ≤ storageEnd) &&
  c.cwin.all (fun w => w.1 % 65536 == 0 && w.2.1 % 65536 == 0 && w.2.2 % 65536 == 0 && w.2.2 ≤ 2 ^ 34 &&
    w.1 + w.2.2 ≤ storageEnd && w.2.1 + w.2.2 ≤ storageEnd) &&
  c.saveArea.1 < c.size && c.saveArea.2.1 % 512 == 0 && c.saveArea.2.1 + c.saveArea.2.2 ≤ storageEnd &&
  c.spareSaves.all (fun r => r.1 % 512 == 0 && r.1 + r.2 ≤ storageEnd)
/-- Do two partitions' key slots meet (R62)? -/
def keysMeet (c d : PartCfg) : Bool := c.slotFirst < d.slotFirst + d.slotCount && d.slotFirst < c.slotFirst + c.slotCount
/-- May a partition be created as configured: legal, with free bulkheads and an identity and keys of its own (R42, R62)? -/
def State.cfgOk (s : State) (c : PartCfg) : Bool :=
  cfgLegal c && (s.partOf? c.pid).isNone && !s.parts.any (fun e => keysMeet c e.2.cfg) &&
  (List.range c.size).all (fun k => (s.ownerOf ((c.start + k) % 8)).isNone)
/-- The physical bulkheads of a partition, a spare in place of each that has failed (R43, R444). -/
def State.mapFor (s : State) (c : PartCfg) : Option (List Nat) :=
  let own := (List.range c.size).map (fun k => (c.start + k) % 8)
  own.foldl (fun (m : Option (List Nat)) b =>
    m.bind (fun l =>
      if (s.bulk b).state == .running then some (l ++ [b])
      else (c.spares.find? (fun x => !l.contains x && (s.ownerOf x).isNone && (s.bulk x).state == .running && (s.bulk x).railOn)).map
        (fun x => l ++ [x]))) (some [])
/-- An announcement record (R445). -/
def announcement (p : Part) (status : Nat) : BitVec 256 :=
  devSerial ++ p.cfg.ctlBase ++ p.cfg.pid ++ BitVec.ofNat 8 p.cfg.size ++ p.mapBits ++ (0 : BitVec 64) ++ (1 : BitVec 1) ++
  BitVec.ofNat 7 status
/-- Write an announcement record to the memory of the partition's first host (R445). -/
def State.announce (s : State) (p : Part) (status : Nat) : State :=
  let a := (3 * 1024 + (p.cfg.hosts.head?.getD 0).toNat) * nodeSpan + p.cfg.announce.toNat % nodeSpan
  { s with extMem := s.extMem.storeBytes a (natBytes 32 (announcement p status).toNat) .S }
/-- Create a partition, announce it and open its control region (R443, steps 7 and 8, R444). -/
def State.createPart (s : State) (n : Nat) (c : PartCfg) : State :=
  let own := (List.range c.size).map (fun k => (c.start + k) % 8)
  match if s.cfgOk c && (s.part? n).isNone then s.mapFor c else none with
  | none => s.announce (Part.fresh c own) 2
  | some m =>
    let p := { Part.fresh c m with opened := true }
    let s := m.foldl (fun s b => s.modBulk b (fun x => { x with gate := true, clean := false })) (s.setPart n p)
    s.announce p (if m == own then 0 else 1)
/-- Does an image's signature verify (R44, R443)? -/
def signedImage (i : ConfigImage) : Bool := Config.ecdsaVerify Config.operatorKey i.digest i.sigR i.sigS
/-- PARTITION_CREATE (R44). -/
def execPartitionCreate (img : ConfigImage) (n : Nat) (s : State) : Out :=
  .next (match img.parts[n]? with
    | some c =>
      if s.powered && signedImage img && (s.part? n).isNone then ({ s with cfgDigest := img.digest } : State).createPart n c else s
    | none => s)

/-- The launches of a partition that is dissolved complete with STATUS 0x05 (R44); none while a record has to wait. -/
def State.abandon (pp : Nat) (p : Part) : List Launch → State → Option State
  | [], s => some s
  | l :: t, s =>
    if l.phase == .appended || l.phase == .running then
      (s.report pp { l with stranded := (p.waiting.filter (fun x => x.of l && x.ctr.isSome)).length } 5).bind
        (State.abandon pp p t)
    else State.abandon pp p t s
/-- With its launches, a partition's teams, operations and tasks are gone, and nothing of them is reported again (R44, step 1). -/
def State.dropLaunches (s : State) (part : Nat) : State :=
  ({ s with
    teams := s.teams.filter (fun e => e.2.part != part)
    ops := s.ops.filter (fun e => e.2.part != part)
    past := []
    outside := s.outside.filter (fun e => ((outsideAddr e.2.2).map Prod.fst) != some part) } : State).modPart part (fun p =>
      { p with opened := false, launches := p.launches.map (fun l => { l with phase := .done }), waiting := [], ready := [] })
/-- The revocation of every entry in a partition's gates and of every other entry that names it (R44, step 2). -/
def State.shutWindows (s : State) (p : Part) : State :=
  let shut (b : Nat) (w : Win) : Win := if p.map.contains b || w.grantee == p.cfg.pid then { w with live := false } else w
  { s with bulks := ((List.range s.bulks.length).zip s.bulks).map (fun e => { e.2 with wins := e.2.wins.map (Option.map (shut e.1)) }) }
/-- Does an operation of another partition hold a request that one of a partition's gates has accepted (R53)? -/
def State.passing (s : State) (part : Nat) (p : Part) : Bool :=
  s.ops.any (fun e => e.2.part != part && e.2.reach.2.any (fun h => h.via.any (fun v => p.map.contains v.1)))
/-- Steps 3 and 4 of a dissolution (R44): keys anew, stacks of zeros, bulkheads free. -/
def State.wipe (s : State) (part : Nat) (p : Part) : State :=
  let s := p.map.foldl (fun s b => s.zeroRegion (b * bulkSpan) storageEnd) s
  { s with
    bulks := ((List.range s.bulks.length).zip s.bulks).map (fun e => { e.2 with gate := e.2.gate && !p.map.contains e.1 })
    keyGen := (List.range p.cfg.slotCount).foldl (fun k i =>
      tset k (p.cfg.slotFirst + i) ((tget k (p.cfg.slotFirst + i)).getD 0 + 1)) s.keyGen
    parts := tdel s.parts part }
/-- PARTITION_DISSOLVE (R44): by a signed image, which is in force from then on. The event takes a dissolution as far as it goes;
requests that the partition's gates have accepted complete before its third step. -/
def execPartitionDissolve (d : Dissolution) (s : State) : Out :=
  .next (match s.part? d.part with
    | none => s
    | some p =>
      if !s.powered || !signedImage d.img then s
      else match State.abandon d.part p p.launches s with
      | none => s
      | some s =>
        let s := (({ s with cfgDigest := d.img.digest } : State).shutWindows p).dropLaunches d.part
        if s.passing d.part p then s else s.wipe d.part p)

/-- OVERLAY_POOL_RESIZE (R246): steps of 2 MiB, up to 8 GB. A pool keeps the lines that it has given out, and takes no storage
from pages that firmware has migrated, nor from the regions that the image gives (log 50). -/
def execOverlayPoolResize (part : Nat) (k : Nat) (lines : Nat) (s : State) : Out :=
  .next (match s.part? part with
    | none => s
    | some p =>
      let new := { p with pools := lset p.pools k lines }
      let meets (lo n : Nat) : Bool := n != 0 && new.pageEnd k < lo + n
      if p.cfg.size ≤ k || !poolLegal lines || p.cells.any (fun c => c.pool == k && lines ≤ c.slot) ||
          p.migrated.any (fun m => m.frame / bulkSpan == k && meets (m.frame % bulkSpan) m.size) ||
          meets (p.cfg.carveAt[k]?.getD 0) (p.cfg.carve[k]?.getD 0) ||
          (p.cfg.saveArea.1 == k && meets p.cfg.saveArea.2.1 p.cfg.saveArea.2.2) then s
      else s.setPart part new)

end Sys2Proof.Machine
end

