-- ==== Sys2Proof/Machine/Power.lean ====
section
/-!
DEFINITION. Self-refresh of a stack (R272), rails and clocks (R440 to R442), and power-up (R443 to R445).
-/
namespace Sys2Proof.Machine

/-! Self-refresh (R272). -/

/-- SELF_REFRESH_ENTER: the stack accepts requests and performs none. -/
def execSelfRefreshEnter (b : Nat) (s : State) : Out := .next (s.modBulk b (fun x => { x with sref := true }))
/-- SELF_REFRESH_EXIT: the held requests are performed in the order in which they were accepted. -/
def execSelfRefreshExit (b : Nat) (s : State) : Out :=
  let s := s.modBulk b (fun x => { x with sref := false })
  .next { s with
    teams := s.teams.map (fun e => (e.1, { e.2 with roles := e.2.roles.map (fun x =>
      if x.park == some (.held b) then { x with park := none } else x) }))
    outside := s.outside.map (fun e => if e.2.1 == some (.held b) then (e.1, none, e.2.2) else e) }
/-- SELF_REFRESH_TIMEOUT (R272, R409): the resident teams end with TIMEOUT, held requests complete with error, and the
bulkhead is reset. -/
def execSelfRefreshTimeout (b : Nat) (s : State) : Out :=
  .next (if !(s.bulk b).sref then s
    else
      let s := match s.ownerOf b with
        | some (pp, k) => s.endResidents pp k (fun _ r => endBy .timeout r)
        | none => s
      if (s.bulk b).state == .running then s.beginReset b else s.failHeld b)

/-! Rails and clocks (R441). -/

/-- The other bulkhead of a compute die (R42). -/
def dieMate (b : Nat) : Nat := if b % 2 = 0 then b + 1 else b - 1
/-- RAIL_MEASURE: the rail against 450 W and 95% of it, the die against 105 degrees. -/
def execRailMeasure (b : Nat) (watts : Nat) (dieTemp : Nat) (s : State) : Out :=
  let s := s.modBulk b (fun x => { x with overPower := decide (450 < watts), cool := decide (2 * watts < 855) })
  let hot := decide (105 ≤ dieTemp)
  .next ((s.modBulk b (fun x => { x with therm := hot })).modBulk (dieMate b) (fun x => { x with therm := hot }))
/-- CLOCK_STEP_DOWN: 100 MHz lower, down to 1.0 GHz, while the rail or the die calls for it. -/
def Bulk.stepDown (x : Bulk) : Bulk :=
  if x.overPower || x.therm then { x with clk := max 1000 (x.clk - 100), lim := x.lim || x.overPower } else x
def execClockStepDown (b : Nat) (s : State) : Out := .next (s.modBulk b Bulk.stepDown)
/-- CLOCK_STEP_UP: 100 MHz higher, up to 3.3 GHz. -/
def Bulk.stepUp (x : Bulk) : Bulk :=
  if x.cool && !x.overPower && !x.therm then
    let c := min 3300 (x.clk + 100)
    { x with clk := c, lim := x.lim && c != 3300 }
  else x
def execClockStepUp (b : Nat) (s : State) : Out := .next (s.modBulk b Bulk.stepUp)

/-! Critical temperature (R442). -/

/-- DIE_CRITICAL_TEMP: both rails are removed, and the bulkheads are treated as reset without remap. -/
def execDieCriticalTemp (die : Nat) (s : State) : Out :=
  .next (if 4 ≤ die then s
    else
      let s : State := { s with dies := lset s.dies die true }
      [2 * die, 2 * die + 1].foldl (fun s b =>
        let s := if (s.bulk b).state == .running then s.beginReset b else s
        s.modBulk b (fun x => { x with railOn := false })) s)
/-- DIE_COOLED: below 95 degrees the rails return. -/
def execDieCooled (die : Nat) (s : State) : Out :=
  .next (if 4 ≤ die || !(s.dies[die]?.getD false) then s
    else
      let s : State := { s with dies := lset s.dies die false }
      [2 * die, 2 * die + 1].foldl (fun s b => s.modBulk b (fun x => { x with railOn := true })) s)

/-! Power-up (R443). -/

/-- A bulkhead after steps 3 to 5 of power-up: running with its firmware measured, or kept in reset for good (R444). -/
def Bulk.powered (fw : BitVec 256) (failed : Bool) : Bulk :=
  if failed || !Config.firmwareSigned fw then
    { Bulk.reset with railOn := true, state := .reset, failedTest := failed, kept := true, clean := false }
  else { Bulk.reset with railOn := true, meas := measured fw }
/-- POWER_UP (R443 to R445): the boot, the image's signature, the stacks, the rails, each bulkhead's firmware, links, keys and
partitions. -/
def execPowerUp (img : ConfigImage) (fw : List (BitVec 256)) (failed : List Nat) (s : State) : Out :=
  .next (if s.powered || !signedImage img then s
    else
      let s : State :=
        { s with
          powered := true, bulks := (List.range 16).map (fun b => Bulk.powered (fw[b]?.getD 0) (failed.contains b)),
          mem := Memory.zero, flaws := [], symFlaws := [], ukeys := [], keyGen := [], keyEra := s.keyEra + 1, ring := 0xFF,
          repSerial := 0, cfgDigest := img.digest, parts := [], teams := [], ops := [], outside := [], past := [] }
      ((List.range img.parts.length).zip img.parts).foldl (fun s e => s.createPart e.1 e.2) s)

end Sys2Proof.Machine
end

