-- ==== Sys2Proof/Machine/Scalar.lean ====
section
/-!
DEFINITION. The uniform scalar instructions on s registers (R161 to R163), and the predicate instructions (R159, R160).
-/
namespace Sys2Proof.Machine

/-- SMOV: value and standing; a Z moves (R161). -/
def execSmov (d : BitVec 7) (a : BitVec 7) (s : State) : Out :=
  withCtx s fun c => s.putS d (c.role.sreg a).val (c.role.sreg a).st
/-- SLI (R161). -/
def execSli (d : BitVec 7) (imm : BitVec 64) (s : State) : Out := withCtx s fun _ => s.putS d imm .S

/-- A two-source scalar instruction in register form (R162). -/
def execSc2 (o : S2) (f : Ty → Bool → DWord → DWord → DWord) (s : State) : Out :=
  execUni [o.a, o.b] false o.d (fun v => f o.ty o.sat (v 0) (v 1)) s
/-- The 96-bit form (R98, R162). -/
def execSc2I (o : S2I) (f : Ty → Bool → DWord → DWord → DWord) (s : State) : Out :=
  execUni [o.a] true o.d (fun v => f o.ty o.sat (v 0) (immVal o.ty o.imm)) s

/-- SADD (R162). -/
def execSadd (o : S2) (s : State) : Out := execSc2 o aluAdd s
/-- SADD with an immediate (R162). -/
def execSaddImm (o : S2I) (s : State) : Out := execSc2I o aluAdd s
/-- SSUB (R162). -/
def execSsub (o : S2) (s : State) : Out := execSc2 o aluSub s
/-- SSUB with an immediate (R162). -/
def execSsubImm (o : S2I) (s : State) : Out := execSc2I o aluSub s
/-- SMUL (R162). -/
def execSmul (o : S2) (s : State) : Out := execSc2 o aluMul s
/-- SMUL with an immediate (R162). -/
def execSmulImm (o : S2I) (s : State) : Out := execSc2I o aluMul s
/-- SSHL (R162). -/
def execSshl (o : S2) (s : State) : Out := execSc2 o (fun t _ a b => aluSshl t a b) s
/-- SSHL with an immediate (R162). -/
def execSshlImm (o : S2I) (s : State) : Out := execSc2I o (fun t _ a b => aluSshl t a b) s
/-- SSHR (R162). -/
def execSshr (o : S2) (s : State) : Out := execSc2 o (fun t _ a b => aluSshr t a b) s
/-- SSHR with an immediate (R162). -/
def execSshrImm (o : S2I) (s : State) : Out := execSc2I o (fun t _ a b => aluSshr t a b) s
/-- SAND (R162). -/
def execSand (o : S2) (s : State) : Out := execSc2 o (fun t _ a b => aluAnd t a b) s
/-- SAND with an immediate (R162). -/
def execSandImm (o : S2I) (s : State) : Out := execSc2I o (fun t _ a b => aluAnd t a b) s
/-- SOR (R162). -/
def execSor (o : S2) (s : State) : Out := execSc2 o (fun t _ a b => aluOr t a b) s
/-- SOR with an immediate (R162). -/
def execSorImm (o : S2I) (s : State) : Out := execSc2I o (fun t _ a b => aluOr t a b) s
/-- SXOR (R162). -/
def execSxor (o : S2) (s : State) : Out := execSc2 o (fun t _ a b => aluXor t a b) s
/-- SXOR with an immediate (R162). -/
def execSxorImm (o : S2I) (s : State) : Out := execSc2I o (fun t _ a b => aluXor t a b) s
/-- SMIN (R162). -/
def execSmin (o : S2) (s : State) : Out := execSc2 o (fun t _ a b => aluMin t a b) s
/-- SMIN with an immediate (R162). -/
def execSminImm (o : S2I) (s : State) : Out := execSc2I o (fun t _ a b => aluMin t a b) s
/-- SMAX (R162). -/
def execSmax (o : S2) (s : State) : Out := execSc2 o (fun t _ a b => aluMax t a b) s
/-- SMAX with an immediate (R162). -/
def execSmaxImm (o : S2I) (s : State) : Out := execSc2I o (fun t _ a b => aluMax t a b) s
/-- A truth value as a scalar. -/
def boolVal (b : Bool) : DWord := if b then 1 else 0
/-- SCMP (R162). -/
def execScmp (cc : Cmp) (o : S2) (s : State) : Out := execSc2 o (fun t _ a b => boolVal (aluCmp cc t a b)) s
/-- SCMP with an immediate (R162). -/
def execScmpImm (cc : Cmp) (o : S2I) (s : State) : Out := execSc2I o (fun t _ a b => boolVal (aluCmp cc t a b)) s
/-- SMAD (R163). -/
def execSmad (o : S2) (c : BitVec 7) (s : State) : Out :=
  execUni [o.a, o.b, c] false o.d (fun v => aluMad o.ty false (v 0) (v 1) (v 2)) s
/-- SSEL: the test is made on all 64 bits of C (R163). -/
def execSsel (d : BitVec 7) (a : BitVec 7) (b : BitVec 7) (c : BitVec 7) (s : State) : Out :=
  execUni [a, b, c] false d (fun v => if v 2 != 0 then v 0 else v 1) s

/-! Predicates. -/

/-- PAND (R159). -/
def execPand (o : P2) (s : State) : Out :=
  execPred o.g [o.a, o.b] true o.d (fun v => (v 0 ^^ o.na) && (v 1 ^^ o.nb)) s
/-- POR (R159). -/
def execPor (o : P2) (s : State) : Out :=
  execPred o.g [o.a, o.b] true o.d (fun v => (v 0 ^^ o.na) || (v 1 ^^ o.nb)) s
/-- PXOR (R159). -/
def execPxor (o : P2) (s : State) : Out :=
  execPred o.g [o.a, o.b] true o.d (fun v => (v 0 ^^ o.na) ^^ (v 1 ^^ o.nb)) s
/-- PNOT (R159). -/
def execPnot (g : Guard) (d : BitVec 7) (a : BitVec 7) (s : State) : Out := execPred g [a] true d (fun v => !v 0) s
/-- PMOV: a Z moves (R159). -/
def execPmov (g : Guard) (d : BitVec 7) (a : BitVec 7) (s : State) : Out := execPred g [a] false d (fun v => v 0) s

/-- The standing that PPROV tests (R160). -/
def Role.provSt (r : Role) (src : PSrc) (l : Nat) : Standing :=
  match src with
  | .v n => (r.vreg n l).2
  | .pair n => (r.vval true n l).st
  | .p n => (r.preg n l).2
  | .s n => (r.sreg n).st
/-- PPROV: it reads standing and not value, so it consumes no Z, and its result is settled (R160). -/
def execPprov (g : Guard) (d : BitVec 7) (src : PSrc) (set : BitVec 4) (s : State) : Out :=
  withLanes s g (fun _ => false) (fun _ _ => false) fun c s ls =>
    s.putP g [] d (ls.map fun l => (l, set.getLsbD (stCode (c.role.provSt src l)).toNat, .S))

end Sys2Proof.Machine
end

