-- ==== Sys2Proof/Machine/Solver.lean ====
section
/-!
DEFINITION. Residuals, defect correction, warm starts and the solve state (R343 to R355).
-/
namespace Sys2Proof.Machine

/-- RESF's value: b − a·x with one rounding (R348). -/
def resfVal (a x b : DWord) : DWord :=
  let f := Fmt.f64
  ofPattern (f.sumVal .rn ((f.dec a.toNat).mul (f.dec x.toNat)).negate (f.dec b.toNat))
/-- RESF's standing without the taint and the guard (R348). -/
def resfSt (a x b : Standing) : Standing :=
  if a == .S && (b == .S || b == .R) && (x == .S || x == .P) then .R else .P
/-- RESF (R348): every source is consumed. -/
def execResf (g : Guard) (d : BitVec 8) (a : Src) (x : Src) (b : Src) (s : State) : Out :=
  let xs : List Opnd := [.reg .f64 a, .reg .f64 x, .reg .f64 b]
  withLanes s g (fun r => r.scalZ xs) (fun r l => r.laneZ xs l) fun c s ls =>
    s.putV g (xs.flatMap Opnd.freed) true d (ls.map fun l =>
      let va := c.role.src .f64 a l
      let vx := c.role.src .f64 x l
      let vb := c.role.src .f64 b l
      (l, resfVal va.val vx.val vb.val, resfSt va.st vx.st vb.st))

/-! DCOR (R350, R351). -/

/-- Exact comparison a ≤ b of two values; false if either is NaN. -/
def leVal (a b : FVal) : Bool :=
  match a, b with
  | .nan, _ => false
  | _, .nan => false
  | .inf true, _ => true
  | _, .inf false => true
  | .inf false, .fin _ _ _ => false
  | .fin _ _ _, .inf true => false
  | .inf false, .inf true => false
  | .fin x m e, .fin y n g => (Dyad.ofFin x m e).le (Dyad.ofFin y n g)
/-- |c| ≤ tol × max(|x|, 2^-1022), exactly (R350). -/
def dcorSmall (tol c x : Nat) : Bool :=
  let f := Fmt.f64
  if f.isNan x then false
  else leVal (f.dec (f.abs c)) ((f.dec tol).mul (f.dec (if f.mag x < 2 ^ 52 then 2 ^ 52 else f.mag x)))

/-- What a lane's correction gives: the new value, the correction, and whether the bounds are active (R350). -/
structure Correction where
  x1 : Nat
  c : Nat
  lo : Bool
  hi : Bool
  deriving DecidableEq, Repr
/-- One lane's correction without bounds. -/
def correct (x r m : Nat) : Correction :=
  let f := Fmt.f64
  { x1 := f.fma .rn m r x, c := f.mul .rn m r, lo := false, hi := false }
/-- One lane's correction between bounds. -/
def correctBox (x r m lo hi : Nat) : Correction :=
  let f := Fmt.f64
  let y := f.fma .rn m r x
  let top := f.max y lo
  let x1 := f.min top hi
  { x1 := x1, c := f.sub .rn x1 x, lo := f.cmp .lt y lo || f.isNan y, hi := f.cmp .gt top hi }
/-- The larger of two magnitudes; a NaN stays (R350). -/
def cmaxOf (a c : Nat) : Nat :=
  let f := Fmt.f64
  if f.isNan a || f.isNan c then f.nan else if a < f.mag c then f.mag c else a

/-- Fields of %svstat (R344). -/
def statNpend (v : DWord) : Nat := (v.extractLsb' 16 16).toNat
def statGcount (v : DWord) : Nat := (v.extractLsb' 8 8).toNat
def statOf (npend gcount : Nat) (box grow limit done : Bool) : DWord :=
  BitVec.ofNat 64 (npend * 2 ^ 16 + gcount * 2 ^ 8 + (if box then 8 else 0) + (if grow then 4 else 0) +
    (if limit then 2 else 0) + (if done then 1 else 0))

/-- The close of a pass (R351): the new solve state, and g and l. -/
def Solve.close (x : Solve) (st : Standing) : Solve × Bool × Bool :=
  let f := Fmt.f64
  let pass : BitVec 32 := x.pass.val.setWidth 32 + 1
  let grew := f.isNan x.cmax.toNat || (!f.isNan x.max.val.toNat && f.cmp .gt x.cmax.toNat x.max.val.toNat)
  let gcount := if grew then min (statGcount x.stat.val + 1) 255 else statGcount x.stat.val
  let lim := x.grow.val.toNat
  let g := lim != 0 && lim ≤ gcount
  let l := x.limit.val != 0 && x.limit.val.toNat < pass.toNat
  ({ x with
      pass := { val := pass.setWidth 64, st := st }
      max := { val := x.cmax, st := st }
      stat := { val := statOf (min x.npend 65535) gcount x.box g l (x.npend == 0), st := st }
      cmax := 0, npend := 0, box := false }, g, l)

/-- The first of %svtol, %svgrow and %svlimit that is not settled, by its number (R350). -/
def Solve.unsettledReg (x : Solve) : Option DWord :=
  if x.tol.st != .S then some 0x12 else if x.grow.st != .S then some 0x14 else if x.limit.st != .S then some 0x15 else none

/-- DCOR's sources. -/
def dcorOpnds (o : DcorOps) : List Opnd :=
  [.reg .f64 (.v o.x.r o.x.last), .reg .f64 (.v o.r.r o.r.last), .reg .f64 o.m] ++
  (match o.box with
    | some b => [Opnd.reg .f64 (.v b.bnd false), Opnd.reg .f64 (.v (b.bnd + 2) false)]
    | none => [])
/-- A lane's correction, and whether it settles (R350). -/
def Role.correction (r : Role) (o : DcorOps) (l : Nat) : Correction × Bool :=
  let x := r.vval true o.x.r l
  let q := r.vval true o.r.r l
  let m := r.src .f64 o.m l
  let ok := m.st == .S && (r.preg o.g.p l).2 == .S && !r.taint
  match o.box with
  | none =>
    let c := correct x.val.toNat q.val.toNat m.val.toNat
    (c, ok && dcorSmall r.solve.tol.val.toNat c.c c.x1)
  | some b =>
    let lo := r.vval true b.bnd l
    let hi := r.vval true (b.bnd + 2) l
    let c := correctBox x.val.toNat q.val.toNat m.val.toNat lo.val.toNat hi.val.toNat
    (c, ok && lo.st == .S && hi.st == .S && dcorSmall r.solve.tol.val.toNat c.c c.x1)

/-- The pass accumulator after some lanes (R350). -/
def Solve.gather (x : Solve) (box : Bool) (cs : List (Nat × Correction × Bool)) : Solve :=
  { x with
    cmax := BitVec.ofNat 64 (cs.foldl (fun m e => cmaxOf m e.2.1.c) x.cmax.toNat)
    npend := x.npend + (cs.filter (fun e => !e.2.2)).length
    box := x.box || (box && !cs.isEmpty) }

/-- DCOR once its checks have passed: the results, the accumulator, and the close of the pass (R350, R351). -/
def State.correctLanes (s : State) (c : Ctx) (o : DcorOps) (ls : List Nat) : State :=
  let cs := ls.map (fun l => (l, c.role.correction o l))
  let st (e : Nat × Correction × Bool) : Standing := if e.2.2 then .S else .P
  let s := s.putV o.g ((dcorOpnds o).flatMap Opnd.freed) true o.d
    (cs.map (fun e => (e.1, BitVec.ofNat 64 e.2.1.x1, st e)))
  let s : State := match o.box with
    | none => s
    | some b =>
      (s.putP o.g [] b.plo (cs.map (fun e : Nat × Correction × Bool => (e.1, e.2.1.lo, st e)))).putP o.g [] b.phi
        (cs.map (fun e : Nat × Correction × Bool => (e.1, e.2.1.hi, st e)))
  let s := s.modCur (fun r => { r with solve := r.solve.gather o.box.isSome cs })
  if o.more then s
  else
    let q := ((s.role? s.cur).map (fun r => r.solve.close (markSt r.taint .S))).getD (Solve.start, false, false)
    let s := s.modCur (fun r => { r with solve := q.1 })
    if q.2.1 || q.2.2 then
      s.trapAfter .nonconv (BitVec.ofNat 64 ((if q.2.1 then 1 else 0) + (if q.2.2 then 2 else 0)))
        (maskOf ((cs.filter (fun e => !e.2.2)).map (fun e => e.1)))
    else s
/-- DCOR (R350, R351). -/
def execDcor (o : DcorOps) (s : State) : Out :=
  withCtx s fun c =>
    match c.role.solve.unsettledReg with
    | some n => s.trapCur .provLoop n (maskOf (c.role.live o.g))
    | none =>
      let xs := dcorOpnds o
      match withLanes s o.g (fun r => r.scalZ xs) (fun r l => r.laneZ xs l) fun c s ls =>
        match ls.filter (fun l => (c.role.vval true o.r.r l).st != .R) with
        | k :: rest =>
          s.trapCur .dcorNotres ((stCode (c.role.vval true o.r.r k).st).setWidth 64) (maskOf (k :: rest))
        | [] =>
          if c.role.overBudget (xs.flatMap Opnd.freed) true o.d (maskOf ls) then s.budgetTrap (o.d) (maskOf ls)
          else s.correctLanes c o ls
      with
      | .next s => s
      | _ => s

/-! The solve state's own instructions (R353, R354). -/

/-- Write a solve-state register from an s register, which is consumed (R345, R353). -/
def execSvcfg (num : Nat) (mask : DWord) (a : BitVec 7) (s : State) : Out :=
  withScalars s [a] fun c =>
    let x := c.role.sreg a
    s.modCur (fun r => { r with solve := r.solve.write num { val := x.val &&& mask, st := markSt r.taint x.st } })
/-- Write a solve-state register from an immediate (R345, R353). -/
def execSvcfgVal (num : Nat) (v : DWord) (s : State) : Out :=
  withCtx s fun _ => s.modCur (fun r => { r with solve := r.solve.write num { val := v, st := markSt r.taint .S } })
/-- SVCFG.TOL from sA. -/
def execSvcfgTol (a : BitVec 7) (s : State) : Out := execSvcfg 0x12 0xFFFFFFFFFFFFFFFF a s
/-- SVCFG.TOL from an FP32 pattern, widened exactly (R98). -/
def execSvcfgTolImm (imm : BitVec 32) (s : State) : Out := execSvcfgVal 0x12 (immVal .f64 imm) s
/-- SVCFG.LIMIT from sA. -/
def execSvcfgLimit (a : BitVec 7) (s : State) : Out := execSvcfg 0x15 0xFFFFFFFF a s
/-- SVCFG.LIMIT from an immediate. -/
def execSvcfgLimitImm (imm : BitVec 32) (s : State) : Out := execSvcfgVal 0x15 (imm.setWidth 64) s
/-- SVCFG.GROW from sA. -/
def execSvcfgGrow (a : BitVec 7) (s : State) : Out := execSvcfg 0x14 0xFF a s
/-- SVCFG.GROW from an immediate. -/
def execSvcfgGrowImm (imm : BitVec 8) (s : State) : Out := execSvcfgVal 0x14 (imm.setWidth 64) s
/-- SVCFG.RESET: the pass count, the largest correction, the status and the pass accumulator (R353). -/
def execSvcfgReset (s : State) : Out :=
  withCtx s fun _ => s.modCur (fun r =>
    let st := markSt r.taint .S
    { r with solve := { r.solve with
        pass := { val := 0, st := st }, max := { val := 0x7FF0000000000000, st := st }, stat := { val := 0, st := st },
        cmax := 0, npend := 0, box := false } })
/-- SVSTAT (R354). -/
def execSvstat (d : BitVec 7) (s : State) : Out :=
  withCtx s fun c =>
    let x := c.role.solve
    s.putS d (x.pass.val.setWidth 32 ++ x.stat.val.setWidth 32) (joinSt x.pass.st x.stat.st)
/-- PMARK: it consumes no Z (R355). -/
def execPmark (g : Guard) (ty : Ty) (d : BitVec 8) (a : Src) (s : State) : Out :=
  execVec g [.reg ty a] false (fun st => joinSt st .P) ty.is64 d (fun v => v 0) s

/-! Warm starts (R346, R347, R352). -/

/-- Fields of a warm-start record (R346). -/
abbrev wsNelem (w : BitVec 512) : Nat := (w.extractLsb' 288 32).toNat
abbrev wsStep (w : BitVec 512) : Nat := (w.extractLsb' 256 32).toNat
abbrev wsShift (w : BitVec 512) : Int := (w.extractLsb' 224 32).toInt
abbrev wsTag (w : BitVec 512) : BitVec 14 := w.extractLsb' 192 14
abbrev wsBase (w : BitVec 512) : Nat := (w.extractLsb' 128 64).toNat

/-- %wsstat for a record and the current fingerprint (R347). -/
def wsClassify (p : Part) (size : Nat) (w : BitVec 512) (fp : BitVec 128) : DWord :=
  if w.extractLsb' 320 192 != (0 : BitVec 192) || w.extractLsb' 206 18 != (0 : BitVec 18) || wsNelem w == 0 ||
      wsStep w == 0 || wsNelem w % wsStep w != 0 || wsBase w % size != 0 then 0x43
  else if w.extractLsb' 80 48 != fp.extractLsb' 80 48 then 0x13
  else if wsTag w != 0 && (p.ctxEnt? (wsTag w)).isNone then 0x23
  else
    let pat := w.extractLsb' 32 48 != fp.extractLsb' 32 48
    let cset := w.extractLsb' 0 32 != fp.extractLsb' 0 32
    if pat || cset then BitVec.ofNat 64 (2 + (if pat then 4 else 0) + (if cset then 8 else 0)) else 1
/-- The element of the previous solution that index n reads (R352). -/
def wsElement (w : BitVec 512) (n : Nat) : Nat :=
  let e : Int := wsNelem w
  let st : Int := wsStep w
  let j : Int := n + wsShift w
  let j := if e ≤ j then e - st + (j - e) % st else j
  (if j < 0 then j % st else j).toNat

/-- WSTART once its record has been read (R352). -/
def State.warmLanes (s : State) (ty : Ty) (d : BitVec 8) (b : VSrc) (w : BitVec 512) (wst : Standing) (fp : BitVec 128) :
    State :=
  let frees := freed false b.r b.last
  let ds := if ty.is64 then [d, d + 1] else [d]
  match s.ctx? with
  | none => s
  | some c =>
    let stat := wsClassify c.part (tyBytes ty) w fp
    let ls := c.role.still c.role.all
    let n (l : Nat) : Nat := (c.role.vreg b.r l).1.toNat
    let cold (l : Nat) : Bool := stat.extractLsb' 0 2 == (3 : BitVec 2) || wsNelem w ≤ n l
    let ask : Ask :=
      { sp := .g, need := Need.load, size := tyBytes ty, align := tyBytes ty, bpi := false, tag := wsTag w }
    let got := s.resolveAll c ask ((ls.filter (fun l => !cold l)).map (fun l =>
      (l, (wsBase w + wsElement w (n l) * tyBytes ty) % 2 ^ 64)))
    match got.trap with
    | some (t, a, m) => got.s.trapCur t a m
    | none =>
      let live := maskOf c.role.all
      if c.role.overBudget frees ty.is64 d live then got.s.budgetTrap d live
      else
        let s := got.s.modCur (fun r => { r with solve := { r.solve with
          wsstat := { val := stat, st := markSt r.taint .S } } })
        let s := s.modCur (fun r => r.mapRows ds (groupsOf r.ngroups live))
        let put (s : State) (l : Nat) (v : Nat) (st : Standing) : State :=
          s.modCur (fun r => r.setV ty.is64 d l (BitVec.ofNat 64 v)
            (joinAll [st, wst, (c.role.vreg b.r l).2, .P]))
        let s := (ls.filter cold).foldl (fun s l => put s l 0 .S) s
        let s := got.ok.foldl (fun s e =>
          let r := s.ldPlace true c.role.accessErr e.2 (tyBytes ty)
          put r.1 e.1 r.2.1 r.2.2) s
        if got.waits.isEmpty then
          (s.modCur (fun r => r.finishRows noGuard frees ds)).lanesDone
        else s.parkLanes got.waits
/-- WSTART (R352): lanes whose index is Z die first (R403); the record is one load at tag 0, which faults as SLD's does. -/
def execWstart (ty : Ty) (d : BitVec 8) (b : VSrc) (a : BitVec 7) (k : BitVec 7) (s : State) : Out :=
  let s := s.ownRetired
  withScalars s [a, k, k + 1] fun c =>
    let z := maskOf ((c.role.still c.role.all).filter (fun l => (c.role.vreg b.r l).2 == .Z))
    let s := if z = 0 then s else s.poisonCur z
    match s.ctx? with
    | none => s
    | some c =>
      if z != 0 && c.role.over then s
      else
        let ask : Ask := { sp := .g, need := Need.load, size := 64, align := 64, bpi := false, tag := 0 }
        let fp : BitVec 128 := (c.role.sreg (k + 1)).val ++ (c.role.sreg k).val
        match s.resolve c ask [] 0 (c.role.sreg a).val.toNat with
        | (s, .ok pl) =>
          let r := s.ldPlace true c.role.accessErr pl 64
          if r.2.2 == .Z then r.1.poisonCur c.role.mask
          else r.1.warmLanes ty d b (BitVec.ofNat 512 r.2.1) (loadSt (c.role.sreg a).st r.2.2) fp
        | (s, .off) => s.offCur c.role.mask
        | (s, .trap t x) => s.trapCur t x c.role.mask
        | (s, .wait p) => s.parkCur p

end Sys2Proof.Machine
end

