-- ==== Sys2Proof/Machine/Dispatch.lean ====
section
/-!
DEFINITION. The meaning of every step of the device: one arm per row of the opcode table.
-/
namespace Sys2Proof.Machine

/-- What the device does at one step of the opcode table. -/
def exec (i : Instr) (s : State) : Host.Outcome State Fault Refusal :=
  match i with
  | .launchAppend part node q off len rec => Sys2Proof.Machine.execLaunchAppend part node q off len rec s
  | .launchAccept part serial => Sys2Proof.Machine.execLaunchAccept part serial s
  | .qresWrite part node q val => Sys2Proof.Machine.execQresWrite part node q val s
  | .registerWrite part node off len val => Sys2Proof.Machine.execRegisterWrite part node off len val s
  | .grantSubmit part node val => Sys2Proof.Machine.execGrantSubmit part node val s
  | .grantVerifyDone part => Sys2Proof.Machine.execGrantVerifyDone part s
  | .revocationDrained part => Sys2Proof.Machine.execRevocationDrained part s
  | .attctlGo part node val => Sys2Proof.Machine.execAttctlGo part node val s
  | .attestationReport part => Sys2Proof.Machine.execAttestationReport part s
  | .hostRead part node va len => Sys2Proof.Machine.execHostRead part node va len s
  | .hostWrite part node phys va data => Sys2Proof.Machine.execHostWrite part node phys va data s
  | .windowAccess part va len store => Sys2Proof.Machine.execWindowAccess part va len store s
  | .distributeTeam part => Sys2Proof.Machine.execDistributeTeam part s
  | .teamResident team => Sys2Proof.Machine.execTeamResident team s
  | .taskPlace part bulk => Sys2Proof.Machine.execTaskPlace part bulk s
  | .launchComplete part serial => Sys2Proof.Machine.execLaunchComplete part serial s
  | .partitionCreate img n => Sys2Proof.Machine.execPartitionCreate img n s
  | .partitionDissolve d => Sys2Proof.Machine.execPartitionDissolve d s
  | .remap part k spare => Sys2Proof.Machine.execRemap part k spare s
  | .bulkheadReset b => Sys2Proof.Machine.execBulkheadReset b s
  | .resetStep1End b unwritten => Sys2Proof.Machine.execResetStep1End b unwritten s
  | .bulkheadRejoin b image => Sys2Proof.Machine.execBulkheadRejoin b image s
  | .gateTimeout r => Sys2Proof.Machine.execGateTimeout r s
  | .linkAuthFail part l => Sys2Proof.Machine.execLinkAuthFail part l s
  | .linkFail part gate t => Sys2Proof.Machine.execLinkFail part gate t s
  | .selfRefreshEnter b => Sys2Proof.Machine.execSelfRefreshEnter b s
  | .selfRefreshExit b => Sys2Proof.Machine.execSelfRefreshExit b s
  | .selfRefreshTimeout b => Sys2Proof.Machine.execSelfRefreshTimeout b s
  | .railMeasure b watts dieTemp => Sys2Proof.Machine.execRailMeasure b watts dieTemp s
  | .clockStepDown b => Sys2Proof.Machine.execClockStepDown b s
  | .clockStepUp b => Sys2Proof.Machine.execClockStepUp b s
  | .dieCriticalTemp die => Sys2Proof.Machine.execDieCriticalTemp die s
  | .dieCooled die => Sys2Proof.Machine.execDieCooled die s
  | .powerUp img fw failed => Sys2Proof.Machine.execPowerUp img fw failed s
  | .migration r => Sys2Proof.Machine.execMigration r s
  | .migrationSwitch part va => Sys2Proof.Machine.execMigrationSwitch part va s
  | .remoteGoneReplay r reachable => Sys2Proof.Machine.execRemoteGoneReplay r reachable s
  | .dualMismatchRecovery r => Sys2Proof.Machine.execDualMismatchRecovery r s
  | .firmwareLpSweep part => Sys2Proof.Machine.execFirmwareLpSweep part s
  | .copyStart op => Sys2Proof.Machine.execCopyStart op s
  | .copyComplete op => Sys2Proof.Machine.execCopyComplete op s
  | .matrixOpStart op groups => Sys2Proof.Machine.execMatrixOpStart op groups s
  | .matrixOpComplete op => Sys2Proof.Machine.execMatrixOpComplete op s
  | .nmcStart op => Sys2Proof.Machine.execNmcStart op s
  | .nmcComplete op => Sys2Proof.Machine.execNmcComplete op s
  | .clauseStart h => Sys2Proof.Machine.execClauseStart h s
  | .longLatencyComplete r => Sys2Proof.Machine.execLongLatencyComplete r s
  | .fairnessServe r => Sys2Proof.Machine.execFairnessServe r s
  | .yieldExpiry r => Sys2Proof.Machine.execYieldExpiry r s
  | .budgetRetry r => Sys2Proof.Machine.execBudgetRetry r s
  | .ctxnewRetry r => Sys2Proof.Machine.execCtxnewRetry r s
  | .overlayRetry r => Sys2Proof.Machine.execOverlayRetry r s
  | .preemptRequest team => Sys2Proof.Machine.execPreemptRequest team s
  | .pdistExpiry r => Sys2Proof.Machine.execPdistExpiry r s
  | .preemptDrain team => Sys2Proof.Machine.execPreemptDrain team s
  | .gangPreemptTimeout team => Sys2Proof.Machine.execGangPreemptTimeout team s
  | .teamRestore team => Sys2Proof.Machine.execTeamRestore team s
  | .teamRetire team => Sys2Proof.Machine.execTeamRetire team s
  | .nop g => Sys2Proof.Machine.execNop g s
  | .bra target => Sys2Proof.Machine.execBra target s
  | .brd p target join => Sys2Proof.Machine.execBrd p target join s
  | .brx a => Sys2Proof.Machine.execBrx a s
  | .call target => Sys2Proof.Machine.execCall target s
  | .callInd a => Sys2Proof.Machine.execCallInd a s
  | .loop a target => Sys2Proof.Machine.execLoop a target s
  | .exit g => Sys2Proof.Machine.execExit g s
  | .pand o => Sys2Proof.Machine.execPand o s
  | .por o => Sys2Proof.Machine.execPor o s
  | .pxor o => Sys2Proof.Machine.execPxor o s
  | .pnot g d a => Sys2Proof.Machine.execPnot g d a s
  | .pmov g d a => Sys2Proof.Machine.execPmov g d a s
  | .pprov g d src set => Sys2Proof.Machine.execPprov g d src set s
  | .smov d a => Sys2Proof.Machine.execSmov d a s
  | .sli d imm => Sys2Proof.Machine.execSli d imm s
  | .sadd o => Sys2Proof.Machine.execSadd o s
  | .saddImm o => Sys2Proof.Machine.execSaddImm o s
  | .ssub o => Sys2Proof.Machine.execSsub o s
  | .ssubImm o => Sys2Proof.Machine.execSsubImm o s
  | .smul o => Sys2Proof.Machine.execSmul o s
  | .smulImm o => Sys2Proof.Machine.execSmulImm o s
  | .sshl o => Sys2Proof.Machine.execSshl o s
  | .sshlImm o => Sys2Proof.Machine.execSshlImm o s
  | .sshr o => Sys2Proof.Machine.execSshr o s
  | .sshrImm o => Sys2Proof.Machine.execSshrImm o s
  | .sand o => Sys2Proof.Machine.execSand o s
  | .sandImm o => Sys2Proof.Machine.execSandImm o s
  | .sor o => Sys2Proof.Machine.execSor o s
  | .sorImm o => Sys2Proof.Machine.execSorImm o s
  | .sxor o => Sys2Proof.Machine.execSxor o s
  | .sxorImm o => Sys2Proof.Machine.execSxorImm o s
  | .smin o => Sys2Proof.Machine.execSmin o s
  | .sminImm o => Sys2Proof.Machine.execSminImm o s
  | .smax o => Sys2Proof.Machine.execSmax o s
  | .smaxImm o => Sys2Proof.Machine.execSmaxImm o s
  | .scmp cc o => Sys2Proof.Machine.execScmp cc o s
  | .scmpImm cc o => Sys2Proof.Machine.execScmpImm cc o s
  | .smad o c => Sys2Proof.Machine.execSmad o c s
  | .ssel d a b c => Sys2Proof.Machine.execSsel d a b c s
  | .srs d num => Sys2Proof.Machine.execSrs d num s
  | .sws num a => Sys2Proof.Machine.execSws num a s
  | .sget ty d a lane => Sys2Proof.Machine.execSget ty d a lane s
  | .sld fs sp ty d a off => Sys2Proof.Machine.execSld fs sp ty d a off s
  | .shfl g mode seg ty d a b fill => Sys2Proof.Machine.execShfl g mode seg ty d a b fill s
  | .vote g d a => Sys2Proof.Machine.execVote g d a s
  | .elect g d a => Sys2Proof.Machine.execElect g d a s
  | .redux o d => Sys2Proof.Machine.execRedux o d s
  | .scan o exc d => Sys2Proof.Machine.execScan o exc d s
  | .mov g ty d a => Sys2Proof.Machine.execMov g ty d a s
  | .li g ty d imm => Sys2Proof.Machine.execLi g ty d imm s
  | .iadd o => Sys2Proof.Machine.execIadd o s
  | .iaddImm o => Sys2Proof.Machine.execIaddImm o s
  | .isub o => Sys2Proof.Machine.execIsub o s
  | .isubImm o => Sys2Proof.Machine.execIsubImm o s
  | .imul o => Sys2Proof.Machine.execImul o s
  | .imulImm o => Sys2Proof.Machine.execImulImm o s
  | .imulh o => Sys2Proof.Machine.execImulh o s
  | .imulhImm o => Sys2Proof.Machine.execImulhImm o s
  | .idiv o => Sys2Proof.Machine.execIdiv o s
  | .idivImm o => Sys2Proof.Machine.execIdivImm o s
  | .irem o => Sys2Proof.Machine.execIrem o s
  | .iremImm o => Sys2Proof.Machine.execIremImm o s
  | .imin o => Sys2Proof.Machine.execImin o s
  | .iminImm o => Sys2Proof.Machine.execIminImm o s
  | .imax o => Sys2Proof.Machine.execImax o s
  | .imaxImm o => Sys2Proof.Machine.execImaxImm o s
  | .imad o => Sys2Proof.Machine.execImad o s
  | .iabs o => Sys2Proof.Machine.execIabs o s
  | .ineg o => Sys2Proof.Machine.execIneg o s
  | .and o => Sys2Proof.Machine.execAnd o s
  | .andImm o => Sys2Proof.Machine.execAndImm o s
  | .or o => Sys2Proof.Machine.execOr o s
  | .orImm o => Sys2Proof.Machine.execOrImm o s
  | .xor o => Sys2Proof.Machine.execXor o s
  | .xorImm o => Sys2Proof.Machine.execXorImm o s
  | .not o => Sys2Proof.Machine.execNot o s
  | .shl o => Sys2Proof.Machine.execShl o s
  | .shlImm o => Sys2Proof.Machine.execShlImm o s
  | .shr o => Sys2Proof.Machine.execShr o s
  | .shrImm o => Sys2Proof.Machine.execShrImm o s
  | .sar o => Sys2Proof.Machine.execSar o s
  | .sarImm o => Sys2Proof.Machine.execSarImm o s
  | .rot o => Sys2Proof.Machine.execRot o s
  | .rotImm o => Sys2Proof.Machine.execRotImm o s
  | .popc o => Sys2Proof.Machine.execPopc o s
  | .clz o => Sys2Proof.Machine.execClz o s
  | .brev o => Sys2Proof.Machine.execBrev o s
  | .bfe o => Sys2Proof.Machine.execBfe o s
  | .bfeImm o => Sys2Proof.Machine.execBfeImm o s
  | .bfi o => Sys2Proof.Machine.execBfi o s
  | .prmt g d a b => Sys2Proof.Machine.execPrmt g d a b s
  | .prmtImm g d a imm => Sys2Proof.Machine.execPrmtImm g d a imm s
  | .icmp g cc ty d a b => Sys2Proof.Machine.execIcmp g cc ty d a b s
  | .icmpImm g cc ty d a imm => Sys2Proof.Machine.execIcmpImm g cc ty d a imm s
  | .sel g ty d a b p => Sys2Proof.Machine.execSel g ty d a b p s
  | .lea g ty sh d a b => Sys2Proof.Machine.execLea g ty sh d a b s
  | .leaImm g ty sh d a imm => Sys2Proof.Machine.execLeaImm g ty sh d a imm s
  | .fadd o => Sys2Proof.Machine.execFadd o s
  | .fsub o => Sys2Proof.Machine.execFsub o s
  | .fmul o => Sys2Proof.Machine.execFmul o s
  | .fma o => Sys2Proof.Machine.execFma o s
  | .fdiv o => Sys2Proof.Machine.execFdiv o s
  | .fsqrt o => Sys2Proof.Machine.execFsqrt o s
  | .frcpa o => Sys2Proof.Machine.execFrcpa o s
  | .frsqa o => Sys2Proof.Machine.execFrsqa o s
  | .fmin o => Sys2Proof.Machine.execFmin o s
  | .fmax o => Sys2Proof.Machine.execFmax o s
  | .fabs o => Sys2Proof.Machine.execFabs o s
  | .fneg o => Sys2Proof.Machine.execFneg o s
  | .fcpys o => Sys2Proof.Machine.execFcpys o s
  | .fcmp g cc ty d a b => Sys2Proof.Machine.execFcmp g cc ty d a b s
  | .fclass o => Sys2Proof.Machine.execFclass o s
  | .frint o => Sys2Proof.Machine.execFrint o s
  | .fscale o => Sys2Proof.Machine.execFscale o s
  | .fexpn o => Sys2Proof.Machine.execFexpn o s
  | .cvt g dty sty mode d a => Sys2Proof.Machine.execCvt g dty sty mode d a s
  | .qnt g sty rnd d a b => Sys2Proof.Machine.execQnt g sty rnd d a b s
  | .dqnt g dty w rnd d a b => Sys2Proof.Machine.execDqnt g dty w rnd d a b s
  | .plane g d a => Sys2Proof.Machine.execPlane g d a s
  | .unplane g w d a => Sys2Proof.Machine.execUnplane g w d a s
  | .rand g ty d a b => Sys2Proof.Machine.execRand g ty d a b s
  | .randImm g ty d a imm => Sys2Proof.Machine.execRandImm g ty d a imm s
  | .ld g fs sp ty d m off => Sys2Proof.Machine.execLd g fs sp ty d m off s
  | .st g sp ty data m off => Sys2Proof.Machine.execSt g sp ty data m off s
  | .ldx g fs ty d m off form disp => Sys2Proof.Machine.execLdx g fs ty d m off form disp s
  | .atom g op ord sp ty data m off => Sys2Proof.Machine.execAtom g op ord sp ty data m off s
  | .xacc g sp ty data m off => Sys2Proof.Machine.execXacc g sp ty data m off s
  | .xrnd g fs sp ty rnd d m off => Sys2Proof.Machine.execXrnd g fs sp ty rnd d m off s
  | .fence kind scope => Sys2Proof.Machine.execFence kind scope s
  | .copy o => Sys2Proof.Machine.execCopy o s
  | .binit a n => Sys2Proof.Machine.execBinit a n s
  | .bexp a n => Sys2Proof.Machine.execBexp a n s
  | .bwait a phase => Sys2Proof.Machine.execBwait a phase s
  | .ctxnew fs d => Sys2Proof.Machine.execCtxnew fs d s
  | .ctxset fs a => Sys2Proof.Machine.execCtxset fs a s
  | .ctxendDiscard fs => Sys2Proof.Machine.execCtxendDiscard fs s
  | .ctxendCommit fs => Sys2Proof.Machine.execCtxendCommit fs s
  | .ctxmerge fs d => Sys2Proof.Machine.execCtxmerge fs d s
  | .ctxq fs d a => Sys2Proof.Machine.execCtxq fs d a s
  | .sgjoin sel => Sys2Proof.Machine.execSgjoin sel s
  | .nmcAxpy o => Sys2Proof.Machine.execNmcAxpy o s
  | .nmcScale o => Sys2Proof.Machine.execNmcScale o s
  | .nmcFade o => Sys2Proof.Machine.execNmcFade o s
  | .nmcFma o => Sys2Proof.Machine.execNmcFma o s
  | .nmcClamp o => Sys2Proof.Machine.execNmcClamp o s
  | .nmcFill o => Sys2Proof.Machine.execNmcFill o s
  | .mma o => Sys2Proof.Machine.execMma o s
  | .mmar o => Sys2Proof.Machine.execMmar o s
  | .mzero fmt ct acc => Sys2Proof.Machine.execMzero fmt ct acc s
  | .minit fmt ct acc src => Sys2Proof.Machine.execMinit fmt ct acc src s
  | .mdrain o => Sys2Proof.Machine.execMdrain o s
  | .gset gid roles => Sys2Proof.Machine.execGset gid roles s
  | .mfence fs d => Sys2Proof.Machine.execMfence fs d s
  | .mwait clr a => Sys2Proof.Machine.execMwait clr a s
  | .mwaitImm clr n => Sys2Proof.Machine.execMwaitImm clr n s
  | .msave off => Sys2Proof.Machine.execMsave off s
  | .mresume off => Sys2Proof.Machine.execMresume off s
  | .ctbl a => Sys2Proof.Machine.execCtbl a s
  | .obrel n => Sys2Proof.Machine.execObrel n s
  | .resf g d a x b => Sys2Proof.Machine.execResf g d a x b s
  | .dcor o => Sys2Proof.Machine.execDcor o s
  | .wstart ty d b a c => Sys2Proof.Machine.execWstart ty d b a c s
  | .svcfgTol a => Sys2Proof.Machine.execSvcfgTol a s
  | .svcfgTolImm imm => Sys2Proof.Machine.execSvcfgTolImm imm s
  | .svcfgLimit a => Sys2Proof.Machine.execSvcfgLimit a s
  | .svcfgLimitImm imm => Sys2Proof.Machine.execSvcfgLimitImm imm s
  | .svcfgGrow a => Sys2Proof.Machine.execSvcfgGrow a s
  | .svcfgGrowImm imm => Sys2Proof.Machine.execSvcfgGrowImm imm s
  | .svstat d => Sys2Proof.Machine.execSvstat d s
  | .pmark g ty d a => Sys2Proof.Machine.execPmark g ty d a s
  | .bar b roles => Sys2Proof.Machine.execBar b roles s
  | .arrive b roles => Sys2Proof.Machine.execArrive b roles s
  | .await b => Sys2Proof.Machine.execAwait b s
  | .depinit a n => Sys2Proof.Machine.execDepinit a n s
  | .depdec fs a off => Sys2Proof.Machine.execDepdec fs a off s
  | .cpost a entry prio => Sys2Proof.Machine.execCpost a entry prio s
  | .trap g n => Sys2Proof.Machine.execTrap g n s
  | .tlbi range => Sys2Proof.Machine.execTlbi range s
  | .reservedOpcode header => Sys2Proof.Machine.execReservedOpcode header s
  | .linkRetrained part gate t => Sys2Proof.Machine.execLinkRetrained part gate t s
  | .remapPreemptTimeout part k => Sys2Proof.Machine.execRemapPreemptTimeout part k s
  | .pageMove part va tier frame => Sys2Proof.Machine.execPageMove part va tier frame s
  | .overlayPoolResize part k lines => Sys2Proof.Machine.execOverlayPoolResize part k lines s
  | .join => Sys2Proof.Machine.execJoin s
  | .ret => Sys2Proof.Machine.execRet s
  | .yield => Sys2Proof.Machine.execYield s
  | .stage => Sys2Proof.Machine.execStage s
  | .sgleave => Sys2Proof.Machine.execSgleave s
  | .fenceE => Sys2Proof.Machine.execFenceE s
  | .fenceT => Sys2Proof.Machine.execFenceT s
  | .nmwait => Sys2Proof.Machine.execNmwait s
  | .tret => Sys2Proof.Machine.execTret s
  | .pchk => Sys2Proof.Machine.execPchk s
  | .lpsw => Sys2Proof.Machine.execLpsw s
  | .svcfgReset => Sys2Proof.Machine.execSvcfgReset s

end Sys2Proof.Machine
end

