-- ==== Sys2Proof/Machine/Turn.lean ====
section
/-!
DEFINITION. What happens next when nothing forces it: a role's turn and the choice among the agents that can move (R4, R131,
R132; notes/assumptions/3.md).
-/
namespace Sys2Proof.Machine

/-- The next item of the issuing role: before its first clause stands a due point (R18), and an operation in dispute parks it
before its next instruction (R320). -/
def State.advance (s : State) (c : Ctx) : Prep :=
  let here := s.modCur (fun r => { r with item := r.pos })
  if s.curDisputed then .done (here.modCur (fun r => { r with park := some .dual }))
  else if !c.role.begun && c.role.entry.isNone then
    .done (here.duePoint { c with role := { c.role with item := c.role.pos } } 0 (fun r => { r with begun := true }))
  else s.fetch c
/-- A turn of the role that cur names: it ends when it holds no lane, stops for a pre-emption, is released from its barrier,
or issues its next item. -/
def State.prepare (s : State) : Prep :=
  if !s.mayIssue s.cur then .done s
  else match s.ctx? with
  | none => .done s
  | some c =>
    if c.role.empty then
      .done (if s.curDisputed then s.modCur (fun r =>
          if c.team.phase == .stopping then r.stopAs .reissue else { r with park := some .dual })
        else s.settleCur)
    else match if c.team.phase == .stopping then stopKind c.team c.launch s.cur.role c.role else none with
    | some k => .done (s.modCur (fun r => r.stopAs k))
    | none =>
      match c.role.park with
      | some (.bar b) =>
        .done (if c.role.barOut.getLsbD b.toNat then s else (s.modCur (fun r => { r with park := none })).barReturn b)
      | some (.sgEnd g) => .done (if (s.sgMembers c g).isEmpty then s.modCur (fun r => { r with park := none }) else s)
      | some p => if p.polled then (s.modCur (fun r => { r with park := none })).advance c else .done s
      | none => s.advance c

/-- What can be chosen: a role's turn, an event, or a request from outside that waits. -/
inductive Act where
  | turn (r : RoleRef)
  | event (i : Instr)
  | outside (n : Nat)
  deriving DecidableEq, Repr

/-- The roles that may be given a turn; one whose request has been held is performed in the order of acceptance (R232, R272). -/
def State.turns (s : State) : List Act :=
  s.teams.flatMap (fun e => ((List.range e.2.roles.length).zip e.2.roles).filterMap (fun r =>
    if s.mayIssue { team := e.1, role := r.1 } && !r.2.heldSeq.any s.heldBefore then some (.turn { team := e.1, role := r.1 })
    else none))
/-- The requests from outside that may be performed now: those that nothing holds, in the order of acceptance, and those whose
target may have come back (R236, R272). -/
def State.outsides (s : State) : List Act :=
  s.outside.filterMap (fun e => match e.2.1 with
    | none => if s.heldBefore e.1 then none else some (.outside e.1)
    | some (.remote _) => some (.outside e.1)
    | some _ => none)
/-- Does a hung gate hold a request of a role or of one of its operations (R58)? -/
def State.hungFor (s : State) (r : RoleRef) : Bool :=
  s.ops.any (fun e => e.2.owner == r && (s.opStuck e.2).any (fun b => (s.bulk b).hung))
/-- What firmware, the engines and the clocks can do for a role. -/
def State.roleEvents (s : State) (r : RoleRef) (pp : Nat) (x : Role) : List Instr :=
  let retires := ((s.part? pp).map (fun p => p.retires.any (fun y => y.role == r))).getD false
  (match x.park with
    | some (.page _) => [.migration r]
    | some (.remote _) => [.remoteGoneReplay r true]
    | some .dual => [.dualMismatchRecovery r]
    | some .budget => [.budgetRetry r]
    | some .ctxnew => [.ctxnewRetry r]
    | some .overlay => [.overlayRetry r]
    | some (.hung _) => [.gateTimeout r]
    | _ => if s.hungFor r then [.gateTimeout r] else []) ++
  (if x.out.isEmpty && !retires then [] else [.longLatencyComplete r]) ++ (if x.yielded then [.yieldExpiry r] else [])
/-- What can happen to a team. -/
def State.teamEvents (s : State) (e : Nat × Team) : List Instr :=
  (match e.2.phase with
    | .inbound => [.teamResident e.1]
    | .stopping => [.preemptDrain e.1]
    | .saved => [.teamRestore e.1]
    | .finishing => [.teamRetire e.1]
    | .resident => []) ++
  (if e.2.phase == .saved then [] else (List.range e.2.roles.length).zip e.2.roles).flatMap (fun x => s.roleEvents { team := e.1, role := x.1 } e.2.part x.2)
/-- What can happen to an operation. -/
def opEvents (e : Nat × EngOp) : List Instr :=
  match e.2.kind with
  | .copy _ _ => if e.2.moved then [.copyComplete e.1] else [.copyStart e.1]
  | .nmc _ => if e.2.moved then [.nmcComplete e.1] else [.nmcStart e.1]
  | .mat _ => if e.2.moved then [.matrixOpComplete e.1] else [.matrixOpStart e.1 1, .matrixOpStart e.1 64]
/-- What can happen in a partition. -/
def partEvents (e : Nat × Part) : List Instr :=
  e.2.launches.flatMap (fun l => match l.phase with
    | .appended => [.launchAccept e.1 l.serial]
    | .running => [.launchComplete e.1 l.serial]
    | _ => []) ++
  (if e.2.launches.any Launch.unplaced then [.distributeTeam e.1] else []) ++
  (e.2.ready.map (fun t => .taskPlace e.1 t.target)) ++
  (if e.2.grantStat = 1 then [.grantVerifyDone e.1] else []) ++
  (if e.2.grantWait.isSome then [.revocationDrained e.1] else []) ++
  (if e.2.attGo then [.attestationReport e.1] else []) ++
  (e.2.moves.map (fun m => .migrationSwitch e.1 m.va)) ++
  (e.2.remapTo.map (fun r => .remap e.1 r.1 r.2))
/-- What can happen to a bulkhead. -/
def bulkEvents (e : Nat × Bulk) : List Instr := if e.2.stepOne then [.resetStep1End e.1 []] else []
/-- Everything that can happen next of itself (R4, R131): what comes from outside the device stands in inputs. -/
def State.acts (s : State) : List Act :=
  s.turns ++ s.outsides ++ (s.teams.flatMap s.teamEvents ++ s.ops.flatMap opEvents ++ s.parts.flatMap partEvents ++
    ((List.range s.bulks.length).zip s.bulks).flatMap bulkEvents).map Act.event
/-- Who moves next: a free choice among them (log 3). -/
def State.pick (s : State) : Option Act :=
  let l := s.acts
  if l.isEmpty then none else l[Config.arbiter s.tick % l.length]?

/-- Is a step an event of the device rather than an item of a program? -/
def isEvent (i : Instr) : Bool :=
  match i with
  | .launchAppend _ _ _ _ _ _ | .launchAccept _ _ | .qresWrite _ _ _ _ | .registerWrite _ _ _ _ _ 
  | .grantSubmit _ _ _ | .grantVerifyDone _ | .revocationDrained _ | .attctlGo _ _ _ | .attestationReport _ 
  | .hostRead _ _ _ _ | .hostWrite _ _ _ _ _ | .windowAccess _ _ _ _ | .distributeTeam _ | .teamResident _ 
  | .taskPlace _ _ | .launchComplete _ _ | .partitionCreate _ _ | .partitionDissolve _ | .remap _ _ _ 
  | .bulkheadReset _ | .resetStep1End _ _ | .bulkheadRejoin _ _ | .gateTimeout _ | .linkAuthFail _ _ 
  | .linkFail _ _ _ | .selfRefreshEnter _ | .selfRefreshExit _ | .selfRefreshTimeout _ | .railMeasure _ _ _ 
  | .clockStepDown _ | .clockStepUp _ | .dieCriticalTemp _ | .dieCooled _ | .powerUp _ _ _ | .migration _ 
  | .migrationSwitch _ _ | .remoteGoneReplay _ _ | .dualMismatchRecovery _ | .firmwareLpSweep _ | .copyStart _ 
  | .copyComplete _ | .matrixOpStart _ _ | .matrixOpComplete _ | .nmcStart _ | .nmcComplete _ 
  | .longLatencyComplete _ | .fairnessServe _ | .yieldExpiry _ | .budgetRetry _ | .ctxnewRetry _ | .overlayRetry _ 
  | .preemptRequest _ | .pdistExpiry _ | .preemptDrain _ | .gangPreemptTimeout _ | .teamRestore _ | .teamRetire _ 
  | .linkRetrained _ _ _ | .remapPreemptTimeout _ _ | .pageMove _ _ _ _ | .overlayPoolResize _ _ _ => true
  | _ => false

end Sys2Proof.Machine
end

