-- ==== Sys2Proof/Machine/Step.lean ====
section
/-!
DEFINITION. One step of the device: an input of the outside world, the turn of a role, or the choice of who moves next.
-/
namespace Sys2Proof.Machine

/-- A role's turn: it fetches its next item and executes it. -/
def turnOf (s : State) : Out :=
  match s.prepare with
  | .done s => .next s
  | .run i s => finishIssue i s (exec i s)

/-- A request from outside that has waited is performed, under its number (R232, R272). -/
def outsideOf (n : Nat) (s : State) : Out :=
  match s.outside.find? (fun e => e.1 == n) with
  | none => .next s
  | some e =>
    match exec e.2.2 { s with outside := s.outside.filter (fun x => x.1 != n), serving := some n } with
    | .next s => .next { s with serving := none }
    | o => o

/-- One step. -/
def step (s : State) : Host.Outcome State Fault Refusal :=
  let s1 := { s with tick := s.tick + 1 }
  match s.inputs, s.turn with
  | i :: t, _ => if isEvent i then exec i { s1 with inputs := t } else .next { s1 with inputs := t }
  | [], some r => turnOf { s1 with turn := none, cur := r }
  | [], none =>
    match s.pick with
    | none => .next s1
    | some (.turn r) => .next { s1 with turn := some r }
    | some (.event i) => exec i s1
    | some (.outside n) => outsideOf n s1

/-- The instruction with the word w placed where the next step fetches it (see program). -/
def State.withFetchWord (s : State) (nbits w : Nat) : State := s.program (w % 2 ^ nbits)

end Sys2Proof.Machine
end

