-- ==== Sys2Proof/Safety.lean ====
section
/-!
DEFINITION. What counts as a safe run, and the terms the statements use: when a role is ready for an instruction, and what a
per-lane, a predicate and a uniform result change.
-/
namespace Sys2Proof.Machine

/-- Every storage of the machine is in its canonical form: the stacks, remote memory, and each team's scratch, operand
buffers and scale memory, and each partition's bulkhead scratch. -/
def State.storageWf (s : State) : Bool :=
  s.mem.wf && s.extMem.wf && s.parts.all (fun e => e.2.bscratch.wf) &&
  s.teams.all (fun e => e.2.scratch.wf && (match e.2.ob with | some b => b.mem.wf && b.scale.wf | none => true))

/-- A role with other v, p or s registers. -/
def Role.withV (r : Role) (v : Tab VRow) : Role := { r with v := v }
def Role.withP (r : Role) (p : Tab PRow) : Role := { r with p := p }
def Role.withS (r : Role) (x : Tab SVal) : Role := { r with s := x }

/-! Before an instruction. -/

/-- cur names the role c.role of a launch, and it has not ended. -/
abbrev State.Ready (s : State) (c : Ctx) : Prop := s.ctx? = some c ∧ c.role.ended = false
/-- No lane of the mask has a guard bit in state Z (R143). -/
abbrev Role.GuardOk (r : Role) (g : Guard) : Prop := ∀ l ∈ r.all, (r.preg g.p l).2 ≠ .Z
/-- No live lane has an operand in state Z (R143). -/
abbrev Role.OpndsOk (r : Role) (g : Guard) (xs : List Opnd) : Prop := ∀ l ∈ r.live g, ∀ x ∈ xs, (r.opnd x l).st ≠ .Z
/-- None of the p registers is Z in a live lane. -/
abbrev Role.PredsOk (r : Role) (g : Guard) (ns : List (BitVec 7)) : Prop := ∀ l ∈ r.live g, ∀ n ∈ ns, (r.preg n l).2 ≠ .Z
/-- None of the s registers is Z. -/
abbrev Role.ScalsOk (r : Role) (ns : List (BitVec 7)) : Prop := ∀ n ∈ ns, (r.sreg n).st ≠ .Z
/-- A write to a register or pair in some lanes stays within the budget (R135, R136). -/
abbrev Role.Room (r : Role) (frees : List (BitVec 8)) (wide : Bool) (d : BitVec 8) (ls : List Nat) : Prop :=
  r.overBudget frees wide d (maskOf ls) = false
/-- A lane's operands, in order. -/
def Role.arg (r : Role) (xs : List Opnd) (l i : Nat) : SVal := ((xs.map (fun x => r.opnd x l))[i]?).getD { val := 0, st := .S }
/-- The registers that the marked operands free (R93). -/
def freesOf (xs : List Opnd) : List (BitVec 8) := xs.flatMap Opnd.freed

/-! After an instruction. -/

/-- The standing that a lane's result carries: a guard bit in state P or R joins P, and then the taint does (R129, R140). -/
def Role.resultSt (r : Role) (g : Guard) (l : Nat) (st : Standing) : Standing := markSt r.taint (r.guarded g l st)

/-- t is s but for v registers of the issuing role: the lanes ls of the destination hold the results, the rows that last
uses freed read zero, and every other element is as before. -/
def WroteLanes (s : State) (c : Ctx) (g : Guard) (ls : List Nat) (frees : List (BitVec 8)) (wide : Bool) (d : BitVec 8)
    (val : Nat → DWord) (st : Nat → Standing) (t : State) : Prop :=
  ∃ v, t = s.modCur (fun r => r.withV v) ∧ ∀ (n : BitVec 8) (l : Nat), l < 1024 →
    (c.role.withV v).vreg n l =
      if l ∈ ls ∧ n = d then ((val l).setWidth 32, c.role.resultSt g l (st l))
      else if l ∈ ls ∧ wide = true ∧ n = d + 1 then ((val l).extractLsb' 32 32, c.role.resultSt g l (st l))
      else if n ∈ frees ∧ l / 8 ∈ groupsOf c.role.ngroups c.role.mask then (0, .S)
      else c.role.vreg n l

/-- t is s but for p registers of the issuing role, and for the rows that last uses freed: the lanes ls of the destination
hold the results, unless it is p127, and every other bit is as before (R133). -/
def WrotePreds (s : State) (c : Ctx) (g : Guard) (ls : List Nat) (frees : List (BitVec 8)) (d : BitVec 7) (val : Nat → Bool)
    (st : Nat → Standing) (t : State) : Prop :=
  ∃ v p, t = s.modCur (fun r => (r.withV v).withP p) ∧
    (∀ (n : BitVec 8) (l : Nat), l < 1024 → (c.role.withV v).vreg n l =
      if n ∈ frees ∧ l / 8 ∈ groupsOf c.role.ngroups c.role.mask then (0, .S) else c.role.vreg n l) ∧
    ∀ (n : BitVec 7) (l : Nat), l < 1024 → (c.role.withP p).preg n l =
      if l ∈ ls ∧ n = d ∧ d ≠ 127 then (val l, c.role.resultSt g l (st l)) else c.role.preg n l

/-- t is s but for one s register of the issuing role, into which the taint has joined (R129). -/
def WroteScal (s : State) (c : Ctx) (d : BitVec 7) (val : DWord) (st : Standing) (t : State) : Prop :=
  ∃ x, t = s.modCur (fun r => r.withS x) ∧ ∀ n : BitVec 7, (c.role.withS x).sreg n =
    if n = d then { val := val, st := markSt c.role.taint st } else c.role.sreg n

/-- i computes val and st from its operands in every live lane, into a register or pair; consume tells of an instruction
that a Z operand would kill. -/
def VecRule (i : Instr) (consume : Bool) (g : Guard) (xs : List Opnd) (wide : Bool) (d : BitVec 8)
    (val : (Nat → SVal) → DWord) (st : (Nat → SVal) → Standing) : Prop :=
  ∀ s c, s.Ready c → c.role.GuardOk g → (consume = true → c.role.OpndsOk g xs) →
    c.role.Room (freesOf xs) wide d (c.role.live g) →
    ∃ t, exec i s = .next t ∧ WroteLanes s c g (c.role.live g) (freesOf xs) wide d
      (fun l => val (c.role.arg xs l)) (fun l => st (c.role.arg xs l)) t

/-- Has a lane an operand in state Z, or a p register in state Z? -/
def zOpnds (xs : List Opnd) (r : Role) (l : Nat) : Bool := xs.any (fun x => (r.opnd x l).st = .Z)
def zPreds (ns : List (BitVec 7)) (r : Role) (l : Nat) : Bool := ns.any (fun n => (r.preg n l).2 = .Z)

/-- i kills the lanes, of those that are still to perform it, whose guard bit is Z or that z tells of, and acts in the lanes that
are left; a role without lanes does nothing more (R143, R148, R228). -/
def KillRule (i : Instr) (g : Guard) (z : Role → Nat → Bool) : Prop :=
  ∀ s c, s.Ready c →
    let m := maskOf ((c.role.still c.role.all).filter (fun l => (c.role.preg g.p l).2 = .Z)) |||
      maskOf ((c.role.still (c.role.live g)).filter (z c.role))
    m ≠ 0 → ∀ d, (s.poisonCur m).ctx? = some d →
      exec i s = if d.role.over then .next (s.poisonCur m) else exec i (s.poisonCur m)

/-- What comes of a write over the budget in the lanes ls (R136). -/
def State.overRoom (s : State) (d : BitVec 8) (ls : List Nat) : State :=
  if s.earlier = true then s.parkCur .budget else s.trapCur .regBudget (d.setWidth 64) (maskOf ls)
/-- i, where its write would take the role over its budget, waits or raises REG_BUDGET, with nothing written (R136). -/
def BudgetRule (i : Instr) (consume : Bool) (g : Guard) (xs : List Opnd) (wide : Bool) (d : BitVec 8) : Prop :=
  ∀ s c, s.Ready c → c.role.GuardOk g → (consume = true → c.role.OpndsOk g xs) →
    ¬ c.role.Room (freesOf xs) wide d (c.role.live g) → exec i s = .next (s.overRoom d (c.role.live g))

/-- i tests its operands in every live lane, into a p register. -/
def TestRule (i : Instr) (g : Guard) (xs : List Opnd) (d : BitVec 7) (val : (Nat → SVal) → Bool)
    (st : (Nat → SVal) → Standing) : Prop :=
  ∀ s c, s.Ready c → c.role.GuardOk g → c.role.OpndsOk g xs →
    ∃ t, exec i s = .next t ∧ WrotePreds s c g (c.role.live g) (freesOf xs) d
      (fun l => val (c.role.arg xs l)) (fun l => st (c.role.arg xs l)) t

/-- i computes val and st from s registers that are not Z, into an s register. -/
def UniRule (i : Instr) (ns : List (BitVec 7)) (d : BitVec 7) (val : Role → DWord) (st : Role → Standing) : Prop :=
  ∀ s c, s.Ready c → c.role.ScalsOk ns → ∃ t, exec i s = .next t ∧ WroteScal s c d (val c.role) (st c.role) t

/-- A two-source integer instruction in both its forms: val of the operands, B read as tb, with the join of their standing
(R187, R190). -/
def Int2Rule (reg : I2 → Instr) (imm : I2I → Instr) (tb : Ty → Ty) (val : Ty → Bool → DWord → DWord → DWord) : Prop :=
  (∀ o, (reg o).wf = true → VecRule (reg o) true o.g [.reg o.ty o.a, .reg (tb o.ty) o.b] o.ty.is64 o.d
    (fun v => val o.ty o.sat (v 0).val (v 1).val) (fun v => joinSt (v 0).st (v 1).st)) ∧
  (∀ o, (imm o).wf = true → VecRule (imm o) true o.g [.reg o.ty o.a, .imm (immVal (tb o.ty) o.imm)] o.ty.is64 o.d
    (fun v => val o.ty o.sat (v 0).val (v 1).val) (fun v => joinSt (v 0).st .S))

/-- A one-source integer instruction; wide tells of a 64-bit result (R193). -/
def Int1Rule (i : I1 → Instr) (wide : Ty → Bool) (val : Ty → Bool → DWord → DWord) : Prop :=
  ∀ o, (i o).wf = true → VecRule (i o) true o.g [.reg o.ty o.a] (wide o.ty) o.d (fun v => val o.ty o.sat (v 0).val)
    (fun v => (v 0).st)

/-- Float instructions of one and two sources: val works on bit patterns of the type's format, and a result of a narrow type
is P (R139, R200). -/
def Flt1Rule (i : F1 → Instr) (wide : Ty → Bool) (val : Fmt → Rnd → Nat → Nat) : Prop :=
  ∀ o, (i o).wf = true → VecRule (i o) true o.g [.reg o.ty o.a] (wide o.ty) o.d
    (fun v => BitVec.ofNat 64 (val (Fmt.ofTy o.ty) o.rnd (readBits o.ty (v 0).val))) (fun v => tySt o.ty (v 0).st)
def Flt2Rule (i : F2 → Instr) (val : Fmt → Rnd → Nat → Nat → Nat) : Prop :=
  ∀ o, (i o).wf = true → VecRule (i o) true o.g [.reg o.ty o.a, .reg o.ty o.b] o.ty.is64 o.d
    (fun v => BitVec.ofNat 64 (val (Fmt.ofTy o.ty) o.rnd (readBits o.ty (v 0).val) (readBits o.ty (v 1).val)))
    (fun v => tySt o.ty (joinSt (v 0).st (v 1).st))

/-- A predicate instruction of two sources, each inverted as its operands say (R159). -/
def Pred2Rule (i : P2 → Instr) (val : Bool → Bool → Bool) : Prop :=
  ∀ o s c, s.Ready c → c.role.GuardOk o.g → c.role.PredsOk o.g [o.a, o.b] →
    ∃ t, exec (i o) s = .next t ∧ WrotePreds s c o.g (c.role.live o.g) [] o.d
      (fun l => val ((c.role.preg o.a l).1 ^^ o.na) ((c.role.preg o.b l).1 ^^ o.nb))
      (fun l => joinSt (c.role.preg o.a l).2 (c.role.preg o.b l).2) t

/-- A two-source scalar instruction in both its forms (R162). -/
def Scal2Rule (reg : S2 → Instr) (imm : S2I → Instr) (val : Ty → Bool → DWord → DWord → DWord) : Prop :=
  (∀ o, (reg o).wf = true → UniRule (reg o) [o.a, o.b] o.d
    (fun r => val o.ty o.sat (r.sreg o.a).val (r.sreg o.b).val) (fun r => joinSt (r.sreg o.a).st (r.sreg o.b).st)) ∧
  (∀ o, (imm o).wf = true → UniRule (imm o) [o.a] o.d
    (fun r => val o.ty o.sat (r.sreg o.a).val (immVal o.ty o.imm)) (fun r => joinSt (r.sreg o.a).st .S))

/-! Memory accesses (R227, R228). -/

/-- A partition without what reading may change in it: the cached translations, and the contents of cells whose pool lines have
an error. -/
def Part.quiet (p : Part) : Part := { p with tlb := [], cells := p.cells.map (fun c => { c with data := 0, st := [] }) }
/-- t is s but for what reading main memory can change: the errors that the read meets, cached translations, and who has read
which write. Without an error every byte is as before, and where the role already knows every write that stays so. -/
def State.ReadOnly (s t : State) : Prop :=
  t = { s with
    parts := t.parts, mem := t.mem, flaws := t.flaws, symFlaws := t.symFlaws, bulks := t.bulks, free := t.free, past := t.past } ∧
  (∀ p, (t.part? p).map Part.quiet = (s.part? p).map Part.quiet) ∧
  (s.flaws = [] → t.mem = s.mem ∧ t.bulks = s.bulks ∧ t.flaws = [] ∧ t.symFlaws = s.symFlaws ∧
    ∀ p, (t.part? p).map Part.cells = (s.part? p).map Part.cells) ∧
  (s.knowsAll = true → t.past = s.past)

/-- Every live lane's element is reached: no lane is left over from before, the tag is known, and the walks answer got and the
lanes' places. -/
abbrev State.Reach (s : State) (c : Ctx) (o : LaneMem) (t : TagRes) (tag : BitVec 14) (got : State) (pls : List (Nat × Place)) :
    Prop :=
  c.role.unfinished = none ∧
  t.resolve s c ((c.role.live o.g).map (fun l => (c.role.ea o.m o.off l).val.toNat)) = .inr tag ∧
  s.resolveAll c { sp := o.sp, need := o.need, size := o.size, align := o.align, bpi := o.bpi, tag := tag }
    ((c.role.live o.g).map (fun l => (l, (c.role.ea o.m o.off l).val.toNat))) =
    { s := got, ok := pls, off := [], traps := [], waits := [] }

/-- A per-lane load: where every live lane is reached, the lanes take what read gives for their places, P or R in an address
joins P, the marked index's row is freed, the flag counts the instruction, and nothing else changes. -/
def LoadRule (i : Instr) (o : LaneMem) (wide : Bool) (d : BitVec 8) (fs : Bool) (ok : State → Ctx → Prop)
    (tag : Ctx → TagRes) (read : State → Option Nat → Place → Nat → State × DWord × Standing) : Prop :=
  ∀ s c x got pls, s.Ready c → ok s c → c.role.GuardOk o.g → c.role.OpndsOk o.g (addrOpnds o.m) →
    s.Reach c o (tag c) x got pls → c.role.Room (freesOf (addrOpnds o.m)) wide d (c.role.live o.g) →
    ∃ (t : State) (v : Tab VRow) (p : Tab Xl) (val : Nat → DWord) (st : Nat → Standing), exec i s = .next t ∧
      (s.modCur (fun r => { r.withV v with
        lastPage := p, out := r.out ++ [r.flagOf fs], unfinished := none, accessErr := none, heldSeq := none })).ReadOnly t ∧
      (∀ (n : BitVec 8) (l : Nat), l < 1024 → (c.role.withV v).vreg n l =
        if l ∈ c.role.live o.g ∧ n = d then ((val l).setWidth 32, c.role.resultSt o.g l (st l))
        else if l ∈ c.role.live o.g ∧ wide = true ∧ n = d + 1 then ((val l).extractLsb' 32 32, c.role.resultSt o.g l (st l))
        else if n ∈ freesOf (addrOpnds o.m) ∧ l / 8 ∈ groupsOf c.role.ngroups c.role.mask then (0, .S)
        else c.role.vreg n l) ∧
      ((∀ e ∈ pls, ∀ k, (read got c.role.accessErr e.2 k).1 = got) → ∀ e ∈ pls,
        let ea := c.role.ea o.m o.off e.1
        let r := read got c.role.accessErr e.2 (c.bpiPos o.sp e.1 ea.val.toNat)
        e.1 ∈ c.role.live o.g ∧ val e.1 = r.2.1 ∧ st e.1 = loadSt ea.st r.2.2)

/-- A per-lane store or update: where every live lane is reached and the pools have the lines, the lanes act one after the
other, after before and followed by after, and the marked rows are freed. -/
def StoreRule (i : Instr) (o : LaneMem) (data : Opnd) (writers : Ctx → List (Nat × Place) → List (Nat × Place))
    (act : Ctx → State → Nat × Place → State) (before after : State → State) : Prop :=
  ∀ s c x got pls, s.Ready c → c.role.GuardOk o.g → c.role.OpndsOk o.g (addrOpnds o.m ++ [data]) →
    s.Reach c o (ctxTag o.sp c) x got pls →
    (∀ k < 8, ((distinctLines (needLines got pls)).filter (fun e => e.1 == k)).length ≤ c.part.poolFree k) →
    (∃ p, ∀ f : Role → Role, (s.modCur (fun r => f { r with lastPage := p })).ReadOnly (got.modCur f)) ∧
    exec i s = .next (after (((writers c pls).foldl (act c) (before got)).modCur (fun r =>
      { r.freeRows (freesOf (addrOpnds o.m ++ [data])) (groupsOf r.ngroups r.mask) with
        unfinished := none, accessErr := none, heldSeq := none })))

/-! After an event. -/

/-- t is s but for one partition and the answer to a requester. -/
def State.ButPart (s t : State) (pp : Nat) : Prop :=
  t = { s with parts := t.parts, reply := t.reply, serving := t.serving } ∧ ∀ k, k ≠ pp → t.part? k = s.part? k
/-- t is s but for one team. -/
def State.ButTeam (s t : State) (n : Nat) : Prop := t = { s with teams := t.teams } ∧ ∀ k, k ≠ n → t.team? k = s.team? k
/-- t is s but for one bulkhead. -/
def State.ButBulk (s t : State) (b : Nat) : Prop := t = { s with bulks := t.bulks } ∧ ∀ k, k ≠ b → t.bulk k = s.bulk k
/-- i takes s to a state that is s but for partition pp, which is now as f says, and for the answer r. -/
def ChangesPart (i : Instr) (s : State) (pp : Nat) (r : Reply) (f : Part → Prop) : Prop :=
  ∃ t x, exec i s = .next t ∧ s.ButPart t pp ∧ t.reply = r ∧ t.part? pp = some x ∧ f x
/-- i takes s to a state that is s but for bulkhead b, which is now x. -/
def ChangesBulk (i : Instr) (s : State) (b : Nat) (x : Bulk) : Prop :=
  ∃ t, exec i s = .next t ∧ s.ButBulk t b ∧ t.bulk b = x
/-- i takes s to a state that is s but for a role, which is now x. -/
def ChangesRole (i : Instr) (s : State) (r : RoleRef) (x : Role) : Prop :=
  ∃ t, exec i s = .next t ∧ s.ButTeam t r.team ∧ t.role? r = some x ∧
    ∀ k, k ≠ r.role → t.role? { r with role := k } = s.role? { r with role := k }

end Sys2Proof.Machine
end

