-- ==== Sys2Proof/Certificates/Slice0/Obligations.lean ====
section
/-!
DEFINITION. The statements for the provers.
-/
section
open Sys2Proof Sys2Proof.Machine

/-! Integer instructions (R187 to R199). -/

/-- R190, R191: IADD, ISUB, IMUL and IMULH: the exact sum, difference and product wrapped, or clamped under SAT, and the
upper half of the exact product; IMIN and IMAX; IDIV and IREM, where a divisor of 0 gives 0 and a. -/
def Obligations.integerArithmetic : Prop :=
  (Int2Rule .iadd .iaddImm id (fun ty sat a b => intResult ty sat (readInt ty a + readInt ty b)) ∧
  Int2Rule .isub .isubImm id (fun ty sat a b => intResult ty sat (readInt ty a - readInt ty b)) ∧
  Int2Rule .imul .imulImm id (fun ty sat a b => intResult ty sat (readInt ty a * readInt ty b)) ∧
  Int2Rule .imulh .imulhImm id (fun ty _ a b => wrapInt ty (readInt ty a * readInt ty b / (2 ^ tyBits ty : Nat)))) ∧
  (Int2Rule .imin .iminImm id (fun ty _ a b => wrapInt ty (min (readInt ty a) (readInt ty b))) ∧
  Int2Rule .imax .imaxImm id (fun ty _ a b => wrapInt ty (max (readInt ty a) (readInt ty b))) ∧
  Int2Rule .idiv .idivImm id (fun ty sat a b =>
    if readInt ty b = 0 then 0 else intResult ty sat ((readInt ty a).tdiv (readInt ty b))) ∧
  Int2Rule .irem .iremImm id (fun ty _ a b =>
    wrapInt ty (if readInt ty b = 0 then readInt ty a else readInt ty a - (readInt ty a).tdiv (readInt ty b) * readInt ty b)))

/-- R190, R192 to R196: AND, OR, XOR, SHL, SHR, SAR and ROT, whose count is the whole 32-bit value of B; IMAD, the one-source
operations, the bit fields and the byte permute. -/
def Obligations.integerBits : Prop :=
  (Int2Rule .and .andImm id (fun ty _ a b => wrapInt ty ((a &&& b).toNat)) ∧
  Int2Rule .or .orImm id (fun ty _ a b => wrapInt ty ((a ||| b).toNat)) ∧
  Int2Rule .xor .xorImm id (fun ty _ a b => wrapInt ty ((a ^^^ b).toNat)) ∧
  Int2Rule .shl .shlImm (fun _ => .u32) (fun ty _ a b =>
    if tyBits ty ≤ b.toNat % 2 ^ 32 then 0 else wrapInt ty ((readBits ty a * 2 ^ (b.toNat % 2 ^ 32) : Nat))) ∧
  Int2Rule .shr .shrImm (fun _ => .u32) (fun ty _ a b =>
    if tyBits ty ≤ b.toNat % 2 ^ 32 then 0 else wrapInt ty ((readBits ty a / 2 ^ (b.toNat % 2 ^ 32) : Nat))) ∧
  Int2Rule .sar .sarImm (fun _ => .u32) (fun ty _ a b =>
    wrapInt ty (signedBits ty a >>> min (tyBits ty) (b.toNat % 2 ^ 32))) ∧
  Int2Rule .rot .rotImm (fun _ => .u32) (fun ty _ a b =>
    wrapInt ty (((readBits ty a <<< (b.toNat % 2 ^ 32 % tyBits ty)) |||
      (readBits ty a >>> (tyBits ty - b.toNat % 2 ^ 32 % tyBits ty)) : Nat)))) ∧
  ((∀ o, (Instr.imad o).wf = true → VecRule (.imad o) true o.g [.reg o.ty o.a, .reg o.ty o.b, .reg o.ty o.c] o.ty.is64 o.d
    (fun v => intResult o.ty o.sat (readInt o.ty (v 0).val * readInt o.ty (v 1).val + readInt o.ty (v 2).val))
    (fun v => joinSt (v 0).st (joinSt (v 1).st (v 2).st))) ∧
  Int1Rule .iabs Ty.is64 (fun ty sat a => intResult ty sat (readInt ty a).natAbs) ∧
  Int1Rule .ineg Ty.is64 (fun ty sat a => intResult ty sat (-(readInt ty a))) ∧
  Int1Rule .not Ty.is64 (fun ty _ a => wrapInt ty ((~~~a).toNat)) ∧
  Int1Rule .popc (fun _ => false) (fun ty _ a => BitVec.ofNat 64 (countBits a.getLsbD (tyBits ty))) ∧
  Int1Rule .clz (fun _ => false) (fun ty _ a => BitVec.ofNat 64 (tyBits ty - bitLen (readBits ty a))) ∧
  Int1Rule .brev Ty.is64 (fun ty _ a => wrapInt ty (natOfBits (fun i => a.getLsbD (tyBits ty - 1 - i)) (tyBits ty))) ∧
  Int2Rule .bfe .bfeImm (fun _ => .u32) (fun ty _ a b => aluBfe ty a (b.setWidth 32)) ∧
  (∀ o, (Instr.bfi o).wf = true → VecRule (.bfi o) true o.g [.reg o.ty o.a, .reg o.ty o.b, .reg .u32 o.c] o.ty.is64 o.d
    (fun v => aluBfi o.ty (v 0).val (v 1).val ((v 2).val.setWidth 32)) (fun v => joinSt (v 0).st (joinSt (v 1).st (v 2).st))) ∧
  (∀ g d a b, (Instr.prmt g d a b).wf = true → VecRule (.prmt g d a b) true g [.reg .u64 (.v a.r a.last), .reg .u32 b] false d
    (fun v => (aluPrmt (v 0).val ((v 1).val.setWidth 32)).setWidth 64) (fun v => joinSt (v 0).st (v 1).st)) ∧
  (∀ g d a imm, (Instr.prmtImm g d a imm).wf = true →
    VecRule (.prmtImm g d a imm) true g [.reg .u64 (.v a.r a.last), .imm (imm.setWidth 64)] false d
    (fun v => (aluPrmt (v 0).val imm).setWidth 64) (fun v => joinSt (v 0).st .S)))

/-- R188: MOV writes its source's value and standing, and a Z source moves. -/
def Obligations.movCopies : Prop :=  ∀ g ty d a, (Instr.mov g ty d a).wf = true →
    VecRule (.mov g ty d a) false g [.reg ty a] ty.is64 d (fun v => (v 0).val) (fun v => (v 0).st)

/-- R189, R198, R199: LI, SEL and LEA. -/
def Obligations.selectAndAddress : Prop :=  (∀ g ty d imm, (Instr.li g ty d imm).wf = true → VecRule (.li g ty d imm) true g [.imm (immVal ty imm)] ty.is64 d
    (fun _ => immVal ty imm) (fun _ => if ty = .f16 ∨ ty = .bf16 then .P else .S)) ∧
  (∀ g ty d a b p, (Instr.sel g ty d a b p).wf = true → ∀ s c, s.Ready c → c.role.GuardOk g →
    c.role.OpndsOk g [.reg ty a, .reg ty b] → c.role.PredsOk g [p] →
    c.role.Room (freesOf [.reg ty a, .reg ty b]) ty.is64 d (c.role.live g) →
    ∃ t, exec (.sel g ty d a b p) s = .next t ∧
      WroteLanes s c g (c.role.live g) (freesOf [.reg ty a, .reg ty b]) ty.is64 d
        (fun l => if (c.role.preg p l).1 then (c.role.src ty a l).val else (c.role.src ty b l).val)
        (fun l => joinSt (c.role.src ty a l).st (joinSt (c.role.src ty b l).st (c.role.preg p l).2)) t) ∧
  (∀ g ty sh d a b, (Instr.lea g ty sh d a b).wf = true → VecRule (.lea g ty sh d a b) true g [.reg ty a, .reg .u32 b] ty.is64 d
    (fun v => wrapInt ty (((v 0).val + (if ty = .i64 then ((v 1).val.setWidth 32).signExtend 64
      else ((v 1).val.setWidth 32).setWidth 64) <<< sh.toNat).toNat)) (fun v => joinSt (v 0).st (v 1).st)) ∧
  (∀ g ty sh d a imm, (Instr.leaImm g ty sh d a imm).wf = true →
    VecRule (.leaImm g ty sh d a imm) true g [.reg ty a, .imm (imm.setWidth 64)] ty.is64 d
    (fun v => wrapInt ty (((v 0).val + (if ty = .i64 then imm.signExtend 64 else imm.setWidth 64) <<< sh.toNat).toNat))
    (fun v => joinSt (v 0).st .S))

/-! Float instructions and conversions (R200 to R212, R215). -/

/-- R201 to R209: the float arithmetic, every result rounded once, and the other float results; FCLASS and FEXPN write one
32-bit register. That the result of FCLASS and FEXPN of F16 and BF16 is P is the model's reading of R139 (log 35). -/
def Obligations.floatResults : Prop :=
  (Flt2Rule .fadd (fun f rm a b => f.sumVal rm (f.dec a) (f.dec b)) ∧
  Flt2Rule .fsub (fun f rm a b => f.sumVal rm (f.dec a) (f.dec b).negate) ∧
  Flt2Rule .fmul (fun f rm a b => f.ofVal rm ((f.dec a).mul (f.dec b))) ∧
  Flt2Rule .fdiv (fun f rm a b => f.div rm a b) ∧
  (∀ o, (Instr.fma o).wf = true → VecRule (.fma o) true o.g [.reg o.ty o.a, .reg o.ty o.b, .reg o.ty o.c] o.ty.is64 o.d
    (fun v => BitVec.ofNat 64 ((Fmt.ofTy o.ty).sumVal o.rnd
      (((Fmt.ofTy o.ty).dec (readBits o.ty (v 0).val)).mul ((Fmt.ofTy o.ty).dec (readBits o.ty (v 1).val)))
      ((Fmt.ofTy o.ty).dec (readBits o.ty (v 2).val))))
    (fun v => tySt o.ty (joinSt (v 0).st (joinSt (v 1).st (v 2).st)))) ∧
  Flt1Rule .fsqrt Ty.is64 (fun f rm a => f.sqrt rm a) ∧
  Flt1Rule .frcpa Ty.is64 (fun f rm a => f.rcpa rm a) ∧
  Flt1Rule .frsqa Ty.is64 (fun f rm a => f.rsqa rm a)) ∧
  (Flt2Rule .fmin (fun f _ a b => if f.isNan a then (if f.isNan b then f.nan else b) else if f.isNan b then a
    else if f.key a ≤ f.key b then a else b) ∧
  Flt2Rule .fmax (fun f _ a b => if f.isNan a then (if f.isNan b then f.nan else b) else if f.isNan b then a
    else if f.key b ≤ f.key a then a else b) ∧
  Flt1Rule .fabs Ty.is64 (fun f _ a => if f.isNan a then f.nan else f.mag a) ∧
  Flt1Rule .fneg Ty.is64 (fun f _ a => if f.isNan a then f.nan else f.withSign (!f.neg a) (f.mag a)) ∧
  Flt2Rule .fcpys (fun f _ a b => if f.isNan a then f.nan else f.withSign (f.neg b) (f.mag a)) ∧
  Flt1Rule .fclass (fun _ => false) (fun f _ a => f.fclass a) ∧
  Flt1Rule .frint Ty.is64 (fun f rm a => f.rint rm a) ∧
  (∀ o, (Instr.fscale o).wf = true → VecRule (.fscale o) true o.g [.reg o.ty o.a, .reg .i32 o.b] o.ty.is64 o.d
    (fun v => BitVec.ofNat 64 ((Fmt.ofTy o.ty).scale o.rnd (readBits o.ty (v 0).val) ((v 1).val.setWidth 32).toInt))
    (fun v => tySt o.ty (joinSt (v 0).st (v 1).st))) ∧
  Flt1Rule .fexpn (fun _ => false) (fun f _ a => (f.expn a).toNat))

/-- R185, R186, R210 to R212, R215: CVT by the four kinds of conversion, QNT, DQNT and RAND. A result of a narrow type is P. -/
def Obligations.conversions : Prop :=
  ((∀ dty sty mode v, dty.isFloat = true → sty.isFloat = true → cvtVal dty sty mode v =
      BitVec.ofNat 64 ((Fmt.ofTy dty).ofVal mode ((Fmt.ofTy sty).dec (readBits sty v)))) ∧
  (∀ dty sty mode v, dty.isFloat = true → sty.isFloat = false → cvtVal dty sty mode v = BitVec.ofNat 64
      ((Fmt.ofTy dty).ofVal mode (.fin (decide (readInt sty v < 0)) (readInt sty v).natAbs 0))) ∧
  (∀ dty sty mode v, dty.isFloat = false → sty.isFloat = false →
    cvtVal dty sty mode v = intResult dty (mode == .rz) (readInt sty v)) ∧
  (∀ dty sty mode v, dty.isFloat = false → sty.isFloat = true →
    cvtVal dty sty mode v = match (Fmt.ofTy sty).dec (readBits sty v) with
      | .nan => 0
      | .inf neg => if mode = .rz then wrapInt dty (if neg then tyMin dty else tyMax dty) else 0
      | .fin neg m e =>
        let z : Int := if 0 ≤ e then (m * 2 ^ e.toNat : Nat) else (m / 2 ^ (-e).toNat : Nat)
        intResult dty (mode == .rz) (if neg then -z else z)) ∧
  (∀ sty rm a scale, qntVal sty rm a scale = BitVec.ofInt 64 (match Fmt.f32.dec scale.toNat, (Fmt.ofTy sty).dec (readBits sty a) with
    | .fin ss sm se, .fin sa m e =>
      if sm = 0 then 0
      else
        let neg := ss != sa
        let num := m * 2 ^ (e - se).toNat
        let den := sm * 2 ^ (se - e).toNat
        let up := match rm with
          | .rn => decide (den < 2 * (num % den) ∨ 2 * (num % den) = den ∧ num / den % 2 = 1)
          | .rz => false
          | .ru => decide (num % den ≠ 0) && !neg
          | .rd => decide (num % den ≠ 0) && neg
        let q : Int := (num / den + up.toNat : Nat)
        max (-128) (min 127 (if neg then -q else q))
    | .fin ss sm _, .inf sa => if sm = 0 then 0 else if ss != sa then -128 else 127
    | _, _ => 0)) ∧
  (∀ key index, rand32 key index =
    let x2 := ((key ^^^ index) * 0x6B43A9B5 ^^^ ((key ^^^ index) * 0x6B43A9B5) >>> 16) * 0x9A5D2C71
    x2 ^^^ x2 >>> 15) ∧
  (∀ ty key index, randVal ty key index =
    if ty = .u64 then rand32 key (2 * index + 1) ++ rand32 key (2 * index) else (rand32 key index).setWidth 64)) ∧
  (∀ g dty sty mode d a, (Instr.cvt g dty sty mode d a).wf = true →
    VecRule (.cvt g dty sty mode d a) true g [.reg sty a] dty.is64 d
      (fun v => cvtVal dty sty mode (v 0).val) (fun v => tySt dty (v 0).st)) ∧
  (∀ g sty rnd d a b, (Instr.qnt g sty rnd d a b).wf = true → VecRule (.qnt g sty rnd d a b) true g [.reg sty a, .reg .f32 b]
    false d (fun v => qntVal sty rnd (v 0).val ((v 1).val.setWidth 32)) (fun v => narrowSt (joinSt (v 0).st (v 1).st))) ∧
  (∀ g dty w rnd d a b, (Instr.dqnt g dty w rnd d a b).wf = true →
    VecRule (.dqnt g dty w rnd d a b) true g [.reg .i8 a, .reg .f32 b] dty.is64 d
      (fun v => BitVec.ofNat 64 ((Fmt.ofTy dty).ofVal rnd ((Fmt.f32.dec ((v 1).val.setWidth 32).toNat).mul
        (.fin (decide (codeTop (w.toNat + 1) ((v 0).val.setWidth 8) < 0))
          (codeTop (w.toNat + 1) ((v 0).val.setWidth 8)).natAbs 0))))
      (fun v => narrowSt (joinSt (v 0).st (v 1).st))) ∧
  (∀ g ty d a b, (Instr.rand g ty d a b).wf = true → VecRule (.rand g ty d a b) true g [.reg .u32 a, .reg .u32 b] ty.is64 d
    (fun v => randVal ty ((v 0).val.setWidth 32) ((v 1).val.setWidth 32)) (fun v => joinSt (v 0).st (v 1).st)) ∧
  (∀ g ty d a imm, (Instr.randImm g ty d a imm).wf = true →
    VecRule (.randImm g ty d a imm) true g [.reg .u32 a, .imm (imm.setWidth 64)] ty.is64 d
    (fun v => randVal ty ((v 0).val.setWidth 32) imm) (fun v => joinSt (v 0).st .S))

/-! Predicates and uniform scalar instructions (R159 to R163, R197, R205). -/

/-- R159, R160, R197, R205: PAND, POR, PXOR, PNOT, PMOV and PPROV, ICMP and FCMP. PMOV moves a Z, and PPROV consumes none and
writes a settled bit. That FCMP of F16 and BF16 keeps the join of its sources is the model's reading (log 35). -/
def Obligations.predicatesAndCompares : Prop :=
  (Pred2Rule .pand (fun a b => a && b) ∧ Pred2Rule .por (fun a b => a || b) ∧ Pred2Rule .pxor (fun a b => a ^^ b) ∧
  (∀ g d a s c, s.Ready c → c.role.GuardOk g → c.role.PredsOk g [a] → ∃ t, exec (.pnot g d a) s = .next t ∧
    WrotePreds s c g (c.role.live g) [] d (fun l => !(c.role.preg a l).1) (fun l => (c.role.preg a l).2) t) ∧
  (∀ g d a s c, s.Ready c → c.role.GuardOk g → ∃ t, exec (.pmov g d a) s = .next t ∧
    WrotePreds s c g (c.role.live g) [] d (fun l => (c.role.preg a l).1) (fun l => (c.role.preg a l).2) t) ∧
  (∀ g d src set s c, s.Ready c → c.role.GuardOk g → ∃ t, exec (.pprov g d src set) s = .next t ∧
    WrotePreds s c g (c.role.live g) [] d (fun l => set.getLsbD (stCode (c.role.provSt src l)).toNat) (fun _ => .S) t)) ∧
  ((∀ g cc ty d a b, (Instr.icmp g cc ty d a b).wf = true → TestRule (.icmp g cc ty d a b) g [.reg ty a, .reg ty b] d
    (fun v => aluCmp cc ty (v 0).val (v 1).val) (fun v => joinSt (v 0).st (v 1).st)) ∧
  (∀ g cc ty d a imm, (Instr.icmpImm g cc ty d a imm).wf = true →
    TestRule (.icmpImm g cc ty d a imm) g [.reg ty a, .imm (immVal ty imm)] d
    (fun v => aluCmp cc ty (v 0).val (immVal ty imm)) (fun v => joinSt (v 0).st .S)) ∧
  (∀ g cc ty d a b, (Instr.fcmp g cc ty d a b).wf = true → TestRule (.fcmp g cc ty d a b) g [.reg ty a, .reg ty b] d
    (fun v => (Fmt.ofTy ty).cmp cc (readBits ty (v 0).val) (readBits ty (v 1).val)) (fun v => joinSt (v 0).st (v 1).st)))

/-- R162, R163: SADD, SSUB, SMUL and SMAD; the scalar shifts, the bitwise operations, and the minimum and maximum. -/
def Obligations.scalarArithmetic : Prop :=
  (Scal2Rule .sadd .saddImm (fun ty sat a b => intResult ty sat (readInt ty a + readInt ty b)) ∧
  Scal2Rule .ssub .ssubImm (fun ty sat a b => intResult ty sat (readInt ty a - readInt ty b)) ∧
  Scal2Rule .smul .smulImm (fun ty sat a b => intResult ty sat (readInt ty a * readInt ty b)) ∧
  (∀ o k, (Instr.smad o k).wf = true → UniRule (.smad o k) [o.a, o.b, k] o.d
    (fun r => wrapInt o.ty (readInt o.ty (r.sreg o.a).val * readInt o.ty (r.sreg o.b).val + readInt o.ty (r.sreg k).val))
    (fun r => joinSt (r.sreg o.a).st (joinSt (r.sreg o.b).st (r.sreg k).st)))) ∧
  (Scal2Rule .sand .sandImm (fun ty _ a b => wrapInt ty ((a &&& b).toNat)) ∧
  Scal2Rule .sor .sorImm (fun ty _ a b => wrapInt ty ((a ||| b).toNat)) ∧
  Scal2Rule .sxor .sxorImm (fun ty _ a b => wrapInt ty ((a ^^^ b).toNat)) ∧
  Scal2Rule .sshl .sshlImm (fun ty _ a b =>
    if tyBits ty ≤ readBits ty b then 0 else wrapInt ty ((readBits ty a * 2 ^ readBits ty b : Nat))) ∧
  Scal2Rule .sshr .sshrImm (fun ty _ a b => wrapInt ty (readInt ty a >>> min (tyBits ty) (readBits ty b))) ∧
  Scal2Rule .smin .sminImm (fun ty _ a b => wrapInt ty (min (readInt ty a) (readInt ty b))) ∧
  Scal2Rule .smax .smaxImm (fun ty _ a b => wrapInt ty (max (readInt ty a) (readInt ty b))))

/-- R161 to R163: SMOV, which moves a Z, SLI, SCMP and SSEL. -/
def Obligations.scalarMovesAndTests : Prop :=  (∀ d a, UniRule (.smov d a) [] d (fun r => (r.sreg a).val) (fun r => (r.sreg a).st)) ∧
  (∀ d imm, UniRule (.sli d imm) [] d (fun _ => imm) (fun _ => .S)) ∧
  (∀ cc, Scal2Rule (.scmp cc) (.scmpImm cc) (fun ty _ a b => if aluCmp cc ty a b then 1 else 0)) ∧
  (∀ d a b k, UniRule (.ssel d a b k) [a, b, k] d
    (fun r => if (r.sreg k).val = 0 then (r.sreg b).val else (r.sreg a).val)
    (fun r => joinSt (r.sreg a).st (joinSt (r.sreg b).st (r.sreg k).st)))

/-! Instructions over the lanes of a role (R134, R164 to R171, R213, R214). -/

/-- R165: SGET reads one lane of the mask, and 0 elsewhere. It consumes no Z. R168: SHFL; a segment of n lanes is aligned at
n, and each mode names a lane of the reading lane's own segment. R213, R214: PLANE writes the contributors at positions 0 to
31 of each 128; UNPLANE writes every one. Both give P. -/
def Obligations.lanesExchange : Prop :=
  (∀ ty d a lane s c, (Instr.sget ty d a lane).wf = true → s.Ready c →
    let read := fun i => if i < c.role.lanes ∧ c.role.mask.getLsbD i = true then c.role.vval ty.is64 a i
      else { val := 0, st := .S }
    ∃ t, exec (.sget ty d a lane) s = .next t ∧ match lane with
      | .imm l => WroteScal s c d (read l.toNat).val (read l.toNat).st t
      | .s k => WroteScal s c d (read (c.role.sreg k).val.toNat).val
        (joinSt (read (c.role.sreg k).val.toNat).st (c.role.sreg k).st) t) ∧
  ((∀ g mode seg ty d a b fill s c, (Instr.shfl g mode seg ty d a b fill).wf = true → s.Ready c → c.role.GuardOk g →
    c.role.Room (freesOf [.reg ty (.v a.r a.last), .reg .u32 b]) ty.is64 d (c.role.live g) →
    ∃ t, exec (.shfl g mode seg ty d a b fill) s = .next t ∧
      WroteLanes s c g (c.role.live g) (freesOf [.reg ty (.v a.r a.last), .reg .u32 b]) ty.is64 d
        (fun l => match shflSource mode seg.toNat ((c.role.src .u32 b l).val.setWidth 32) l with
          | some k => if k ∈ c.role.live g then (c.role.vval ty.is64 a.r k).val else fill.setWidth 64
          | none => fill.setWidth 64)
        (fun l => joinSt (match shflSource mode seg.toNat ((c.role.src .u32 b l).val.setWidth 32) l with
          | some k => if k ∈ c.role.live g then (c.role.vval ty.is64 a.r k).st else .S
          | none => .S) (c.role.src .u32 b l).st) t) ∧
  (∀ seg x l, shflSource .pick seg x l = some (l / 2 ^ seg * 2 ^ seg + x.toNat % 2 ^ seg)) ∧
  (∀ seg x l k, shflSource .slide seg x l = some k ↔ (k : Int) = l + x.toInt ∧ k / 2 ^ seg = l / 2 ^ seg) ∧
  (∀ seg x l, shflSource .rot seg x l = some (l / 2 ^ seg * 2 ^ seg + (l % 2 ^ seg + x.toNat) % 2 ^ seg)) ∧
  (∀ seg x l, shflSource .mirr seg x l =
    if x.toNat < 2 ^ seg then some (l / 2 ^ seg * 2 ^ seg + (l % 2 ^ seg ^^^ x.toNat)) else none)) ∧
  ((∀ g d a s c, s.Ready c → c.role.GuardOk g → c.role.OpndsOk g [.reg .bpi (.v a.r a.last)] →
    c.role.Room (freesOf [.reg .bpi (.v a.r a.last)]) false d (c.role.live g) →
    ∃ t, exec (.plane g d a) s = .next t ∧
      WroteLanes s c g ((c.role.live g).filter (fun l => l % 128 < 32)) (freesOf [.reg .bpi (.v a.r a.last)]) false d
        (fun l => BitVec.ofNat 64 (natOfBits (fun i =>
          let byte := 4 * (l % 128) + i / 8
          let k := l / 128 * 128 + (8 * (byte % 16) + i % 8)
          decide (k ∈ c.role.live g) && (c.role.vreg a.r k).1.getLsbD (7 - byte / 16)) 32)) (fun _ => .P) t) ∧
  (∀ g w d a s c, s.Ready c → c.role.GuardOk g →
    (∀ l ∈ c.role.live g, l % 128 < 32 → (c.role.vreg a.r l).2 ≠ .Z) →
    c.role.Room (freesOf [.reg .u32 (.v a.r a.last)]) false d (c.role.live g) →
    ∃ t, exec (.unplane g w d a) s = .next t ∧
      WroteLanes s c g (c.role.live g) (freesOf [.reg .u32 (.v a.r a.last)]) false d
        (fun l => BitVec.ofInt 64 (codeTop (w.toNat + 1) (BitVec.ofNat 8 (natOfBits (fun i =>
          let byte := 16 * (7 - i) + l % 128 / 8
          let k := l / 128 * 128 + byte / 4
          decide (k ∈ c.role.live g) && (c.role.vreg a.r k).1.getLsbD (8 * (byte % 4) + l % 128 % 8)) 8))))
        (fun _ => .P) t))

/-- R167, R169 to R171: VOTE and ELECT, whose every result carries the join of the contributors' bits; REDUX and SCAN over the
fixed trees of combine steps, level by level; what a step makes of two sides and of an absent one, and what of a node's value
the result is. The tree leaves an integer sum as it is: REDUX.ADD gives the exact sum over the live lanes, wrapped or clamped
once. -/
def Obligations.votesAndReductions : Prop :=
  (∀ g a s c, s.Ready c → c.role.GuardOk g → c.role.PredsOk g [a] →
    let ls := c.role.live g
    let on := fun l => decide (l ∈ ls) && (c.role.preg a l).1
    let st := fun _ : Nat => joinAll (ls.map (fun l => (c.role.preg a l).2))
    let word := fun k => natOfBits (fun i => on (32 * k + i)) 32
    (∀ d, ∃ t, exec (.vote g (.all d) a) s = .next t ∧
      WrotePreds s c g ls [] d (fun _ => decide (∀ k ∈ ls, (c.role.preg a k).1 = true)) st t) ∧
    (∀ d, ∃ t, exec (.vote g (.any d) a) s = .next t ∧
      WrotePreds s c g ls [] d (fun _ => decide (∃ k ∈ ls, (c.role.preg a k).1 = true)) st t) ∧
    (∀ d, c.role.Room [] false d ls → ∃ t, exec (.vote g (.word d) a) s = .next t ∧
      WroteLanes s c g ls [] false d (fun l => BitVec.ofNat 64 (word (l / 32))) st t) ∧
    (∀ d, c.role.Room [] false d ls → ∃ t, exec (.vote g (.sum d) a) s = .next t ∧
      WroteLanes s c g ls [] false d (fun _ => BitVec.ofNat 64 (natOfBits (fun k => word k != 0) 32)) st t) ∧
    (∀ d, c.role.Room [] false d ls → ∃ t, exec (.vote g (.count d) a) s = .next t ∧
      WroteLanes s c g ls [] false d (fun _ => BitVec.ofNat 64 (ls.filter on).length) st t) ∧
    (∀ d, ∃ t, exec (.elect g d a) s = .next t ∧
      WrotePreds s c g ls [] d (fun l => (c.role.preg a l).1 && decide (∀ k ∈ ls, k < l → (c.role.preg a k).1 = false)) st t)) ∧
  (∀ o s c, Red.wf o = true → s.Ready c → c.role.GuardOk o.g → c.role.OpndsOk o.g [.reg o.ty (.v o.a.r o.a.last)] →
    let ls := c.role.live o.g
    let x : Opnd := .reg o.ty (.v o.a.r o.a.last)
    let leaves := (List.range 1024).map (c.role.redLeaf o.ty o.a ls)
    let scan := fun xs l => redValue o (((scanSteps (redComb o.op o.ty o.mode) xs)[l]?).getD none)
    let join := fun p : Nat → Bool => joinAll ((ls.filter p).map (fun k => (c.role.opnd x k).st))
    (∀ d, ∃ v m, exec (.redux o d) s = .next (s.modCur (fun r => (r.withV v).withS m)) ∧
      (∀ (n : BitVec 8) (l : Nat), l < 1024 → (c.role.withV v).vreg n l =
        if n ∈ freesOf [x] ∧ l / 8 ∈ groupsOf c.role.ngroups c.role.mask then (0, .S) else c.role.vreg n l) ∧
      ∀ n : BitVec 7, (c.role.withS m).sreg n = if n = d then
        { val := redValue o ((redTree (redComb o.op o.ty o.mode) leaves).head?.getD none),
          st := markSt c.role.taint (join (fun _ => true)) } else c.role.sreg n) ∧
    (∀ d, evenFor o.ty d = true → c.role.Room (freesOf [x]) o.ty.is64 d ls → ∃ t, exec (.scan o false d) s = .next t ∧
      WroteLanes s c o.g ls (freesOf [x]) o.ty.is64 d (scan leaves) (fun l => join (fun k => k ≤ l)) t) ∧
    (∀ d, evenFor o.ty d = true → c.role.Room (freesOf [x]) o.ty.is64 d ls → ∃ t, exec (.scan o true d) s = .next t ∧
      WroteLanes s c o.g ls (freesOf [x]) o.ty.is64 d (scan (none :: leaves.take 1023)) (fun l => join (fun k => k < l)) t)) ∧
  ((∀ f xs, xs.length = 1024 →
    (∃ T : Nat → Nat → Option RNode, (∀ j < 1024, T 0 j = (xs[j]?).getD none) ∧
      (∀ t < 10, ∀ j < 2 ^ (9 - t), T (t + 1) j = f (T t (2 * j)) (T t (2 * j + 1))) ∧ (redTree f xs).head? = some (T 10 0)) ∧
    ∃ T : Nat → Nat → Option RNode, (∀ j < 1024, T 0 j = (xs[j]?).getD none) ∧
      (∀ t < 10, ∀ j < 1024, T (t + 1) j = if j < 2 ^ t then T t j else f (T t (j - 2 ^ t)) (T t j)) ∧
      ∀ j < 1024, (scanSteps f xs)[j]? = some (T 10 j)) ∧
  (∀ op ty rm x, redComb op ty rm none x = x ∧ redComb op ty rm x none = x) ∧
  (∀ ty rm a b, let comb := fun op => redComb op ty rm (some (.int a)) (some (.int b))
    comb .add = some (.int (a + b)) ∧ comb .min = some (.int (min a b)) ∧ comb .max = some (.int (max a b)) ∧
    comb .and = some (.int (readInt ty (BitVec.ofInt 64 a &&& BitVec.ofInt 64 b))) ∧
    comb .or = some (.int (readInt ty (BitVec.ofInt 64 a ||| BitVec.ofInt 64 b))) ∧
    comb .xor = some (.int (readInt ty (BitVec.ofInt 64 a ^^^ BitVec.ofInt 64 b)))) ∧
  (∀ ty rm a b, let f := Fmt.ofTy ty
    redComb .add ty rm (some (.flt a)) (some (.flt b)) = some (.flt (f.sumVal rm (f.dec a) (f.dec b))) ∧
    redComb .min ty rm (some (.flt a)) (some (.flt b)) = some (.flt (if f.isNan a then (if f.isNan b then f.nan else b)
      else if f.isNan b then a else if f.key a ≤ f.key b then a else b)) ∧
    redComb .max ty rm (some (.flt a)) (some (.flt b)) = some (.flt (if f.isNan a then (if f.isNan b then f.nan else b)
      else if f.isNan b then a else if f.key b ≤ f.key a then a else b))) ∧
  (∀ o : Red, let f := Fmt.ofTy o.ty
    (∀ b, redValue o (some (.flt b)) = BitVec.ofNat 64 (if f.isNan b then f.nan else b)) ∧
    (∀ z, redValue o (some (.int z)) = intResult o.ty (decide (o.op = .add) && o.mode == .rz) z) ∧
    (o.ty.isFloat = true → redValue o none = match o.op with
      | .min => BitVec.ofNat 64 f.inf
      | .max => BitVec.ofNat 64 (f.withSign true f.inf)
      | _ => 0) ∧
    (o.ty.isFloat = false → redValue o none = match o.op with
      | .min => wrapInt o.ty (tyMax o.ty)
      | .max => wrapInt o.ty (tyMin o.ty)
      | .and => wrapInt o.ty (-1)
      | _ => 0))) ∧
  (∀ (o : Red) (r : Role), o.op = .add → o.ty.isFloat = false →
    redValue o ((redTree (redComb o.op o.ty o.mode)
      ((List.range 1024).map (r.redLeaf o.ty o.a (r.live o.g)))).head?.getD none) =
    intResult o.ty (o.mode == .rz) ((r.live o.g).map (fun l => readInt o.ty (r.vval o.ty.is64 o.a.r l).val)).sum)

/-- R134, R164, R405, R417: SRS: lane-scope registers give each lane its own value, and the others are uniform. SWS writes
the trap registers inside a trap handler; a written %trappc is where TRET goes. Every other write raises PRIV. -/
def Obligations.specialRegisters : Prop :=
  ((∀ n num s c, s.Ready c → c.role.Room [] false n c.role.all → num = 0 ∨ num = 1 ∨ num = 0x2B →
    ∃ t, exec (.srs (.v n) num) s = .next t ∧ WroteLanes s c noGuard c.role.all [] false n
      (fun l => if num = 0 then BitVec.ofNat 64 (8 * c.role.first + l) else if num = 1 then BitVec.ofNat 64 (c.role.first + l / 8)
        else if c.role.trap.lanes.getLsbD l then 1 else 0) (fun _ => .S) t) ∧
  (∀ n num s c, s.Ready c → ∃ t, exec (.srs (.s n) num) s = .next t ∧
    WroteScal s c n (c.special s.cur.role num).val (c.special s.cur.role num).st t) ∧
  (∀ (c : Ctx) (k : Nat),
    [0x02, 0x03, 0x04, 0x05, 0x06, 0x07, 0x08, 0x09, 0x0A, 0x0B, 0x0D, 0x0E, 0x0F, 0x19, 0x28, 0x29].map (c.special k) =
    [k, c.team.gx.toNat, c.team.gy.toNat, c.team.gz.toNat, c.launch.gridX.toNat, c.launch.gridY.toNat, c.launch.gridZ.toNat,
      c.team.taskidx.toNat, c.launch.seed.toNat, c.role.ctx.toNat, c.team.bulk, c.part.cfg.pid.toNat, c.team.core,
      c.role.batch.toNat, c.role.trap.code.toNat, c.role.trap.pc.toNat].map
        (fun x => { val := BitVec.ofNat 64 x, st := Standing.S }) ∧
    [0x12, 0x13, 0x14, 0x15, 0x16, 0x17, 0x18, 0x2A].map (c.special k) =
    [c.role.solve.tol, c.role.solve.pass, c.role.solve.grow, c.role.solve.limit, c.role.solve.max, c.role.solve.stat,
      c.role.solve.wsstat, c.role.trap.aux] ∧
    (c.special k 0x0C = { val := ((c.part.ctxEnt? c.role.ctx).map (fun e => (e.parent.setWidth 64 : DWord))).getD 0, st := .S } ∧
    let gone := fun l : Nat => c.role.dead.getLsbD l || c.role.off.getLsbD l
    (c.special k 0x10).st = .S ∧
    (∀ i < 32, (c.special k 0x10).val.getLsbD i = true ↔ ∃ l < 1024, l / 32 = i ∧ gone l = true) ∧
    (c.special k 0x10).val.toNat / 2 ^ 32 = ((List.range (8 * c.role.ngroups)).filter gone).length ∧
    c.special k 0x11 = { val := BitVec.ofNat 64 ((if c.role.dead ≠ 0 then 1 else 0) + (if c.role.off ≠ 0 then 2 else 0) +
      ((List.range (8 * c.role.ngroups)).filter (fun l => c.role.off.getLsbD l)).length * 2 ^ 32), st := .S }) ∧
    ∀ m : BitVec 3, c.special k (0x20 + m.setWidth 8) = { val := (c.role.ms[m.toNat]?).getD 0, st := .S })) ∧
  (∀ a s c, s.Ready c → (c.role.sreg a).st ≠ .Z →
    let v := (c.role.sreg a).val
    (∀ e, c.role.entry = some e →
      exec (.sws 0x28 (.s a)) s = .next (s.modCur (fun r => { r with trap := { r.trap with code := v.setWidth 8 } })) ∧
      exec (.sws 0x29 (.s a)) s = .next (s.modCur (fun r =>
        { r with trap := { r.trap with pc := v.setWidth 32 }, entry := some { e with pcw := true } })) ∧
      exec (.sws 0x2A (.s a)) s = .next (s.modCur (fun r => { r with
        trap := { r.trap with aux := { val := v, st := markSt c.role.taint (c.role.sreg a).st } } })) ∧
      ∀ n : BitVec 8, ∃ m : Mask, exec (.sws 0x2B (.v n)) s =
        .next (s.modCur (fun r => { r with trap := { r.trap with lanes := m } })) ∧
        ∀ l < 1024, m.getLsbD l = if l ∈ c.role.all then (c.role.vreg n l).1.getLsbD 0
          else c.role.trap.lanes.getLsbD l && !c.role.mask.getLsbD l) ∧
    (c.role.entry = none → ∀ num ∈ ([0x28, 0x29, 0x2A] : List (BitVec 8)),
      exec (.sws num (.s a)) s = .next (s.trapCur .priv 0 c.role.mask)) ∧
    (∀ n num, (c.role.entry = none → exec (.sws 0x2B (.v n)) s = .next (s.trapCur .priv 0 c.role.mask)) ∧
      (num = 0 ∨ num = 1 → exec (.sws num (.v n)) s = .next (s.trapCur .priv 0 c.role.mask))) ∧
    ∀ num : BitVec 8, num.toNat < 0x12 ∨ 0x18 ≤ num.toNat ∧ num.toNat < 0x28 →
      exec (.sws num (.s a)) s = .next (s.trapCur .priv 0 c.role.mask))

/-! Control (R87, R89, R126 to R130, R145 to R158). -/

/-- R87, R89, R372: a clause header waits until the flags of its WAIT, but for those it sets, are clear, and then opens its clause;
the role has observed the engine operations that counted in those flags. -/
def Obligations.clauseHeader : Prop :=  ∀ (h : Header) (s : State) (c : Ctx), s.Ready c →
    let waits := fun i : Fin 12 => h.wait.getLsbD i = true ∧ h.sa ≠ some (BitVec.ofNat 4 i) ∧ h.sb ≠ some (BitVec.ofNat 4 i) ∧
      s.flagSet s.cur c.role c.team.part (BitVec.ofNat 4 i) = true
    ((∃ i, waits i) → exec (.clauseStart h) s = .next s) ∧
    ((∀ i, ¬ waits i) → exec (.clauseStart h) s = .next ((s.observe (fun _ m =>
      m.owner == s.cur && m.flag.any (fun f => h.wait.getLsbD f.toNat))).modCur (fun r => { r with pos :=
      { pc := r.item.pc + 8, hdr := r.item.pc, left := h.n.toNat, fa := h.sa, fb := h.sb } })))

/-- R146, R147, R150, R153 to R156: the transfers of control on a settled s register, the traps of RET, and LOOP on a register
that is P or R. -/
def Obligations.transfers : Prop :=  ∀ (s : State) (c : Ctx), s.Ready c →
    let fall := if c.role.pos.pc % 32 = 28 then c.role.pos.pc + 4 else c.role.pos.pc
    let push : RetEntry := { off := fall, depth := c.role.div.length }
    (∀ x, exec (.bra x) s = .next (s.modCur (fun r => { r with pos := CodePos.header x }))) ∧
    (∀ a, (c.role.sreg a).st = .S → (c.role.sreg a).val.toNat < 2 ^ 32 → (c.role.sreg a).val.toNat % 4 = 0 →
      let x := (c.role.sreg a).val.setWidth 32
      exec (.brx a) s = .next (s.modCur (fun r => { r with pos := CodePos.header x })) ∧
      (c.role.ret.length < 16 → exec (.callInd a) s =
        .next (s.modCur (fun r => { r with pos := CodePos.header x, ret := push :: r.ret })))) ∧
    (∀ x, c.role.ret.length < 16 → exec (.call x) s =
      .next (s.modCur (fun r => { r with pos := CodePos.header x, ret := push :: r.ret }))) ∧
    (∀ e rest, c.role.ret = e :: rest → e.depth = c.role.div.length →
      exec .ret s = .next (s.modCur (fun r => { r with pos := CodePos.header e.off, ret := rest }))) ∧
    (c.role.ret = [] → exec .ret s = .next (s.trapCur .callStack 1 c.role.mask)) ∧
    (∀ e rest, c.role.ret = e :: rest → e.depth ≠ c.role.div.length →
      exec .ret s = .next (s.trapCur .callStack 2 c.role.mask)) ∧
    (∀ a x, (c.role.sreg a).st = .P ∨ (c.role.sreg a).st = .R → exec (.loop a x) s = .next (s.trapCur .provLoop 0 c.role.mask)) ∧
    (∀ a x, (c.role.sreg a).st = .S →
      ((c.role.sreg a).val = 0 → exec (.loop a x) s = .next s) ∧
      ((c.role.sreg a).val = 1 → ∃ t, exec (.loop a x) s = .next t ∧ WroteScal s c a 0 .S t) ∧
      ((c.role.sreg a).val ≠ 0 → (c.role.sreg a).val ≠ 1 → ∃ t, exec (.loop a x) s =
        .next (t.modCur (fun r => { r with pos := CodePos.header x })) ∧ WroteScal s c a ((c.role.sreg a).val - 1) .S t))

/-- R126 to R128, R130, R151, R152: BRD pushes what JOIN needs. The taken path runs first when any lane takes it; the first
JOIN turns to the lanes that did not take it, and a path that no lane takes is left out. A branch and the JOINs of its paths
give back the mask and the stack, at the join point. -/
def Obligations.divergence : Prop :=
  ((∀ p x y (s : State) (c : Ctx), s.Ready c → (∀ l ∈ c.role.all, (c.role.preg p l).2 ≠ .Z) → c.role.div.length < 32 →
    let taken := maskOf (c.role.all.filter (fun l => (c.role.preg p l).1))
    let fall := if c.role.pos.pc % 32 = 28 then c.role.pos.pc + 4 else c.role.pos.pc
    let e : DivEntry :=
      { mask := c.role.mask, taken := taken, falloff := fall, joinoff := y, phase := decide (taken = 0),
        taint := c.role.all.any (fun l => (c.role.preg p l).2 = .P ∨ (c.role.preg p l).2 = .R) }
    exec (.brd p x y) s = .next (s.modCur (fun r => { r with
      div := e :: r.div,
      mask := if taken = 0 then r.mask else taken, pos := CodePos.header (if taken = 0 then fall else x) }))) ∧
  ∀ s c e rest, s.Ready c → c.role.div = e :: rest →
    (e.phase = false → e.mask &&& ~~~e.taken ≠ 0 → exec .join s = .next (s.modCur (fun r => { r with
      div := { e with phase := true } :: rest, mask := e.mask &&& ~~~e.taken, pos := CodePos.header e.falloff }))) ∧
    (e.phase = true ∨ e.mask &&& ~~~e.taken = 0 → exec .join s = .next (s.modCur (fun r => { r with
      div := rest, mask := e.mask, pos := CodePos.header e.joinoff })))) ∧
  (∀ p x y (s : State) (c : Ctx), s.Ready c → (∀ l ∈ c.role.all, (c.role.preg p l).2 ≠ .Z) → c.role.div.length < 32 →
    let back := fun t : State => t = s.modCur (fun r => { r with pos := CodePos.header y })
    let taking := ∃ l ∈ c.role.all, (c.role.preg p l).1 = true
    let staying := ∃ l ∈ c.role.all, (c.role.preg p l).1 = false
    (∀ l, c.role.mask.getLsbD l = true → l < c.role.lanes) →
    ∃ t1 t2, exec (.brd p x y) s = .next t1 ∧ exec .join t1 = .next t2 ∧
      (¬ taking ∨ ¬ staying → back t2) ∧ (taking ∧ staying → ∃ t3, exec .join t2 = .next t3 ∧ back t3))

/-- R149, R158, R412, R422: NOP and YIELD; PCHK stops the role when a pre-emption of its team has been requested and no
partly filled gang lists it. R148, R157: outside a handler EXIT delivers a pending deferred fault, the smallest code first.
Otherwise it takes the live lanes out of the role. The role goes on while its mask has a lane, acts as JOIN when only its stack
has one (once, even if the mask that JOIN gives back is empty: the model's choice, log 49), and ends when none is left and
nothing of it is outstanding. -/
def Obligations.nopYieldExit : Prop :=
  (∀ (s : State) (c : Ctx), s.Ready c →
    (∀ g, c.role.GuardOk g → exec (.nop g) s = .next s) ∧
    exec .yield s = .next (s.modCur (fun r => { r with yielded := true })) ∧
    (c.team.phase ≠ .stopping → exec .pchk s = .next s) ∧
    (c.team.phase = .stopping → c.role.stop = none →
      c.team.gangs.all (fun g => g.fills.isEmpty || g.roles.all (fun x => x.toNat != s.cur.role)) = true →
      exec .pchk s = .next (s.modCur (fun r => { r with stop := some .next }))) ∧
    (c.role.stop ≠ none ∨ c.team.gangs.any (fun g => !g.fills.isEmpty && g.roles.any (fun x => x.toNat == s.cur.role)) = true →
      exec .pchk s = .next s)) ∧
  (∀ g (s : State) (c : Ctx), s.Ready c → c.role.GuardOk g →
    c.role.entry.isSome = true ∨ c.role.deferred = { dep := none, overlay := none, bar := none, remote := none } →
    let m := maskOf (c.role.live g)
    let x := Role.freeDead { c.role with
      mask := c.role.mask &&& ~~~m, exited := c.role.exited ||| m,
      div := c.role.div.map (fun e => { e with mask := e.mask &&& ~~~m, taken := e.taken &&& ~~~m }) }
    (c.role.mask &&& ~~~m ≠ 0 → exec (.exit g) s = .next (s.modCur (fun _ => x))) ∧
    (c.role.mask &&& ~~~m = 0 → (∃ e ∈ c.role.div, e.mask &&& ~~~m ≠ 0) →
      exec (.exit g) s = exec .join (s.modCur (fun _ => x))) ∧
    (c.role.mask &&& ~~~m = 0 → (∀ e ∈ c.role.div, e.mask &&& ~~~m = 0) →
      (s.outstanding = true → exec (.exit g) s = .next (s.parkCur .earlier)) ∧
      (s.outstanding = false → ∃ t r, exec (.exit g) s = .next t ∧ t.role? s.cur = some r ∧ r.ended = true))) ∧
  ∀ g (s : State) (c : Ctx), s.Ready c → c.role.entry = none →
    let d := c.role.deferred
    let raise := fun (x : Deferred) k a =>
      Host.Outcome.next ((s.modCur (fun r => { r with deferred := x })).trapCur k a (maskOf (c.role.live g)))
    (∀ a, d.bar = some a → exec (.exit g) s = raise { d with bar := none } .barOverflow a) ∧
    (∀ a, d.bar = none → d.dep = some a → exec (.exit g) s = raise { d with dep := none } .depUnderflow a) ∧
    (∀ a, d.bar = none → d.dep = none → d.overlay = some a → exec (.exit g) s = raise { d with overlay := none } .overlayFull a) ∧
    (∀ a, d.bar = none → d.dep = none → d.overlay = none → d.remote = some a →
      exec (.exit g) s = raise { d with remote := none } .remoteGone a)

/-! Lane kill, the register budget, traps (R99, R113, R135, R136, R143, R144, R403 to R406, R420 to R424). -/

/-- R143, R144, R148, R157: lanes that die leave the mask and every stack entry, for good, and the role ends with the last one once
nothing of it is outstanding. An instruction that consumes a Z kills the lanes whose guard bit or operand it is, and acts in
the others: the integer, bit, float, conversion, compare, predicate, cross-lane and solver instructions, and the per-lane loads,
stores and updates, by their addresses and data. In a uniform instruction every lane of the mask dies, and nothing is written.
MOV, SHFL, PMOV, PPROV, PMARK, SMOV, NOP and TRAP consume no operand. -/
def Obligations.lanesDie : Prop :=
  (∀ (m : Mask) (s : State) (c : Ctx), s.Ready c → m ≠ 0 → ∃ r, (s.poisonCur m).role? s.cur = some r ∧ r.dead = c.role.dead ||| m ∧
    r.mask = c.role.mask &&& ~~~m ∧
    r.div = c.role.div.map (fun e => { e with mask := e.mask &&& ~~~m, taken := e.taken &&& ~~~m }) ∧
    r.s = c.role.s ∧ r.p = c.role.p ∧ r.pos = c.role.pos ∧
    (r.ended = true ↔ s.outstanding = false ∧ r.mask = 0 ∧ ∀ e ∈ r.div, e.mask = 0)) ∧
  ((∀ i ∈ [Instr.iadd, .isub, .imul, .imulh, .imin, .imax, .idiv, .irem, .and, .or, .xor],
    ∀ o : I2, KillRule (i o) o.g (zOpnds [.reg o.ty o.a, .reg o.ty o.b])) ∧
  (∀ i ∈ [Instr.shl, .shr, .sar, .rot, .bfe], ∀ o : I2, KillRule (i o) o.g (zOpnds [.reg o.ty o.a, .reg .u32 o.b])) ∧
  (∀ i ∈ [Instr.iaddImm, .isubImm, .imulImm, .imulhImm, .iminImm, .imaxImm, .idivImm, .iremImm, .andImm, .orImm, .xorImm,
    .shlImm, .shrImm, .sarImm, .rotImm, .bfeImm], ∀ o : I2I, KillRule (i o) o.g (zOpnds [.reg o.ty o.a])) ∧
  (∀ o : I3, KillRule (.imad o) o.g (zOpnds [.reg o.ty o.a, .reg o.ty o.b, .reg o.ty o.c]) ∧
    KillRule (.bfi o) o.g (zOpnds [.reg o.ty o.a, .reg o.ty o.b, .reg .u32 o.c])) ∧
  (∀ i ∈ [Instr.iabs, .ineg, .not, .popc, .clz, .brev], ∀ o : I1, KillRule (i o) o.g (zOpnds [.reg o.ty o.a])) ∧
  (∀ g d (a : VSrc) b imm, KillRule (.prmt g d a b) g (zOpnds [.reg .u64 (.v a.r a.last), .reg .u32 b]) ∧
    KillRule (.prmtImm g d a imm) g (zOpnds [.reg .u64 (.v a.r a.last)])) ∧
  (∀ g ty sh d a b imm, KillRule (.lea g ty sh d a b) g (zOpnds [.reg ty a, .reg .u32 b]) ∧
    KillRule (.leaImm g ty sh d a imm) g (zOpnds [.reg ty a])) ∧
  (∀ g ty d a b p, KillRule (.sel g ty d a b p) g (fun r l => zOpnds [.reg ty a, .reg ty b] r l || zPreds [p] r l)) ∧
  (∀ g cc fc ty d a b imm, KillRule (.icmp g cc ty d a b) g (zOpnds [.reg ty a, .reg ty b]) ∧
    KillRule (.icmpImm g cc ty d a imm) g (zOpnds [.reg ty a]) ∧ KillRule (.fcmp g fc ty d a b) g (zOpnds [.reg ty a, .reg ty b]))) ∧
  ((∀ i ∈ [Instr.fadd, .fsub, .fmul, .fdiv, .fmin, .fmax, .fcpys],
    ∀ o : F2, KillRule (i o) o.g (zOpnds [.reg o.ty o.a, .reg o.ty o.b])) ∧
  (∀ o : F2, KillRule (.fscale o) o.g (zOpnds [.reg o.ty o.a, .reg .i32 o.b])) ∧
  (∀ o : F3, KillRule (.fma o) o.g (zOpnds [.reg o.ty o.a, .reg o.ty o.b, .reg o.ty o.c])) ∧
  (∀ i ∈ [Instr.fsqrt, .frcpa, .frsqa, .fabs, .fneg, .fclass, .frint, .fexpn],
    ∀ o : F1, KillRule (i o) o.g (zOpnds [.reg o.ty o.a])) ∧
  (∀ g dty sty mode d a b w, KillRule (.cvt g dty sty mode d a) g (zOpnds [.reg sty a]) ∧
    KillRule (.qnt g sty mode d a b) g (zOpnds [.reg sty a, .reg .f32 b]) ∧
    KillRule (.dqnt g dty w mode d a b) g (zOpnds [.reg .i8 a, .reg .f32 b])) ∧
  (∀ g ty d a b imm, KillRule (.rand g ty d a b) g (zOpnds [.reg .u32 a, .reg .u32 b]) ∧
    KillRule (.randImm g ty d a imm) g (zOpnds [.reg .u32 a])) ∧
  (∀ g d a x b, KillRule (.resf g d a x b) g (zOpnds [.reg .f64 a, .reg .f64 x, .reg .f64 b]))) ∧
  ((∀ i ∈ [Instr.pand, .por, .pxor], ∀ o : P2, KillRule (i o) o.g (zPreds [o.a, o.b])) ∧
  (∀ g d e a, KillRule (.pnot g d a) g (zPreds [a]) ∧ KillRule (.vote g e a) g (zPreds [a]) ∧ KillRule (.elect g d a) g (zPreds [a])) ∧
  (∀ o : Red, ∀ d e x, KillRule (.redux o d) o.g (zOpnds [.reg o.ty (.v o.a.r o.a.last)]) ∧
    KillRule (.scan o x e) o.g (zOpnds [.reg o.ty (.v o.a.r o.a.last)])) ∧
  (∀ g w d (a : VSrc), KillRule (.plane g d a) g (zOpnds [.reg .bpi (.v a.r a.last)]) ∧
    KillRule (.unplane g w d a) g (fun r l => l % 128 < 32 && zOpnds [.reg .u32 (.v a.r a.last)] r l)) ∧
  (∀ g fs sp ty rnd d m off, KillRule (.ld g fs sp ty d m off) g (zOpnds (addrOpnds m)) ∧
    KillRule (.xrnd g fs sp ty rnd d m off) g (zOpnds (addrOpnds m))) ∧
  (∀ g op ord sp ty x m off off', KillRule (.st g sp ty x m off) g (zOpnds (addrOpnds m ++ [.reg ty x])) ∧
    KillRule (.atom g op ord sp ty x m off') g (zOpnds (addrOpnds m ++ [.reg ty x])) ∧
    KillRule (.xacc g sp ty x m off) g (zOpnds (addrOpnds m ++ [.reg ty x]))) ∧
  (∀ g ty mode seg d e (a : VSrc) x b fill src set n, ∀ i ∈ [Instr.mov g ty d x, .shfl g mode seg ty d a b fill, .pmark g ty d x,
    .pmov g e n, .pprov g e src set, .nop g, .trap g d], KillRule i g (fun _ _ => false))) ∧
  (∀ (s : State) (c : Ctx), s.Ready c →
    (∀ i ∈ [Instr.sadd, .ssub, .smul, .sand, .sor, .sxor, .sshl, .sshr, .smin, .smax], ∀ o : S2,
      (c.role.sreg o.a).st = .Z ∨ (c.role.sreg o.b).st = .Z → exec (i o) s = .next (s.poisonCur c.role.mask)) ∧
    (∀ i ∈ [Instr.saddImm, .ssubImm, .smulImm, .sandImm, .sorImm, .sxorImm, .sshlImm, .sshrImm, .sminImm, .smaxImm], ∀ o : S2I,
      (c.role.sreg o.a).st = .Z → exec (i o) s = .next (s.poisonCur c.role.mask)) ∧
    (∀ o k, (c.role.sreg o.a).st = .Z ∨ (c.role.sreg o.b).st = .Z →
      exec (.smad o k) s = .next (s.poisonCur c.role.mask) ∧ ∀ cc, exec (.scmp cc o) s = .next (s.poisonCur c.role.mask)) ∧
    (∀ cc o, (c.role.sreg o.a).st = .Z → exec (.scmpImm cc o) s = .next (s.poisonCur c.role.mask)) ∧
    (∀ d a b k, (∃ n ∈ [a, b, k], (c.role.sreg n).st = .Z) → exec (.ssel d a b k) s = .next (s.poisonCur c.role.mask)) ∧
    (∀ a x num fs sp ty d off, (c.role.sreg a).st = .Z → ∀ i ∈ [Instr.brx a, .callInd a, .loop a x, .sws num (.s a),
      .sld fs sp ty d a off, .svcfgTol a, .svcfgLimit a, .svcfgGrow a], exec i s = .next (s.poisonCur c.role.mask)) ∧
    ∀ d a, (c.role.sreg a).st = .Z → ∃ t, exec (.smov d a) s = .next t ∧ WroteScal s c d (c.role.sreg a).val .Z t)

/-- R135, R136: a write that would take the role over its budget waits while an earlier instruction is outstanding, and then
raises REG_BUDGET at the destination's number, with nothing written: the integer, bit, float and conversion instructions, the
cross-lane ones and SRS, and the per-lane loads once their addresses are reached. -/
def Obligations.registerBudget : Prop :=
  ((∀ i ∈ [Instr.iadd, .isub, .imul, .imulh, .imin, .imax, .idiv, .irem, .and, .or, .xor],
    ∀ o : I2, BudgetRule (i o) true o.g [.reg o.ty o.a, .reg o.ty o.b] o.ty.is64 o.d) ∧
  (∀ i ∈ [Instr.shl, .shr, .sar, .rot, .bfe], ∀ o : I2, BudgetRule (i o) true o.g [.reg o.ty o.a, .reg .u32 o.b] o.ty.is64 o.d) ∧
  (∀ i ∈ [Instr.iaddImm, .isubImm, .imulImm, .imulhImm, .iminImm, .imaxImm, .idivImm, .iremImm, .andImm, .orImm, .xorImm,
    .shlImm, .shrImm, .sarImm, .rotImm, .bfeImm], ∀ o : I2I, BudgetRule (i o) true o.g [.reg o.ty o.a] o.ty.is64 o.d) ∧
  (∀ o : I3, BudgetRule (.imad o) true o.g [.reg o.ty o.a, .reg o.ty o.b, .reg o.ty o.c] o.ty.is64 o.d ∧
    BudgetRule (.bfi o) true o.g [.reg o.ty o.a, .reg o.ty o.b, .reg .u32 o.c] o.ty.is64 o.d) ∧
  (∀ i ∈ [Instr.iabs, .ineg, .not, .brev], ∀ o : I1, BudgetRule (i o) true o.g [.reg o.ty o.a] o.ty.is64 o.d) ∧
  (∀ i ∈ [Instr.popc, .clz], ∀ o : I1, BudgetRule (i o) true o.g [.reg o.ty o.a] false o.d) ∧
  (∀ g d (a : VSrc) b imm, BudgetRule (.prmt g d a b) true g [.reg .u64 (.v a.r a.last), .reg .u32 b] false d ∧
    BudgetRule (.prmtImm g d a imm) true g [.reg .u64 (.v a.r a.last)] false d) ∧
  (∀ g ty sh d a b imm, BudgetRule (.lea g ty sh d a b) true g [.reg ty a, .reg .u32 b] ty.is64 d ∧
    BudgetRule (.leaImm g ty sh d a imm) true g [.reg ty a] ty.is64 d) ∧
  (∀ g ty d a imm, BudgetRule (.mov g ty d a) false g [.reg ty a] ty.is64 d ∧ BudgetRule (.li g ty d imm) false g [] ty.is64 d ∧
    BudgetRule (.pmark g ty d a) false g [.reg ty a] ty.is64 d)) ∧
  ((∀ i ∈ [Instr.fadd, .fsub, .fmul, .fdiv, .fmin, .fmax, .fcpys],
    ∀ o : F2, BudgetRule (i o) true o.g [.reg o.ty o.a, .reg o.ty o.b] o.ty.is64 o.d) ∧
  (∀ o : F2, BudgetRule (.fscale o) true o.g [.reg o.ty o.a, .reg .i32 o.b] o.ty.is64 o.d) ∧
  (∀ o : F3, BudgetRule (.fma o) true o.g [.reg o.ty o.a, .reg o.ty o.b, .reg o.ty o.c] o.ty.is64 o.d) ∧
  (∀ i ∈ [Instr.fsqrt, .frcpa, .frsqa, .fabs, .fneg, .frint],
    ∀ o : F1, BudgetRule (i o) true o.g [.reg o.ty o.a] o.ty.is64 o.d) ∧
  (∀ i ∈ [Instr.fclass, .fexpn], ∀ o : F1, BudgetRule (i o) true o.g [.reg o.ty o.a] false o.d) ∧
  (∀ g dty sty mode d a b w, BudgetRule (.cvt g dty sty mode d a) true g [.reg sty a] dty.is64 d ∧
    BudgetRule (.qnt g sty mode d a b) true g [.reg sty a, .reg .f32 b] false d ∧
    BudgetRule (.dqnt g dty w mode d a b) true g [.reg .i8 a, .reg .f32 b] dty.is64 d) ∧
  (∀ g ty d a b imm, BudgetRule (.rand g ty d a b) true g [.reg .u32 a, .reg .u32 b] ty.is64 d ∧
    BudgetRule (.randImm g ty d a imm) true g [.reg .u32 a] ty.is64 d) ∧
  (∀ g d a x b, BudgetRule (.resf g d a x b) true g [.reg .f64 a, .reg .f64 x, .reg .f64 b] true d)) ∧
  ((∀ g mode seg ty d (a : VSrc) b fill,
    BudgetRule (.shfl g mode seg ty d a b fill) false g [.reg ty (.v a.r a.last), .reg .u32 b] ty.is64 d) ∧
  (∀ o : Red, ∀ d x, BudgetRule (.scan o x d) true o.g [.reg o.ty (.v o.a.r o.a.last)] o.ty.is64 d) ∧
  (∀ g w d (a : VSrc), BudgetRule (.plane g d a) true g [.reg .bpi (.v a.r a.last)] false d ∧
    BudgetRule (.unplane g w d a) true g [.reg .u32 (.v a.r a.last)] false d) ∧
  (∀ g a d s c, s.Ready c → c.role.GuardOk g → c.role.PredsOk g [a] → ¬ c.role.Room [] false d (c.role.live g) →
    ∀ x ∈ [VoteDst.word d, .sum d, .count d], exec (.vote g x a) s = .next (s.overRoom d (c.role.live g))) ∧
  (∀ n num s c, s.Ready c → ¬ c.role.Room [] false n c.role.all → exec (.srs (.v n) num) s = .next (s.overRoom n c.role.all)) ∧
  ∀ g fs sp ty rnd d m off s c tag x pls, s.Ready c → c.role.GuardOk g → c.role.OpndsOk g (addrOpnds m) →
    ¬ c.role.Room (freesOf (addrOpnds m)) ty.is64 d (c.role.live g) →
    (s.Reach c (laneOf g sp ty m (off.signExtend 64) Need.load) (ctxTag sp c) tag x pls →
      exec (.ld g fs sp ty d m off) s = .next (x.overRoom d (c.role.live g))) ∧
    (s.Reach c (cellOf g sp ty m (off.signExtend 64) Need.xrnd) (ctxTag sp c) tag x pls →
      exec (.xrnd g fs sp ty rnd d m off) s = .next (x.overRoom d (c.role.live g))))

/-- R404 to R406: taking a trap. -/
def Obligations.trapEntry : Prop :=  ∀ (s : State) c k aux named after, s.ctx? = some c → c.team.fin = none → c.team.phase ≠ .finishing →
    let x : Role := { c.role with
      trap := { code := k.num, pc := c.role.item.pc, aux := aux, lanes := named }, out := [],
      park := none, unfinished := none, accessErr := none }
    let s1 := s.modPart c.team.part (fun p => p.completeRetires s.cur)
    (c.launch.trapOff = 0xFFFFFFFF ∨ c.role.entry.isSome = true → s.trap s.cur k aux named after =
      s1.setTeam s.cur.team { c.team.modRole s.cur.role (fun _ => x) with
        phase := .finishing,
        fin := some { code := k.num, role := s.cur.role, pc := c.role.item.pc, aux := aux.val, user := true, reset := false } }) ∧
    let e : TrapEntry :=
      { mask := c.role.mask, divDepth := c.role.div.length, retDepth := c.role.ret.length,
        resume := if after then c.role.pos else c.role.item, trClause := c.role.item.hdr, next := after, pcw := false }
    (c.launch.trapOff ≠ 0xFFFFFFFF → c.role.entry = none → s.trap s.cur k aux named after =
      s1.setTeam s.cur.team (c.team.modRole s.cur.role (fun _ => { x with pos := CodePos.header c.launch.trapOff, entry := some e })))

/-- R99, R113, R145 to R147, R151, R152, R154 to R156, R420, R424: what the transfers of control raise; TRAP with a live
lane, LPSW, and the words that are no instruction. -/
def Obligations.trapsRaised : Prop :=
  (∀ (s : State) (c : Ctx), s.Ready c →
    let trap := fun k aux => Host.Outcome.next (s.trapCur k aux c.role.mask)
    (∀ a, (c.role.sreg a).st = .P ∨ (c.role.sreg a).st = .R →
      exec (.brx a) s = trap .provLoop 0 ∧ exec (.callInd a) s = trap .provLoop 0) ∧
    (∀ a, (c.role.sreg a).st = .S → 2 ^ 32 ≤ (c.role.sreg a).val.toNat ∨ (c.role.sreg a).val.toNat % 4 ≠ 0 →
      exec (.brx a) s = trap .illegalEnc 6 ∧ exec (.callInd a) s = trap .illegalEnc 6) ∧
    (∀ x, 16 ≤ c.role.ret.length → exec (.call x) s = trap .callStack 0) ∧
    (∀ p x y, (∀ l ∈ c.role.all, (c.role.preg p l).2 ≠ .Z) → 32 ≤ c.role.div.length →
      exec (.brd p x y) s = trap .divStack 0) ∧
    (c.role.div = [] → exec .join s = trap .divStack 1)) ∧
  (∀ (s : State) (c : Ctx), s.Ready c →
    (∀ g n, c.role.GuardOk g →
      (c.role.live g = [] → exec (.trap g n) s = .next s) ∧
      (c.role.live g ≠ [] → exec (.trap g n) s = .next (s.trap s.cur .user { val := n.setWidth 64, st := .S }
        (maskOf (c.role.live g)) true))) ∧
    exec .lpsw s = .next (s.trapCur .priv 0 c.role.mask) ∧
    exec (.reservedOpcode false) s = .next (s.trapCur .illegalEnc 1 c.role.mask) ∧
    exec (.reservedOpcode true) s = .next (s.trapCur .illegalEnc 2 c.role.mask)) ∧
  decodeItem 0x02100000000027C1 = .ok (.trap { p := 4, neg := false } 0x21)

/-- R421: TRET outside a handler raises PRIV; inside one it gives back the mask of the entry without the lanes that have left
since, and continues at the point recorded or at a written %trappc. -/
def Obligations.trapReturns : Prop :=  ∀ (s : State) (c : Ctx), s.Ready c →
    (c.role.entry = none → exec .tret s = .next (s.trapCur .priv 0 c.role.mask)) ∧
    ∀ e, c.role.entry = some e →
      (c.role.div.length ≠ e.divDepth ∨ c.role.ret.length ≠ e.retDepth →
        exec .tret s = .next (s.trapCur .callStack 3 c.role.mask)) ∧
      (c.role.div.length = e.divDepth → c.role.ret.length = e.retDepth → e.pcw = true → c.role.trap.pc % 4 ≠ 0 →
        exec .tret s = .next (s.trapCur .illegalEnc 6 c.role.mask)) ∧
      (c.role.div.length = e.divDepth → c.role.ret.length = e.retDepth → (e.pcw = true → c.role.trap.pc % 4 = 0) →
        let mask := e.mask &&& ~~~(c.role.dead ||| c.role.off ||| c.role.exited)
        let pos := if e.pcw then CodePos.header c.role.trap.pc else e.resume
        mask ≠ 0 → exec .tret s = .next (s.modCur (fun r => { r with
          entry := none, mask := mask, pos := pos, begun := r.begun || pos.pc != e.resume.pc })))

/-- R226, R423: TLBI removes the cached translations of the partition whose page meets its range, and every last page. -/
def Obligations.translationsInvalidated : Prop :=  ∀ (s : State) (c : Ctx), s.Ready c →
    let gone := fun (lo n : Nat) (t : State) =>
      let u : State := { s.modPart c.team.part (fun p => { p with tlb := p.tlb.filter (fun x => !(x.va < lo + n && lo < x.va + x.size)) })
        with teams := s.teams.map (fun e => if e.2.part == c.team.part then
          (e.1, { e.2 with roles := e.2.roles.map (fun r => { r with lastPage := [] }) }) else e) }
      t = u.fenceOrder .full .part
    (∃ t, exec (.tlbi none) s = .next t ∧ gone 0 (2 ^ 64) t) ∧
    (∀ a n, (c.role.sreg a).st ≠ .Z → (c.role.sreg a).val.toNat % 65536 = 0 →
      (c.role.sreg a).val.toNat + 65536 * n.toNat ≤ 2 ^ 56 →
      ∃ t, exec (.tlbi (some (a, n))) s = .next t ∧ gone (c.role.sreg a).val.toNat (65536 * n.toNat) t) ∧
    (∀ a n, (c.role.sreg a).st ≠ .Z → (c.role.sreg a).val.toNat % 65536 ≠ 0 ∨
      2 ^ 56 < (c.role.sreg a).val.toNat + 65536 * n.toNat →
      exec (.tlbi (some (a, n))) s = .next (s.trap s.cur .prot (c.role.sreg a) c.role.mask false))

/-! Encoding (R84 to R113). -/

/-- R84 to R112: the decoder gives every well-formed instruction back from its item, with every operand at every value, and
every clause header back from its bits. -/
def Obligations.decodeEncode : Prop :=
  (∀ i raw, Instr.wf i = true → encodeRaw i = some raw → decodeItem raw.toBits = .ok i) ∧
  (∀ h, Header.wf h = true → decodeHeader (encodeHeader h) = .inl h)

/-- R87, R92 to R98: the words that the spec writes out, in chapters 4, 6 and 13. R113: an item in an instruction slot whose
opcode no table assigns is ILLEGAL_ENC with cause 1, whatever its other fields, and an item of length code 0 is a header
there, with cause 2. -/
def Obligations.decodedWords : Prop :=
  (decodeItem 0x10A2C08060401A0D = .ok (.fma
    { g := { p := 3, neg := false }, ty := .f64, rnd := .rn, d := 4, a := .v 6 false, b := .v 8 false, c := .v 10 true }) ∧
  decodeItem 0x00000040000080003023F94A = .ok (.iaddImm
    { g := { p := 127, neg := false }, ty := .i32, sat := false, d := 2, a := .v 3 false, imm := 0x40 }) ∧
  decodeItem 0x000001C000000140000000001003F80B = .ok (.brd 1 0x140 0x1C0) ∧
  decodeItem 0x000000020000180040A2C0100303FC07 = .ok (.mmar
    { init := true, ct := false, a := .buf 0 0 false, b := .buf 1 0 true, kg := 3, acc := 0, d := 48 }) ∧
  decodeItem 0x000000000003FFC9 = .ok .pchk ∧
  decodeHeader 0x000000000028C024C = .inl { n := 3, wait := 0b1001, sa := some 1, sb := some 2 }) ∧
  (∀ w : BitVec 128, (w.extractLsb' 0 2 = (0 : BitVec 2) → decodeItem w = .illegal 2) ∧
    (w.extractLsb' 0 2 ≠ (0 : BitVec 2) → ∀ op : BitVec 9, w.extractLsb' 2 9 = op →
      (0x00A ≤ op.toNat ∧ op.toNat ≤ 0x00F ∨ 0x016 ≤ op.toNat ∧ op.toNat ≤ 0x01F ∨ 0x033 ≤ op.toNat ∧ op.toNat ≤ 0x03F ∨
        0x045 ≤ op.toNat ∧ op.toNat ≤ 0x04F ∨ 0x06E ≤ op.toNat ∧ op.toNat ≤ 0x07F ∨ 0x092 ≤ op.toNat ∧ op.toNat ≤ 0x09F ∨
        0x0A6 ≤ op.toNat ∧ op.toNat ≤ 0x0BF ∨ op.toNat = 0x0C7 ∨ 0x0CD ≤ op.toNat ∧ op.toNat ≤ 0x0CF ∨ op.toNat = 0x0D5 ∨ 0x0DA ≤ op.toNat ∧ op.toNat ≤ 0x0FF ∨
        0x10C ≤ op.toNat ∧ op.toNat ≤ 0x11F ∨ 0x126 ≤ op.toNat ∧ op.toNat ≤ 0x13F ∨ 0x146 ≤ op.toNat ∧ op.toNat ≤ 0x1EF ∨
        0x1F5 ≤ op.toNat) → decodeItem w = .illegal 1))

/-! The step. -/

/-- R84 to R90: the turn of a resident role that nothing holds up fetches the item at its program counter, moves past it and
executes what it decodes to; a header is executed as a clause start, and an encoding fault raises ILLEGAL_ENC. R137, R410: what
a step adds to an instruction's own effect on a core without a datapath fault, in a team whose pre-emption nothing has
requested: nothing. R1, R4: an input of the outside world that stands first is an event of the device; the step executes it
and takes it out of the inputs. -/
def Obligations.stepRunsDecoded : Prop :=
  (∀ (s : State) r c, s.inputs = [] → s.turn = some r →
    let s1 : State := { s with tick := s.tick + 1, turn := none, cur := r }
    s1.mayIssue r = true → s1.ctx? = some c → c.team.phase = .resident → c.role.park = none → s1.curDisputed = false →
    c.role.empty = false →
    c.role.begun = true ∨ c.role.entry.isSome = true → c.role.pos.pc % 32 ≠ 28 →
    let p := c.role.pos
    let s2 := s1.modCur (fun r => { r with item := p })
    (p.left = 0 → ∀ f v h, s2.fetchBytes c p.pc.toNat 8 = .inr (f, v) → decodeHeader (BitVec.ofNat 64 v) = .inl h →
      step s = finishIssue (.clauseStart h) f (exec (.clauseStart h) f)) ∧
    (p.left = 0 → ∀ f v n, s2.fetchBytes c p.pc.toNat 8 = .inr (f, v) → decodeHeader (BitVec.ofNat 64 v) = .inr n →
      step s = .next (f.trapCur .illegalEnc (BitVec.ofNat 64 n) c.role.mask)) ∧
    (p.left ≠ 0 → ∀ f v i, s2.fetchBytes c p.pc.toNat (min 16 (32 - p.pc.toNat % 32)) = .inr (f, v) →
      let w := BitVec.ofNat 128 v
      let len := itemBytes (w.extractLsb' 0 2)
      decodeItem w = .ok i → p.pc.toNat % 32 + len ≤ 32 → (p.left = 1 ∨ clauseEnd (w.extractLsb' 2 9) = false) →
      let m := f.modCur (fun r => { r with pos := { p with pc := p.pc + BitVec.ofNat 32 len, left := p.left - 1 } })
      step s = finishIssue i m (exec i m))) ∧
  (∀ i (s t : State) tm r, s.team? s.cur.team = some tm → s.role? s.cur = some r → r.dualAt = none →
    tget (s.bulk (s.coreOf tm).1).coreFault (s.coreOf tm).2 = none →
    (t.team? t.cur.team).all (fun u => u.pre.isNone) = true →
    ∃ u, finishIssue i s (.next t) = .next u ∧ u = { t with teams := u.teams } ∧ ∀ k, u.team? k = t.team? k) ∧
  (∀ (s : State) i rest, s.inputs = i :: rest → isEvent i = true →
    step s = exec i { s with tick := s.tick + 1, inputs := rest })

/-- R219, R245, R443: every storage of the machine keeps its canonical form through every step: keys rise, no listed byte is 0
and no listed sector is settled. -/
def Obligations.storageStaysCanonical : Prop := ∀ s t : State, s.storageWf = true → step s = .next t → t.storageWf = true

/-! Memory (R220, R227, R228, R273 to R313, R388 to R399). -/

/-- R228, R248, R279, R281, R285: LD, LDX and XRND. LDX completes the role's own earlier retires first (the model's reading of
R91, log 24). -/
def Obligations.loads : Prop :=  (∀ g fs sp ty d m off, (Instr.ld g fs sp ty d m off).wf = true →
    LoadRule (.ld g fs sp ty d m off) (laneOf g sp ty m (off.signExtend 64) Need.load) ty.is64 d fs (fun _ _ => True)
      (ctxTag sp) (fun s f pl pos => s.readElem f ty pl pos)) ∧
  (∀ g fs ty d m off form disp, (Instr.ldx g fs ty d m off form disp).wf = true →
    (∀ s, exec (.ldx g fs ty d m off form disp) s = exec (.ldx g fs ty d m off form disp) s.ownRetired) ∧
    LoadRule (.ldx g fs ty d m off form disp)
      (laneOf g .g ty m (off.signExtend 64 + disp.signExtend 64 * BitVec.ofNat 64 (tyBytes ty)) Need.load) ty.is64 d fs
      (fun s c => s.ownRetired = s ∧ ∀ n ∈ ldxScalar form, (c.role.sreg n).st = .S) (ldxTag form)
      (fun s f pl pos => s.readElem f ty pl pos)) ∧
  (∀ g fs sp ty rnd d m off, (Instr.xrnd g fs sp ty rnd d m off).wf = true →
    LoadRule (.xrnd g fs sp ty rnd d m off) (cellOf g sp ty m (off.signExtend 64) Need.xrnd) ty.is64 d fs (fun _ _ => True)
      (ctxTag sp) (fun s f pl _ =>
        let r := s.ldPlace false f pl (cellBytes ty.is64)
        (r.1, ofPattern (cellRound ty.is64 rnd r.2.1), r.2.2)))

/-- R228, R275, R280, R282 to R284, R363: ST, ATOM and XACC. A store's highest lane wins at a place that several name; the updates
follow each other in ascending order of lanes. A release ATOM is a release fence and then the accesses, and an acquire ATOM is
the accesses and then an acquire fence. -/
def Obligations.storesAndUpdates : Prop :=  (∀ g sp ty x m off, (Instr.st g sp ty x m off).wf = true →
    let o := laneOf g sp ty m (off.signExtend 64) Need.store
    let pos := fun (c : Ctx) l => c.bpiPos sp l (c.role.ea m o.off l).val.toNat
    StoreRule (.st g sp ty x m off) o (.reg ty x)
      (fun c pls => topWriters (pos c) pls)
      (fun c t e => t.writeElem c.role.accessErr ty e.2 (pos c e.1) (c.role.src ty x e.1).val
        (c.role.storeSt g e.1 (c.role.ea m o.off e.1).st (c.role.src ty x e.1).st)) id id) ∧
  (∀ g op ord sp ty x m off, (Instr.atom g op ord sp ty x m off).wf = true →
    let o := laneOf g sp ty m (off.signExtend 64) Need.atom
    StoreRule (.atom g op ord sp ty x m off) o (.reg ty x) (fun _ pls => pls) (fun c t e =>
      let r := t.ldPlace false c.role.accessErr e.2 (tyBytes ty)
      r.1.wrPlace c.role.accessErr e.2 (tyBytes ty)
        (readBits ty (atomVal op ty (extendElem ty r.2.1) (c.role.src ty x e.1).val))
        (c.role.storeSt g e.1 (c.role.ea m o.off e.1).st (joinSt r.2.2 (c.role.src ty x e.1).st)))
      (fun s => match ord with
        | .release k => s.fenceRel k
        | _ => s)
      (fun s => match ord with
        | .acquire k => s.acquire k
        | _ => s)) ∧
  (∀ g sp ty x m off, (Instr.xacc g sp ty x m off).wf = true →
    let o := cellOf g sp ty m (off.signExtend 64) Need.atom
    StoreRule (.xacc g sp ty x m off) o (.reg ty x) (fun _ pls => pls) (fun c t e =>
      let r := t.ldPlace false c.role.accessErr e.2 (cellBytes ty.is64)
      r.1.wrPlace c.role.accessErr e.2 (cellBytes ty.is64) (cellAdd ty.is64 r.2.1 (readBits ty (c.role.src ty x e.1).val))
        (c.role.storeSt g e.1 (c.role.ea m o.off e.1).st (joinSt r.2.2 (c.role.src ty x e.1).st))) id id)

/-- R142, R220, R273, R275: a store in scratch, byte by byte. A byte that no live lane names is as before; one that a lane names
holds its data, the highest lane's where several name it. A sector joins what is written into a part of it. The writes are
listed with what they replace, for what may read beneath them (the model's form of the memory model, log 48). R227, R228, R277: what stops accesses in scratch. Misalignment has the smallest code and names its lanes; a lane out of range leaves the
role; a conflict names the holder that the lowest lane meets; and where none of these is met every lane is reached, with the
state as before. -/
def Obligations.scratchAccesses : Prop :=
  (∀ g ty x m off (s : State) (c : Ctx), (Instr.st g .t ty x m off).wf = true → ty ≠ .bpi → s.Ready c → c.role.GuardOk g →
    c.role.OpndsOk g (addrOpnds m ++ [.reg ty x]) → c.role.unfinished = none →
    let n := tyBytes ty
    let ea := fun l => (c.role.ea m (off.signExtend 64) l).val.toNat
    (∀ l ∈ c.role.live g, ea l % n = 0 ∧ ea l + n ≤ c.launch.scratch ∧
      s.lockHit s.cur.team .t (ea l / 32) ((ea l + n - 1) / 32) true = none) →
    let last := fun (p : Nat → Bool) => (c.role.live g).reverse.find? p
    ∃ t t' k old u rels, exec (.st g .t ty x m off) s = .next t ∧ t.team? s.cur.team = some t' ∧
      t = { s.modTeam s.cur.team (fun y => { y.modRole s.cur.role (fun r =>
          { r.freeRows (freesOf (addrOpnds m ++ [.reg ty x])) (groupsOf r.ngroups r.mask) with
            unfinished := none, accessErr := none, heldSeq := none, rels := rels }) with scratch := k }) with
        clock := s.clock + u.length, past := old ++ u } ∧
      (c.role.live g ≠ [] → rels = []) ∧ (c.role.live g = [] → rels = c.role.rels ∧ old = s.past) ∧
      old.map (fun w => { w with rels := [] }) = s.past.map (fun w => { w with rels := [] }) ∧
      (∀ w ∈ u, s.clock < w.time ∧ w.role = some s.cur ∧ w.op = none ∧ w.knows = [s.cur] ∧ w.all = none ∧ w.rels = [] ∧
        w.was.loc = .t s.cur.team ∧ ∃ l ∈ c.role.live g, w.was.sec = ea l / 32 ∧ w.was.bytes = bytesAt (ea l) n) ∧
      (∀ a, t'.scratch.rd a = match last (fun l => decide (ea l ≤ a ∧ a < ea l + n)) with
        | some l => BitVec.ofNat 8 (readBits ty (c.role.src ty x l).val / 256 ^ (a - ea l))
        | none => c.team.scratch.rd a) ∧
      ∀ q, t'.scratch.st q = ((c.role.live g).filter (fun l => decide (ea l / 32 = q ∧ last (fun j => ea j == ea l) = some l))).foldl
        (fun z l => joinSt z (c.role.storeSt g l (c.role.ea m (off.signExtend 64) l).st (c.role.src ty x l).st)) (c.team.scratch.st q)) ∧
  (∀ g fs ty d m off (s : State) (c : Ctx), (Instr.ld g fs .t ty d m off).wf = true → ty ≠ .bpi → s.Ready c → c.role.GuardOk g →
    c.role.OpndsOk g (addrOpnds m) → c.role.unfinished = none →
    let n := tyBytes ty
    let ea := fun l => (c.role.ea m (off.signExtend 64) l).val.toNat
    let wrong := (c.role.live g).filter (fun l => decide (ea l % n ≠ 0))
    let beyond := fun l => c.launch.scratch < ea l + n
    let hit := fun l => s.lockHit s.cur.team .t (ea l / 32) ((ea l + n - 1) / 32) false
    (wrong ≠ [] → exec (.ld g fs .t ty d m off) s = .next (s.trapCur .align 0 (maskOf wrong))) ∧
    (wrong = [] → ∀ l h, (c.role.live g).find? (fun l => decide (¬ beyond l) && (hit l).isSome) = some l → hit l = some h →
      exec (.ld g fs .t ty d m off) s = .next (s.trapCur .rangeConflict h
        (maskOf ((c.role.live g).filter (fun l => decide (¬ beyond l) && (hit l).isSome))))) ∧
    (wrong = [] → (∀ l ∈ c.role.live g, beyond l) → c.role.live g ≠ [] →
      ∃ t r, exec (.ld g fs .t ty d m off) s = .next t ∧ t.role? s.cur = some r ∧
        r.off = c.role.off ||| maskOf (c.role.live g) ∧ r.mask = c.role.mask &&& ~~~(maskOf (c.role.live g))) ∧
    (wrong = [] → (∀ l ∈ c.role.live g, ¬ beyond l ∧ hit l = none) →
      s.Reach c (laneOf g .t ty m (off.signExtend 64) Need.load) (ctxTag .t c) 0 s ((c.role.live g).map (fun l => (l, .scr s.cur.team (ea l))))))

/-- R166, R228, R286, R287, R325: SLD, which checks its one address with the whole mask in place of a lane, and the fences:
outside a handler a pending deferred fault is delivered, the smallest code first. A fence changes nothing but what it orders: after
an acquire the role must read the writes that a release of a role in its scope has ordered before, if the release's scope holds
it (R367); after FENCE.E no operation of the role reads beneath what the role stored before (R294). The form of the ordering is
the model's (logs 2 and 48). FENCE.T advances the scratch-write generation of the core, and no other. -/
def Obligations.uniformLoadsAndFences : Prop :=  (∀ fs sp ty d a off tag (s : State) (c : Ctx), (Instr.sld fs sp ty d a off).wf = true → s.Ready c →
    (c.role.sreg a).st ≠ .Z →
    let at_ := (ctxTag sp c).resolve s c [((c.role.sreg a).val + off.signExtend 64).toNat]
    (∀ x, at_ = .inl x → exec (.sld fs sp ty d a off) s = .next (s.trapCur .ctxDead x c.role.mask)) ∧
    (at_ = .inr tag →
    let r := s.resolve c { sp := sp, need := Need.load, size := tyBytes ty, align := tyBytes ty, bpi := false, tag := tag } [] 0
      ((c.role.sreg a).val + off.signExtend 64).toNat
    (∀ pl, r.2 = .ok pl → exec (.sld fs sp ty d a off) s =
      let e := r.1.readElem c.role.accessErr ty pl 0
      .next (e.1.modCur (fun x =>
        { x.setS d e.2.1 (loadSt (c.role.sreg a).st e.2.2) with
          out := x.out ++ [x.flagOf fs], unfinished := none, accessErr := none, heldSeq := none }))) ∧
    (r.2 = .off → exec (.sld fs sp ty d a off) s = .next (r.1.offCur c.role.mask)) ∧
    (∀ k aux, r.2 = .trap k aux → exec (.sld fs sp ty d a off) s = .next (r.1.trapCur k aux c.role.mask)) ∧
    (∀ p, r.2 = .wait p → exec (.sld fs sp ty d a off) s = .next (r.1.parkAt p)))) ∧
  ∀ (s : State) (c : Ctx) kind scope, s.Ready c →
    let remote := scope = .part ∨ scope = .sys
    let d := c.role.deferred
    let clear := fun (x : Deferred) => s.modCur (fun r => { r with deferred := x })
    (c.role.entry.isSome = true ∨ (d.bar = none ∧ d.dep = none ∧ d.overlay = none) →
      (c.role.entry.isSome = true ∨ d.remote = none ∨ ¬ remote → ∃ t a k w n, exec (.fence kind scope) s = .next t ∧
        t = { s.modCur (fun r => { r with acq := a, rels := k }) with past := w, clock := n } ∧
        (kind = .rel → a = c.role.acq ∧ k = c.role.rels ++ [(scope, s.clock)] ∧ w = s.past ∧ n = s.clock) ∧
        (kind ≠ .rel → ∀ x ∈ w, ∀ e ∈ x.rels, e.2.2 ≤ s.clock → s.inScope e.1 e.2.1 (some s.cur) = true →
          s.inScope s.cur scope (some e.1) = true → t.mayMiss (.role s.cur) x = false)) ∧
      (∃ t, exec .fenceE s = .next t ∧ t = s.modCur (fun r => { r with fencedAt := s.clock }) ∧
        ∀ x : PastWrite, x.role = some s.cur → x.time ≤ s.clock → t.mayMiss (.op s.cur s.clock) x = false) ∧
      ((s.coreOf c.team).1 < s.bulks.length → ∃ t, exec .fenceT s = .next t ∧ t = { s with bulks := t.bulks } ∧
        (∀ k, t.coreGen k = s.coreGen k + if k = s.coreOf c.team then 1 else 0) ∧
        ∀ b ∈ t.bulks, ∀ e ∈ b.coreCache, ∀ x ∈ e.2, x.team ≠ s.cur.team)) ∧
    (c.role.entry = none → ∀ i ∈ [Instr.fence kind scope, .fenceE, .fenceT],
      (∀ a, d.bar = some a → exec i s = .next ((clear { d with bar := none }).trapCur .barOverflow a c.role.mask)) ∧
      (∀ a, d.bar = none → d.dep = some a →
        exec i s = .next ((clear { d with dep := none }).trapCur .depUnderflow a c.role.mask)) ∧
      (∀ a, d.bar = none → d.dep = none → d.overlay = some a →
        exec i s = .next ((clear { d with overlay := none }).trapCur .overlayFull a c.role.mask)) ∧
      (∀ a, remote → i = .fence kind scope → d.bar = none → d.dep = none → d.overlay = none → d.remote = some a →
        exec i s = .next ((clear { d with remote := none }).trapCur .remoteGone a c.role.mask)))

/-- R297 to R300: BINIT, BEXP and BWAIT on an aligned byte barrier in range, and what else they meet. The word holds the phase
in bit 63, the arrivals in bits 62 to 32 and the pending bytes below. A write is listed with what it replaces, and BWAIT observes
the copies that have counted into the barrier and is an acquire at TEAM scope (in the form of log 48). -/
def Obligations.byteBarriers : Prop :=  ∀ a (s : State) (c : Ctx), s.Ready c → (c.role.sreg a).st ≠ .Z →
    let off := (c.role.sreg a).val.toNat
    let word := c.team.scratch.rdNat off 8
    let holds := fun (v : Nat) (st : Standing) (t : State) => ∃ m old u,
      t = { s.modTeam s.cur.team (fun x => { x.modRole s.cur.role (fun r => { r with rels := [] }) with scratch := m }) with
        past := old ++ [u], clock := s.clock + 1 } ∧
      old.map (fun w => { w with rels := [] }) = s.past.map (fun w => { w with rels := [] }) ∧
      u.role = some s.cur ∧ u.time = s.clock + 1 ∧ u.was.loc = .t s.cur.team ∧ u.was.sec = off / 32 ∧
      u.was.st = c.team.scratch.st (off / 32) ∧ u.was.old.toNat = c.team.scratch.rdNat (off / 32 * 32) 32 ∧
      m.rdNat off 8 = v ∧ (∀ b, b < off ∨ off + 8 ≤ b → m.rd b = c.team.scratch.rd b) ∧
      m.st (off / 32) = joinSt (c.team.scratch.st (off / 32)) (markSt c.role.taint (addrSt (c.role.sreg a).st st)) ∧
      ∀ q, q ≠ off / 32 → m.st q = c.team.scratch.st q
    (off % 8 = 0 → off + 8 ≤ c.launch.scratch →
      (∀ n, s.lockHit s.cur.team .t (off / 32) (off / 32) true = none →
        ∃ t, exec (.binit a n) s = .next t ∧ holds n.toNat .S t) ∧
      (∀ n h, s.lockHit s.cur.team .t (off / 32) (off / 32) true = some h →
        exec (.binit a n) s = .next (s.trapCur .rangeConflict h c.role.mask)) ∧
      (∀ n, (∀ r ∈ Cnt.regs n, (c.role.sreg r).st ≠ .Z) →
        let p := word % 2 ^ 32 + c.role.count n
        let st := joinAll (.S :: (Cnt.regs n).map (fun r => (c.role.sreg r).st))
        (p = 0 → ∃ t, exec (.bexp a n) s = .next t ∧ holds ((1 - word / 2 ^ 63) * 2 ^ 63) st t) ∧
        (0 < p → p < 2 ^ 32 → ∃ t, exec (.bexp a n) s = .next t ∧ holds (word / 2 ^ 32 * 2 ^ 32 + p) st t) ∧
        (2 ^ 32 ≤ p → exec (.bexp a n) s = .next (s.trapCur .barOverflow 0 c.role.mask))) ∧
      ∀ phase : Bool, (word / 2 ^ 63 ≠ phase.toNat → exec (.bwait a phase) s =
          .next ((s.observe (fun _ m => m.owner.team == s.cur.team && m.bar == some off)).acquire .team)) ∧
        (word / 2 ^ 63 = phase.toNat → exec (.bwait a phase) s = .next (s.parkCur .bwait))) ∧
    ∀ n phase, (off % 8 ≠ 0 → exec (.binit a n) s = .next (s.trapCur .align 0 c.role.mask) ∧
        exec (.bwait a phase) s = .next (s.trapCur .align 0 c.role.mask)) ∧
      (off % 8 = 0 → c.launch.scratch < off + 8 → exec (.binit a n) s = .next (s.offCur c.role.mask) ∧
        exec (.bwait a phase) s = .next (s.offCur c.role.mask))

/-- R383 to R386, R397: ARRIVE, BAR and AWAIT. The phase of a barrier completes with the arrival after which every role of the
mask has arrived or ended; until then the role's bit stays set, BAR keeps its role and AWAIT waits. The return from a completed
phase is an acquire at TEAM scope. -/
def Obligations.namedBarriers : Prop :=  ∀ (b roles : BitVec 4) (s : State) (c : Ctx) (old : Barrier), s.Ready c → c.team.bars[b.toNat]? = some old →
    let me := s.cur.role
    let m := if b = 0 then BitVec.ofNat 4 (2 ^ c.team.roles.length - 1) else roles
    let lack := ∃ k : Fin 4, m.getLsbD k = true ∧ k.val ≠ me ∧ old.arrived.getLsbD k = false ∧
      ∃ r, c.team.roles[k.val]? = some r ∧ r.ended = false
    let trap := fun n => Host.Outcome.next (s.trapCur .barOverflow n c.role.mask)
    let back := fun (t : State) =>
      (t.modCur (fun r => { r with barDone := r.barDone &&& ~~~((1 : BitVec 16) <<< b.toNat) })).acquire .team
    (me < 4 → (old.latched = none ∨ old.latched = some m) → m.getLsbD me = true → m.toNat < 2 ^ c.team.roles.length →
      c.role.barOut.getLsbD b.toNat = false →
      ∃ t x r, exec (.arrive b roles) s = .next t ∧ t.team? s.cur.team = some x ∧ x.roles[me]? = some r ∧
        (lack → x.bars[b.toNat]? = some { old with latched := some m, arrived := old.arrived ||| (1 <<< me) } ∧
          r.barOut.getLsbD b.toNat = true ∧
          exec (.bar b roles) s = .next (t.modCur (fun r => { r with park := some (.bar b) }))) ∧
        (¬ lack → x.bars[b.toNat]? = some { phase := !old.phase, latched := none, arrived := 0 } ∧
          r.barOut.getLsbD b.toNat = false ∧ r.barDone.getLsbD b.toNat = true ∧ exec (.bar b roles) s = .next (back t))) ∧
    (let cause := fun (n : DWord) =>
        n = 2 ∧ (∃ l, old.latched = some l ∧ l ≠ m) ∨
        n = 3 ∧ (m.getLsbD me = false ∨ 2 ^ c.team.roles.length ≤ m.toNat) ∨ n = 4 ∧ c.role.barOut.getLsbD b.toNat = true
     (∃ n, cause n) → ∃ n, cause n ∧ exec (.arrive b roles) s = trap n ∧ exec (.bar b roles) s = trap n) ∧
    (c.role.barOut.getLsbD b.toNat = false →
      exec (.await b) s = .next (if c.role.barDone.getLsbD b.toNat = true then back s else s)) ∧
    (c.role.barOut.getLsbD b.toNat = true → exec (.await b) s = .next (s.parkCur (.await b)))

/-- R17, R18, R276, R288 to R292, R294, R295: COPY registers its operation and leaves the role's registers alone; it raises the
faults of R292 in their order, with no effect. STAGE takes the role to its next stage and makes the stage's schedule entries due:
one that is released by its stage is registered, and one that waits for operands consumed stays due. -/
def Obligations.copiesIssue : Prop :=
  (∀ (o : CopyOps) (s : State) (c : Ctx), s.Ready c → s.ownRetired = s →
    ((∃ n ∈ copyRegs o, (c.role.sreg n).st = .Z) → exec (.copy o) s = .next (s.poisonCur c.role.mask)) ∧
    ((∀ n ∈ copyRegs o, (c.role.sreg n).st ≠ .Z) →
      let q := copyReq c o
      let l := c.launch
      let trap := fun (s : State) k aux => Host.Outcome.next (s.trapCur k aux c.role.mask)
      let badIdx := fun (e : EpReq) => ∃ i, e.idx = some i ∧ l.surfs[i]? = none
      (badIdx q.src ∨ badIdx q.dst → exec (.copy o) s = trap s .prot 2) ∧
      (¬ badIdx q.src → ¬ badIdx q.dst → 0 ∈ q.ext ∨ (q.src.idx = none ∧ ∃ x ∈ q.sorg, x ≠ 0) ∨
        (q.dst.idx = none ∧ ∃ x ∈ q.dorg, x ≠ 0) ∨
        (∃ a b, q.src.surfRec l = some a ∧ q.dst.surfRec l = some b ∧ sfTy a ≠ sfTy b) → exec (.copy o) s = trap s .prot 1) ∧
      (q.prot l = none → (q.leaves l q.src q.sorg = true → ∀ i, q.src.idx = some i →
          exec (.copy o) s = trap s .rangeConflict (BitVec.ofNat 64 i)) ∧
        (q.leaves l q.src q.sorg = false → q.leaves l q.dst q.dorg = true → ∀ i, q.dst.idx = some i →
          exec (.copy o) s = trap s .rangeConflict (BitVec.ofNat 64 (i + 4096))) ∧
        (q.leaves l q.src q.sorg = false → q.leaves l q.dst q.dorg = false →
          let p := q.plan l
          let es := elemBytes p.ty
          let al := if p.ty = .bpi then 128 else es
          let wrong := q.src.misaligned al = true ∨ q.dst.misaligned al = true ∨ (∃ b, q.bar = some b ∧ b % 8 ≠ 0) ∨
            (∃ a : DWord, q.dep = some a ∧ a.toNat % 4 ≠ 0)
          let out := p.src.outside c q.ext es = true ∨ p.dst.outside c q.ext es = true ∨ ∃ b, q.bar = some b ∧ l.scratch < b + 8
          (wrong → exec (.copy o) s = trap s .align 0) ∧
          (¬ wrong → out → exec (.copy o) s = .next (s.offCur c.role.mask)) ∧
          (¬ wrong → ¬ out → q.check c = .inr p))) ∧
      ∀ p, q.check c = .inr p →
        let w := (s.walkCopy c p q.ext q.dep).1
        (∀ x, s.copyTagFault c o q p = some x → exec (.copy o) s = .next (s.trap s.cur .ctxDead
          { val := x, st := (o.tags.map (fun n => (c.role.sreg n).st)).getD .S } c.role.mask false)) ∧
        (s.copyTagFault c o q p = none → (w.prot = true → exec (.copy o) s = trap w.s .prot 0) ∧
          (w.prot = false → w.window = true → exec (.copy o) s = trap w.s .window 0) ∧
          (∀ k, w.prot = false → w.window = false → w.wait = some k → exec (.copy o) s = .next (w.s.parkAt k))))) ∧
  (∀ (o : CopyOps) (s : State) (c : Ctx) (p : CopyPlan), s.Ready c → s.ownRetired = s →
    (∀ n ∈ copyRegs o, (c.role.sreg n).st ≠ .Z) →
    let q := copyReq c o
    let w := s.walkCopy c p q.ext q.dep
    q.check c = .inr p → s.copyTagFault c o q p = none → w.1.prot = false → w.1.window = false → w.1.wait = none →
    (p.namesOb = true → w.1.s.obTaken s.cur.team c.team = false) → w.1.s.lockRoom s.cur.team p.locks = true →
    s.op? s.nextOp = none →
    ∃ t x k, exec (.copy o) s = .next t ∧
      t.role? s.cur = some { c.role with unfinished := none, accessErr := none, heldSeq := none } ∧
      t.op? s.nextOp = some x ∧ x.owner = s.cur ∧ x.flag = c.role.flagOf o.fs ∧ x.locks = p.locks ∧ x.started = false ∧
      x.moved = false ∧ x.fenced = c.role.fencedAt ∧ x.kind = .copy k none ∧ k.src = p.src ∧ k.ext = q.ext ∧ k.ty = p.ty ∧ k.bar = q.bar ∧ k.dep = w.2 ∧
      k.scale = p.scale ∧ k.prop = p.prop ∧
      (k.mark = true ↔ c.role.taint = true ∨ ∃ n ∈ copyRegs o, (c.role.sreg n).st = .P ∨ (c.role.sreg n).st = .R)) ∧
  ∀ (s : State) (c : Ctx), s.Ready c →
    (c.role.stage = 0xFFFF → exec .stage s = .next s) ∧
    (c.role.stage ≠ 0xFFFF → c.team.due = [] →
      (∀ e ∈ c.launch.sched, ¬ (seRole e = s.cur.role ∧ seStage e = c.role.stage.toNat + 1)) →
      exec .stage s = .next (s.modCur (fun r => { r with stage := r.stage + 1, accessErr := none, heldSeq := none }))) ∧
    ∀ i e p, c.role.stage ≠ 0xFFFF → c.team.due = [] → c.launch.sched[i]? = some e →
      (∀ j x, c.launch.sched[j]? = some x → (seRole x = s.cur.role ∧ seStage x = c.role.stage.toNat + 1 ↔ j = i)) →
      let q := schedReq e
      let w := s.walkCopy c p q.ext q.dep
      q.check c = .inr p → w.1.prot = false → w.1.window = false → w.1.wait = none → p.namesOb = false →
      ∃ t tm, exec .stage s = .next t ∧ t.team? s.cur.team = some tm ∧ tm.roles[s.cur.role]? = some { c.role with
          stage := c.role.stage + 1, accessErr := none, heldSeq := none } ∧
        (seConsumed e = true → i ∉ c.team.released → t.ops = w.1.s.ops ∧
          tm.due = [{ idx := i, taint := c.role.taint, xls := w.1.xls, dep := w.2 }]) ∧
        (seConsumed e = false → w.1.s.lockRoom s.cur.team p.locks = true → s.op? s.nextOp = none → tm.due = [] ∧
          ∃ x k, t.op? s.nextOp = some x ∧ x.owner = s.cur ∧ x.flag = none ∧ x.locks = p.locks ∧ x.kind = .copy k (some i) ∧
            k.src = p.src ∧ k.ext = q.ext ∧ k.bar = q.bar ∧ k.dep = w.2 ∧ (k.mark = c.role.taint))

/-- R268, R309 to R311, R313: a near-memory command whose fields and pages pass is queued, and the role counts it; what its role
stored after the last FENCE.E it may read as it stood before (R294). NMWAIT waits for the role's commands, and then reports the
lowest one that met an error. -/
def Obligations.nearMemoryCommands : Prop :=  (∀ (o : NmcOps) (s : State) (c : Ctx), s.Ready c →
    (∀ k < 6, (c.role.sreg (o.a + BitVec.ofNat 7 k)).st ≠ .Z) → s.op? s.nextOp = none →
    ∀ e ∈ [(Instr.nmcAxpy o, (0 : BitVec 4)), (.nmcScale o, 1), (.nmcFade o, 2), (.nmcFma o, 3), (.nmcClamp o, 4), (.nmcFill o, 5)],
    let v := fun k => (c.role.sreg (o.a + BitVec.ofNat 7 k)).val
    let q : NmcReq :=
      { code := e.2, f64 := o.f64, n := o.n.toNat, y := v 0, x := v 1, w := v 2, p0 := v 3, p1 := v 4, recAddr := v 5 }
    let es := if o.f64 then 8 else 4
    let walk := fun (w : Walked) (need : Need) (a : DWord) (n : Nat) => (pagesOf n [a.toNat]).foldl (fun w g =>
      w.page c need g) w
    let w := (q.vecs.drop 1).foldl (fun w a => walk w Need.read a q.bytes) (walk (walk
      (Walked.start s) Need.write q.y q.bytes) Need.write q.recAddr 32)
    (q.unusedSet = true → exec e.1 s = .next (s.trapCur .nmcError 5 c.role.mask)) ∧
    (q.unusedSet = false → (∃ a ∈ q.vecs, a.toNat % es ≠ 0) ∨ q.recAddr.toNat % 32 ≠ 0 →
      exec e.1 s = .next (s.trapCur .align 0 c.role.mask)) ∧
    (q.unusedSet = false → (∀ a ∈ q.vecs, a.toNat % es = 0) → q.recAddr.toNat % 32 = 0 →
      (w.prot = true → exec e.1 s = .next (w.s.trapCur .prot 0 c.role.mask)) ∧
      (w.prot = false → w.window = true → exec e.1 s = .next (w.s.trapCur .window 0 c.role.mask)) ∧
      (w.prot = false → w.window = false → w.wait = none → ∀ n, q.cause c.part w.xls = some n →
        exec e.1 s = .next (w.s.trapCur .nmcError n c.role.mask)) ∧
      (w.prot = false → w.window = false → w.wait = none → q.cause c.part w.xls = none →
      let b := c.part.bulkOf (((q.homes w.xls).head?.getD none).getD 0)
      (w.s.nmcAt b).length < 64 → w.s.lockRoom s.cur.team q.locks = true →
      ∃ t x k, exec e.1 s = .next t ∧
        t.role? s.cur = some { c.role with
          nmcCount := c.role.nmcCount + 1, unfinished := none, accessErr := none, heldSeq := none } ∧
        t.op? s.nextOp = some x ∧ x.owner = s.cur ∧ x.fenced = c.role.fencedAt ∧ x.flag = c.role.flagOf o.fs ∧ x.locks = q.locks ∧ x.kind = .nmc k ∧
        k.serial = c.role.nmcCount ∧ k.code = e.2 ∧ k.f64 = o.f64 ∧ k.n = q.n ∧ k.y = q.y ∧ k.x = q.x ∧ k.w = q.w ∧
        k.p0 = q.p0 ∧ k.p1 = q.p1 ∧ k.recAddr = q.recAddr ∧ k.bulk = b))) ∧
  ∀ (s : State) (c : Ctx), s.Ready c →
    let own := ∃ e ∈ s.ops, e.2.owner = s.cur ∧ ∃ k, e.2.kind = .nmc k
    (own → exec .nmwait s = .next (s.parkCur .nmwait)) ∧
    (¬ own → c.role.nmcErr = none → exec .nmwait s = .next (s.modCur (fun r => { r with nmAt := s.clock }))) ∧
    (∀ n, ¬ own → c.role.nmcErr = some n → exec .nmwait s =
      .next ((s.modCur (fun r => { r with nmAt := s.clock, nmcErr := none })).trapAfter .nmcError (n.setWidth 64 ||| (1 <<< 32)) c.role.mask))

/-- R388 to R393, R398, R399: DEPINIT writes its counter, settled; DEPDEC takes one off, and leaves a counter at 0 or one that
is not settled as it is with the fault deferred; CPOST registers its record: ready at once without a counter or on one at 0, else
waiting for its counter, for the bulkhead of the leaf that translates ARG0, or the posting team's. A Z counter kills, and one
that is P or R raises PROV_LOOP. -/
def Obligations.dependences : Prop :=  (∀ a off n fs (s : State) (c : Ctx) (u : State) (r : CtrRef), s.Ready c → c.role.taint = false →
    (∀ x ∈ a :: Cnt.regs n, (c.role.sreg x).st = .S) →
    let va := (c.role.sreg a).val + off.signExtend 64
    va.toNat % 4 = 0 → s.counterRef c.team.part c.team.bulk c.role.accessErr va = (u, .ok r) →
    u.ctrErr c.role.accessErr r = false →
    let done := fun (t : State) => t.modCur (fun r => { r with unfinished := none, accessErr := none, heldSeq := none })
    let init := fun (t : State) => if c.role.count n = 0 then t.releaseOn r.home else t
    (off = 0 → exec (.depinit a n) s = .next (done (init ((u.noteStore .S (u.oldSegs none 0 [r.seg] 4)).writeCtr r
      (c.role.count n))))) ∧
    let v := (u.release .part).readCtr r
    let wr := fun x => (v.1.forgetVirt r.pp r.x 0 r.va 4).writeCtr r x
    let took := if v.2.2 ≠ .S then v.1.defer s.cur .depUnderflow ((va.setWidth 56).setWidth 64 ||| 2 ^ 56)
      else if v.2.1 = 0 then v.1.defer s.cur .depUnderflow ((va.setWidth 56).setWidth 64)
      else if v.2.1 = 1 then (wr 0).releaseOn r.home else wr (v.2.1 - 1)
    exec (.depdec fs a off) s = .next (took.modCur (fun x =>
      { x with out := x.out ++ [x.flagOf fs], unfinished := none, accessErr := none, heldSeq := none }))) ∧
  (∀ (s : State) (c : Ctx) (arg : DWord), s.taskTarget c 0 = (s, c.team.bulk) ∧
    ∀ w h, arg ≠ 0 → s.xlate c.team.part [] (Need.read.at_ c.team.bulk) none arg.toNat = (w, .ok h) →
      s.taskTarget c arg = (w, if h.via = none then pteAff h.x.entry else c.team.bulk)) ∧
  (∀ a entry prio (s : State) (c : Ctx) (u : State) (r : CtrRef) q, s.Ready c → c.role.taint = false →
    (∀ k < 6, (c.role.sreg (a + BitVec.ofNat 7 k)).st = .S) → (c.role.sreg (a + 5)).val.toNat < 2 ^ 32 →
    (c.role.sreg (a + 4)).val ≠ 0 → (c.role.sreg (a + 4)).val.toNat % 4 = 0 →
    s.counterRef c.team.part c.team.bulk c.role.accessErr (c.role.sreg (a + 4)).val = (u, .ok r) →
    u.ctrErr c.role.accessErr r = false →
    let x := u.taskTarget c (c.role.sreg a).val
    let home := if r.pp = c.team.part ∧ pteTier r.x.entry ≤ 1 then pteAddr r.x.entry / 2 ^ 37 else c.team.bulk
    x.1.part? c.team.part = some q → q.queued home < 65536 →
    let v := x.1.readCtr r
    let done := fun (t : State) =>
      t.modCur (fun r => if r.park.isNone then { r with accessErr := none, heldSeq := none } else r)
    (v.2.2 = .Z → exec (.cpost a entry prio) s = .next (done (v.1.poisonCur c.role.mask))) ∧
    (v.2.2 = .P ∨ v.2.2 = .R → exec (.cpost a entry prio) s = .next (done (v.1.trapCur .provLoop 0 c.role.mask))) ∧
    (v.2.2 = .S → ∃ t p y, exec (.cpost a entry prio) s = .next t ∧ t.part? c.team.part = some p ∧
      y.serial = c.team.serial ∧ y.home = home ∧ y.target = x.2 ∧
      (∀ k < 4, y.trec.extractLsb' (64 * k) 64 = (c.role.sreg (a + BitVec.ofNat 7 k)).val) ∧
      y.trec.extractLsb' 256 64 = (c.role.sreg (a + 4)).val ∧ y.trec.extractLsb' 320 32 = entry ∧
      y.trec.extractLsb' 352 32 = (c.role.sreg (a + 5)).val.setWidth 32 ∧ y.trec.extractLsb' 384 8 = prio ∧
      (v.2.1 ≠ 0 → y.ctr = some r.home ∧ y ∈ p.waiting) ∧
      (v.2.1 = 0 → y.ctr = none ∧ (y ∈ p.waiting ∨ y ∈ p.ready) ∧ (home = x.2 → y ∈ p.ready)))) ∧
  (∀ a entry prio (s : State) (c : Ctx), s.Ready c → c.role.taint = false →
    (∀ k < 6, (c.role.sreg (a + BitVec.ofNat 7 k)).st = .S) → (c.role.sreg (a + 5)).val.toNat < 2 ^ 32 →
    (c.role.sreg a).val = 0 → (c.role.sreg (a + 4)).val = 0 → c.part.queued c.team.bulk < 65536 →
    ∃ t p y, exec (.cpost a entry prio) s = .next t ∧ t.part? c.team.part = some p ∧ y ∈ p.ready ∧ y.serial = c.team.serial ∧
      y.target = c.team.bulk ∧ y.trec.extractLsb' 64 64 = (c.role.sreg (a + 1)).val ∧ y.trec.extractLsb' 320 32 = entry ∧
      y.trec.extractLsb' 384 8 = prio ∧ t.teams = s.teams) ∧
  ∀ (s : State) (c : Ctx), s.Ready c → c.role.taint = true → ∀ a n off fs entry prio,
    (∀ x ∈ a :: Cnt.regs n, (c.role.sreg x).st ≠ .Z) → (∀ k < 6, (c.role.sreg (a + BitVec.ofNat 7 k)).st ≠ .Z) →
    exec (.depinit a n) s = .next (s.trapCur .provLoop 0 c.role.mask) ∧
    exec (.depdec fs a off) s = .next (s.trapCur .provLoop 0 c.role.mask) ∧
    exec (.cpost a entry prio) s = .next (s.trapCur .provLoop 0 c.role.mask)

/-! Contexts and sharing groups (R79 to R81, R238 to R255, R302 to R308). -/

/-- R240, R247, R249, R250, R253, R254, R302 to R304, R306: CTXNEW, CTXSET, CTXEND and CTXQ, and what stops them. A context that
the role's tag no longer names is FREE to it. Each completes the role's own earlier retires first (the model's reading of R91,
log 24). -/
def Obligations.contexts : Prop :=  (∀ fs d a s, ∀ i ∈ [Instr.ctxnew fs d, .ctxset fs a, .ctxendDiscard fs, .ctxendCommit fs, .ctxmerge fs d, .ctxq fs d a],
    exec i s = exec i s.ownRetired) ∧
  ∀ (s : State) (c : Ctx), s.Ready c → s.ownRetired = s → ∀ fs d a,
    let here := c.role.ctx
    let table := fun (f : Tab CtxEnt → Tab CtxEnt) => s.modPart c.team.part (fun p => { p with ctxs := f p.ctxs })
    let done := fun (r : Role) => { r with out := r.out ++ [r.flagOf fs] }
    let dead := fun (cause : Nat) (tag : BitVec 14) =>
      s.trapCur .ctxDead (tag.setWidth 64 ||| BitVec.ofNat 64 (cause * 65536)) c.role.mask
    let ok := here = 0 ∨ ∃ e, tget c.part.ctxs here.toNat = some e ∧ e.state ≠ .pending ∧ e.born = c.role.ctxBorn
    let born := fun (tag : BitVec 14) => ((tget c.part.ctxs tag.toNat).map CtxEnt.born).getD 0
    let free := fun t => tget c.part.ctxs t = none
    (ok → c.launch.ctxSub ≠ 0 → c.part.depthOf here < 15 →
      (∀ x, c.tags.find? (fun t => (tget c.part.ctxs t).isNone) = some x → exec (.ctxnew fs d) s = .next
        ({ (table (fun t => tset t x
          { state := .live, parent := here, depth := c.part.depthOf here + 1, owner := s.cur.team, adopter := none,
            born := s.seq + 1 })) with seq := s.seq + 1 }.modCur (fun r => done (r.setS d (BitVec.ofNat 64 x) .S)))) ∧
      ((∀ t ∈ c.tags, ¬ free t) → (∃ x ∈ c.part.retires, x.role.team = s.cur.team ∧ ∃ t ∈ c.part.retiring x, t.toNat ∈ c.tags) →
        exec (.ctxnew fs d) s = .next (s.parkCur .ctxnew)) ∧
      ((∀ t ∈ c.tags, ¬ free t) → c.part.retires = [] → exec (.ctxnew fs d) s = .next (s.trapCur .ctxExhausted 0 c.role.mask))) ∧
    (ok → c.launch.ctxSub = 0 → exec (.ctxnew fs d) s = .next (s.trapCur .ctxExhausted 2 c.role.mask)) ∧
    (ok → c.launch.ctxSub ≠ 0 → 15 ≤ c.part.depthOf here →
      exec (.ctxnew fs d) s = .next (s.trapCur .ctxExhausted 1 c.role.mask)) ∧
    (here ≠ 0 → free here.toNat ∨ (∃ e, tget c.part.ctxs here.toNat = some e ∧ e.born ≠ c.role.ctxBorn) →
      ∀ i ∈ [Instr.ctxnew fs d, .ctxendDiscard fs, .ctxendCommit fs, .ctxmerge fs d], exec i s = .next (dead 0 here)) ∧
    (here ≠ 0 → (∃ e, tget c.part.ctxs here.toNat = some e ∧ e.state = .pending ∧ e.born = c.role.ctxBorn) →
      ∀ i ∈ [Instr.ctxnew fs d, .ctxendDiscard fs, .ctxendCommit fs, .ctxmerge fs d], exec i s = .next (dead 1 here)) ∧
    (here = 0 → exec (.ctxendDiscard fs) s = .next (dead 0 0) ∧ exec (.ctxendCommit fs) s = .next (dead 0 0)) ∧
    ((c.role.sreg a).st = .P ∨ (c.role.sreg a).st = .R → exec (.ctxset fs a) s = .next (s.trapCur .provLoop 0 c.role.mask)) ∧
    ((c.role.sreg a).st = .S → 2 ^ 14 ≤ (c.role.sreg a).val.toNat →
      exec (.ctxset fs a) s = .next (dead 3 ((c.role.sreg a).val.setWidth 14))) ∧
    ((c.role.sreg a).st ≠ .Z → 2 ^ 14 ≤ (c.role.sreg a).val.toNat → exec (.ctxq fs d a) s = .next (s.trap s.cur .ctxDead
      { val := ((c.role.sreg a).val.setWidth 14).setWidth 64 ||| 3 * 65536, st := (c.role.sreg a).st } c.role.mask false)) ∧
    (∀ tag : BitVec 14, (c.role.sreg a).st = .S → (c.role.sreg a).val = tag.setWidth 64 →
      (tag ≠ 0 → free tag.toNat → exec (.ctxset fs a) s = .next (dead 0 tag)) ∧
      (∀ e, tag ≠ 0 → tget c.part.ctxs tag.toNat = some e → e.state = .pending → exec (.ctxset fs a) s = .next (dead 1 tag)) ∧
      (tag = 0 ∨ (∃ e, tget c.part.ctxs tag.toNat = some e ∧ e.state ≠ .pending) → exec (.ctxset fs a) s = .next
        ((table (fun t => tmod t tag.toNat (fun e =>
          if e.state = .held then { e with state := .live, adopter := some s.cur.team } else e))).modCur (fun r =>
          done { r with ctx := tag, ctxBorn := born tag })))) ∧
    (here ≠ 0 → ok →
      let up := c.part.parentOf here
      (s.tagBusy here = true → exec (.ctxendDiscard fs) s = .next (s.parkCur .earlier) ∧
        (c.part.children here = [] → exec (.ctxendCommit fs) s = .next (s.parkCur .earlier))) ∧
      (c.part.children here ≠ [] → exec (.ctxendCommit fs) s = .next (dead 2 here)) ∧
      (s.tagBusy here = false →
        (let x : Retire := { role := s.cur, flag := c.role.flagOf fs, tags := [here] }
         exec (.ctxendDiscard fs) s = .next ((s.modPart c.team.part (fun p => { p with retires := p.retires ++ [x] })).modCur
            (fun r => { r with ctx := up, ctxBorn := born up }))) ∧
        (c.part.children here = [] → exec (.ctxendCommit fs) s = .next
          (((s.release .part).modPart c.team.part (fun p => { p with
              ctxs := tmod p.ctxs here.toNat (fun e => { e with state := .pending }) })).modCur
            (fun r => done { r with ctx := up, ctxBorn := born up }))))) ∧
    ∀ (tag : BitVec 14) e, (c.role.sreg a).st ≠ .Z → (c.role.sreg a).val = tag.setWidth 64 →
      ∃ (v : DWord), exec (.ctxq fs d a) s = .next (s.modCur (fun r => done (r.setS d v (joinSt .S (c.role.sreg a).st)))) ∧
        v.setWidth 14 = tag ∧ (tag ≠ 0 → free tag.toNat → v.extractLsb' 14 2 = 0) ∧
        (tag ≠ 0 → tget c.part.ctxs tag.toNat = some e → e.depth < 16 → (c.part.children tag).length < 2 ^ 14 →
          (v.extractLsb' 14 2).toNat = (match e.state with | .live => 1 | .pending => 2 | .held => 3) ∧
          v.getLsbD 16 = c.tags.contains tag.toNat ∧ (v.extractLsb' 20 4).toNat = e.depth ∧ v.extractLsb' 24 14 = e.parent ∧
          (v.extractLsb' 38 14).toNat = (c.part.children tag).length)

/-- R251, R305: CTXMERGE of a context's PENDING children. It answers how many it takes and how many of their cells it drops; in
a parent other than 0 each line that it applies holds the last child's cell, and every other line is as before. Into tag 0 a line
is committed to its base line: its data and its standing there, with every other byte of the stacks as before. -/
def Obligations.contextMerge : Prop :=  ∀ fs d (s : State) (c : Ctx), s.Ready c → s.ownRetired = s → c.ctxFault = none →
    s.flawless = true →
    let here := c.role.ctx
    let kids := c.part.pendingKids here
    let cells := kids.flatMap (fun e => (c.part.cellsOf e.1).map (fun k => (k, c.part.writtenSince here k.line e.2.born)))
    let apply := (cells.filter (fun e => !e.2)).map Prod.fst
    let w := s.walkLines c (apply.map CtxCell.line)
    (here = 0 → w.prot = false ∧ w.window = false ∧ w.wait = none) → (∀ e ∈ kids, e.1 ≠ here.toNat) →
    ∃ t p a, exec (.ctxmerge fs d) s = .next t ∧
      t.role? s.cur = some { c.role.setS d (BitVec.ofNat 64 (kids.length * 2 ^ 32 + (cells.filter (fun e => e.2)).length)) .S with
        unfinished := none, accessErr := none, heldSeq := none, acq := a } ∧
      t.part? c.team.part = some p ∧ p.retires = c.part.retires ++
        [{ role := s.cur, flag := c.role.flagOf fs, tags := kids.map (fun e => BitVec.ofNat 14 e.1) }] ∧
      p.ctxs = c.part.ctxs ∧
      (here ≠ 0 → ∀ line, match apply.reverse.find? (fun k => k.line == line) with
        | some k => ∃ x, p.cell? here line = some x ∧ x.data = k.data ∧ x.st = k.st.map (markSt c.role.taint) ∧ x.keys = k.keys
        | none => p.cell? here line = c.part.cell? here line) ∧
      (here = 0 → ∀ k h q own adr, apply = [k] → k.st.length = 4 → hitAt w.xls (128 * k.line) = some h → w.s.part? h.pp = some q →
        w.s.part? c.team.part = some own → w.s.lineSeen own k (w.s.keyName (pteKey h.x.entry)) = k.data → pteCmp h.x.entry = false → h.va % 128 = 0 → adr % 128 = 0 →
        h.x.va ≤ h.va → h.va + 128 ≤ h.x.va + h.x.size →
        (∀ i < 4, w.s.loc q h.x (h.va + 32 * i) =
          { ext := false, reps := [(adr + 32 * i, none)], key := w.s.keyName (pteKey h.x.entry) }) →
        (∀ i < 128, (t.mem.rd (adr + i)).toNat = k.data.toNat / 256 ^ i % 256) ∧
        (∀ i < 4, some (t.mem.st (adr / 32 + i)) = (k.st[i]?).map (markSt c.role.taint)) ∧
        ∀ b, b < adr ∨ adr + 128 ≤ b → t.mem.rd b = w.s.mem.rd b)

/-- R79 to R82, R307, R308: SGJOIN and SGLEAVE. A team that finds its slot free and its group's bulkhead, with a core of the
group or fewer than eight, is a member; a slot that is held makes it wait, and a member of a cohort that would have to migrate
waits for the group's end. With a member that stops or is saved, the joiner stops too. -/
def Obligations.sharingGroups : Prop :=  ∀ (s : State) (c : Ctx), s.Ready c →
    exec .sgleave s = .next (s.modTeam s.cur.team (fun t => { t with sg := none })) ∧
    (∀ r, (c.role.sreg r).st = .S →
      ((c.role.sreg r).val.toNat < 256 → exec (.sgjoin (.s r)) s =
        exec (.sgjoin (.imm ((c.role.sreg r).val.setWidth 4) ((c.role.sreg r).val.extractLsb' 4 4))) s) ∧
      (256 ≤ (c.role.sreg r).val.toNat → exec (.sgjoin (.s r)) s = .next (s.trapCur .illegalEnc 14 c.role.mask))) ∧
    ∀ gid slot,
      let others := (s.teams.filter (fun e => decide (e.1 ≠ s.cur.team))).filter (fun e =>
        e.2.part == c.team.part && e.2.serial == c.team.serial && e.2.sg.map Prod.fst == some gid)
      let alone := s.modTeam s.cur.team (fun t => { t with sg := none })
      rising s.teams = true →
      ((∃ e ∈ others, e.2.sg = some (gid, slot)) → exec (.sgjoin (.imm gid slot)) s = .next (alone.parkCur .sgjoin)) ∧
      ((∀ e ∈ others, e.2.sg ≠ some (gid, slot)) → (others = [] → alone.sgGroups c.team.part c.team.bulk < 16) →
        (∀ e, others.head? = some e → e.2.bulk = c.team.bulk) →
        let away := fun (t : Team) => t.phase = .stopping ∨ t.phase = .saved
        (c.team.core ∈ sgCores others ∨ (sgCores others).length < 8 → c.team.phase ≠ .stopping →
          ((∀ e ∈ others, ¬ away e.2) →
            exec (.sgjoin (.imm gid slot)) s = .next (s.modTeam s.cur.team (fun t => { t with sg := some (gid, slot) }))) ∧
          ((∃ e ∈ others, away e.2) → exec (.sgjoin (.imm gid slot)) s = .next
            ((alone.requestStop s.cur.team .sharing).modTeam s.cur.team (fun t => { t with sg := some (gid, slot) })))) ∧
        (c.team.core ∉ sgCores others → 8 ≤ (sgCores others).length → c.team.cohort.isSome = true →
          exec (.sgjoin (.imm gid slot)) s = .next (alone.parkCur (.sgEnd gid))))

/-! The matrix engine (R314 to R342). -/

/-- R321, R324, R326, R327, R331 to R333: MMA and MMAR register an operation that holds what they read and latch. It joins the
role's open batch, its ranges are its operands' and its accumulator's, and the rows of marked registers are freed. MMA.J
fills the lowest entry of its role in its gang's list, and with its last one the role waits for the gang. The MMA.J that fills
the last entry of a list fires the gang: one joint operation in every member's open batch, for which the members go on; where
an entry differs from entry 0, every member raises GANG_MISMATCH instead, and no entry has an effect. -/
def Obligations.matrixProducts : Prop :=  ∀ (s : State) (c : Ctx), s.Ready c → s.op? s.nextOp = none →
    c.launch.scratch < 2 ^ 32 →
    let issues := fun (i : Instr) (q : MReq) (regs : List (BitVec 7)) =>
      (∀ n ∈ regs, (c.role.sreg n).st ≠ .Z) →
      c.role.regKills q.tile true q.groups q.sa ||| c.role.regKills q.tile false q.groups q.sb = 0 →
      q.check c = none → ((srcIsBuf q.sa || srcIsBuf q.sb) = true → s.obTaken s.cur.team c.team = false) →
      let locks := q.reads.map (fun x => lockOf .t .read x.1 x.2) ++ [accLock .write q.tile q.acc]
      let cb := if srcIsBuf q.sa || srcIsBuf q.sb then { c with team := c.team.takeOb } else c
      s.lockRoom s.cur.team locks = true →
      ∃ t x m p r, exec i s = .next t ∧ t.op? s.nextOp = some x ∧ x.owner = s.cur ∧ x.locks = locks ∧ x.started = false ∧
        x.batches = [(s.cur, c.role.batch + 1)] ∧ x.kind = .mat m ∧ m.kind = q.kind ∧ m.fmt = q.fmt ∧ m.ct = q.ct ∧ m.w = q.w ∧
        m.acc = q.acc ∧ m.pieces = [p] ∧ p.groups = q.groups ∧ p.done = 0 ∧
        p.a = captureOpnd cb q.tile true q.groups q.sa q.a ∧ p.b = captureOpnd cb q.tile false q.groups q.sb q.b ∧
        p.sstand = markSt c.role.taint (joinAll ((srcDescs q.sa ++ srcDescs q.sb).map (fun n => (c.role.sreg n).st))) ∧
        t.role? s.cur = some r ∧
        r = { c.role.freeMarked (srcFrees q.tile q.groups q.sa ++ srcFrees q.tile q.groups q.sb) with latest := some s.nextOp }
    (∀ o : MmaOps, o.gang = none → issues (.mma o)
      { kind := .mma, fmt := o.fmt, ct := o.ct, w := o.w, groups := o.kg.toNat + 1, acc := o.acc, sa := o.a, sb := o.b,
        a := srcOpnd c.role o.a, b := srcOpnd c.role o.b } (srcDescs o.a ++ srcDescs o.b)) ∧
    (∀ o : MmarOps, issues (.mmar o) (mmarReq c.role o) (srcDescs o.a ++ srcDescs o.b ++ [o.d])) ∧
    ∀ (o : MmaOps) g, o.gang = some g →
      let q : MReq :=
        { kind := .mma, fmt := o.fmt, ct := o.ct, w := o.w, groups := o.kg.toNat + 1, acc := o.acc, sa := o.a, sb := o.b,
          a := srcOpnd c.role o.a, b := srcOpnd c.role o.b }
      (∀ n ∈ srcDescs o.a ++ srcDescs o.b, (c.role.sreg n).st ≠ .Z) →
      c.role.regKills q.tile true q.groups q.sa ||| c.role.regKills q.tile false q.groups q.sb = 0 → q.check c = none →
      ((srcIsBuf q.sa || srcIsBuf q.sb) = true → s.obTaken s.cur.team c.team = false) →
      let k := c.team.gang g
      let cb := if srcIsBuf q.sa || srcIsBuf q.sb then { c with team := c.team.takeOb } else c
      let s1 := if srcIsBuf q.sa || srcIsBuf q.sb then s.modTeam s.cur.team Team.takeOb else s
      (k.unfilled s.cur.role = [] → exec (.mma o) s = .next (s1.trapCur .gangMismatch 0xFF c.role.mask)) ∧
      (∀ e, k.unfilled s.cur.role = [e] → k.fills.length + 1 = k.roles.length →
        let f : GangFill :=
          { piece := q.piece cb s.cur (markSt c.role.taint
              (joinAll ((srcDescs q.sa ++ srcDescs q.sb).map (fun n => (c.role.sreg n).st))))
            frees := srcFrees q.tile q.groups q.sa ++ srcFrees q.tile q.groups q.sb, fmt := o.fmt, acc := o.acc, ct := o.ct,
            w := o.w, word0 := (wordsOf (.mma o)).1, x64 := (wordsOf (.mma o)).2 }
        let fs := tset k.fills e f
        let who := fun (r : Nat) => ({ team := s.cur.team, role := r } : RoleRef)
        let members := (List.range 4).filter (fun r => k.roles.any (fun x => x.toNat == r))
        let empty := fun (t : Team) => { t with gangs := lset t.gangs g.toNat { roles := k.roles, fills := [] } }
        fs.map Prod.fst = List.range k.roles.length →
        ∀ f0, tget fs 0 = some f0 →
        let same := fun (x : GangFill) => x.fmt = f0.fmt ∧ x.acc = f0.acc ∧ x.ct = f0.ct ∧ x.w = f0.w
        (∀ n x, tget fs n = some x → ¬ same x → (∀ j y, j < n → tget fs j = some y → same y) →
          let m := members.foldl (fun (v : State) r => match v.role? (who r) with
              | some y => v.trap (who r) .gangMismatch { val := BitVec.ofNat 64 n, st := .S } y.mask false
              | none => v)
            (s1.modTeam s.cur.team (fun t =>
              empty (t.modRole s.cur.role (fun r => { r with park := some (.gang g) }))))
          m.cur = s.cur →
          exec (.mma o) s = .next (((fs.flatMap (fun e => e.2.piece.bufs)).foldl
            (fun v e => v.obReaderDone s.cur.team e.1 e.2) m).flush s.cur.team)) ∧
        ((∀ n x, tget fs n = some x → same x) →
          let bpi := f0.fmt == .bpi
          let locks := (fs.flatMap (fun e => e.2.piece.reads q.tile bpi)).map (fun x => lockOf .t .read x.1 x.2) ++
            [accLock .write q.tile q.acc]
          (s1.lockRoom s.cur.team locks = false → exec (.mma o) s = .next (s1.parkCur .ranges)) ∧
          (s1.lockRoom s.cur.team locks = true →
            ∃ t u x m, exec (.mma o) s = .next t ∧ t.team? s.cur.team = some u ∧ u.gangs = (empty c.team).gangs ∧
              t.op? s.nextOp = some x ∧ x.owner = who ((k.roles.head?.map BitVec.toNat).getD 0) ∧ x.locks = locks ∧
              x.batches = members.map (fun r => (who r, ((s.role? (who r)).map Role.batch).getD 0 + 1)) ∧ x.kind = .mat m ∧
              m.kind = .mma ∧ m.joint = true ∧ m.fmt = o.fmt ∧ m.ct = o.ct ∧ m.w = o.w ∧ m.acc = o.acc ∧
              m.pieces = fs.map (fun e => e.2.piece) ∧
              ∀ r ∈ members, ∀ y, s.role? (who r) = some y → t.role? (who r) = some
                { fs.foldl (fun y e => if e.2.piece.role = who r then y.freeMarked e.2.frees else y) y with
                  park := none, latest := some s.nextOp }))) ∧
      ∀ e rest, k.unfilled s.cur.role = e :: rest → k.fills.length + 1 < k.roles.length →
        ∃ t x f r, exec (.mma o) s = .next t ∧ t.ops = s.ops ∧ t.team? s.cur.team = some x ∧ (x.gang g).roles = k.roles ∧
          tget (x.gang g).fills e = some f ∧ (∀ j ≠ e, tget (x.gang g).fills j = tget k.fills j) ∧ f.fmt = o.fmt ∧ f.acc = o.acc ∧
          f.ct = o.ct ∧ f.w = o.w ∧ f.piece.role = s.cur ∧ f.piece.a = captureOpnd cb q.tile true q.groups q.sa q.a ∧
          f.piece.b = captureOpnd cb q.tile false q.groups q.sb q.b ∧ x.roles[s.cur.role]? = some r ∧
          (rest = [] → r = { c.role with park := some (.gang g) }) ∧
          (rest ≠ [] → r = c.role.freeMarked (srcFrees q.tile q.groups q.sa ++ srcFrees q.tile q.groups q.sb))

/-- R319, R321, R327, R335, R336: MZERO, MINIT and MDRAIN register their operations. -/
def Obligations.matrixMoves : Prop :=  ∀ (s : State) (c : Ctx), s.Ready c → s.op? s.nextOp = none →
    let issues := fun (i : Instr) (kind : MKind) (fmt : Ty) (ct : Bool) (w : BitVec 3) (acc : BitVec 11) (locks : List Lock) =>
      s.lockRoom s.cur.team locks = true →
      ∃ t x m, exec i s = .next t ∧ t.op? s.nextOp = some x ∧ x.owner = s.cur ∧ x.locks = locks ∧
        x.batches = [(s.cur, c.role.batch + 1)] ∧ x.kind = .mat m ∧ m.kind = kind ∧ m.fmt = fmt ∧ m.ct = ct ∧ m.w = w ∧
        m.acc = acc ∧ m.sstand = markSt c.role.taint .S ∧ t.role? s.cur = some { c.role with latest := some s.nextOp }
    let rd := fun lo n => lockOf .t .read lo (lo + n)
    let wr := fun lo n => lockOf .t .write lo (lo + n)
    (∀ fmt ct acc, (ct = true → fmt = .bpi) →
      let t := tileOf fmt ct
      256 * acc.toNat + t.accBytes ≤ c.launch.scratch →
      issues (.mzero fmt ct acc) .mzero fmt ct 0 acc [wr (256 * acc.toNat) t.accBytes]) ∧
    (∀ fmt ct acc src, (ct = true → fmt = .bpi) →
      let t := tileOf fmt ct
      let n := 8 * (t.m * t.n)
      256 * acc.toNat + t.accBytes ≤ c.launch.scratch → 256 * src.toNat + n ≤ c.launch.scratch →
      (256 * acc.toNat + t.accBytes ≤ 256 * src.toNat ∨ 256 * src.toNat + n ≤ 256 * acc.toNat) →
      issues (.minit fmt ct acc src) (.minit src) fmt ct 0 acc [rd (256 * src.toNat) n, wr (256 * acc.toNat) t.accBytes]) ∧
    ∀ o : MdrainOps, (o.ct = true → o.sf = .bpi ∧ o.w = 3) →
      let t := tileOf o.sf o.ct
      (o.sf = .bpi → o.row ≠ 2 ∧ o.smoff.toNat + (if o.row = 1 then t.m - 1 else 0) ≤ 8191 ∧
        s.obTaken s.cur.team c.team = false) →
      256 * o.acc.toNat + t.accBytes ≤ c.launch.scratch → 256 * o.dst.toNat + t.m * t.n * tyBytes o.dty ≤ c.launch.scratch →
      issues (.mdrain o) (.mdrain o) o.sf o.ct o.w o.acc
        [rd (256 * o.acc.toNat) t.accBytes, wr (256 * o.dst.toNat) (t.m * t.n * tyBytes o.dty)]

/-- R326 to R330, R337 to R342: GSET, MFENCE, MWAIT, MSAVE, MRESUME, CTBL and OBREL. -/
def Obligations.matrixControl : Prop :=  ∀ (s : State) (c : Ctx), s.Ready c →
    (∀ gid roles,
      ((∃ r ∈ roles, c.launch.roles ≤ r.toNat) → exec (.gset gid roles) s = .next (s.trapCur .illegalEnc 14 c.role.mask)) ∧
      ((∀ r ∈ roles, r.toNat < c.launch.roles) → ((c.team.gang gid).fills ≠ [] → exec (.gset gid roles) s = .next (s.parkCur .gset)) ∧
        ((c.team.gang gid).fills = [] → exec (.gset gid roles) s = .next (s.modTeam s.cur.team (fun t =>
          { t with gangs := lset t.gangs gid.toNat { roles := roles, fills := [] } }))))) ∧
    (∀ fs d, exec (.mfence fs d) s = .next (s.modCur (fun r => { r.setS d ((r.batch + 1).setWidth 64) .S with
      batch := r.batch + 1, out := r.out ++ [r.flagOf fs] }))) ∧
    (∀ clr (n : BitVec 32),
      let waits := ∃ e ∈ s.ops, ∃ b ∈ e.2.batches, b.1 = s.cur ∧ b.2.toNat ≤ n.toNat ∧ b.2.toNat ≤ c.role.batch.toNat
      (waits → exec (.mwaitImm clr n) s = .next (s.parkCur .mwait)) ∧
      (¬ waits → exec (.mwaitImm clr n) s = .next ((s.observe (fun _ m =>
          m.batches.any (fun b => b.1 == s.cur && b.2.toNat ≤ n.toNat))).modCur (fun r => { r with
        ms := lset r.ms 7 (((r.ms[7]?.getD 0) &&& ~~~1) ||| (if r.ovf then 1 else 0)), ovf := r.ovf && !clr }))) ∧
      ∀ a, (c.role.sreg a).st = .S → (c.role.sreg a).val.setWidth 32 = n →
        exec (.mwait clr a) s = exec (.mwaitImm clr n) s) ∧
    (∀ off : BitVec 32, off.toNat % 64 = 0 → off.toNat + 64 ≤ c.launch.scratch →
      let saves := fun (ws : List DWord) (susp : List Susp) => ∃ t x r, exec (.msave off) s = .next t ∧
        t.team? s.cur.team = some x ∧ x.roles[s.cur.role]? = some r ∧
        r.ms = lset ws 7 ((ws[7]?.getD 0) ||| ((c.role.ms[7]?.getD 0) &&& 1)) ∧ r.susp = susp ∧
        (∀ k < 8, x.scratch.rdNat (off.toNat + 8 * k) 8 = (r.ms[k]?.getD 0).toNat) ∧
        ∀ a, a < off.toNat ∨ off.toNat + 64 ≤ a → x.scratch.rd a = c.team.scratch.rd a
      (s.otherMats s.cur c.role.latest = true → exec (.msave off) s = .next (s.parkCur .msave)) ∧
      (s.otherMats s.cur c.role.latest = false → s.latestMat c.role.latest = none → saves (List.replicate 8 0) c.role.susp) ∧
      ∀ id o m, s.otherMats s.cur c.role.latest = false → s.latestMat c.role.latest = some (id, o, m) → o.owner = s.cur →
        m.suspendable = true → o.moved = false →
        saves m.record (c.role.susp ++ [{ op := m, gone := false, pre := none, struck := o.struck }])) ∧
    (∀ off : BitVec 32, off.toNat % 64 = 0 → off.toNat + 64 ≤ c.launch.scratch →
      let st := c.team.scratch.joinRange off.toNat 64
      let ws := (List.range 8).map (fun k => BitVec.ofNat 64 (c.team.scratch.rdNat (off.toNat + 8 * k) 8))
      (st = .Z → exec (.mresume off) s = .next (s.poisonCur c.role.mask)) ∧
      (st ≠ .Z → (ws[7]?.getD 0).getLsbD 63 = false → exec (.mresume off) s = .next s) ∧
      ∀ q, st ≠ .Z → (ws[7]?.getD 0).getLsbD 63 = true →
        let ws := lset ws 7 ((ws[7]?.getD 0) &&& ~~~1)
        let done := ((ws[7]?.getD 0).extractLsb' 53 6).toNat
        let slot := if q.ct then some ((ws[7]?.getD 0).getLsbD 59) else none
        let locks := q.reads.map (fun x => lockOf .t .read x.1 x.2) ++ [accLock .write q.tile q.acc]
        recordReq ws = some q → q.engineState c.role ws done slot = none → q.a.prot = false → q.b.prot = false →
        q.place c = none → s.lockRoom s.cur.team locks = true → s.op? s.nextOp = none →
        ∃ t x m p, exec (.mresume off) s = .next t ∧ t.op? s.nextOp = some x ∧ x.owner = s.cur ∧ x.locks = locks ∧
          x.batches = [(s.cur, c.role.batch + 1)] ∧ x.kind = .mat m ∧ m.kind = q.kind ∧ m.pieces = [p] ∧ p.done = done ∧
          p.groups = q.groups ∧ p.a = q.a ∧ p.b = q.b) ∧
    (∀ a, (∀ k < 4, (c.role.sreg (a + BitVec.ofNat 7 k)).st ≠ .Z) →
      (s.slotLatched c (!c.role.ctNew) = true → exec (.ctbl a) s = .next (s.parkCur .ctbl)) ∧
      (s.slotLatched c (!c.role.ctNew) = false →
        let v := fun k => c.role.sreg (a + k)
        let t : CtSlot :=
          { entries := (v 3).val ++ (v 2).val ++ (v 1).val ++ (v 0).val
            st := markSt c.role.taint (joinSt (v 0).st (joinSt (v 1).st (joinSt (v 2).st (v 3).st))) }
        exec (.ctbl a) s = .next (s.modCur (fun r =>
          if c.role.ctNew then { r with ct0 := t, ctNew := false } else { r with ct1 := t, ctNew := true })))) ∧
    ∀ n, s.obTaken s.cur.team c.team = false → (∀ b, c.team.ob = some b → b.gens.length = 8) →
      ∃ t x b, exec (.obrel n) s = .next t ∧ t.team? s.cur.team = some x ∧ x.ob = some b ∧
        (b.gen n.toNat).gen = ((c.team.ob.getD OpBufs.fresh).gen n.toNat).gen + 1 ∧ (b.gen n.toNat).latched = false ∧
        ∀ r ∈ x.roles, ∀ y ∈ r.susp, y.op.bufs.any (fun b => b.1 == n.toNat) = true → y.gone = true

/-! The solver (R134, R343 to R355). -/

/-- R134, R343, R344, R345, R348, R353 to R355: SWS writes the writable bits of a solve-state register; RESF, PMARK, SVCFG
and SVSTAT. -/
def Obligations.solverInstructions : Prop :=
  (∀ a s c, s.Ready c → (c.role.sreg a).st ≠ .Z →
    let v := fun m => ({ val := (c.role.sreg a).val &&& m, st := markSt c.role.taint (c.role.sreg a).st } : SVal)
    let wrote := fun (num : BitVec 8) (x : Solve) => exec (.sws num (.s a)) s = .next (s.modCur (fun r => { r with solve := x }))
    wrote 0x12 { c.role.solve with tol := v 0xFFFFFFFFFFFFFFFF } ∧ wrote 0x13 { c.role.solve with pass := v 0xFFFFFFFF } ∧
    wrote 0x14 { c.role.solve with grow := v 0xFF } ∧ wrote 0x15 { c.role.solve with limit := v 0xFFFFFFFF } ∧
    wrote 0x16 { c.role.solve with max := v 0xFFFFFFFFFFFFFFFF } ∧ wrote 0x17 { c.role.solve with stat := v 0xFFFFFF0F }) ∧
  ((∀ g d a x b, (Instr.resf g d a x b).wf = true → VecRule (.resf g d a x b) true g [.reg .f64 a, .reg .f64 x, .reg .f64 b] true d
    (fun v => BitVec.ofNat 64 (Fmt.f64.sumVal .rn ((Fmt.f64.dec (v 0).val.toNat).mul (Fmt.f64.dec (v 1).val.toNat)).negate
      (Fmt.f64.dec (v 2).val.toNat)))
    (fun v => if (v 0).st = .S ∧ ((v 2).st = .S ∨ (v 2).st = .R) ∧ ((v 1).st = .S ∨ (v 1).st = .P) then .R else .P)) ∧
  (∀ g ty d a, (Instr.pmark g ty d a).wf = true → VecRule (.pmark g ty d a) false g [.reg ty a] ty.is64 d (fun v => (v 0).val)
    (fun v => joinSt (v 0).st .P)) ∧
  ∀ (s : State) (c : Ctx), s.Ready c →
    let put := fun (i : Instr) (f : Solve → Solve) => exec i s = .next (s.modCur (fun r => { r with solve := f r.solve }))
    let st := markSt c.role.taint .S
    (∀ a, (c.role.sreg a).st ≠ .Z →
      let v := fun m => ({ val := (c.role.sreg a).val &&& m, st := markSt c.role.taint (c.role.sreg a).st } : SVal)
      put (.svcfgTol a) (fun x => { x with tol := v 0xFFFFFFFFFFFFFFFF }) ∧
      put (.svcfgLimit a) (fun x => { x with limit := v 0xFFFFFFFF }) ∧ put (.svcfgGrow a) (fun x => { x with grow := v 0xFF })) ∧
    (∀ imm, put (.svcfgTolImm imm) (fun x => { x with
        tol := { val := BitVec.ofNat 64 (Fmt.f32.convert Fmt.f64 .rn imm.toNat), st := st } }) ∧
      put (.svcfgLimitImm imm) (fun x => { x with limit := { val := imm.setWidth 64, st := st } })) ∧
    (∀ imm, put (.svcfgGrowImm imm) (fun x => { x with grow := { val := imm.setWidth 64, st := st } })) ∧
    put .svcfgReset (fun x => { x with
      pass := { val := 0, st := st }, max := { val := 0x7FF0000000000000, st := st }, stat := { val := 0, st := st },
      cmax := 0, npend := 0, box := false }) ∧
    ∀ d, ∃ t, exec (.svstat d) s = .next t ∧ WroteScal s c d
      (c.role.solve.pass.val.setWidth 32 ++ c.role.solve.stat.val.setWidth 32)
      (joinSt c.role.solve.pass.st c.role.solve.stat.st) t)

/-- R349 to R351: DCOR. A lane's new value settles when its correction is small against it, M and the bounds are settled and
nothing marks it; the last instruction of a pass closes it, and NONCONV is taken after completion. The size test is the exact
one: it compares in units of 2^-2148, and a NaN makes it false. -/
def Obligations.defectCorrection : Prop :=
  (∀ tol c x : Nat,
    let f := Fmt.f64
    (f.isNan tol = true ∨ f.isNan c = true ∨ f.isNan x = true → dcorSmall tol c x = false) ∧
    ∀ nt mt et nx mx ex, f.dec tol = .fin nt mt et →
      (f.dec x = .fin nx mx ex →
        (∀ n, f.dec c = .inf n → dcorSmall tol c x = false) ∧
        ∀ nc mc ec, f.dec c = .fin nc mc ec → (dcorSmall tol c x = true ↔
          ((mc * 2 ^ (ec + 2148).toNat : Nat) : Int) ≤
            (if nt then -(mt : Int) else mt) * (2 ^ (et + 1074).toNat : Nat) * (max (mx * 2 ^ (ex + 1074).toNat) (2 ^ 52) : Nat))) ∧
      (∀ n, f.dec x = .inf n → (mt = 0 → dcorSmall tol c x = false) ∧
        (mt ≠ 0 → nt = false → f.isNan c = false → dcorSmall tol c x = true))) ∧
  ∀ (o : DcorOps) (s : State) (c : Ctx), s.Ready c → (Instr.dcor o).wf = true →
    c.role.solve.tol.st = .S → c.role.solve.grow.st = .S → c.role.solve.limit.st = .S →
    c.role.GuardOk o.g → c.role.OpndsOk o.g (dcorOpnds o) →
    let live := c.role.live o.g
    let bad := live.filter (fun l => decide ((c.role.vval true o.r.r l).st ≠ .R))
    (∀ l rest, bad = l :: rest → exec (.dcor o) s =
      .next (s.trapCur .dcorNotres ((stCode (c.role.vval true o.r.r l).st).setWidth 64) (maskOf bad))) ∧
    (bad = [] → c.role.Room (freesOf (dcorOpnds o)) true o.d live →
      let f := Fmt.f64
      let cs := live.map (fun l => (l, c.role.correction o l))
      let sol := { c.role.solve with
        cmax := BitVec.ofNat 64 (cs.foldl (fun m e =>
          if f.isNan m || f.isNan e.2.1.c then f.nan else max m (f.mag e.2.1.c)) c.role.solve.cmax.toNat)
        npend := c.role.solve.npend + (live.filter (fun l => !(c.role.correction o l).2)).length
        box := c.role.solve.box || (o.box.isSome && !live.isEmpty) }
      let old := c.role.solve
      let put := fun (v : DWord) => ({ val := v, st := markSt c.role.taint .S } : SVal)
      let pass : BitVec 32 := old.pass.val.setWidth 32 + 1
      let grew := f.isNan sol.cmax.toNat || (!f.isNan old.max.val.toNat && f.cmp .gt sol.cmax.toNat old.max.val.toNat)
      let gc := (old.stat.val.extractLsb' 8 8).toNat
      let gcount := if grew then min (gc + 1) 255 else gc
      let hitG := decide (old.grow.val ≠ 0) && decide (old.grow.val.toNat ≤ gcount)
      let hitL := decide (old.limit.val ≠ 0) && decide (old.limit.val.toNat < pass.toNat)
      let closed : Solve := { sol with
        pass := put (pass.setWidth 64)
        max := put sol.cmax
        stat := put ((0 : BitVec 32) ++ BitVec.ofNat 16 (min sol.npend 65535) ++ BitVec.ofNat 8 gcount ++ (0 : BitVec 4) ++
          BitVec.ofBool sol.box ++ BitVec.ofBool hitG ++ BitVec.ofBool hitL ++ BitVec.ofBool (sol.npend == 0))
        cmax := 0, npend := 0, box := false }
      (∀ l ∈ live,
        let x := (c.role.vval true o.x.r l).val.toNat
        let r := (c.role.vval true o.r.r l).val.toNat
        let m := c.role.src .f64 o.m l
        let k := c.role.correction o l
        (o.box = none → k.1.x1 = f.fma .rn m.val.toNat r x ∧ k.1.c = f.mul .rn m.val.toNat r ∧
          (k.2 = true ↔ m.st = .S ∧ (c.role.preg o.g.p l).2 = .S ∧ c.role.taint = false ∧
            dcorSmall c.role.solve.tol.val.toNat k.1.c k.1.x1 = true)) ∧
        ∀ b, o.box = some b →
          let lo := c.role.vval true b.bnd l
          let hi := c.role.vval true (b.bnd + 2) l
          let y := f.fma .rn m.val.toNat r x
          let top := f.max y lo.val.toNat
          k.1.lo = (f.cmp .lt y lo.val.toNat || f.isNan y) ∧ k.1.hi = f.cmp .gt top hi.val.toNat ∧ k.1.x1 = f.min top hi.val.toNat ∧ k.1.c = f.sub .rn k.1.x1 x ∧
          (k.2 = true ↔ m.st = .S ∧ (c.role.preg o.g.p l).2 = .S ∧ c.role.taint = false ∧ lo.st = .S ∧ hi.st = .S ∧
            dcorSmall c.role.solve.tol.val.toNat k.1.c k.1.x1 = true)) ∧
      let st := fun l => if (c.role.correction o l).2 then Standing.S else .P
      ∃ u r, WroteLanes s c o.g live (freesOf (dcorOpnds o)) true o.d (fun l => BitVec.ofNat 64 (c.role.correction o l).1.x1)
          st u ∧ u.role? s.cur = some r ∧
        ∃ p, let x := { r with p := p, solve := if o.more then sol else closed }
          let t := s.modCur (fun _ => x)
          (o.box = none → p = c.role.p) ∧
          (∀ b, o.box = some b → ∀ n l, l < 1024 → x.preg n l =
            if l ∈ live ∧ n = b.phi ∧ n ≠ 127 then ((c.role.correction o l).1.hi, c.role.resultSt o.g l (st l))
            else if l ∈ live ∧ n = b.plo ∧ n ≠ 127 then ((c.role.correction o l).1.lo, c.role.resultSt o.g l (st l))
            else c.role.preg n l) ∧
          exec (.dcor o) s = .next (if !o.more && (hitG || hitL) then
            t.trapAfter .nonconv (BitVec.ofNat 64 ((if hitG then 1 else 0) + (if hitL then 2 else 0)))
              (maskOf (live.filter (fun l => !(c.role.correction o l).2)))
            else t))

/-- R346, R347, R352: WSTART. Its record gives %wsstat: the first check that applies decides. A lane of a cold or missing solution
reads 0, and the others the element that the record's shift and step give, all of them in state P or worse. A record in state Z
kills the mask's lanes. -/
def Obligations.warmStart : Prop :=  ∀ ty d b a k (s : State) (c : Ctx), s.Ready c → (Instr.wstart ty d b a k).wf = true → s.ownRetired = s →
    (∀ n ∈ [a, k, k + 1], (c.role.sreg n).st ≠ .Z) → (∀ l ∈ c.role.all, (c.role.vreg b.r l).2 ≠ .Z) → c.role.unfinished = none →
    let r := s.resolve c { sp := .g, need := Need.load, size := 64, align := 64, bpi := false, tag := 0 } [] 0
      (c.role.sreg a).val.toNat
    (∀ e aux, r.2 = .trap e aux → exec (.wstart ty d b a k) s = .next (r.1.trapCur e aux c.role.mask)) ∧
    (∀ p, r.2 = .wait p → exec (.wstart ty d b a k) s = .next (r.1.parkCur p)) ∧
    (∀ pl, r.2 = .ok pl → (r.1.ldPlace true c.role.accessErr pl 64).2.2 = .Z →
      exec (.wstart ty d b a k) s = .next ((r.1.ldPlace true c.role.accessErr pl 64).1.poisonCur c.role.mask)) ∧
    ∀ pl c1 got pls, r.2 = .ok pl →
      let e := r.1.ldPlace true c.role.accessErr pl 64
      e.2.2 ≠ .Z → e.1.ctx? = some c1 →
      let w := BitVec.ofNat 512 e.2.1
      let wst := joinSt (c.role.sreg a).st e.2.2
      let fp : BitVec 128 := (c.role.sreg (k + 1)).val ++ (c.role.sreg k).val
      let size := tyBytes ty
      let nelem := (w.extractLsb' 288 32).toNat
      let step := (w.extractLsb' 256 32).toNat
      let tag : BitVec 14 := w.extractLsb' 192 14
      let base := (w.extractLsb' 128 64).toNat
      let pat := w.extractLsb' 32 48 ≠ fp.extractLsb' 32 48
      let cset := w.extractLsb' 0 32 ≠ fp.extractLsb' 0 32
      let stat : DWord :=
        if w.extractLsb' 320 192 ≠ (0 : BitVec 192) ∨ w.extractLsb' 206 18 ≠ (0 : BitVec 18) ∨ nelem = 0 ∨ step = 0 ∨
          nelem % step ≠ 0 ∨ base % size ≠ 0 then 0x43
        else if w.extractLsb' 80 48 ≠ fp.extractLsb' 80 48 then 0x13
        else if tag ≠ 0 ∧ c1.part.ctxEnt? tag = none then 0x23
        else if pat ∧ cset then 0x0E else if pat then 0x06 else if cset then 0x0A else 0x01
      let elem := fun (n : Nat) =>
        let j : Int := n + (w.extractLsb' 224 32).toInt
        let j := if (nelem : Int) ≤ j then (nelem : Int) - step + (j - nelem) % step else j
        (if j < 0 then j % step else j).toNat
      let cold := fun l => stat.extractLsb' 0 2 = 3 ∨ nelem ≤ (c.role.vreg b.r l).1.toNat
      let warm := c.role.all.filter (fun l => decide (¬ cold l))
      e.1.resolveAll c1 { sp := .g, need := Need.load, size := size, align := size, bpi := false, tag := tag }
        (warm.map (fun l => (l, (base + elem (c.role.vreg b.r l).1.toNat * size) % 2 ^ 64))) =
        { s := got, ok := pls, off := [], traps := [], waits := [] } →
      c.role.Room (freed false b.r b.last) ty.is64 d c.role.all →
      ∃ t y, exec (.wstart ty d b a k) s = .next t ∧ t.role? s.cur = some y ∧
        y.solve = { c.role.solve with wsstat := { val := stat, st := markSt c.role.taint .S } } ∧
        (∀ l ∈ c.role.all, cold l →
          let x : DWord × Standing := (0, markSt c.role.taint (joinSt wst (joinSt (c.role.vreg b.r l).2 .P)))
          y.vreg d l = (x.1.setWidth 32, x.2) ∧ (ty.is64 = true → y.vreg (d + 1) l = (x.1.extractLsb' 32 32, x.2))) ∧
        (got.knowsAll = true → (∀ e ∈ pls, (got.rdPlace c.role.accessErr e.2 size).1 = got) → ∀ e ∈ pls,
          let x := got.rdPlace c.role.accessErr e.2 size
          let st := markSt c.role.taint (joinSt x.2.2 (joinSt wst (joinSt (c.role.vreg b.r e.1).2 .P)))
          y.vreg d e.1 = ((BitVec.ofNat 64 x.2.1).setWidth 32, st) ∧
          (ty.is64 = true → y.vreg (d + 1) e.1 = ((BitVec.ofNat 64 x.2.1).extractLsb' 32 32, st)))

/-! Events of the device and of the world outside. -/

/-- R23, R24, R26 to R31, R51, R66: writes to a partition's control region. A node that is not one of its hosts is refused.
A whole aligned record goes to the end of its queue, with the next serial; any other piece of a launch window sets BAD, and a
record for a queue that is disabled or full sets OVF. A reservation is taken where R28 allows it, and sets RESERR elsewhere. -/
def Obligations.controlWrites : Prop :=  ∀ (part : Nat) (node : BitVec 10) (s : State) (p : Part), s.part? part = some p →
    (p.serves node = false → ∀ q off woff len lrec val va data phys,
      ∀ i ∈ [Instr.launchAppend part node q off len lrec, .qresWrite part node q val, .registerWrite part node woff len val,
        .grantSubmit part node val, .attctlGo part node val, .hostRead part node va len, .hostWrite part node phys va data],
      exec i s = .next (s.answer .error)) ∧
    (p.serves node = true →
      (∀ q off len lrec,
        let i := Instr.launchAppend part node q off len lrec
        let x := p.queue q.toNat
        (len ≠ 256 ∨ off.toNat % 256 ≠ 0 → ChangesPart i s part .error
          (fun p' => p' = p.modQueue q.toNat (fun x => { x with bad := true }))) ∧
        (len = 256 → off.toNat % 256 = 0 → x.en = false ∨ 256 ≤ p.queueCount q.toNat → ChangesPart i s part .error
          (fun p' => p' = p.modQueue q.toNat (fun x => { x with ovf := true }))) ∧
        (len = 256 → off.toNat % 256 = 0 → x.en = true → p.queueCount q.toNat < 256 → ChangesPart i s part .done
          (fun p' => ∃ l, p' = { p with appends := p.appends + 1, launches := p.launches ++ [l] } ∧ l.lrec = lrec ∧
            l.serial = p.appends ∧ l.queue = q ∧ l.phase = .appended ∧ l.next = 0 ∧ l.teams = 0 ∧ l.tasks = 0))) ∧
      (∀ q val,
        let n := fun k => (val.extractLsb' (5 * k) 5).toNat
        let others := fun k => (((List.range 64).filter (fun j => j != q.toNat)).map (fun j => resOf (p.queue j).res k)).sum
        let ok := ∀ k < 8, n k ≤ 24 ∧ (p.cfg.size ≤ k → n k = 0) ∧ others k + n k ≤ 24
        (ok → ChangesPart (.qresWrite part node q val) s part .done
          (fun p' => p' = p.modQueue q.toNat (fun x => { x with res := val.setWidth 40 }))) ∧
        (¬ ok → ChangesPart (.qresWrite part node q val) s part .done
          (fun p' => p' = p.modQueue q.toNat (fun x => { x with resErr := true })))) ∧
      (∀ (q : BitVec 6) val,
        let sets := fun n f => ChangesPart (.registerWrite part node (BitVec.ofNat 20 (0x1000 + 0x40 * q.toNat + n)) 8 val) s part
          .done (fun p' => p' = p.modQueue q.toNat f)
        sets 0 (fun x => { x with ser := val.getLsbD 11, en := val.getLsbD 10, prio := val.setWidth 3 }) ∧
        sets 8 (fun x => { x with
          bad := x.bad && !val.getLsbD 31, ovf := x.ovf && !val.getLsbD 30, resErr := x.resErr && !val.getLsbD 29,
          doneErr := x.doneErr && !val.getLsbD 28 }) ∧
        sets 0x18 (fun x => { x with notify := val.extractLsb' 3 53 })) ∧
      (∀ woff len val,
        let i := Instr.registerWrite part node woff len val
        (woff.toNat < 0x10000 ∨ 0x50000 ≤ woff.toNat → len ≠ 8 ∨ woff.toNat % 8 ≠ 0 ∨ 0x50000 ≤ woff.toNat →
          exec i s = .next (s.answer .error)) ∧
        (0x10000 ≤ woff.toNat → woff.toNat < 0x50000 → ChangesPart i s part .error
          (fun p' => p' = p.modQueue ((woff.toNat - 0x10000) / 0x1000) (fun x => { x with bad := true })))) ∧
      (∀ val,
        (p.grantStat = 1 → ChangesPart (.grantSubmit part node val) s part .done (fun p' => p' = p)) ∧
        (p.grantStat ≠ 1 → ChangesPart (.grantSubmit part node val) s part .done
          (fun p' => p' = { p with grantStat := 1, grantIn := p'.grantIn } ∧ p'.grantIn.extractLsb' 1216 64 = val ∧
            p'.grantIn.setWidth 1216 = p.grantIn.setWidth 1216))) ∧
      ∀ val,
        let p1 := { p with attErr := p.attErr && !val.getLsbD 1 }
        let i := Instr.attctlGo part node val
        (val.getLsbD 0 = false ∨ p.attGo = true → ChangesPart i s part .done (fun p' => p' = p1)) ∧
        (val.getLsbD 0 = true → p.attGo = false → p.attDest.toNat % 256 ≠ 0 → ChangesPart i s part .done
          (fun p' => p' = { p1 with attErr := true })) ∧
        (val.getLsbD 0 = true → p.attGo = false → p.attDest.toNat % 256 = 0 →
          let w := (s.modPart part (fun _ => p1)).devWalk part Need.rcd true p.attDest.toNat 256
          (w.2.2 ≠ .bad → exec i s = .next ((w.1.modPart part (fun x => { x with attGo := true })).answer .done)) ∧
          (w.2.2 = .bad → exec i s = .next ((w.1.modPart part (fun x => { x with attErr := true })).answer .done))))

/-- R25 to R29, R52, R263, R446, R449: the reads and writes of a host, and a grantee's accesses through a window. Registers
are read with bit 63 of the address set (the model's convention, log 17). -/
def Obligations.hostAccesses : Prop :=  (∀ (part : Nat) (node : BitVec 10) (s : State) (p : Part), s.part? part = some p → p.serves node = true →
    let ctl := p.cfg.ctlBase.toNat
    let stat := p.cfg.statusBase.toNat
    let reads := fun fab (v : Nat) => exec (.hostRead part node (BitVec.ofNat 64 (2 ^ 63 + fab)) 8) s =
      .next (s.answer (.data (natBytes 8 v) .S))
    let b := fun (x : Bool) k => if x then 2 ^ k else 0
    (ctl % 8 = 0 → ctl + 0x50000 ≤ 2 ^ 63 →
      reads ctl p.pinfo.toNat ∧
      ∀ q < 64,
        let x := p.queue q
        let at_ := fun n => ctl + 0x1000 + 0x40 * q + n
        reads (at_ 0) (x.prio.toNat + b x.en 10 + b x.ser 11) ∧
        (p.queueCount q < 2 ^ 28 →
          reads (at_ 8) (p.queueCount q + b x.doneErr 28 + b x.resErr 29 + b x.ovf 30 + b x.bad 31)) ∧
        reads (at_ 16) x.res.toNat ∧ reads (at_ 24) (8 * x.notify.toNat)) ∧
    (stat % 8 = 0 → stat + 0x1000 ≤ 2 ^ 63 → stat + 0x1000 ≤ ctl ∨ ctl + 0x50000 ≤ stat →
      ∀ k < p.cfg.size, k < 8 → k ∉ p.remapStop → k ∉ p.remapping →
        let x := s.bulk (p.bulkOf k)
        let at_ := fun n => stat + 0x40 + 0x40 * k + n
        reads (at_ 0) (x.spare.toNat + x.state.code * 2 ^ 8 + b x.sref 13 + b x.therm 14 + b x.lim 15 + x.clk % 4096 * 2 ^ 20) ∧
        reads (at_ 8) (x.trans.toNat + x.corr.toNat * 2 ^ 24 + x.uncorr.toNat * 2 ^ 48) ∧
        reads (at_ 16) (x.transient.toNat + x.lasting.toNat * 2 ^ 32)) ∧
    (ctl % 8 = 0 → ctl + 0x50000 ≤ 2 ^ 63 → ∀ (off : Nat) (data : List Byte),
      let i := Instr.hostWrite part node false (BitVec.ofNat 64 (2 ^ 63 + ctl + off)) data
      (off < 0x10000 → exec i s = exec (.registerWrite part node (BitVec.ofNat 20 off) data.length
        (BitVec.ofNat 64 (bytesNat data))) s) ∧
      (0x10000 ≤ off → off < 0x50000 → exec i s = exec (.launchAppend part node (BitVec.ofNat 6 ((off - 0x10000) / 0x1000))
        (BitVec.ofNat 12 (off % 0x1000)) data.length (BitVec.ofNat 2048 (bytesNat data))) s)) ∧
    (stat + 0x1000 ≤ 2 ^ 63 → stat + 0x1000 ≤ ctl ∨ ctl + 0x50000 ≤ stat → ∀ off < 0x1000, ∀ data,
      exec (.hostWrite part node false (BitVec.ofNat 64 (2 ^ 63 + stat + off)) data) s = .next (s.answer .done)) ∧
    (∀ va len, va.getLsbD 63 = false →
      let i := Instr.hostRead part node va len
      let w := s.outsideWalk part (Need.ofHost false) false va.toNat len
      (w.2.2 = .ok →
        let r := w.1.readPieces w.2.1
        exec i s = .next (r.1.answer (.data (natBytes len r.2.1) (joinAll r.2.2)))) ∧
      (w.2.2 = .refused → exec i s = .next (w.1.answer .error)) ∧
      (∀ why, w.2.2 = .held why → exec i s = .next (w.1.holdOutside why i))) ∧
    (∀ va data, va.getLsbD 63 = false →
      let i := Instr.hostWrite part node false va data
      let w := s.outsideWalk part (Need.ofHost true) false va.toNat data.length
      (w.2.2 = .ok → exec i s = .next ((w.1.writePieces w.2.1 va.toNat data .S).answer .done)) ∧
      (w.2.2 = .refused → exec i s = .next (w.1.answer .error)) ∧
      (∀ why, w.2.2 = .held why → exec i s = .next (w.1.holdOutside why i))) ∧
    ∀ va data,
      let k := va.toNat / bulkSpan
      let b := p.bulkOf k
      let i := Instr.hostWrite part node true va data
      (p.cfg.size ≤ k ∨ storageEnd < va.toNat % bulkSpan + data.length ∨ (s.bulk b).hung = true →
        exec i s = .next (s.answer .error)) ∧
      (k < p.cfg.size → va.toNat % bulkSpan + data.length ≤ storageEnd → s.down p k k = false → (s.bulk b).hung = false →
        ((s.bulk b).sref = true → exec i s = .next (s.holdOutside (.held b) i)) ∧
        ((s.bulk b).sref = false →
          ∃ t, exec i s = .next t ∧ t.reply = .done ∧ t.teams = s.teams ∧ t.parts = s.parts ∧
            t.mem.rdBytes (p.phys va.toNat) data.length = data ∧
            (data ≠ [] → ∀ u ∈ units (p.phys va.toNat) data.length, tget t.ukeys u = some (s.keyName p.cfg.slotFirst)) ∧
            (s.flaws = [] → (∀ u ∈ units (p.phys va.toNat) data.length, s.keyFits (s.keyName p.cfg.slotFirst) u = true) →
              ∀ a, a < p.phys va.toNat ∨ p.phys va.toNat + data.length ≤ a → t.mem.rd a = s.mem.rd a)))) ∧
  ∀ (part : Nat) (va : DWord) (len : Nat) (store : Option (List Byte × Standing)) (s : State),
    let i := Instr.windowAccess part va len store
    let n := match store with | some d => d.1.length | none => len
    let w := s.outsideWalk part (if store.isSome then Need.store else Need.load) true va.toNat n
    (∀ p, s.part? part = some p → s.window? p.cfg.pid va.toNat = none → exec i s = .next (s.answer .error)) ∧
    ∀ p b k x, s.part? part = some p → s.window? p.cfg.pid va.toNat = some (b, k, x) →
      (x.view.toNat + x.size.toNat < va.toNat + n → exec i s = .next (s.answer .error)) ∧
      (va.toNat + n ≤ x.view.toNat + x.size.toNat →
        (w.2.2 = .refused → exec i s = .next (w.1.answer .error)) ∧
        (∀ why, w.2.2 = .held why → exec i s = .next (w.1.holdOutside why i)) ∧
        (w.2.2 = .ok → store = none →
          let q := w.1.readPieces w.2.1
          exec i s = .next (q.1.answer (.data (natBytes n q.2.1) (joinAll q.2.2)))) ∧
        (∀ d st, w.2.2 = .ok → store = some (d, st) →
          exec i s = .next ((w.1.writePieces w.2.1 va.toNat d st).answer .done)))

/-- R51, R53, R66, R67: the verification of a grant, the drain of a revoked window, and an attestation report. -/
def Obligations.grantsAndReports : Prop :=  ∀ (part : Nat) (s : State) (p : Part), s.part? part = some p →
    let g := p.grantIn
    (p.grantStat ≠ 1 ∨ p.grantWait ≠ none → exec (.grantVerifyDone part) s = .next s) ∧
    (p.grantStat = 1 → p.grantWait = none →
      let ends := fun (n : Nat) => exec (.grantVerifyDone part) s = .next (s.modPart part (fun p => { p with grantStat := BitVec.ofNat 8 n }))
      let bad := grMagic g ≠ 0x474E ∨ grVersion g ≠ 1 ∨ 15 < grWin g ∨ 1 < grAcc g ∨ grDev g ≠ devSerial
      (bad → ends 6) ∧ (∀ n, s.verifyGrant g = .inl n → ends n) ∧
      (∀ i q, s.verifyGrant g = .inr i → s.part? i = some q → (s.bulk (q.bulkOf (grBulk g))).state = .running ∧
        grBulk g ∉ q.remapStop ∧ grBulk g ∉ q.remapping) ∧
      (s.verifyGrant g ≠ .inl 6 → s.partOf? (grGrantor g) = none → ends 4) ∧
      (∀ i q, g.extractLsb' 32 40 = (0 : BitVec 40) → g.extractLsb' 160 32 = (0 : BitVec 32) → ¬ bad →
        s.partOf? (grGrantor g) = some i → s.part? i = some q →
        let signed := grSigner g = q.cfg.tenantKey ∧
          Config.ecdsaVerify q.cfg.tenantKey (Config.sha256 (natBytes 96 (g.setWidth 768).toNat)) (grSigR g) (grSigS g) = true
        (¬ signed → ends 4) ∧ (signed → grSerial g ≤ q.grantSerial → ends 5) ∧
        (signed → q.grantSerial < grSerial g → grGrantor g = grGrantee g → ends 6)) ∧
      ∀ i q, s.verifyGrant g = .inr i → s.part? i = some q →
        let b := q.bulkOf (grBulk g)
        let old := ((s.bulk b).wins[grWin g]?).getD none
        ∃ t x, exec (.grantVerifyDone part) s = .next t ∧ t.part? part = some x ∧
          (∃ y, t.part? i = some y ∧ y.grantSerial = grSerial g) ∧
          (b < s.bulks.length → grWin g < (s.bulk b).wins.length → (t.bulk b).wins[grWin g]? = some (
            if grSize g = 0 then old.map (fun w => { w with live := false })
            else some { view := grView g, target := grTarget g, size := grSize g, rw := grAcc g == 1, rate := grRate g,
                        grantor := grGrantor g, grantee := grGrantee g, live := true })) ∧
          (if (old.map Win.live).getD false then
            x.grantStat = 1 ∧ ∃ ops, x.grantWait =
              some { bulk := b, win := grWin g, code := if grSize g = 0 then 3 else 2, ops := ops } ∧
              ∀ id, id ∈ ops ↔ ∃ e ∈ s.ops, e.1 = id ∧ ∃ w, old = some w ∧ s.passedBy e.2 b (grWin g) w = true
           else x.grantStat = (if grSize g = 0 then 3 else 2) ∧ x.grantWait = none)) ∧
    (∀ w, p.grantWait = some w →
      ((∃ i ∈ w.ops, s.op? i ≠ none) → ChangesPart (.revocationDrained part) s part s.reply (fun p' => p' = p)) ∧
      ((∀ i ∈ w.ops, s.op? i = none) → exec (.revocationDrained part) s =
        .next (s.modPart part (fun p => { p with grantWait := none, grantStat := w.code })))) ∧
    (p.attGo = false → exec (.attestationReport part) s = .next s) ∧
    (p.attGo = true →
      let a := s.attWalk part
      (p.attDest.toNat % 256 ≠ 0 → a = (s, [], .bad)) ∧
      (p.attDest.toNat % 256 = 0 → a = s.devWalk part Need.rcd true p.attDest.toNat 256) ∧
      (a.2.2 = .wait → exec (.attestationReport part) s = .next a.1) ∧
      (a.2.2 = .bad → exec (.attestationReport part) s =
        .next (a.1.modPart part (fun p => { p with attGo := false, attErr := true }))) ∧
      (a.2.2 = .ok →
        let wrote := fun (u : State) (body : BitVec 1536) (sig : BitVec 256 × BitVec 256) => exec (.attestationReport part) s =
          .next ((u.writePieces a.2.1 p.attDest.toNat
            (natBytes 192 body.toNat ++ natBytes 32 sig.1.toNat ++ natBytes 32 sig.2.toNat) .S).modPart part
              (fun p => { p with attGo := false }))
        (p.bulkOf 0 < 8 → ∀ body, body = a.1.reportBody p Config.devId a.1.repSerial →
          wrote { a.1 with repSerial := a.1.repSerial + 1 } body
            (Config.ecdsaSign (a.1.fwMeas p) (Config.sha256 (natBytes 192 body.toNat)))) ∧
        (8 ≤ p.bulkOf 0 → ∀ body, body = a.1.reportBody p Config.otherDevId (Config.otherReports a.1.free) →
          wrote { a.1 with free := a.1.free + 1 } body
            (Config.otherSign (a.1.fwMeas p) (Config.sha256 (natBytes 192 body.toNat)))))) ∧
    ∀ id serial,
      let r := s.reportBody p id serial
      r.extractLsb' 0 16 = (0x4154 : BitVec 16) ∧ r.extractLsb' 16 16 = (1 : BitVec 16) ∧ r.extractLsb' 112 16 = p.cfg.pid ∧
      r.extractLsb' 192 64 = serial ∧ r.extractLsb' 256 256 = id ∧ r.extractLsb' 768 256 = s.cfgDigest ∧
      r.extractLsb' 1024 256 = s.fwMeas p ∧ r.extractLsb' 1280 256 = p.attNonce

/-- R9, R13, R36, R37, R39: a record with a field out of its range is malformed and completes with STATUS 0x03; one whose
tables are read and valid runs; and a launch whose grid has retired, and whose tasks have ended or wait stranded, completes,
in its queue's order. -/
def Obligations.launchesComplete : Prop :=  ∀ (part : Nat) (serial : BitVec 64) (s : State) (p : Part) (l : Launch), s.part? part = some p → p.launch? serial = some l →
    let put := fun (u : State) (f : Launch → Launch) => u.modPart part (fun p => p.modLaunch serial f)
    (l.phase = .appended →
      (∀ u x, s.acceptCheck part l = .ok u x → exec (.launchAccept part serial) s = .next (put u (fun _ => x)) ∧
        x.phase = .running ∧ x.lrec = l.lrec ∧ x.serial = l.serial ∧ x.surfs.length = l.surfCount ∧ x.sched.length = l.schedCount) ∧
      (l.queueField.toNat ≠ l.queue.toNat ∨ l.groups = 0 ∨ 128 < l.groups ∨ l.roles = 0 ∨ 4 < l.roles ∨ l.gridX = 0 ∨ l.gridY = 0 ∨
          l.gridZ = 0 ∨ 24 < l.cohort ∨ 524288 < l.scratch ∨ l.scratch % 256 ≠ 0 ∨ 65536 < l.spill ∨ l.spill % 16 ≠ 0 ∨
          4096 < l.surfCount ∨ 1024 < l.schedCount ∨ l.codeBase.toNat % 256 ≠ 0 ∨ l.doneAddr.toNat % 32 ≠ 0 →
        p.serOk l = true → ∀ u, s.report part l 3 = some u → exec (.launchAccept part serial) s =
          .next (put u (fun l => { l with phase := .done })))) ∧
    (l.phase ≠ .appended → exec (.launchAccept part serial) s = .next s) ∧
    (
     let ready := l.phase = .running ∧ l.teams = l.total ∧ (∀ e ∈ s.teams, ¬ (e.2.part = part ∧ e.2.serial = l.serial)) ∧
        (∀ t ∈ p.ready, t.serial ≠ l.serial) ∧ (∀ t ∈ p.waiting, t.serial = l.serial → t.ctr ≠ none) ∧ p.serOk l = true
     (¬ ready → exec (.launchComplete part serial) s = .next s) ∧
      (ready → ∀ u n, n = (p.waiting.filter (fun t => t.serial == l.serial)).length →
        s.report part { l with stranded := n }
          (if l.reset then 4 else if l.faulted then 2 else if l.deadTeams ≠ 0 then 1 else 0) = some u →
        let fin := fun (x : Launch) => { x with stranded := n, phase := if n = 0 then .done else .residue }
        let mark := fun (t : TaskRec) => if t.serial == l.serial then { t with stranded := true } else t
        exec (.launchComplete part serial) s = .next (u.modPart part (fun p =>
          { p.modLaunch serial fin with waiting := p.waiting.map mark })))) ∧
    ∀ (status : Nat) r, r = l.completion status →
      (r.extractLsb' 0 7).toNat = status % 128 ∧ r.getLsbD 7 = true ∧ r.extractLsb' 15 6 = l.queue ∧
      (r.extractLsb' 64 32).toNat = l.deadTeams % 2 ^ 32 ∧ (r.extractLsb' 96 32).toNat = l.stranded % 2 ^ 32 ∧
      (r.extractLsb' 128 32).toNat = l.tasks % 2 ^ 32 ∧ (r.extractLsb' 160 32).toNat = l.teams % 2 ^ 32 ∧
      r.extractLsb' 192 64 = l.serial

/-- R11, R32, R33, R72, R74, R394, R395: the distributor takes the first candidate of its order. A grid team of a head or the
task at the head of a ready queue is handed to the core that the probes choose, the launch's priority is latched, and the
team is resident once it has left the inbound queue. -/
def Obligations.teamsPlace : Prop :=  (∀ (part : Nat) (s : State) (p : Part) (l : Launch) pr rest c, s.part? part = some p → p.launch? l.serial = some l →
    s.candidates part p = (.head l.serial, pr) :: rest → l.cohort < 2 → s.spotFor part p l = some c →
    ∃ t x y, exec (.distributeTeam part) s = .next t ∧ t.team? s.nextTeam = some x ∧ t.nextTeam = s.nextTeam + 1 ∧
      (∀ n, n ≠ s.nextTeam → t.team? n = s.team? n) ∧
      x.part = part ∧ x.serial = l.serial ∧ x.taskidx = BitVec.ofNat 32 l.next ∧ x.task = false ∧
      x.gx = BitVec.ofNat 32 (l.next % l.gridX.toNat) ∧ x.gy = BitVec.ofNat 32 (l.next / l.gridX.toNat % l.gridY.toNat) ∧
      x.gz = BitVec.ofNat 32 (l.next / (l.gridX.toNat * l.gridY.toNat)) ∧ x.prio = pr ∧ x.bulk = c.1 ∧ x.core = c.2 ∧
      x.phase = .inbound ∧ x.roles = (List.range l.roles).map (fun k => { l.role k with acq := s.startAcq }) ∧ x.scratch = Memory.zero ∧ x.cohort = none ∧
      t.part? part = some y ∧ y.lastQueue = l.queue ∧ y.launch? l.serial = some { l with next := l.next + 1, prio := some pr }) ∧
  (∀ (part k : Nat) (s : State) (p : Part) (l : Launch) (r : TaskRec) pr rest c, s.part? part = some p →
    s.candidates part p = (.task k, pr) :: rest → p.readyHead k = some r → p.launch? r.serial = some l →
    s.slotBusy part l r.idx.toNat = false →
    probe l.seed r.idx.toNat ((s.eligible p l.queue.toNat).filter (fun c => c.1 == k)) (s.canHand part p l false) = some c →
    ∃ t x, exec (.taskPlace part k) s = .next t ∧ t.team? s.nextTeam = some x ∧ t.nextTeam = s.nextTeam + 1 ∧
      (∀ n, n ≠ s.nextTeam → t.team? n = s.team? n) ∧ x.part = part ∧ x.serial = l.serial ∧ x.taskidx = r.idx ∧ x.task = true ∧
      x.prio = r.lprio ∧ x.bulk = c.1 ∧ x.core = c.2 ∧ x.phase = .inbound ∧ x.roles.length = l.roles ∧
      ∀ y, x.roles[0]? = some y → y.item = CodePos.header r.entry ∧ (y.sreg 0).val = r.trec.extractLsb' 0 64 ∧
        (y.sreg 3).val = r.trec.extractLsb' 192 64 ∧ (y.sreg 4).val = l.arg 4 ∧ y.acq = s.startAcq) ∧
  ∀ (n : Nat) (s : State) (x : Team), s.team? n = some x →
    (x.phase = .inbound → ∃ t, exec (.teamResident n) s = .next t ∧ s.ButTeam t n ∧ t.team? n = some { x with phase := .resident }) ∧
    (x.phase ≠ .inbound → ∃ t, exec (.teamResident n) s = .next t ∧ ∀ k, t.team? k = s.team? k)

/-- R36, R431, R434 to R436: a finished team whose operations have ended retires: the tags it holds LIVE become HELD, a grid
team writes its exit record, and its launch counts it. -/
def Obligations.teamsRetire : Prop :=  ∀ (n : Nat) (s : State) (x : Team) (p : Part) (l : Launch), s.team? n = some x → s.part? x.part = some p →
    p.launch? x.serial = some l → x.phase = .finishing → (∀ e ∈ s.ops, e.2.owner.team ≠ n) → (∀ r ∈ x.roles, r.susp = []) →
    (∀ g ∈ x.gangs, g.fills = []) →
    (∀ d ∈ x.due, d.idx ∉ x.released) → (∀ e ∈ s.teams, e.1 = n ∨ e.2.due = []) → (∀ y ∈ p.retires, y.role.team ≠ n) →
    let held := (p.ctxs.filter (fun e => e.2.state == .live &&
      (match e.2.adopter with | some a => a == n | none => e.2.owner == n))).map (fun e => e.1)
    let pend := (p.ctxs.filter (fun e => e.2.state == .pending && e.2.owner == n)).map (fun e => e.1)
    let tags := x.retiring.getD (held, pend)
    let ctxs := if x.retiring.isSome then p.ctxs
      else p.ctxs.map (fun e => if e.1 ∈ held then (e.1, { e.2 with state := .held, adopter := none }) else e)
    let u := if x.retiring.isSome then s
      else (s.setPart x.part { p with ctxs := ctxs }).modTeam n (fun t => { t with sg := none, retiring := some tags })
    let counts := fun (y : Launch) =>
      y.teams = l.teams + (if x.task then 0 else 1) ∧ y.tasks = l.tasks + (if x.task then 1 else 0) ∧
      y.deadTeams = l.deadTeams + (if x.poisoned ||| x.switched = 0 then 0 else 1) ∧
      y.faulted = (l.faulted || x.exitStatus == 3) ∧ y.reset = (l.reset || x.exitStatus == 4)
    (x.task = true → ∃ t q y, exec (.teamRetire n) s = .next t ∧ t.team? n = none ∧ (∀ k, k ≠ n → t.team? k = s.team? k) ∧
      t.mem = s.mem ∧ t.part? x.part = some q ∧ q.ctxs = ctxs ∧ q.launch? x.serial = some y ∧ counts y) ∧
    (∀ w, x.task = false →
      u.devWrite x.part (l.doneAddr.toNat + 0x40 + 0x140 * x.taskidx.toNat) (x.exitRecord tags.1 tags.2) = (w, .wait) →
      exec (.teamRetire n) s = .next w) ∧
    (∀ w, x.task = false →
      u.devWrite x.part (l.doneAddr.toNat + 0x40 + 0x140 * x.taskidx.toNat) (x.exitRecord tags.1 tags.2) = (w, .ok) →
      (∀ e ∈ w.teams, e.1 = n ∨ e.2.due = []) →
      ∃ t, exec (.teamRetire n) s = .next t ∧ t.team? n = none ∧ t.mem = w.mem ∧
        ∀ q y, w.part? x.part = some q → q.launch? x.serial = some y → ∃ q' y', t.part? x.part = some q' ∧
          q'.launch? x.serial = some y' ∧ y' = y.retired x) ∧
    let h := x.exitHeader tags.1 tags.2
    (h.extractLsb' 0 7).toNat = x.exitStatus ∧ h.getLsbD 7 = true ∧
    (x.exitStatus ≠ 3 → x.exitStatus ≠ 4 → h.extractLsb' 218 4 = (0 : BitVec 4)) ∧ h.extractLsb' 416 32 = x.taskidx ∧ h.extractLsb' 448 64 = x.serial ∧
    x.exitStatus = (match x.fin with
      | some f => if f.reset then 4 else 3
      | none => if x.poisoned ||| x.switched = 0 then 0 else if x.roles.any (fun r => r.exited != 0) then 1 else 2)

/-- R443, R446: the machine before its power-up: no partition and no team, storage of zeros in canonical form, and every
bulkhead's registers at the values of R446. -/
def Obligations.resetState : Prop :=
  State.reset.storageWf = true ∧ State.reset.parts = [] ∧ State.reset.teams = [] ∧ State.reset.powered = false ∧
  ∀ b < 16, (State.reset.bulk b).state = .running ∧ (State.reset.bulk b).lim = false ∧ (State.reset.bulk b).therm = false ∧
    (State.reset.bulk b).sref = false ∧ (State.reset.bulk b).clk = 3300 ∧ (State.reset.bulk b).spare = 0xFF ∧ (State.reset.bulk b).uncorr = 0 ∧
    (State.reset.bulk b).corr = 0 ∧ (State.reset.bulk b).trans = 0 ∧ (State.reset.bulk b).lasting = 0 ∧
    (State.reset.bulk b).transient = 0

/-- R61, R443, R444: power-up runs once, with an image whose signature verifies: storage is cleared, every bulkhead whose test
has passed and whose firmware is signed is measured and runs, and the others stay in reset. R272, R441, R442: self-refresh, the
measurement of a rail, the steps of a clock, and a die's critical temperature. -/
def Obligations.powerEvents : Prop :=
  (∀ (img : ConfigImage) (fw : List (BitVec 256)) failed (s : State),
    let i := Instr.powerUp img fw failed
    (s.powered = true ∨ signedImage img = false → exec i s = .next s) ∧
    (s.powered = false → signedImage img = true → ∃ t, exec i s = .next t ∧ t.powered = true ∧ t.mem = Memory.zero ∧
      t.teams = [] ∧ t.ops = [] ∧ t.ring = 0xFF ∧ t.repSerial = 0 ∧ t.cfgDigest = img.digest ∧ t.ukeys = [] ∧ t.flaws = [] ∧
      t.keyEra = s.keyEra + 1 ∧
      (∀ b < 16,
        let image := fw[b]?.getD 0
        let good := b ∉ failed ∧ Config.firmwareSigned image = true
        (t.bulk b).railOn = true ∧ ((t.bulk b).state = .running ↔ good) ∧
        (¬ good → (t.bulk b).state = .reset ∧ (t.bulk b).kept = true) ∧
        (good → (t.bulk b).meas = Config.sha256 (List.replicate 32 0 ++ natBytes 32 image.toNat))) ∧
      ∀ n p, t.part? n = some p → p.opened = true ∧ img.parts[n]? = some p.cfg ∧ ∀ b ∈ p.map, (t.bulk b).gate = true)) ∧
  (∀ (b : Nat) (s : State), s.bulks.length = 16 → b < 16 →
    let x := s.bulk b
    ChangesBulk (.selfRefreshEnter b) s b { x with sref := true } ∧
    (∃ t, exec (.selfRefreshExit b) s = .next t ∧ (∀ k, t.bulk k = if k = b then { x with sref := false } else s.bulk k) ∧
      t.mem = s.mem ∧ t.parts = s.parts ∧ t.ops = s.ops ∧
      t.outside = s.outside.map (fun e => if e.2.1 = some (.held b) then (e.1, none, e.2.2) else e) ∧ ∀ r y, s.role? r = some y →
        t.role? r = some (if y.park = some (.held b) then { y with park := none } else y)) ∧
    (x.sref = false → exec (.selfRefreshTimeout b) s = .next s) ∧
    (x.sref = true → x.state = .running → ∃ t, exec (.selfRefreshTimeout b) s = .next t ∧
      (t.bulk b).state = .reset ∧ (t.bulk b).gate = false ∧ t.mem = s.mem ∧
      ∀ pp k n a, s.ownerOf b = some (pp, k) → s.team? n = some a → a.part = pp → a.bulk = k →
        a.phase = .resident ∨ a.phase = .stopping → a.fin = none → a.roles ≠ [] →
        ∃ y e, t.team? n = some y ∧ y.phase = .finishing ∧ y.fin = some e ∧ e.code = 0x1A) ∧
    (∀ watts temp, ∃ t, exec (.railMeasure b watts temp) s = .next t ∧ t = { s with bulks := t.bulks } ∧ ∀ k < 16, t.bulk k =
      (let y := if k = b then { x with overPower := decide (450 < watts), cool := decide (2 * watts < 855) } else s.bulk k
       if k / 2 = b / 2 then { y with therm := decide (105 ≤ temp) } else y)) ∧
    ChangesBulk (.clockStepDown b) s b (if x.overPower ∨ x.therm then
      { x with clk := max 1000 (x.clk - 100), lim := x.lim || x.overPower } else x) ∧
    ChangesBulk (.clockStepUp b) s b (if x.cool ∧ ¬ x.overPower ∧ ¬ x.therm then
      { x with clk := min 3300 (x.clk + 100), lim := x.lim && decide (x.clk + 100 < 3300) } else x) ∧
    ∀ die, (4 ≤ die → exec (.dieCriticalTemp die) s = .next s ∧ exec (.dieCooled die) s = .next s) ∧
      (die < 4 → s.dies.length = 4 →
        (∃ t, exec (.dieCriticalTemp die) s = .next t ∧ t.dies = lset s.dies die true ∧ t.mem = s.mem ∧
          ∀ k < 16, k / 2 = die → (t.bulk k).railOn = false ∧
            (t.bulk k).state = if (s.bulk k).state = .running then .reset else (s.bulk k).state) ∧
        (s.dies[die]? = some false → exec (.dieCooled die) s = .next s) ∧
        (s.dies[die]? = some true → ∃ t, exec (.dieCooled die) s = .next t ∧
          t = { s with dies := lset s.dies die false, bulks := t.bulks } ∧
          ∀ k < 16, t.bulk k = if k / 2 = die then { s.bulk k with railOn := true } else s.bulk k)))

/-- R54 to R56, R58, R61: the reset of a bulkhead, its end, its return, and the gate timeout. At a reset the gate closes and
the resident teams end; at the end of step 1 the carve is written back to its region, the lines that were not written back
become Z, those of the overlay pool and of that region among them (which lines is the event's parameter, log 25), and every
gate's link generation for the bulkhead advances; a signed image is measured, the carve is reloaded and the bulkhead runs again,
unless it failed at power-up. -/
def Obligations.bulkheadResets : Prop :=  ∀ (b : Nat) (s : State), b < s.bulks.length →
    let x := s.bulk b
    (x.state ≠ .running → exec (.bulkheadReset b) s = .next s) ∧
    (x.state = .running → ∃ t, exec (.bulkheadReset b) s = .next t ∧ t.mem = s.mem ∧ t.parts = s.parts ∧
      (∀ k, t.bulk k = if k = b then { x with gate := false, hung := false, state := .reset, stepOne := true, clean := false }
        else s.bulk k) ∧
      ∀ pp k n a, s.ownerOf b = some (pp, k) → s.team? n = some a → a.part = pp → a.bulk = k →
        a.phase = .resident ∨ a.phase = .stopping → a.fin = none → a.roles ≠ [] →
        ∃ y e, t.team? n = some y ∧ y.phase = .finishing ∧ y.fin = some e ∧ e.reset = true) ∧
    (∀ ls, (x.stepOne = false → exec (.resetStep1End b ls) s = .next s) ∧
      (x.stepOne = true →
        let lost := fun (q : Nat) => q / 4 ∈ ls ∧ q * 32 / bulkSpan = b ∧ q / 4 * 128 % bulkSpan < storageEnd
        (s.ownerOf b = none → ∃ t, exec (.resetStep1End b ls) s = .next t ∧ t.bulk b = { x with stepOne := false } ∧
          t.teams = s.teams ∧ t.parts = s.parts ∧ (∀ a, t.mem.rd a = s.mem.rd a) ∧
          ∀ q, t.mem.st q = if lost q then .Z else s.mem.st q) ∧
        ∀ pp k p, s.ownerOf b = some (pp, k) → s.part? pp = some p → s.storageWf = true → cfgLegal p.cfg = true →
          let a0 := p.bulkOf k * bulkSpan + p.cfg.carveAt[k]?.getD 0
          let n0 := p.cfg.carve[k]?.getD 0
          ∃ t y, exec (.resetStep1End b ls) s = .next t ∧ t.bulk b = { x with stepOne := false } ∧
            (∀ a, t.mem.rd a = if a0 ≤ a ∧ a < a0 + n0 then p.bscratch.rd (k * 2 ^ 24 + (a - a0)) else s.mem.rd a) ∧
            (∀ q, t.mem.st q = if lost q then .Z
              else if a0 / 32 ≤ q ∧ q < (a0 + n0) / 32 then p.bscratch.st (k * 2 ^ 19 + (q - a0 / 32)) else s.mem.st q) ∧
            t.part? pp = some y ∧
            y = { p with
              linkGen := y.linkGen
              cells := p.cells.map (fun c => if p.cellAt c / 128 ∈ ls ∧ p.cellAt c / 128 * 128 / bulkSpan = b ∧
                p.cellAt c / 128 * 128 % bulkSpan < storageEnd then { c with st := [.Z, .Z, .Z, .Z] } else c) } ∧
            ∀ j, (tget y.linkGen j).getD 0 = (tget p.linkGen j).getD 0 + (if ∃ g < p.cfg.size, j = g * 8 + k then 1 else 0))) ∧
    (∀ image, let i := Instr.bulkheadRejoin b image
      (x.state ≠ .reset ∨ x.stepOne = true ∨ x.railOn = false ∨ x.kept = true → exec i s = .next s) ∧
      (x.state = .reset → x.stepOne = false → x.railOn = true → x.kept = false →
        (x.failedTest = true → ChangesBulk i s b { x with state := .out }) ∧
        (x.failedTest = false → Config.firmwareSigned image = false → ChangesBulk i s b { x with meas := 0 }) ∧
        (x.failedTest = false → Config.firmwareSigned image = true →
          let back : Bulk :=
            { x with meas := Config.sha256 (List.replicate 32 0 ++ natBytes 32 image.toNat), gate := true, state := .running,
                     clk := 3300, lim := false, therm := false, overPower := false, cool := false, clean := true }
          (s.ownerOf b = none → ChangesBulk i s b back) ∧
          ∀ pp k p, s.ownerOf b = some (pp, k) → s.part? pp = some p → s.flaws = [] → s.storageWf = true →
            cfgLegal p.cfg = true →
            let a0 := p.bulkOf k * bulkSpan + p.cfg.carveAt[k]?.getD 0
            let n0 := p.cfg.carve[k]?.getD 0
            (∀ e ∈ s.ukeys, a0 / 64 ≤ e.1 → e.1 < (a0 + n0) / 64 → e.2 = s.keyName p.cfg.slotFirst) →
            ∃ t y, exec i s = .next t ∧ t.bulk b = back ∧ t.mem = s.mem ∧ t.teams = s.teams ∧ t.part? pp = some y ∧
              y = { p with bscratch := y.bscratch } ∧
              (∀ a, y.bscratch.rd a = if k * 2 ^ 24 ≤ a ∧ a < k * 2 ^ 24 + n0 then s.mem.rd (a0 + (a - k * 2 ^ 24))
                else p.bscratch.rd a) ∧
              ∀ q, y.bscratch.st q = if k * 2 ^ 19 ≤ q ∧ q < (k * 2 ^ 24 + n0) / 32 then s.mem.st (a0 / 32 + (q - k * 2 ^ 19))
                else p.bscratch.st q))) ∧
    ∀ r y, s.role? r = some y → ∃ t, exec (.gateTimeout r) s = .next t ∧ t.mem = s.mem ∧ t.bulks = s.bulks ∧
      ∀ k, (y.park = some (.hung k) → t.role? r = some { y with park := none, accessErr := some k }) ∧
        (y.park = some (.held k) → (s.bulk k).hung = true → t.role? r = some { y with park := none, accessErr := some k }) ∧
        (y.park = none → t.role? r = some y)

/-- R65, R235, R236, R262: a gate's link that fails its authentication or is lost makes its target unreachable from that gate and
advances that gate's generation for it, and a request that it holds there completes with error; a link that is back makes the
target reachable and advances the generation again. A ring link does so, in every partition, for just the pairs of gate and
bulkhead between which a way is lost or is there again. -/
def Obligations.linkEvents : Prop :=  ∀ (part gate : Nat) (s : State) (p : Part), s.part? part = some p →
    let bump := fun (t : Tab (BitVec 16)) k => tset t k ((tget t k).getD 0 + 1)
    (∀ k, let at_ := gate * 8 + k
      let other := p.downBulk.filter (fun x => x != at_)
      let cuts := fun (i : Instr) (down : List Nat) => ∃ t, exec i s = .next t ∧
        t = { s with parts := t.parts, teams := t.teams, ops := t.ops } ∧ (∀ n, n ≠ part → t.part? n = s.part? n) ∧
        t.part? part = some { p with linkGen := bump p.linkGen at_, downBulk := down } ∧
        ∀ r y a, s.role? r = some y → s.team? r.team = some a →
          t.role? r = some (if a.part = part ∧ a.bulk = gate ∧ a.phase ≠ .saved ∧ (y.park.map (Park.heldBy (p.bulkOf k))).getD false
            then { y with park := none, accessErr := some (p.bulkOf k) } else y)
      cuts (.linkAuthFail part { gate := gate, target := .bulk k }) (at_ :: other) ∧
      cuts (.linkFail part gate (.bulk k)) (at_ :: other) ∧ cuts (.linkRetrained part gate (.bulk k)) other) ∧
    (∀ n : BitVec 10, let at_ := gate * 1024 + n.toNat
      let other := p.downNode.filter (fun x => x != at_)
      let node := fun (i : Instr) (down : List Nat) => ChangesPart i s part s.reply (fun p' => p' = { p with
        nodeGen := bump p.nodeGen at_, downNode := down })
      node (.linkAuthFail part { gate := gate, target := .node n }) (at_ :: other) ∧
      node (.linkFail part gate (.node n)) (at_ :: other) ∧ node (.linkRetrained part gate (.node n)) other) ∧
    ∀ l : BitVec 3,
      let way := fun (ring : BitVec 8) (i j : Nat) => 8 ≤ i ∨ 8 ≤ j ∨
        (∀ d < (j + 8 - i) % 8, ring.getLsbD ((i + d) % 8) = true) ∨ ∀ d < (i + 8 - j) % 8, ring.getLsbD ((j + d) % 8) = true
      let turns := fun (i : Instr) (ring : BitVec 8) => ∃ t, exec i s = .next t ∧ t.ring = ring ∧ t.mem = s.mem ∧
        t.bulks = s.bulks ∧ (rising s.parts = true → ∀ n q, s.part? n = some q → q.cfg.size ≤ 8 →
          ∃ y, t.part? n = some y ∧ y = { q with linkGen := y.linkGen } ∧ ∀ g k, g < q.cfg.size → k < q.cfg.size →
            let a := way s.ring (q.bulkOf g) (q.bulkOf k)
            let b := way ring (q.bulkOf g) (q.bulkOf k)
            (tget y.linkGen (g * 8 + k)).getD 0 = (tget q.linkGen (g * 8 + k)).getD 0 + (if a ↔ b then 0 else 1))
      turns (.linkFail part gate (.ring l)) (s.ring &&& ~~~((1 : BitVec 8) <<< l.toNat)) ∧
      turns (.linkRetrained part gate (.ring l)) (s.ring ||| ((1 : BitVec 8) <<< l.toNat)) ∧
      exec (.linkAuthFail part { gate := gate, target := .ring l }) s = .next s

/-- R42 to R46, R48, R246, R443: partitions are created from a signed image and dissolved, a bulkhead is remapped to a spare in
its three steps, and an overlay pool is resized. -/
def Obligations.partitionEvents : Prop :=  (∀ (img : ConfigImage) (n : Nat) (s : State),
    (s.powered = false ∨ signedImage img = false ∨ (s.part? n).isSome = true ∨ img.parts[n]? = none →
      exec (.partitionCreate img n) s = .next s) ∧
    ∀ c, img.parts[n]? = some c → s.powered = true → signedImage img = true → s.part? n = none → s.bulks.length = 16 →
     (c.size ∉ [1, 2, 4, 8] ∨ c.slotFirst = 0 ∨ 4096 < c.slotFirst + c.slotCount ∨
        (∃ k, k < c.carve.length ∧ (2 ^ 24 < c.carve[k]?.getD 0 ∨ (c.carve[k]?.getD 0) % 2 ^ 20 ≠ 0)) ∨
        s.partOf? c.pid ≠ none ∨ (∃ e ∈ s.parts, keysMeet c e.2.cfg = true) →
      ∃ t, exec (.partitionCreate img n) s = .next t ∧ t = { s with cfgDigest := img.digest, extMem := t.extMem }) ∧
     (cfgLegal c = true → s.partOf? c.pid = none → (∀ e ∈ s.parts, keysMeet c e.2.cfg = false) →
      (∀ k < c.size, s.ownerOf ((c.start + k) % 8) = none ∧ (s.bulk ((c.start + k) % 8)).state = .running) →
      ∃ t, exec (.partitionCreate img n) s = .next t ∧ t.cfgDigest = img.digest ∧ t.teams = s.teams ∧ t.mem = s.mem ∧
        t.part? n = some { Part.fresh c ((List.range c.size).map (fun k => (c.start + k) % 8)) with opened := true } ∧
        (∀ m, m ≠ n → t.part? m = s.part? m) ∧ ∀ k < c.size, (t.bulk ((c.start + k) % 8)).gate = true)) ∧
  (∀ (img : ConfigImage) (part : Nat) (s : State) (p : Part), s.part? part = some p →
    let i := Instr.partitionDissolve { img := img, part := part }
    (s.powered = false ∨ signedImage img = false → exec i s = .next s) ∧
    (s.powered = true → signedImage img = true → State.abandon part p p.launches s = none → exec i s = .next s) ∧
    ∀ u, s.powered = true → signedImage img = true → State.abandon part p p.launches s = some u →
      let passing := ∃ e ∈ u.ops, e.2.part ≠ part ∧ ∃ h ∈ e.2.reach.2, ∃ v, h.via = some v ∧ v.1 ∈ p.map
      ∃ t, exec i s = .next t ∧ t.cfgDigest = img.digest ∧ (∀ e ∈ t.teams, e.2.part ≠ part) ∧
        (∀ e ∈ t.ops, e.2.part ≠ part) ∧ (∀ e ∈ u.teams, e.2.part ≠ part → e ∈ t.teams) ∧
        (∀ b < u.bulks.length, (b ∈ p.map → ∀ w, some w ∈ (t.bulk b).wins → w.live = false) ∧
          ∀ w, some w ∈ (t.bulk b).wins → w.grantee = p.cfg.pid → w.live = false) ∧
        (passing → t.mem = u.mem ∧ t.keyGen = u.keyGen ∧ ∀ q, t.part? part = some q → q.opened = false) ∧
        (¬ passing → t.part? part = none ∧
          (∀ b ∈ p.map, ∀ a, b * bulkSpan ≤ a → a < b * bulkSpan + storageEnd → t.mem.rd a = 0) ∧
          (∀ b < u.bulks.length, b ∈ p.map → (t.bulk b).gate = false) ∧
          ∀ slot, (tget t.keyGen slot).getD 0 = (tget u.keyGen slot).getD 0 +
            (if p.cfg.slotFirst ≤ slot ∧ slot < p.cfg.slotFirst + p.cfg.slotCount then 1 else 0))) ∧
  (∀ (part k spare : Nat) (s : State) (p : Part), s.part? part = some p → k < p.cfg.size → s.bulks.length = 16 →
    p.bulkOf k < 16 → spare < 16 → spare ≠ p.bulkOf k →
    let i := Instr.remap part k spare
    (k ∉ p.remapStop → s.idleSpare p spare = false → exec i s = .next s) ∧
    (k ∉ p.remapStop → k ∉ p.remapping → s.idleSpare p spare = true → (s.bulk (p.bulkOf k)).state = .running →
      (∃ e ∈ s.parts, ∃ r ∈ e.2.remapTo, r.2 = spare) → exec i s = .next s) ∧
    (k ∉ p.remapStop → k ∉ p.remapping → s.idleSpare p spare = true → (s.bulk (p.bulkOf k)).state = .running →
      (∀ e ∈ s.parts, ∀ r ∈ e.2.remapTo, r.2 ≠ spare) → (s.bulk spare).clean = false → ChangesBulk i s spare
        { s.bulk spare with state := .reset, stepOne := false, gate := false, sref := false, hung := false }) ∧
    (k ∉ p.remapStop → k ∉ p.remapping → s.idleSpare p spare = true → (s.bulk (p.bulkOf k)).state = .running →
      (∀ e ∈ s.parts, ∀ r ∈ e.2.remapTo, r.2 ≠ spare) → (s.bulk spare).clean = true →
      ∃ t, exec i s = .next t ∧
        t.part? part = some { p with remapStop := k :: p.remapStop, remapTo := (k, spare) :: p.remapTo } ∧ t.mem = s.mem ∧
        ∀ n a, s.team? n = some a → a.part = part → a.bulk = k → a.phase = .resident →
          ∃ y, t.team? n = some y ∧ (y.phase = .stopping ∨ y.phase = .saved)) ∧
    (k ∈ p.remapStop → (∃ e ∈ s.teams, e.2.part = part ∧ e.2.bulk = k ∧ e.2.phase ≠ .saved) ∨
      s.holdsAny (p.bulkOf k) = true ∨ (s.bulk (p.bulkOf k)).sref = true → exec i s = .next s) ∧
    (k ∈ p.remapStop → (∀ e ∈ s.teams, e.2.part = part → e.2.bulk = k → e.2.phase = .saved) →
      (s.bulk (p.bulkOf k)).sref = false → s.holdsAny (p.bulkOf k) = false → s.storageWf = true → cfgLegal p.cfg = true →
      let a0 := p.bulkOf k * bulkSpan + p.cfg.carveAt[k]?.getD 0
      let n0 := p.cfg.carve[k]?.getD 0
      ∃ t q, exec i s = .next t ∧ t.teams = s.teams ∧
        (∀ a, t.mem.rd a = if a0 ≤ a ∧ a < a0 + n0 then p.bscratch.rd (k * 2 ^ 24 + (a - a0)) else s.mem.rd a) ∧
        (∀ m, t.bulk m = if m = p.bulkOf k then { s.bulk m with gate := false } else s.bulk m) ∧
        t.part? part = some q ∧ q = { p with
          linkGen := q.linkGen, remapping := k :: p.remapping, remapStop := p.remapStop.filter (fun x => x != k) } ∧
        ∀ j, (tget q.linkGen j).getD 0 = (tget p.linkGen j).getD 0 + (if ∃ g < p.cfg.size, j = g * 8 + k then 1 else 0)) ∧
    (k ∉ p.remapStop → k ∈ p.remapping → s.idleSpare p spare = true → (k, spare) ∉ p.remapTo → exec i s = .next s) ∧
    (k ∉ p.remapStop → k ∈ p.remapping → s.idleSpare p spare = true → (k, spare) ∈ p.remapTo → s.flawless = true →
      s.storageWf = true → cfgLegal p.cfg = true → p.map.length = p.cfg.size →
      let save := p.spareSave spare
      ∃ t q, exec i s = .next t ∧
        (∀ n a, s.team? n = some a → ∃ y, t.team? n = some y ∧ y.phase = a.phase ∧ y.bulk = a.bulk ∧ y.record = if a.part = part then
          a.record.map (fun r => if r.spare = some spare then { r with spare := none, at_ := k * bulkSpan + r.at_ } else r)
          else a.record) ∧
        (∀ a < storageEnd, t.mem.rd (spare * bulkSpan + a) = if save.1 ≤ a ∧ a < save.1 + save.2 then
          s.mem.rd (spare * bulkSpan + a) else s.mem.rd (p.bulkOf k * bulkSpan + a)) ∧
        (∀ q < storageEnd / 32, ¬ (save.1 / 32 ≤ q ∧ q < (save.1 + save.2) / 32) →
          t.mem.st (spare * bulkSpan / 32 + q) = s.mem.st (p.bulkOf k * bulkSpan / 32 + q)) ∧
        (t.bulk spare).wins = (s.bulk (p.bulkOf k)).wins ∧ (t.bulk spare).gate = true ∧ (t.bulk (p.bulkOf k)).gate = false ∧
        (t.bulk (p.bulkOf k)).state = .reset ∧ (t.bulk spare).lasting = (s.bulk (p.bulkOf k)).lasting ∧
        t.part? part = some q ∧ q = { p with
          linkGen := q.linkGen, map := lset p.map k spare, bscratch := q.bscratch,
          remapping := p.remapping.filter (fun x => x != k), remapTo := p.remapTo.filter (fun x => x.1 != k) } ∧
        ∀ j, (tget q.linkGen j).getD 0 = (tget p.linkGen j).getD 0 + (if ∃ g < p.cfg.size, j = g * 8 + k then 1 else 0)) ∧
    (k ∉ p.remapStop → exec (.remapPreemptTimeout part k) s = .next s) ∧
    (k ∈ p.remapStop → ∃ t, exec (.remapPreemptTimeout part k) s = .next t ∧ t.parts = s.parts ∧ t.mem = s.mem ∧
      ∀ n a, s.team? n = some a → a.part = part → a.bulk = k → a.phase = .resident ∨ a.phase = .stopping → a.fin = none →
        a.roles ≠ [] → ∃ y e, t.team? n = some y ∧ y.phase = .finishing ∧ y.fin = some e ∧ e.code = 0x1A)) ∧
  ∀ (part k lines : Nat) (s : State) (p : Part), s.part? part = some p →
    let i := Instr.overlayPoolResize part k lines
    let stops := storageEnd - 128 * lines
    let meets := fun lo n => n ≠ 0 ∧ stops < lo + n
    let taken := (∃ c ∈ p.cells, c.pool = k ∧ lines ≤ c.slot) ∨
      (∃ m ∈ p.migrated, m.frame / bulkSpan = k ∧ meets (m.frame % bulkSpan) m.size) ∨
      meets (p.cfg.carveAt[k]?.getD 0) (p.cfg.carve[k]?.getD 0) ∨ (p.cfg.saveArea.1 = k ∧ meets p.cfg.saveArea.2.1 p.cfg.saveArea.2.2)
    k < p.pools.length →
    (p.cfg.size ≤ k ∨ lines % 16384 ≠ 0 ∨ 67108864 < lines ∨ taken → exec i s = .next s) ∧
    (k < p.cfg.size → lines % 16384 = 0 → lines ≤ 67108864 → ¬ taken →
      ChangesPart i s part s.reply (fun p' => p' = { p with pools := lset p.pools k lines }))

/-- R137, R178, R320, R321, R326, R332, R335, R336: an operation of the matrix engine that may start applies its next groups,
or all of itself when it has none, while its core has no datapath fault. A transient fault is counted; a lasting one holds
the operation as a suspended one of its role, and on a second core ends the team. A complete operation leaves the engine. R294,
R322, R325: what its operands are read as is chosen when it first runs; with no write that an agent may still miss and no operand
that the engine may have kept, they are read as they stand. R268 to R271, R312, R427: a near-memory command whose turn it is
computes every element from its operands and writes Y; an element with a Z operand is errored and becomes the canonical NaN
in state Z. When it completes it writes its record, and a status other than 0 stays for NMWAIT. -/
def Obligations.operationsMove : Prop :=
  (∀ (n : Nat) (s : State) (o : EngOp) (m : MOp) (tm : Team), s.op? n = some o → o.kind = .mat m → s.team? o.owner.team = some tm →
    let core := s.coreOf tm
    let fault := tget (s.bulk core.1).coreFault core.2
    let grouped := m.kind = .mma ∨ ∃ x b, m.kind = .mmar x b
    let dense := fun (x : MOpnd) => ∀ d0 d1 tr, x = .scr d0 d1 tr → d1.extractLsb' 16 16 = (0 : BitVec 16)
    (∀ g, s.matReady n o m = false → exec (.matrixOpStart n g) s = .next s) ∧
    (∀ g, s.matReady n o m = true → grouped → fault = none ∨ fault = some .transient →
      let u := if fault = none then s else
        s.modBulk core.1 (fun k => { k with coreFault := tdel k.coreFault core.2, transient := satInc k.transient })
      let v := u.openMat o tm m
      let r := tm.applyMma v.2 g
      ∃ t y, exec (.matrixOpStart n g) s = .next t ∧ t.mem = s.mem ∧ t.team? o.owner.team = some y ∧
        y.scratch = r.1.scratch ∧ y.ob = tm.ob ∧
        t.op? n = some { o with started := true, moved := r.2.1.finished, kind := .mat r.2.1 } ∧
        (∀ b ∈ o.batches, ∀ x z, s.role? b.1 = some x → t.role? b.1 = some z → r.2.2 = true → z.ovf = true) ∧
        (r.2.2 = false → y = r.1) ∧ (m.opened = true → v = (u, m)) ∧
        ((∀ p ∈ m.pieces, dense p.a ∧ dense p.b) → s.past = [] → m.opened = false →
          v.2.src = none ∧ ∀ p ∈ v.2.pieces, p.viewA = none ∧ p.viewB = none) ∧
        (fault = none → m.opened = true ∨ (∀ p ∈ m.pieces, dense p.a ∧ dense p.b) → t.bulks = s.bulks) ∧
        (fault = some .transient → core.1 < s.bulks.length →
          (t.bulk core.1).transient = satInc (s.bulk core.1).transient ∧ tget (t.bulk core.1).coreFault core.2 = none)) ∧
    (∀ g, s.matReady n o m = true → fault = some .lasting → tm.phase ≠ .finishing → o.struck = none ∨ o.struck = some core →
      (∀ e ∈ s.teams, e.2.due = []) → core.1 < s.bulks.length →
      ∃ t y, exec (.matrixOpStart n g) s = .next t ∧ t.mem = s.mem ∧ t.op? n = none ∧ (∀ j, j ≠ n → t.op? j = s.op? j) ∧
        (t.bulk core.1).lasting = satInc (s.bulk core.1).lasting ∧
        t.team? o.owner.team = some y ∧ y.phase = tm.phase ∧ y.scratch = tm.scratch ∧ y.ob = tm.ob ∧
        ∀ x, s.role? o.owner = some x → t.role? o.owner = some
          { x with susp := x.susp ++ [{ op := m, gone := false, pre := some o.batches, struck := some core }] }) ∧
    (∀ g, s.matReady n o m = true → fault = some .lasting → tm.phase ≠ .finishing → tm.fin = none →
      (∃ c, o.struck = some c ∧ c ≠ core) → m.bufs = [] → (∀ e ∈ s.teams, e.2.due = []) → core.1 < s.bulks.length →
      ∃ t y e, exec (.matrixOpStart n g) s = .next t ∧ t.mem = s.mem ∧ t.op? n = none ∧
        (t.bulk core.1).lasting = satInc (s.bulk core.1).lasting ∧
        t.team? o.owner.team = some y ∧ y.phase = .finishing ∧ y.fin = some e ∧ e.code = TCode.dualMismatch.num ∧
        e.role = o.owner.role ∧ y.scratch = tm.scratch ∧
        ∀ x, s.role? o.owner = some x → e.pc = if x.park.isSome then x.item.pc else 0xFFFFFFFF) ∧
    (∀ g, s.matReady n o m = true → ¬ grouped → fault = none →
      ∃ t, exec (.matrixOpStart n g) s = .next t ∧ (∀ j, j ≠ n → t.op? j = s.op? j) ∧
        t = { s with free := t.free, teams := t.teams, ops := t.ops, past := t.past, clock := t.clock, bulks := t.bulks } ∧
        t.team? o.owner.team = some (tm.applyPlain (s.openMat o tm m).2) ∧
        (∀ k, k ≠ o.owner.team → t.team? k = s.team? k) ∧
        t.op? n = some { o with started := true, moved := true } ∧
        (m.pieces = [] → s.past = [] → t.free = s.free ∧ t.bulks = s.bulks) ∧
        (m.kind = .mzero → 32 ∣ m.tile.m * m.tile.n * m.tile.e →
          ∀ b, at256 m.acc ≤ b → b < at256 m.acc + m.tile.m * m.tile.n * m.tile.e → (tm.applyPlain m).scratch.rd b = 0)) ∧
    (o.moved = false → exec (.matrixOpComplete n) s = .next s) ∧
    (o.moved = true → (∀ e ∈ s.teams, e.2.due = []) → m.bufs = [] → exec (.matrixOpComplete n) s = .next (s.delOp n)) ∧
    (o.moved = true → tm.ob = none → (∀ e ∈ s.teams, e.2.due = []) → exec (.matrixOpComplete n) s = .next (s.delOp n))) ∧
  (∀ (n : Nat) (s : State) (o : EngOp) (k : NmcOp), s.op? n = some o → o.kind = .nmc k →
    let run := (List.range k.n).foldl (fun (g : NmcRun) i => g.elem o k i) { s := s, ys := [], nerr := 0, first := 0xFFFFFFFF }
    let w := run.s.nmcWrite o k run.ys
    (o.started = true ∨ s.behind n o = true ∨ s.nmcBehind n o k = true → exec (.nmcStart n) s = .next s) ∧
    (o.started = false → s.behind n o = false → s.nmcBehind n o k = false → s.engHeld o = true →
      exec (.nmcStart n) s = .next (if o.hold.isSome then s else
        { s with seq := s.seq + 1, ops := tmod s.ops n (fun o => { o with hold := some s.seq }) })) ∧
    (∀ j, s.engHeld o = false → o.hold = some j → s.heldBefore j = true → exec (.nmcStart n) s = .next s) ∧
    (o.started = false → s.behind n o = false → s.nmcBehind n o k = false → s.engHeld o = false →
      (∀ j, o.hold = some j → s.heldBefore j = false) →
      ∃ t, exec (.nmcStart n) s = .next t ∧ t.mem = w.1.mem ∧ t.op? n = some { o with
        started := true, moved := true, kind := .nmc { k with nerr := run.nerr, firstErr := run.first, lost := w.2 } } ∧
        run.ys.length = k.n ∧ (k.code = 5 → run.nerr = 0 ∧
          run.ys = List.replicate k.n (k.p0.toNat, joinAll [k.sstand]))) ∧
    (o.moved = false ∨ s.engHeld o = true → exec (.nmcComplete n) s = .next s) ∧
    (o.moved = true → s.engHeld o = false → (∀ e ∈ s.teams, e.2.due = []) →
      let status := if k.lost then 2 else if k.nerr = 0 then 0 else 1
      let v := status + 2 ^ 7 + (if k.f64 then 2 ^ 8 else 0) + k.code.toNat * 2 ^ 12 + k.n * 2 ^ 64 + k.firstErr.toNat * 2 ^ 96 +
        k.nerr * 2 ^ 128 + k.serial.toNat * 2 ^ 160 + k.y.toNat * 2 ^ 192
      let u := s.engWrite o k.xls false k.recAddr.toNat 32 v .S
      ∃ t, exec (.nmcComplete n) s = .next t ∧ t.op? n = none ∧ t.mem = u.1.mem ∧
        ∀ x, s.role? o.owner = some x → ∃ y, t.role? o.owner = some y ∧
          (k.lost = true ∨ u.2 = true → y.deferred.remote ≠ none) ∧ (status = 0 → y.nmcErr = x.nmcErr) ∧
          (status ≠ 0 → x.nmcErr = none → y.nmcErr = some k.serial) ∧
          ∀ e, status ≠ 0 → x.nmcErr = some e → y.nmcErr = some (if e.toNat < k.serial.toNat then e else k.serial)))

/-- R278, R291, R293, R297, R299: a copy whose order and stacks allow it moves its data: it reads every source sector before it
writes its destination sectors in order. With no write that an agent may still miss it reads and writes as the bytes stand; else a byte comes
as a listed write found it, or the role's own store lands after the copy (R294, R364). R232, R272: while its requests are held it
waits, and those accepted earlier go first. When it completes, its bytes count into its barrier, its counter is decremented, and
its ranges and flag are free. -/
def Obligations.copiesMove : Prop :=  ∀ (n : Nat) (s : State) (o : EngOp) (k : CopyOp) sch, s.op? n = some o → o.kind = .copy k sch →
    (o.started = true ∨ s.behind n o = true ∨ s.obTurn n o k = false → exec (.copyStart n) s = .next s) ∧
    (o.started = false → s.behind n o = false → s.obTurn n o k = true → s.engHeld o = true →
      exec (.copyStart n) s = .next (if o.hold.isSome then s else
        { s with seq := s.seq + 1, ops := tmod s.ops n (fun o => { o with hold := some s.seq }) })) ∧
    (∀ j, s.engHeld o = false → o.hold = some j → s.heldBefore j = true → exec (.copyStart n) s = .next s) ∧
    (o.started = false → s.behind n o = false → s.obTurn n o k = true → s.engHeld o = false →
      (∀ j, o.hold = some j → s.heldBefore j = false) →
      let g := s.gatherCopy o k
      let r := g.1.scatterCopy o k g.2
      s.lacksLines o k g.2 = false →
      ∃ t, exec (.copyStart n) s = .next t ∧
        t.op? n = some { o with started := true, moved := true, kind := .copy { k with written := r.written } sch } ∧
        t.mem = (match k.scale with | some p => r.s.placeScales o k p | none => r.s).mem ∧
        (k.scale = none → r.full = false → r.lost = false → t.teams = r.s.teams ∧ t.parts = r.s.parts) ∧
        ∀ x y, r.s.role? o.owner = some x → k.scale = none → t.role? o.owner = some y →
          (r.full = true → y.deferred.overlay ≠ none) ∧ (r.lost = true → y.deferred.remote ≠ none)) ∧
    (∀ a d tm p, o.started = false → s.behind n o = false → k.src = .t a → k.dst = .b d → k.planes = 8 → k.scale = none →
      k.ty = .i8 → k.ext = [1, 1, 1, 1] → s.team? o.owner.team = some tm → s.part? o.part = some p →
      s.engHeld o = false → (∀ j, o.hold = some j → s.heldBefore j = false) → s.bsLost o d = false →
      ∃ t q, exec (.copyStart n) s = .next t ∧ t.part? o.part = some q ∧ t.teams = s.teams ∧ t.mem = s.mem ∧
        (∀ b, b ≠ d → q.bscratch.rd b = p.bscratch.rd b) ∧ (∀ e, e ≠ d / 32 → q.bscratch.st e = p.bscratch.st e) ∧
        (q.bscratch.rd d = tm.scratch.rd a ∨ q.bscratch.rd d = p.bscratch.rd d ∨
          ∃ w ∈ s.past, w.was.loc = .t o.owner.team ∧ w.was.sec = a / 32 ∧ w.was.bytes.getLsbD (a % 32) = true ∧
            (q.bscratch.rd d).toNat = w.was.old.toNat / 256 ^ (a % 32) % 256) ∧
        (s.past = [] →
          let st := tm.scratch.st (a / 32)
          q.bscratch.rd d = tm.scratch.rd a ∧ q.bscratch.st (d / 32) =
            joinSt (p.bscratch.st (d / 32)) (markSt k.mark (if k.prop then (if st = .Z then .Z else .P) else st)))) ∧
    (o.moved = false ∨ s.engHeld o = true → exec (.copyComplete n) s = .next s) ∧
    (o.moved = true → s.engHeld o = false → (∀ e ∈ s.teams, e.2.due = []) → k.dep = none →
      (k.bar = none → exec (.copyComplete n) s = .next (s.delOp n)) ∧
      ∀ b tm, k.bar = some b → s.team? o.owner.team = some tm →
        let v := tm.scratch.rdNat b 8
        let pending := v % 2 ^ 32
        ∃ t x, exec (.copyComplete n) s = .next t ∧ t.op? n = none ∧ t.team? o.owner.team = some x ∧ t.mem = s.mem ∧
          x.scratch.rdNat b 8 = (if pending = k.written then (1 - v / 2 ^ 63) * 2 ^ 63
            else v / 2 ^ 63 * 2 ^ 63 + (v / 2 ^ 32 % 2 ^ 31 + 1) % 2 ^ 31 * 2 ^ 32 + (pending + 2 ^ 32 - k.written % 2 ^ 32) % 2 ^ 32) ∧
          (∀ c, c < b ∨ b + 8 ≤ c → x.scratch.rd c = tm.scratch.rd c) ∧ (∀ c, x.scratch.st c = tm.scratch.st c) ∧
          ∀ y, t.role? o.owner = some y → pending < k.written → y.deferred.bar ≠ none) ∧
    ∀ r, o.moved = true → s.engHeld o = false → k.bar = none → k.dep = some r →
      s.reachable r.pp r.x true r.va = true → s.ctrErr o.err r = false →
      let u := (s.releaseOp o).decrement o.owner r
      (∀ e ∈ u.teams, e.2.due = []) → exec (.copyComplete n) s = .next (u.delOp n)

/-- R89, R131, R132, R136, R158, R240, R246: what lets a waiting role go on: its oldest retire or long-latency instruction
completes, a role that waits is served, a yield ends, and a parked instruction is executed again. -/
def Obligations.rolesGoOn : Prop :=  ∀ (r : RoleRef) (s : State) (a : Team) (x : Role), s.team? r.team = some a → s.role? r = some x →
    let pend := ∃ p, s.part? a.part = some p ∧ ∃ y ∈ p.retires, y.role = r
    (¬ pend → ChangesRole (.longLatencyComplete r) s r { x with out := x.out.drop 1 }) ∧
    (∀ p y, s.part? a.part = some p → p.retires.find? (fun y => y.role == r) = some y →
      ∃ t q, exec (.longLatencyComplete r) s = .next t ∧ t.teams = s.teams ∧ t.part? a.part = some q ∧
        (∀ tag, tget q.ctxs tag = if ∃ g ∈ p.retiring y, g.toNat = tag then none else tget p.ctxs tag) ∧
        (∀ c ∈ q.cells, c ∈ p.cells ∧ c.tag ∉ p.retiring y) ∧ q.retires = p.retires.erase y) ∧
    (s.mayIssue r = true → exec (.fairnessServe r) s = .next { s with turn := some r }) ∧
    (s.mayIssue r = false → exec (.fairnessServe r) s = .next s) ∧
    ChangesRole (.yieldExpiry r) s r { x with yielded := false } ∧
    (x.park = some .budget → x.out = [] → ¬ pend → ChangesRole (.budgetRetry r) s r { x with park := none }) ∧
    (x.out ≠ [] ∨ pend → exec (.budgetRetry r) s = .next s) ∧
    (x.park = some .ctxnew → ChangesRole (.ctxnewRetry r) s r { x with park := none }) ∧
    (x.park ≠ some .ctxnew → ChangesRole (.ctxnewRetry r) s r x) ∧
    (x.park = some .overlay → ChangesRole (.overlayRetry r) s r { x with park := none }) ∧
    (x.park ≠ some .overlay → ChangesRole (.overlayRetry r) s r x)

/-- R226, R230, R232, R236, R407, R408, R424: what firmware does for a role at a page that is not resident, at a target that
is out of reach and after a lasting fault, the sweep of the last-page registers, and the move of a valid page. -/
def Obligations.firmwareEvents : Prop :=  (∀ (r : RoleRef) (s : State) (a : Team) (x : Role), s.team? r.team = some a → s.role? r = some x → a.fin = none →
    a.phase ≠ .finishing →
    let ends := fun (i : Instr) (u : State) (c : TCode) => ∃ t y e, exec i s = .next t ∧ t.team? r.team = some y ∧
      y.phase = .finishing ∧ y.fin = some e ∧ e.code = c.num ∧ e.role = r.role ∧ e.pc = x.item.pc ∧ t.mem = u.mem ∧
      ∀ k, k ≠ r.team → t.team? k = u.team? k
    (∀ va u, x.park = some (.page va) → u.role? r = some x → u.team? r.team = some a →
      let w := s.behindWindow a.part va.toNat
      (s.resolvePage w.1 w.2 = (u, true) → ∃ t, exec (.migration r) s = .next t ∧ t.mem = u.mem ∧
        t.role? r = some { x with park := none }) ∧
      (s.resolvePage w.1 w.2 = (u, false) → ends (.migration r) u .page)) ∧
    (∀ va, x.park = some (.remote va) →
      (∃ t y, exec (.remoteGoneReplay r true) s = .next t ∧ t.mem = s.mem ∧ t.role? r = some y ∧
        y = { x with park := none, lastPage := y.lastPage } ∧ ∀ e ∈ y.lastPage, e ∈ x.lastPage) ∧
      ends (.remoteGoneReplay r false) s .remoteGone) ∧
    (x.park = some .dual → a.phase = .resident → (s.coreOf a).1 < s.bulks.length →
      ∃ t y, exec (.dualMismatchRecovery r) s = .next t ∧ t.mem = s.mem ∧
        (s.coreOf a).2 ∈ (t.bulk (s.coreOf a).1).coresOut ∧ t.team? r.team = some y ∧ (y.phase = .stopping ∨ y.phase = .saved) ∧
        y.pre = some .dual) ∧
    (x.park = none → ∀ i ∈ [Instr.migration r, .remoteGoneReplay r true, .remoteGoneReplay r false, .dualMismatchRecovery r],
      exec i s = .next s)) ∧
  (∀ (part : Nat) (s : State), ∃ t, exec (.firmwareLpSweep part) s = .next t ∧ t = { s with teams := t.teams } ∧
    ∀ n a, s.team? n = some a → t.team? n = some (if a.part = part then
      { a with roles := a.roles.map (fun r => { r with lastPage := [] }) } else a)) ∧
  ∀ (part : Nat) (va : DWord) tier frame (s : State) (p : Part) (l : LeafAt), s.part? part = some p →
    s.leafAt p va.toNat = some l → s.flaws = [] →
    (pteV l.e = false ∨ pteMig l.e = true ∨ pteRp l.e = true → exec (.pageMove part va tier frame) s = .next s) ∧
    (pteV l.e = true → pteMig l.e = false → pteRp l.e = false → p.badLeaf l.lvl l.e = false →
      p.badLeaf l.lvl (leafWith l.e true tier frame) = false → l.at_ % 8 = 0 →
      s.keyFits (s.keyName p.cfg.slotFirst) (p.phys l.at_ / 64) = true → ∃ t q, exec (.pageMove part va tier frame) s = .next t ∧
        t.mem = s.mem.store (p.phys l.at_) 8 (l.e ||| 0x40).toNat .S ∧ t.part? part = some q ∧
        q = { p with moves := p.moves ++ [{ va := va, tier := tier, frame := frame }], tlb := q.tlb } ∧
        ∀ x ∈ q.tlb, x ∈ p.tlb ∧ (x.va + x.size ≤ va.toNat ∨ va.toNat < x.va)) ∧
    ((∀ m ∈ p.moves, m.va ≠ va) → exec (.migrationSwitch part va) s = .next s) ∧
    ∀ m, p.moves.find? (fun m => m.va == va) = some m →
      let old := l.xl p va.toNat
      let e := leafWith l.e true m.tier m.frame
      let new : Xl := { old with entry := e, gen := p.genOf old.gate e }
      l.at_ % 8 = 0 → (s.copyPage p old new).keyFits (s.keyName p.cfg.slotFirst) (p.phys l.at_ / 64) = true →
      ∃ t q, exec (.migrationSwitch part va) s = .next t ∧
        t.mem = (s.copyPage p old new).mem.store (p.phys l.at_) 8 e.toNat .S ∧ t.extMem = (s.copyPage p old new).extMem ∧
        t.part? part = some q ∧ (∀ y ∈ q.moves, y.va ≠ va) ∧ (∀ x ∈ q.tlb, x.va + x.size ≤ va.toNat ∨ va.toNat < x.va) ∧
        ∀ n a, s.team? n = some a → a.part = part → s.window? p.cfg.pid va.toNat = none →
          ∀ b, t.team? n = some b → ∀ r ∈ b.roles, ∀ k, r.park ≠ some (.moving va k)

/-- R9, R35, R72, R78, R82, R409 to R419: a pre-emption is requested of a team with all that stops with it; a role stops
after PDIST instructions; a team that has stopped and drained is saved: its record is written in the save area under the
partition's first key slot, and it waits while there is no room; a saved team is placed, loaded from its record and resumed in its
turn; and a partly filled gang that times out ends its team. Where in its area a record stands is the model's choice (log 50). -/
def Obligations.preemptions : Prop :=  ∀ (n : Nat) (s : State) (a : Team), s.team? n = some a →
    (∃ t, exec (.preemptRequest n) s = .next t ∧ t = { s with teams := t.teams } ∧
      (∀ k, k ∉ s.unit n → t.team? k = s.team? k) ∧ n ∈ s.unit n ∧
      ∀ k b, k ∈ s.unit n → s.team? k = some b → ∃ c, t.team? k = some c ∧
        (b.phase = .inbound → c = { b with phase := .saved, pre := some .priority }) ∧
        (b.phase = .resident → s.together k b = true →
          c = { b with phase := .stopping, pre := some .priority, roles := b.roles.map (fun x => { x with issued := 0 }) }) ∧
        (b.phase = .stopping ∨ b.phase = .saved ∨ b.phase = .finishing → c = b)) ∧
    (∀ k x p l, let r : RoleRef := { team := n, role := k }
      a.roles[k]? = some x → s.part? a.part = some p → p.launch? a.serial = some l →
      (a.phase = .stopping → x.stop = none → x.ended = false → x.empty = false → x.park = none → a.gangHeld k = false →
        x.unfinished = none → x.accessErr = none →
        ¬ (x.pos.left = 0 ∧ l.side.any (fun e => e.off == if x.pos.pc % 32 = 28 then x.pos.pc + 4 else x.pos.pc) = true) →
        (if l.pdist = 0 then 65536 else l.pdist.toNat) ≤ x.issued →
        ChangesRole (.pdistExpiry r) s r { x with stop := some .next }) ∧
      (a.phase ≠ .stopping ∨ x.stop ≠ none ∨ x.ended = true ∨ x.park ≠ none ∨
          x.issued < (if l.pdist = 0 then 65536 else l.pdist.toNat) →
        exec (.pdistExpiry r) s = .next s)) ∧
    (a.phase = .stopping → (∃ g ∈ a.gangs, g.fills ≠ []) → a.fin = none →
      ∃ t y e, exec (.gangPreemptTimeout n) s = .next t ∧ t.team? n = some y ∧ y.phase = .finishing ∧ y.fin = some e ∧
        e.code = 0x1A ∧ s.ButTeam t n) ∧
    (a.phase ≠ .stopping ∨ (∀ g ∈ a.gangs, g.fills = []) → exec (.gangPreemptTimeout n) s = .next s) ∧
    (∀ p l, s.part? a.part = some p → p.launch? a.serial = some l →
      (a.phase ≠ .stopping ∨ (∃ r ∈ a.roles, r.stop = none ∧ r.ended = false) ∨ (∃ g ∈ a.gangs, g.fills ≠ []) →
        exec (.preemptDrain n) s = .next s) ∧
      (a.phase = .stopping → (∀ r ∈ a.roles, r.stop ≠ none ∨ r.ended = true) → (∀ g ∈ a.gangs, g.fills = []) → a.due = [] →
        (∀ e ∈ s.ops, e.2.owner.team ≠ n) →
        let b : Team := { a with phase := .saved, roles := a.roles.map (fun (r : Role) => { r.saved l with acq := s.startAcq, rels := [] }) }
        let len := (b.recordMap l).len
        (s.placeRecord a.part p a.bulk len = none → exec (.preemptDrain n) s = .next s) ∧
        ∀ r, s.placeRecord a.part p a.bulk len = some r →
        let at_ := p.recordAt r
        ∃ t y, exec (.preemptDrain n) s = .next t ∧ t = { s with
            teams := t.teams, parts := t.parts, mem := t.mem, ukeys := t.ukeys, flaws := t.flaws, symFlaws := t.symFlaws, past := t.past } ∧
          t.team? n = some y ∧ y = { b with record := some r } ∧
          (∀ o < len, t.mem.rd (at_ + o) = (b.saveRecord l).rd o) ∧
          (∀ x, x < at_ ∨ at_ + len ≤ x → t.mem.rd x = s.mem.rd x) ∧
          (∀ u, at_ / 64 ≤ u → u < (at_ + len) / 64 → t.keyFits (s.keyName p.cfg.slotFirst) u = true) ∧
          (let c := b.controlBlock l
           (b.saveRecord l).rdNat 0 64 = c.toNat ∧ c.extractLsb' 448 64 = a.serial ∧ c.extractLsb' 416 32 = a.taskidx ∧
           c.extractLsb' 384 32 = BitVec.ofNat 32 len ∧ c.extractLsb' 364 20 = BitVec.ofNat 20 l.scratch ∧
           c.extractLsb' 360 4 = BitVec.ofNat 4 a.roles.length ∧ c.extractLsb' 336 16 = (0x5356 : BitVec 16) ∧
           c.extractLsb' 320 16 = (1 : BitVec 16) ∧ c.getLsbD 175 = a.ob.isSome ∧ c.getLsbD 174 = a.sg.isSome ∧
           c.extractLsb' 163 3 = a.prio) ∧
          (∀ z ∈ y.roles, let c := z.controlBlock (z.regLen l)
            c.extractLsb' 480 32 = z.resumeAt.1 ∧ c.extractLsb' 448 32 = z.resumeAt.2 ∧
            c.extractLsb' 444 4 = (if z.ended then RKind.ended else z.stop.getD .next).code ∧ c.extractLsb' 394 14 = z.ctx ∧
            c.extractLsb' 224 32 = BitVec.ofNat 32 (z.regLen l)) ∧
          y.phase = .saved ∧ (∀ k, k ≠ n → t.team? k = s.team? k) ∧ y.scratch = a.scratch ∧ y.bars = a.bars ∧
          y.roles.length = a.roles.length ∧ ∀ (k : Nat) x z, a.roles[k]? = some x → y.roles[k]? = some z →
            z.pos = x.pos ∧ z.stop = x.stop ∧ z.mask = x.mask ∧ z.div = x.div ∧ z.ret = x.ret ∧ z.ctx = x.ctx ∧ z.out = [] ∧
            (x.stop ≠ some .header → z.v = x.v ∧ z.p = x.p ∧ z.s = x.s) ∧
            ∀ e, x.stop = some .header → l.side.find? (fun e => e.off == x.pos.pc) = some e →
              ∀ m : BitVec 7, z.sreg m = if e.slive.getLsbD m.toNat then x.sreg m else { val := 0, st := .S })) ∧
    ∀ p l pr rest c, s.part? a.part = some p → p.launch? a.serial = some l → s.candidates a.part p = (.again n, pr) :: rest →
      a.phase = .saved → s.unit n = [n] → a.sg = none → a.cohort = none → s.windowBusy [n] a l = false →
      (∀ r ∈ a.roles, ∀ y ∈ r.susp, y.pre = none) → (∀ e ∈ s.ops, e.2.owner.team ≠ n) →
      probe l.seed a.taskidx.toNat (s.coresAgain p a l none) (s.canHand a.part p l a.ob.isSome) = some c →
      (s.modTeam n (fun t => t.putOn c)).lockRoom n [] = true →
      (∀ r, a.record = some r → s.recordOpen p r = true → s.flawless = true →
        let at_ := p.recordAt r
        let b := (a.putOn c).load l (s.seenRegion (s.keyName p.cfg.slotFirst) at_ r.len) at_
        ∃ t y, exec (.teamRestore n) s = .next t ∧ t.mem = s.mem ∧ (∀ k, k ≠ n → t.team? k = s.team? k) ∧
          t.team? n = some y ∧ y = { b with record := none, roles := b.roles.map Role.resumed } ∧ y.phase = .resident ∧
          y.bulk = c.1 ∧ y.core = c.2 ∧ y.pre = none ∧ y.roles.length = a.roles.length ∧
          ((∀ e ∈ s.ukeys, at_ / 64 ≤ e.1 → e.1 < (at_ + r.len) / 64 → e.2 = s.keyName p.cfg.slotFirst) →
            let cb : BitVec 512 := BitVec.ofNat 512 (s.mem.rdNat at_ 64)
            y.serial = cb.extractLsb' 448 64 ∧ y.taskidx = cb.extractLsb' 416 32 ∧ y.prio = cb.extractLsb' 163 3 ∧
            ∀ (k : Nat) z, y.roles[k]? = some z →
              let rb : BitVec 512 := BitVec.ofNat 512 (s.mem.rdNat (at_ + 0x200 + 16384 * k) 64)
              z.stop = none ∧ z.stage = rb.extractLsb' 408 16 ∧ z.ctx = rb.extractLsb' 394 14 ∧ z.batch = rb.extractLsb' 352 32 ∧
              z.mask = BitVec.ofNat 1024 (s.mem.rdNat (at_ + 0x200 + 16384 * k + 0x40) 128))) ∧
      (∀ r, a.record = some r → s.recordOpen p r = false → exec (.teamRestore n) s = .next s) ∧
      (a.record = none →
      ∃ t y, exec (.teamRestore n) s = .next t ∧ t.team? n = some y ∧ y.phase = .resident ∧ y.bulk = c.1 ∧ y.core = c.2 ∧
        y.pre = none ∧ y.scratch = a.scratch ∧ (∀ k, k ≠ n → t.team? k = s.team? k) ∧ t.mem = s.mem ∧
        ∀ (k : Nat) x z, a.roles[k]? = some x → y.roles[k]? = some z → z.stop = none ∧ z.mask = x.mask ∧ z.v = x.v ∧ z.p = x.p ∧
          z.s = x.s ∧ (x.stop ≠ some .header → z.pos = x.pos) ∧ (x.stop = some .header → z.pos = CodePos.header x.pos.pc) ∧
          ∀ b, x.stop = some .await → x.park = some (.bar b) → z.park = some (.bar b))

end
end

