-- ==== Sys2Proof/Laws/State.lean ====
section
/-! SUPPORT. What each update of the state leaves alone: one lemma per field and update. -/
namespace Sys2Proof.Machine

@[simp] theorem State.setPart_tick (s : State) (p : Nat) (x : Part) : (s.setPart p x).tick = s.tick := rfl
@[simp] theorem State.setPart_free (s : State) (p : Nat) (x : Part) : (s.setPart p x).free = s.free := rfl
@[simp] theorem State.setPart_inputs (s : State) (p : Nat) (x : Part) : (s.setPart p x).inputs = s.inputs := rfl
@[simp] theorem State.setPart_turn (s : State) (p : Nat) (x : Part) : (s.setPart p x).turn = s.turn := rfl
@[simp] theorem State.setPart_cur (s : State) (p : Nat) (x : Part) : (s.setPart p x).cur = s.cur := rfl
@[simp] theorem State.setPart_reply (s : State) (p : Nat) (x : Part) : (s.setPart p x).reply = s.reply := rfl
@[simp] theorem State.setPart_nextTeam (s : State) (p : Nat) (x : Part) : (s.setPart p x).nextTeam = s.nextTeam := rfl
@[simp] theorem State.setPart_nextOp (s : State) (p : Nat) (x : Part) : (s.setPart p x).nextOp = s.nextOp := rfl
@[simp] theorem State.setPart_seq (s : State) (p : Nat) (x : Part) : (s.setPart p x).seq = s.seq := rfl
@[simp] theorem State.setPart_outside (s : State) (p : Nat) (x : Part) : (s.setPart p x).outside = s.outside := rfl
@[simp] theorem State.setPart_serving (s : State) (p : Nat) (x : Part) : (s.setPart p x).serving = s.serving := rfl
@[simp] theorem State.setPart_past (s : State) (p : Nat) (x : Part) : (s.setPart p x).past = s.past := rfl
@[simp] theorem State.setPart_clock (s : State) (p : Nat) (x : Part) : (s.setPart p x).clock = s.clock := rfl
@[simp] theorem State.setPart_symFlaws (s : State) (p : Nat) (x : Part) : (s.setPart p x).symFlaws = s.symFlaws := rfl
@[simp] theorem State.setPart_keyEra (s : State) (p : Nat) (x : Part) : (s.setPart p x).keyEra = s.keyEra := rfl
@[simp] theorem State.setPart_ukeys (s : State) (p : Nat) (x : Part) : (s.setPart p x).ukeys = s.ukeys := rfl
@[simp] theorem State.setPart_powered (s : State) (p : Nat) (x : Part) : (s.setPart p x).powered = s.powered := rfl
@[simp] theorem State.setPart_dies (s : State) (p : Nat) (x : Part) : (s.setPart p x).dies = s.dies := rfl
@[simp] theorem State.setPart_bulks (s : State) (p : Nat) (x : Part) : (s.setPart p x).bulks = s.bulks := rfl
@[simp] theorem State.setPart_mem (s : State) (p : Nat) (x : Part) : (s.setPart p x).mem = s.mem := rfl
@[simp] theorem State.setPart_extMem (s : State) (p : Nat) (x : Part) : (s.setPart p x).extMem = s.extMem := rfl
@[simp] theorem State.setPart_flaws (s : State) (p : Nat) (x : Part) : (s.setPart p x).flaws = s.flaws := rfl
@[simp] theorem State.setPart_ring (s : State) (p : Nat) (x : Part) : (s.setPart p x).ring = s.ring := rfl
@[simp] theorem State.setPart_keyGen (s : State) (p : Nat) (x : Part) : (s.setPart p x).keyGen = s.keyGen := rfl
@[simp] theorem State.setPart_repSerial (s : State) (p : Nat) (x : Part) : (s.setPart p x).repSerial = s.repSerial := rfl
@[simp] theorem State.setPart_cfgDigest (s : State) (p : Nat) (x : Part) : (s.setPart p x).cfgDigest = s.cfgDigest := rfl
@[simp] theorem State.setPart_parts (s : State) (p : Nat) (x : Part) : (s.setPart p x).parts = tset s.parts p x := rfl
@[simp] theorem State.setPart_teams (s : State) (p : Nat) (x : Part) : (s.setPart p x).teams = s.teams := rfl
@[simp] theorem State.setPart_ops (s : State) (p : Nat) (x : Part) : (s.setPart p x).ops = s.ops := rfl

@[simp] theorem State.modPart_tick (s : State) (p : Nat) (f : Part → Part) : (s.modPart p f).tick = s.tick := rfl
@[simp] theorem State.modPart_free (s : State) (p : Nat) (f : Part → Part) : (s.modPart p f).free = s.free := rfl
@[simp] theorem State.modPart_inputs (s : State) (p : Nat) (f : Part → Part) : (s.modPart p f).inputs = s.inputs := rfl
@[simp] theorem State.modPart_turn (s : State) (p : Nat) (f : Part → Part) : (s.modPart p f).turn = s.turn := rfl
@[simp] theorem State.modPart_cur (s : State) (p : Nat) (f : Part → Part) : (s.modPart p f).cur = s.cur := rfl
@[simp] theorem State.modPart_reply (s : State) (p : Nat) (f : Part → Part) : (s.modPart p f).reply = s.reply := rfl
@[simp] theorem State.modPart_nextTeam (s : State) (p : Nat) (f : Part → Part) : (s.modPart p f).nextTeam = s.nextTeam := rfl
@[simp] theorem State.modPart_nextOp (s : State) (p : Nat) (f : Part → Part) : (s.modPart p f).nextOp = s.nextOp := rfl
@[simp] theorem State.modPart_seq (s : State) (p : Nat) (f : Part → Part) : (s.modPart p f).seq = s.seq := rfl
@[simp] theorem State.modPart_outside (s : State) (p : Nat) (f : Part → Part) : (s.modPart p f).outside = s.outside := rfl
@[simp] theorem State.modPart_serving (s : State) (p : Nat) (f : Part → Part) : (s.modPart p f).serving = s.serving := rfl
@[simp] theorem State.modPart_past (s : State) (p : Nat) (f : Part → Part) : (s.modPart p f).past = s.past := rfl
@[simp] theorem State.modPart_clock (s : State) (p : Nat) (f : Part → Part) : (s.modPart p f).clock = s.clock := rfl
@[simp] theorem State.modPart_symFlaws (s : State) (p : Nat) (f : Part → Part) : (s.modPart p f).symFlaws = s.symFlaws := rfl
@[simp] theorem State.modPart_keyEra (s : State) (p : Nat) (f : Part → Part) : (s.modPart p f).keyEra = s.keyEra := rfl
@[simp] theorem State.modPart_ukeys (s : State) (p : Nat) (f : Part → Part) : (s.modPart p f).ukeys = s.ukeys := rfl
@[simp] theorem State.modPart_powered (s : State) (p : Nat) (f : Part → Part) : (s.modPart p f).powered = s.powered := rfl
@[simp] theorem State.modPart_dies (s : State) (p : Nat) (f : Part → Part) : (s.modPart p f).dies = s.dies := rfl
@[simp] theorem State.modPart_bulks (s : State) (p : Nat) (f : Part → Part) : (s.modPart p f).bulks = s.bulks := rfl
@[simp] theorem State.modPart_mem (s : State) (p : Nat) (f : Part → Part) : (s.modPart p f).mem = s.mem := rfl
@[simp] theorem State.modPart_extMem (s : State) (p : Nat) (f : Part → Part) : (s.modPart p f).extMem = s.extMem := rfl
@[simp] theorem State.modPart_flaws (s : State) (p : Nat) (f : Part → Part) : (s.modPart p f).flaws = s.flaws := rfl
@[simp] theorem State.modPart_ring (s : State) (p : Nat) (f : Part → Part) : (s.modPart p f).ring = s.ring := rfl
@[simp] theorem State.modPart_keyGen (s : State) (p : Nat) (f : Part → Part) : (s.modPart p f).keyGen = s.keyGen := rfl
@[simp] theorem State.modPart_repSerial (s : State) (p : Nat) (f : Part → Part) : (s.modPart p f).repSerial = s.repSerial := rfl
@[simp] theorem State.modPart_cfgDigest (s : State) (p : Nat) (f : Part → Part) : (s.modPart p f).cfgDigest = s.cfgDigest := rfl
@[simp] theorem State.modPart_parts (s : State) (p : Nat) (f : Part → Part) : (s.modPart p f).parts = tmod s.parts p f := rfl
@[simp] theorem State.modPart_teams (s : State) (p : Nat) (f : Part → Part) : (s.modPart p f).teams = s.teams := rfl
@[simp] theorem State.modPart_ops (s : State) (p : Nat) (f : Part → Part) : (s.modPart p f).ops = s.ops := rfl

@[simp] theorem State.setTeam_tick (s : State) (t : Nat) (x : Team) : (s.setTeam t x).tick = s.tick := rfl
@[simp] theorem State.setTeam_free (s : State) (t : Nat) (x : Team) : (s.setTeam t x).free = s.free := rfl
@[simp] theorem State.setTeam_inputs (s : State) (t : Nat) (x : Team) : (s.setTeam t x).inputs = s.inputs := rfl
@[simp] theorem State.setTeam_turn (s : State) (t : Nat) (x : Team) : (s.setTeam t x).turn = s.turn := rfl
@[simp] theorem State.setTeam_cur (s : State) (t : Nat) (x : Team) : (s.setTeam t x).cur = s.cur := rfl
@[simp] theorem State.setTeam_reply (s : State) (t : Nat) (x : Team) : (s.setTeam t x).reply = s.reply := rfl
@[simp] theorem State.setTeam_nextTeam (s : State) (t : Nat) (x : Team) : (s.setTeam t x).nextTeam = s.nextTeam := rfl
@[simp] theorem State.setTeam_nextOp (s : State) (t : Nat) (x : Team) : (s.setTeam t x).nextOp = s.nextOp := rfl
@[simp] theorem State.setTeam_seq (s : State) (t : Nat) (x : Team) : (s.setTeam t x).seq = s.seq := rfl
@[simp] theorem State.setTeam_outside (s : State) (t : Nat) (x : Team) : (s.setTeam t x).outside = s.outside := rfl
@[simp] theorem State.setTeam_serving (s : State) (t : Nat) (x : Team) : (s.setTeam t x).serving = s.serving := rfl
@[simp] theorem State.setTeam_past (s : State) (t : Nat) (x : Team) : (s.setTeam t x).past = s.past := rfl
@[simp] theorem State.setTeam_clock (s : State) (t : Nat) (x : Team) : (s.setTeam t x).clock = s.clock := rfl
@[simp] theorem State.setTeam_symFlaws (s : State) (t : Nat) (x : Team) : (s.setTeam t x).symFlaws = s.symFlaws := rfl
@[simp] theorem State.setTeam_keyEra (s : State) (t : Nat) (x : Team) : (s.setTeam t x).keyEra = s.keyEra := rfl
@[simp] theorem State.setTeam_ukeys (s : State) (t : Nat) (x : Team) : (s.setTeam t x).ukeys = s.ukeys := rfl
@[simp] theorem State.setTeam_powered (s : State) (t : Nat) (x : Team) : (s.setTeam t x).powered = s.powered := rfl
@[simp] theorem State.setTeam_dies (s : State) (t : Nat) (x : Team) : (s.setTeam t x).dies = s.dies := rfl
@[simp] theorem State.setTeam_bulks (s : State) (t : Nat) (x : Team) : (s.setTeam t x).bulks = s.bulks := rfl
@[simp] theorem State.setTeam_mem (s : State) (t : Nat) (x : Team) : (s.setTeam t x).mem = s.mem := rfl
@[simp] theorem State.setTeam_extMem (s : State) (t : Nat) (x : Team) : (s.setTeam t x).extMem = s.extMem := rfl
@[simp] theorem State.setTeam_flaws (s : State) (t : Nat) (x : Team) : (s.setTeam t x).flaws = s.flaws := rfl
@[simp] theorem State.setTeam_ring (s : State) (t : Nat) (x : Team) : (s.setTeam t x).ring = s.ring := rfl
@[simp] theorem State.setTeam_keyGen (s : State) (t : Nat) (x : Team) : (s.setTeam t x).keyGen = s.keyGen := rfl
@[simp] theorem State.setTeam_repSerial (s : State) (t : Nat) (x : Team) : (s.setTeam t x).repSerial = s.repSerial := rfl
@[simp] theorem State.setTeam_cfgDigest (s : State) (t : Nat) (x : Team) : (s.setTeam t x).cfgDigest = s.cfgDigest := rfl
@[simp] theorem State.setTeam_parts (s : State) (t : Nat) (x : Team) : (s.setTeam t x).parts = s.parts := rfl
@[simp] theorem State.setTeam_teams (s : State) (t : Nat) (x : Team) : (s.setTeam t x).teams = tset s.teams t x := rfl
@[simp] theorem State.setTeam_ops (s : State) (t : Nat) (x : Team) : (s.setTeam t x).ops = s.ops := rfl

@[simp] theorem State.modTeam_tick (s : State) (t : Nat) (f : Team → Team) : (s.modTeam t f).tick = s.tick := rfl
@[simp] theorem State.modTeam_free (s : State) (t : Nat) (f : Team → Team) : (s.modTeam t f).free = s.free := rfl
@[simp] theorem State.modTeam_inputs (s : State) (t : Nat) (f : Team → Team) : (s.modTeam t f).inputs = s.inputs := rfl
@[simp] theorem State.modTeam_turn (s : State) (t : Nat) (f : Team → Team) : (s.modTeam t f).turn = s.turn := rfl
@[simp] theorem State.modTeam_cur (s : State) (t : Nat) (f : Team → Team) : (s.modTeam t f).cur = s.cur := rfl
@[simp] theorem State.modTeam_reply (s : State) (t : Nat) (f : Team → Team) : (s.modTeam t f).reply = s.reply := rfl
@[simp] theorem State.modTeam_nextTeam (s : State) (t : Nat) (f : Team → Team) : (s.modTeam t f).nextTeam = s.nextTeam := rfl
@[simp] theorem State.modTeam_nextOp (s : State) (t : Nat) (f : Team → Team) : (s.modTeam t f).nextOp = s.nextOp := rfl
@[simp] theorem State.modTeam_seq (s : State) (t : Nat) (f : Team → Team) : (s.modTeam t f).seq = s.seq := rfl
@[simp] theorem State.modTeam_outside (s : State) (t : Nat) (f : Team → Team) : (s.modTeam t f).outside = s.outside := rfl
@[simp] theorem State.modTeam_serving (s : State) (t : Nat) (f : Team → Team) : (s.modTeam t f).serving = s.serving := rfl
@[simp] theorem State.modTeam_past (s : State) (t : Nat) (f : Team → Team) : (s.modTeam t f).past = s.past := rfl
@[simp] theorem State.modTeam_clock (s : State) (t : Nat) (f : Team → Team) : (s.modTeam t f).clock = s.clock := rfl
@[simp] theorem State.modTeam_symFlaws (s : State) (t : Nat) (f : Team → Team) : (s.modTeam t f).symFlaws = s.symFlaws := rfl
@[simp] theorem State.modTeam_keyEra (s : State) (t : Nat) (f : Team → Team) : (s.modTeam t f).keyEra = s.keyEra := rfl
@[simp] theorem State.modTeam_ukeys (s : State) (t : Nat) (f : Team → Team) : (s.modTeam t f).ukeys = s.ukeys := rfl
@[simp] theorem State.modTeam_powered (s : State) (t : Nat) (f : Team → Team) : (s.modTeam t f).powered = s.powered := rfl
@[simp] theorem State.modTeam_dies (s : State) (t : Nat) (f : Team → Team) : (s.modTeam t f).dies = s.dies := rfl
@[simp] theorem State.modTeam_bulks (s : State) (t : Nat) (f : Team → Team) : (s.modTeam t f).bulks = s.bulks := rfl
@[simp] theorem State.modTeam_mem (s : State) (t : Nat) (f : Team → Team) : (s.modTeam t f).mem = s.mem := rfl
@[simp] theorem State.modTeam_extMem (s : State) (t : Nat) (f : Team → Team) : (s.modTeam t f).extMem = s.extMem := rfl
@[simp] theorem State.modTeam_flaws (s : State) (t : Nat) (f : Team → Team) : (s.modTeam t f).flaws = s.flaws := rfl
@[simp] theorem State.modTeam_ring (s : State) (t : Nat) (f : Team → Team) : (s.modTeam t f).ring = s.ring := rfl
@[simp] theorem State.modTeam_keyGen (s : State) (t : Nat) (f : Team → Team) : (s.modTeam t f).keyGen = s.keyGen := rfl
@[simp] theorem State.modTeam_repSerial (s : State) (t : Nat) (f : Team → Team) : (s.modTeam t f).repSerial = s.repSerial := rfl
@[simp] theorem State.modTeam_cfgDigest (s : State) (t : Nat) (f : Team → Team) : (s.modTeam t f).cfgDigest = s.cfgDigest := rfl
@[simp] theorem State.modTeam_parts (s : State) (t : Nat) (f : Team → Team) : (s.modTeam t f).parts = s.parts := rfl
@[simp] theorem State.modTeam_teams (s : State) (t : Nat) (f : Team → Team) : (s.modTeam t f).teams = tmod s.teams t f := rfl
@[simp] theorem State.modTeam_ops (s : State) (t : Nat) (f : Team → Team) : (s.modTeam t f).ops = s.ops := rfl

@[simp] theorem State.modRole_tick (s : State) (r : RoleRef) (f : Role → Role) : (s.modRole r f).tick = s.tick := rfl
@[simp] theorem State.modRole_free (s : State) (r : RoleRef) (f : Role → Role) : (s.modRole r f).free = s.free := rfl
@[simp] theorem State.modRole_inputs (s : State) (r : RoleRef) (f : Role → Role) : (s.modRole r f).inputs = s.inputs := rfl
@[simp] theorem State.modRole_turn (s : State) (r : RoleRef) (f : Role → Role) : (s.modRole r f).turn = s.turn := rfl
@[simp] theorem State.modRole_cur (s : State) (r : RoleRef) (f : Role → Role) : (s.modRole r f).cur = s.cur := rfl
@[simp] theorem State.modRole_reply (s : State) (r : RoleRef) (f : Role → Role) : (s.modRole r f).reply = s.reply := rfl
@[simp] theorem State.modRole_nextTeam (s : State) (r : RoleRef) (f : Role → Role) : (s.modRole r f).nextTeam = s.nextTeam := rfl
@[simp] theorem State.modRole_nextOp (s : State) (r : RoleRef) (f : Role → Role) : (s.modRole r f).nextOp = s.nextOp := rfl
@[simp] theorem State.modRole_seq (s : State) (r : RoleRef) (f : Role → Role) : (s.modRole r f).seq = s.seq := rfl
@[simp] theorem State.modRole_outside (s : State) (r : RoleRef) (f : Role → Role) : (s.modRole r f).outside = s.outside := rfl
@[simp] theorem State.modRole_serving (s : State) (r : RoleRef) (f : Role → Role) : (s.modRole r f).serving = s.serving := rfl
@[simp] theorem State.modRole_past (s : State) (r : RoleRef) (f : Role → Role) : (s.modRole r f).past = s.past := rfl
@[simp] theorem State.modRole_clock (s : State) (r : RoleRef) (f : Role → Role) : (s.modRole r f).clock = s.clock := rfl
@[simp] theorem State.modRole_symFlaws (s : State) (r : RoleRef) (f : Role → Role) : (s.modRole r f).symFlaws = s.symFlaws := rfl
@[simp] theorem State.modRole_keyEra (s : State) (r : RoleRef) (f : Role → Role) : (s.modRole r f).keyEra = s.keyEra := rfl
@[simp] theorem State.modRole_ukeys (s : State) (r : RoleRef) (f : Role → Role) : (s.modRole r f).ukeys = s.ukeys := rfl
@[simp] theorem State.modRole_powered (s : State) (r : RoleRef) (f : Role → Role) : (s.modRole r f).powered = s.powered := rfl
@[simp] theorem State.modRole_dies (s : State) (r : RoleRef) (f : Role → Role) : (s.modRole r f).dies = s.dies := rfl
@[simp] theorem State.modRole_bulks (s : State) (r : RoleRef) (f : Role → Role) : (s.modRole r f).bulks = s.bulks := rfl
@[simp] theorem State.modRole_mem (s : State) (r : RoleRef) (f : Role → Role) : (s.modRole r f).mem = s.mem := rfl
@[simp] theorem State.modRole_extMem (s : State) (r : RoleRef) (f : Role → Role) : (s.modRole r f).extMem = s.extMem := rfl
@[simp] theorem State.modRole_flaws (s : State) (r : RoleRef) (f : Role → Role) : (s.modRole r f).flaws = s.flaws := rfl
@[simp] theorem State.modRole_ring (s : State) (r : RoleRef) (f : Role → Role) : (s.modRole r f).ring = s.ring := rfl
@[simp] theorem State.modRole_keyGen (s : State) (r : RoleRef) (f : Role → Role) : (s.modRole r f).keyGen = s.keyGen := rfl
@[simp] theorem State.modRole_repSerial (s : State) (r : RoleRef) (f : Role → Role) : (s.modRole r f).repSerial = s.repSerial := rfl
@[simp] theorem State.modRole_cfgDigest (s : State) (r : RoleRef) (f : Role → Role) : (s.modRole r f).cfgDigest = s.cfgDigest := rfl
@[simp] theorem State.modRole_parts (s : State) (r : RoleRef) (f : Role → Role) : (s.modRole r f).parts = s.parts := rfl
@[simp] theorem State.modRole_teams (s : State) (r : RoleRef) (f : Role → Role) : (s.modRole r f).teams = tmod s.teams r.team (fun t => t.modRole r.role f) := rfl
@[simp] theorem State.modRole_ops (s : State) (r : RoleRef) (f : Role → Role) : (s.modRole r f).ops = s.ops := rfl

@[simp] theorem State.modCur_tick (s : State) (f : Role → Role) : (s.modCur f).tick = s.tick := rfl
@[simp] theorem State.modCur_free (s : State) (f : Role → Role) : (s.modCur f).free = s.free := rfl
@[simp] theorem State.modCur_inputs (s : State) (f : Role → Role) : (s.modCur f).inputs = s.inputs := rfl
@[simp] theorem State.modCur_turn (s : State) (f : Role → Role) : (s.modCur f).turn = s.turn := rfl
@[simp] theorem State.modCur_cur (s : State) (f : Role → Role) : (s.modCur f).cur = s.cur := rfl
@[simp] theorem State.modCur_reply (s : State) (f : Role → Role) : (s.modCur f).reply = s.reply := rfl
@[simp] theorem State.modCur_nextTeam (s : State) (f : Role → Role) : (s.modCur f).nextTeam = s.nextTeam := rfl
@[simp] theorem State.modCur_nextOp (s : State) (f : Role → Role) : (s.modCur f).nextOp = s.nextOp := rfl
@[simp] theorem State.modCur_seq (s : State) (f : Role → Role) : (s.modCur f).seq = s.seq := rfl
@[simp] theorem State.modCur_outside (s : State) (f : Role → Role) : (s.modCur f).outside = s.outside := rfl
@[simp] theorem State.modCur_serving (s : State) (f : Role → Role) : (s.modCur f).serving = s.serving := rfl
@[simp] theorem State.modCur_past (s : State) (f : Role → Role) : (s.modCur f).past = s.past := rfl
@[simp] theorem State.modCur_clock (s : State) (f : Role → Role) : (s.modCur f).clock = s.clock := rfl
@[simp] theorem State.modCur_symFlaws (s : State) (f : Role → Role) : (s.modCur f).symFlaws = s.symFlaws := rfl
@[simp] theorem State.modCur_keyEra (s : State) (f : Role → Role) : (s.modCur f).keyEra = s.keyEra := rfl
@[simp] theorem State.modCur_ukeys (s : State) (f : Role → Role) : (s.modCur f).ukeys = s.ukeys := rfl
@[simp] theorem State.modCur_powered (s : State) (f : Role → Role) : (s.modCur f).powered = s.powered := rfl
@[simp] theorem State.modCur_dies (s : State) (f : Role → Role) : (s.modCur f).dies = s.dies := rfl
@[simp] theorem State.modCur_bulks (s : State) (f : Role → Role) : (s.modCur f).bulks = s.bulks := rfl
@[simp] theorem State.modCur_mem (s : State) (f : Role → Role) : (s.modCur f).mem = s.mem := rfl
@[simp] theorem State.modCur_extMem (s : State) (f : Role → Role) : (s.modCur f).extMem = s.extMem := rfl
@[simp] theorem State.modCur_flaws (s : State) (f : Role → Role) : (s.modCur f).flaws = s.flaws := rfl
@[simp] theorem State.modCur_ring (s : State) (f : Role → Role) : (s.modCur f).ring = s.ring := rfl
@[simp] theorem State.modCur_keyGen (s : State) (f : Role → Role) : (s.modCur f).keyGen = s.keyGen := rfl
@[simp] theorem State.modCur_repSerial (s : State) (f : Role → Role) : (s.modCur f).repSerial = s.repSerial := rfl
@[simp] theorem State.modCur_cfgDigest (s : State) (f : Role → Role) : (s.modCur f).cfgDigest = s.cfgDigest := rfl
@[simp] theorem State.modCur_parts (s : State) (f : Role → Role) : (s.modCur f).parts = s.parts := rfl
@[simp] theorem State.modCur_teams (s : State) (f : Role → Role) : (s.modCur f).teams = tmod s.teams s.cur.team (fun t => t.modRole s.cur.role f) := rfl
@[simp] theorem State.modCur_ops (s : State) (f : Role → Role) : (s.modCur f).ops = s.ops := rfl

@[simp] theorem State.modBulk_tick (s : State) (b : Nat) (f : Bulk → Bulk) : (s.modBulk b f).tick = s.tick := rfl
@[simp] theorem State.modBulk_free (s : State) (b : Nat) (f : Bulk → Bulk) : (s.modBulk b f).free = s.free := rfl
@[simp] theorem State.modBulk_inputs (s : State) (b : Nat) (f : Bulk → Bulk) : (s.modBulk b f).inputs = s.inputs := rfl
@[simp] theorem State.modBulk_turn (s : State) (b : Nat) (f : Bulk → Bulk) : (s.modBulk b f).turn = s.turn := rfl
@[simp] theorem State.modBulk_cur (s : State) (b : Nat) (f : Bulk → Bulk) : (s.modBulk b f).cur = s.cur := rfl
@[simp] theorem State.modBulk_reply (s : State) (b : Nat) (f : Bulk → Bulk) : (s.modBulk b f).reply = s.reply := rfl
@[simp] theorem State.modBulk_nextTeam (s : State) (b : Nat) (f : Bulk → Bulk) : (s.modBulk b f).nextTeam = s.nextTeam := rfl
@[simp] theorem State.modBulk_nextOp (s : State) (b : Nat) (f : Bulk → Bulk) : (s.modBulk b f).nextOp = s.nextOp := rfl
@[simp] theorem State.modBulk_seq (s : State) (b : Nat) (f : Bulk → Bulk) : (s.modBulk b f).seq = s.seq := rfl
@[simp] theorem State.modBulk_outside (s : State) (b : Nat) (f : Bulk → Bulk) : (s.modBulk b f).outside = s.outside := rfl
@[simp] theorem State.modBulk_serving (s : State) (b : Nat) (f : Bulk → Bulk) : (s.modBulk b f).serving = s.serving := rfl
@[simp] theorem State.modBulk_past (s : State) (b : Nat) (f : Bulk → Bulk) : (s.modBulk b f).past = s.past := rfl
@[simp] theorem State.modBulk_clock (s : State) (b : Nat) (f : Bulk → Bulk) : (s.modBulk b f).clock = s.clock := rfl
@[simp] theorem State.modBulk_symFlaws (s : State) (b : Nat) (f : Bulk → Bulk) : (s.modBulk b f).symFlaws = s.symFlaws := rfl
@[simp] theorem State.modBulk_keyEra (s : State) (b : Nat) (f : Bulk → Bulk) : (s.modBulk b f).keyEra = s.keyEra := rfl
@[simp] theorem State.modBulk_ukeys (s : State) (b : Nat) (f : Bulk → Bulk) : (s.modBulk b f).ukeys = s.ukeys := rfl
@[simp] theorem State.modBulk_powered (s : State) (b : Nat) (f : Bulk → Bulk) : (s.modBulk b f).powered = s.powered := rfl
@[simp] theorem State.modBulk_dies (s : State) (b : Nat) (f : Bulk → Bulk) : (s.modBulk b f).dies = s.dies := rfl
@[simp] theorem State.modBulk_bulks (s : State) (b : Nat) (f : Bulk → Bulk) : (s.modBulk b f).bulks = lset s.bulks b (f (s.bulk b)) := rfl
@[simp] theorem State.modBulk_mem (s : State) (b : Nat) (f : Bulk → Bulk) : (s.modBulk b f).mem = s.mem := rfl
@[simp] theorem State.modBulk_extMem (s : State) (b : Nat) (f : Bulk → Bulk) : (s.modBulk b f).extMem = s.extMem := rfl
@[simp] theorem State.modBulk_flaws (s : State) (b : Nat) (f : Bulk → Bulk) : (s.modBulk b f).flaws = s.flaws := rfl
@[simp] theorem State.modBulk_ring (s : State) (b : Nat) (f : Bulk → Bulk) : (s.modBulk b f).ring = s.ring := rfl
@[simp] theorem State.modBulk_keyGen (s : State) (b : Nat) (f : Bulk → Bulk) : (s.modBulk b f).keyGen = s.keyGen := rfl
@[simp] theorem State.modBulk_repSerial (s : State) (b : Nat) (f : Bulk → Bulk) : (s.modBulk b f).repSerial = s.repSerial := rfl
@[simp] theorem State.modBulk_cfgDigest (s : State) (b : Nat) (f : Bulk → Bulk) : (s.modBulk b f).cfgDigest = s.cfgDigest := rfl
@[simp] theorem State.modBulk_parts (s : State) (b : Nat) (f : Bulk → Bulk) : (s.modBulk b f).parts = s.parts := rfl
@[simp] theorem State.modBulk_teams (s : State) (b : Nat) (f : Bulk → Bulk) : (s.modBulk b f).teams = s.teams := rfl
@[simp] theorem State.modBulk_ops (s : State) (b : Nat) (f : Bulk → Bulk) : (s.modBulk b f).ops = s.ops := rfl

end Sys2Proof.Machine
end

