-- ==== Sys2Proof/Laws/Table.lean ====
section
/-! SUPPORT. Tables, lists and the roles of the state: what is found after an update. -/
namespace Sys2Proof.Machine

variable {α : Type}

theorem tget_tset (t : Tab α) (x y : Nat) (v : α) : tget (tset t x v) y = if x = y then some v else tget t y := by
  induction t with
  | nil => simp [tset, tget]
  | cons e t ih =>
    obtain ⟨k, w⟩ := e
    simp only [tset]
    split
    · simp [tget]
    · split
      · subst x
        simp only [tget, beq_iff_eq]
        split <;> simp_all
      · simp only [tget, ih, beq_iff_eq]
        by_cases hk : k = y
        · subst hk
          simp_all
        · simp [hk]

theorem tget_tdel (t : Tab α) (x y : Nat) : tget (tdel t x) y = if x = y then none else tget t y := by
  induction t with
  | nil => simp [tdel, tget]
  | cons e t ih =>
    obtain ⟨k, w⟩ := e
    simp only [tdel]
    split
    · subst x
      rw [ih]
      by_cases hk : k = y <;> simp [tget, hk]
    · rename_i hx
      simp only [tget, ih, beq_iff_eq]
      by_cases hk : k = y
      · subst hk; simp [Ne.symm hx]
      · simp [hk]

theorem tget_tmod (t : Tab α) (x y : Nat) (f : α → α) :
    tget (tmod t x f) y = if x = y then (tget t x).map f else tget t y := by
  unfold tmod
  cases h : tget t x with
  | none =>
    by_cases hk : x = y
    · subst hk; simp [h]
    · simp [hk]
  | some v => simp [tget_tset]

theorem tset_tset (t : Tab α) (x : Nat) (v w : α) : tset (tset t x v) x w = tset t x w := by
  induction t with
  | nil => simp [tset]
  | cons e t ih =>
    obtain ⟨k, u⟩ := e
    simp only [tset]
    split
    · simp [tset]
    · split
      · simp_all [tset]
      · simp_all [tset]

theorem tset_tget (t : Tab α) (x : Nat) (v : α) (h : tget t x = some v) (hr : rising t = true) : tset t x v = t := by
  induction t with
  | nil => simp [tget] at h
  | cons e t ih =>
    obtain ⟨k, u⟩ := e
    simp only [tset]
    have hrt : rising t = true := by
      cases t with
      | nil => rfl
      | cons b t => simp only [rising, Bool.and_eq_true] at hr; exact hr.2
    by_cases hk : k = x
    · subst hk; simp_all [tget]
    · have h' : tget t x = some v := by simpa [tget, hk] using h
      have hlt : ∀ (t : Tab α) (k : Nat) (u : α), rising ((k, u) :: t) = true → ∀ y w, tget t y = some w → k < y := by
        intro t
        induction t with
        | nil => intro k u _ y w hy; simp [tget] at hy
        | cons b t ih2 =>
          obtain ⟨k2, u2⟩ := b
          intro k u hr y w hy
          simp only [rising, Bool.and_eq_true, decide_eq_true_eq] at hr
          simp only [tget, beq_iff_eq] at hy
          split at hy
          · omega
          · have := ih2 k2 u2 hr.2 y w hy
            omega
      have := hlt t k u hr x v h'
      simp [show ¬ x < k by omega, show x ≠ k by omega, ih h' hrt]

theorem tmod_tmod (t : Tab α) (x : Nat) (f g : α → α) : tmod (tmod t x f) x g = tmod t x (fun a => g (f a)) := by
  unfold tmod
  cases h : tget t x with
  | none => simp [h]
  | some v => simp [tget_tset, tset_tset]

theorem tmod_congr (t : Tab α) (x : Nat) (f g : α → α) (h : ∀ a, tget t x = some a → f a = g a) : tmod t x f = tmod t x g := by
  unfold tmod
  cases h' : tget t x with
  | none => rfl
  | some v => simp [h v h']

theorem lset_length (l : List α) (n : Nat) (v : α) : (lset l n v).length = l.length := by
  induction l generalizing n with
  | nil => rfl
  | cons a t ih => cases n <;> simp [lset, ih]

theorem getElem?_lset (l : List α) (n m : Nat) (v : α) : (lset l n v)[m]? = if n = m then l[m]?.map (fun _ => v) else l[m]? := by
  induction l generalizing n m with
  | nil => simp [lset]
  | cons a t ih =>
    cases n <;> cases m <;> simp [lset, ih]

theorem lset_lset (l : List α) (n : Nat) (v w : α) : lset (lset l n v) n w = lset l n w := by
  induction l generalizing n with
  | nil => rfl
  | cons a t ih => cases n <;> simp [lset, ih]

/-! Teams and roles. -/

theorem Team.modRole_roles (t : Team) (r : Nat) (f : Role → Role) (k : Nat) :
    (t.modRole r f).roles[k]? = if r = k then t.roles[k]?.map f else t.roles[k]? := by
  unfold Team.modRole
  cases h : t.roles[r]? with
  | none =>
    by_cases hk : r = k
    · subst hk; simp [h]
    · simp [hk]
  | some x =>
    by_cases hk : r = k
    · subst hk; simp [getElem?_lset, h]
    · simp [getElem?_lset, hk]

@[simp] theorem Team.modRole_length (t : Team) (r : Nat) (f : Role → Role) : (t.modRole r f).roles.length = t.roles.length := by
  unfold Team.modRole; split <;> simp [lset_length]
@[simp] theorem Team.modRole_part (t : Team) (r : Nat) (f : Role → Role) : (t.modRole r f).part = t.part := by
  unfold Team.modRole; split <;> rfl
@[simp] theorem Team.modRole_serial (t : Team) (r : Nat) (f : Role → Role) : (t.modRole r f).serial = t.serial := by
  unfold Team.modRole; split <;> rfl
@[simp] theorem Team.modRole_scratch (t : Team) (r : Nat) (f : Role → Role) : (t.modRole r f).scratch = t.scratch := by
  unfold Team.modRole; split <;> rfl
@[simp] theorem Team.modRole_ob (t : Team) (r : Nat) (f : Role → Role) : (t.modRole r f).ob = t.ob := by
  unfold Team.modRole; split <;> rfl
@[simp] theorem Team.modRole_bars (t : Team) (r : Nat) (f : Role → Role) : (t.modRole r f).bars = t.bars := by
  unfold Team.modRole; split <;> rfl
@[simp] theorem Team.modRole_phase (t : Team) (r : Nat) (f : Role → Role) : (t.modRole r f).phase = t.phase := by
  unfold Team.modRole; split <;> rfl
@[simp] theorem Team.modRole_fin (t : Team) (r : Nat) (f : Role → Role) : (t.modRole r f).fin = t.fin := by
  unfold Team.modRole; split <;> rfl

theorem Team.modRole_modRole (t : Team) (r : Nat) (f g : Role → Role) :
    (t.modRole r f).modRole r g = t.modRole r (fun x => g (f x)) := by
  unfold Team.modRole
  cases h : t.roles[r]? with
  | none => simp [h]
  | some x => simp [getElem?_lset, h, lset_lset]

theorem Team.modRole_congr (t : Team) (r : Nat) (f g : Role → Role) (h : ∀ x, t.roles[r]? = some x → f x = g x) :
    t.modRole r f = t.modRole r g := by
  unfold Team.modRole
  cases h' : t.roles[r]? with
  | none => rfl
  | some x => simp [h x h']

theorem State.team?_modTeam (s : State) (t u : Nat) (f : Team → Team) :
    (s.modTeam t f).team? u = if t = u then (s.team? t).map f else s.team? u := tget_tmod _ _ _ _

theorem State.team?_modRole (s : State) (r : RoleRef) (u : Nat) (f : Role → Role) :
    (s.modRole r f).team? u = if r.team = u then (s.team? r.team).map (fun t => t.modRole r.role f) else s.team? u :=
  State.team?_modTeam _ _ _ _

theorem State.team?_modCur (s : State) (f : Role → Role) :
    (s.modCur f).team? s.cur.team = (s.team? s.cur.team).map (fun t => t.modRole s.cur.role f) := by
  simp [State.modCur, State.team?_modRole]

theorem State.role?_modCur (s : State) (f : Role → Role) : (s.modCur f).role? s.cur = (s.role? s.cur).map f := by
  unfold State.role?
  rw [State.team?_modCur]
  cases s.team? s.cur.team with
  | none => rfl
  | some t => simp [Team.modRole_roles]

@[simp] theorem State.part?_modTeam (s : State) (t p : Nat) (f : Team → Team) : (s.modTeam t f).part? p = s.part? p := rfl
@[simp] theorem State.part?_modRole (s : State) (r : RoleRef) (p : Nat) (f : Role → Role) : (s.modRole r f).part? p = s.part? p := rfl
@[simp] theorem State.part?_modCur (s : State) (p : Nat) (f : Role → Role) : (s.modCur f).part? p = s.part? p := rfl
@[simp] theorem State.team?_modPart (s : State) (p t : Nat) (f : Part → Part) : (s.modPart p f).team? t = s.team? t := rfl
@[simp] theorem State.role?_modPart (s : State) (p : Nat) (r : RoleRef) (f : Part → Part) : (s.modPart p f).role? r = s.role? r := rfl

theorem State.part?_modPart (s : State) (p q : Nat) (f : Part → Part) :
    (s.modPart p f).part? q = if p = q then (s.part? p).map f else s.part? q := tget_tmod _ _ _ _

theorem State.modTeam_modTeam (s : State) (t : Nat) (f g : Team → Team) :
    (s.modTeam t f).modTeam t g = s.modTeam t (fun x => g (f x)) := by
  simp [State.modTeam, tmod_tmod]

theorem State.modCur_modCur (s : State) (f g : Role → Role) : (s.modCur f).modCur g = s.modCur (fun x => g (f x)) := by
  unfold State.modCur State.modRole
  simp only [State.modTeam_cur]
  rw [State.modTeam_modTeam]
  simp [Team.modRole_modRole]

theorem State.modTeam_congr (s : State) (t : Nat) (f g : Team → Team) (h : ∀ x, s.team? t = some x → f x = g x) :
    s.modTeam t f = s.modTeam t g := by
  unfold State.modTeam
  rw [tmod_congr _ _ _ _ h]

theorem State.modCur_congr (s : State) (f g : Role → Role) (h : ∀ x, s.role? s.cur = some x → f x = g x) :
    s.modCur f = s.modCur g := by
  apply State.modTeam_congr
  intro t ht
  apply Team.modRole_congr
  intro x hx
  exact h x (by simp [State.role?, ht, hx])

/-! The issuing role's surroundings. -/

theorem State.ctx?_eq (s : State) (c : Ctx) (h : s.ctx? = some c) :
    s.team? s.cur.team = some c.team ∧ c.team.roles[s.cur.role]? = some c.role ∧ s.part? c.team.part = some c.part ∧
    c.part.launch? c.team.serial = some c.launch := by
  unfold State.ctx? at h
  split at h
  · cases h
  · rename_i t ht
    split at h
    · rename_i r p hr hp
      cases hl : p.launch? t.serial with
      | none => simp [hl] at h
      | some l =>
        simp only [hl, Option.map_some, Option.some.injEq] at h
        subst h
        exact ⟨ht, hr, hp, hl⟩
    · cases h

theorem State.ctx?_role (s : State) (c : Ctx) (h : s.ctx? = some c) : s.role? s.cur = some c.role := by
  obtain ⟨h1, h2, _, _⟩ := s.ctx?_eq c h
  simp [State.role?, h1, h2]

theorem State.ctx?_of (s : State) (t : Team) (r : Role) (p : Part) (l : Launch) (ht : s.team? s.cur.team = some t)
    (hr : t.roles[s.cur.role]? = some r) (hp : s.part? t.part = some p) (hl : p.launch? t.serial = some l) :
    s.ctx? = some { role := r, team := t, launch := l, part := p } := by
  unfold State.ctx?
  simp [ht, hr, hp, hl]

/-- A change of the issuing role shows in its surroundings and nowhere else. -/
theorem State.ctx?_modCur (s : State) (c : Ctx) (f : Role → Role) (h : s.ctx? = some c) :
    (s.modCur f).ctx? = some { c with role := f c.role, team := c.team.modRole s.cur.role f } := by
  obtain ⟨h1, h2, h3, h4⟩ := s.ctx?_eq c h
  have := State.ctx?_of (s.modCur f) (c.team.modRole s.cur.role f) (f c.role) c.part c.launch
    (by simp [State.team?_modCur, h1]) (by simp [Team.modRole_roles, h2]) (by simpa using h3) (by simpa using h4)
  exact this

theorem State.modCur_const (s : State) (c : Ctx) (f : Role → Role) (h : s.ctx? = some c) :
    s.modCur f = s.modCur (fun _ => f c.role) := by
  apply State.modCur_congr
  intro x hx
  rw [s.ctx?_role c h] at hx
  cases hx
  rfl

theorem withCtx_next (s : State) (c : Ctx) (f : Ctx → State) (h : s.ctx? = some c) : withCtx s f = .next (f c) := by
  simp [withCtx, h]

end Sys2Proof.Machine
end

