-- ==== Sys2Proof/Laws/Register.lean ====
section
/-! SUPPORT. Registers: what is read after a write (R133, R135). -/
namespace Sys2Proof.Machine

/-! Standing. -/

theorem stOf_stCode (s : Standing) : stOf (stCode s) = s := by cases s <;> decide
theorem stOf_zero : stOf 0 = .S := by decide
theorem joinSt_comm (a b : Standing) : joinSt a b = joinSt b a := by cases a <;> cases b <;> rfl
theorem joinSt_assoc (a b c : Standing) : joinSt (joinSt a b) c = joinSt a (joinSt b c) := by
  cases a <;> cases b <;> cases c <;> rfl

/-! s registers. -/

theorem Role.sreg_setS (r : Role) (n m : BitVec 7) (v : DWord) (st : Standing) :
    (r.setS n v st).sreg m = if n = m then { val := v, st := markSt r.taint st } else r.sreg m := by
  unfold Role.setS Role.sreg
  simp only
  split
  · rename_i h
    rw [tget_tdel]
    by_cases hm : n = m
    · subst hm; simp [h]
    · have : n.toNat ≠ m.toNat := fun e => hm (BitVec.eq_of_toNat_eq e)
      simp [hm, this]
  · rw [tget_tset]
    by_cases hm : n = m
    · subst hm; simp
    · have : n.toNat ≠ m.toNat := fun e => hm (BitVec.eq_of_toNat_eq e)
      simp [hm, this]

/-- A write to an s register changes the table of s registers and nothing else. -/
theorem Role.setS_eq (r : Role) (n : BitVec 7) (v : DWord) (st : Standing) :
    r.setS n v st = r.withS (r.setS n v st).s := by
  unfold Role.setS Role.withS; simp only

/-! Rows of v registers. -/

theorem VRow.put_val (x : VRow) (i j : Nat) (w : Word) (st : Standing) (hi : i < 8) (hj : j < 8) :
    (x.put i w st).vals.extractLsb' (32 * j) 32 = if i = j then w else x.vals.extractLsb' (32 * j) 32 := by
  apply BitVec.eq_of_getLsbD_eq
  intro k hk
  simp only [VRow.put, BitVec.getLsbD_extractLsb', BitVec.getLsbD_or, BitVec.getLsbD_and, BitVec.getLsbD_not,
    BitVec.getLsbD_shiftLeft, BitVec.getLsbD_setWidth]
  have e : (0xFFFFFFFF : BitVec 256) = BitVec.setWidth 256 (BitVec.allOnes 32) := by decide
  rw [e]
  simp only [BitVec.getLsbD_setWidth, BitVec.getLsbD_allOnes]
  by_cases h : i = j
  · subst h
    have h1 : 32 * i + k < 256 := by omega
    have h2 : ¬ (32 * i + k < 32 * i) := by omega
    have h3 : 32 * i + k - 32 * i = k := by omega
    simp [hk, h1, h2, h3, show k < 256 by omega]
  · simp only [h, if_false]
    rw [BitVec.getLsbD_extractLsb']
    by_cases hlt : 32 * j + k < 32 * i
    · simp [hk, hlt, show 32 * j + k < 256 by omega]
    · have : ¬ (32 * j + k - 32 * i < 32) := by omega
      have hw : w.getLsbD (32 * j + k - 32 * i) = false := BitVec.getLsbD_of_ge _ _ (by omega)
      simp [hk, hlt, this, hw, show 32 * j + k < 256 by omega]

theorem VRow.put_st (x : VRow) (i j : Nat) (w : Word) (st : Standing) (hi : i < 8) (hj : j < 8) :
    (x.put i w st).st.extractLsb' (2 * j) 2 = if i = j then stCode st else x.st.extractLsb' (2 * j) 2 := by
  apply BitVec.eq_of_getLsbD_eq
  intro k hk
  simp only [VRow.put, BitVec.getLsbD_extractLsb', BitVec.getLsbD_or, BitVec.getLsbD_and, BitVec.getLsbD_not,
    BitVec.getLsbD_shiftLeft, BitVec.getLsbD_setWidth]
  have e : (3 : BitVec 16) = BitVec.setWidth 16 (BitVec.allOnes 2) := by decide
  rw [e]
  simp only [BitVec.getLsbD_setWidth, BitVec.getLsbD_allOnes]
  by_cases h : i = j
  · subst h
    have h1 : 2 * i + k < 16 := by omega
    have h2 : ¬ (2 * i + k < 2 * i) := by omega
    have h3 : 2 * i + k - 2 * i = k := by omega
    simp [hk, h1, h2, h3, show k < 16 by omega]
  · simp only [h, if_false]
    rw [BitVec.getLsbD_extractLsb']
    by_cases hlt : 2 * j + k < 2 * i
    · simp [hk, hlt, show 2 * j + k < 16 by omega]
    · have : ¬ (2 * j + k - 2 * i < 2) := by omega
      have hw : (stCode st).getLsbD (2 * j + k - 2 * i) = false := BitVec.getLsbD_of_ge _ _ (by omega)
      simp [hk, hlt, this, hw, show 2 * j + k < 16 by omega]

theorem rowKey_inj (n m : BitVec 8) (g h : Nat) (hg : g < 128) (hh : h < 128) : rowKey n g = rowKey m h ↔ n = m ∧ g = h := by
  unfold rowKey
  constructor
  · intro e
    have : n.toNat = m.toNat := by omega
    exact ⟨BitVec.eq_of_toNat_eq this, by omega⟩
  · rintro ⟨rfl, rfl⟩; rfl

/-- One lane of one v register after a write. -/
theorem Role.vreg_putV (r : Role) (n m : BitVec 8) (l k : Nat) (w : Word) (st : Standing) (hl : l < 1024) (hk : k < 1024) :
    (r.putV n l w st).vreg m k = if n = m ∧ l = k then (w, st) else r.vreg m k := by
  unfold Role.putV Role.vreg
  simp only [tget_tset]
  by_cases hkey : rowKey n (l / 8) = rowKey m (k / 8)
  · obtain ⟨rfl, hg⟩ := (rowKey_inj n m _ _ (by omega) (by omega)).1 hkey
    simp only [hkey, if_true, true_and]
    rw [VRow.put_val _ _ _ _ _ (by omega) (by omega), VRow.put_st _ _ _ _ _ (by omega) (by omega)]
    by_cases hlk : l = k
    · subst hlk; simp [stOf_stCode]
    · have : l % 8 ≠ k % 8 := by omega
      simp only [this, hlk, if_false]
      cases h : tget r.v (rowKey n (k / 8)) with
      | none => simp; exact stOf_zero
      | some x => simp
  · have : ¬ (n = m ∧ l = k) := by rintro ⟨rfl, rfl⟩; exact hkey rfl
    simp [hkey, this]

theorem Role.putV_eq (r : Role) (n : BitVec 8) (l : Nat) (w : Word) (st : Standing) :
    r.putV n l w st = r.withV (r.putV n l w st).v := rfl

theorem Role.withV_withV (r : Role) (v w : Tab VRow) : (r.withV v).withV w = r.withV w := rfl
theorem Role.withV_v (r : Role) (v : Tab VRow) : (r.withV v).v = v := rfl
theorem Role.withV_taint (r : Role) (v : Tab VRow) : (r.withV v).taint = r.taint := rfl

/-- What a lane's result puts into a register: the low half, and into the next register of a pair the high half. -/
def laneWrite (wide : Bool) (d : BitVec 8) (v : DWord) (st : Standing) (n : BitVec 8) : Option (Word × Standing) :=
  if n = d then some (v.setWidth 32, st)
  else if wide = true ∧ n = d + 1 then some (v.extractLsb' 32 32, st) else none

theorem Role.setV_v (r : Role) (wide : Bool) (d : BitVec 8) (l : Nat) (v : DWord) (st : Standing) :
    r.setV wide d l v st = r.withV (r.setV wide d l v st).v := by
  unfold Role.setV; simp only; split <;> rfl

theorem Role.vreg_setV (r : Role) (wide : Bool) (d m : BitVec 8) (l k : Nat) (v : DWord) (st : Standing) (hl : l < 1024)
    (hk : k < 1024) :
    (r.setV wide d l v st).vreg m k =
      if l = k then (laneWrite wide d v (markSt r.taint st) m).getD (r.vreg m k) else r.vreg m k := by
  unfold Role.setV
  simp only
  cases wide with
  | false =>
    simp only [Bool.false_eq_true, if_false]
    rw [Role.vreg_putV _ _ _ _ _ _ _ hl hk]
    by_cases h : l = k
    · by_cases hm : d = m
      · subst hm; simp [h, laneWrite]
      · have : ¬ m = d := fun e => hm e.symm
        simp [h, hm, this, laneWrite]
    · simp [h]
  | true =>
    simp only [if_true]
    rw [Role.vreg_putV _ _ _ _ _ _ _ hl hk, Role.vreg_putV _ _ _ _ _ _ _ hl hk]
    have hne : d + 1 ≠ d := by
      intro e
      have := congrArg BitVec.toNat e
      simp only [BitVec.toNat_add] at this
      have h1 : BitVec.toNat (1 : BitVec 8) = 1 := rfl
      have := d.isLt
      omega
    by_cases h : l = k
    · by_cases hm : d = m
      · subst hm; simp [h, laneWrite]
      · have hm' : ¬ m = d := fun e => hm e.symm
        by_cases hm1 : d + 1 = m
        · subst hm1; simp [h, laneWrite]
        · have : ¬ m = d + 1 := fun e => hm1 e.symm
          have h1 : ¬ d + 1#8 = m := hm1
          have h2 : ¬ m = d + 1#8 := this
          simp [h, hm, hm', h1, h2, laneWrite]
    · simp [h]

/-- Writing a list of lanes, each once. -/
theorem Role.vreg_lanes (ls : List Nat) (wide : Bool) (d : BitVec 8) (val : Nat → DWord) (st : Nat → Standing) (r : Role)
    (hn : ls.Nodup) (hb : ∀ l ∈ ls, l < 1024) :
    ∃ v, ls.foldl (fun (x : Role) l => x.setV wide d l (val l) (st l)) r = r.withV v ∧
      ∀ m k, k < 1024 → (r.withV v).vreg m k =
        if k ∈ ls then (laneWrite wide d (val k) (markSt r.taint (st k)) m).getD (r.vreg m k) else r.vreg m k := by
  induction ls generalizing r with
  | nil => exact ⟨r.v, rfl, fun m k _ => by simp; rfl⟩
  | cons a t ih =>
    rw [List.nodup_cons] at hn
    obtain ⟨v, hv, hr⟩ := ih (r.setV wide d a (val a) (st a)) hn.2 (fun l h => hb l (List.mem_cons_of_mem _ h))
    refine ⟨v, ?_, ?_⟩
    · rw [List.foldl_cons, hv, Role.setV_v, Role.withV_withV]
    · intro m k hk
      have h := hr m k hk
      rw [Role.setV_v, Role.withV_withV, ← Role.setV_v, Role.vreg_setV _ _ _ _ _ _ _ _ (hb a (by simp)) hk] at h
      rw [h]
      have ht : (r.setV wide d a (val a) (st a)).taint = r.taint := by rw [Role.setV_v]; rfl
      by_cases hka : a = k
      · subst hka
        simp [hn.1]
      · have : ¬ k = a := fun e => hka e.symm
        simp [hka, this, ht]

theorem Tab.foldl_tdel {α : Type} (ks : List Nat) (t : Tab α) (y : Nat) :
    tget (ks.foldl (fun t k => tdel t k) t) y = if y ∈ ks then none else tget t y := by
  induction ks generalizing t with
  | nil => simp
  | cons k ks ih =>
    rw [List.foldl_cons, ih, tget_tdel]
    by_cases h : y ∈ ks
    · simp [h]
    · by_cases hk : k = y
      · subst hk; simp
      · have : ¬ y = k := fun e => hk e.symm
        simp [h, hk, this]

theorem Role.freeRows_get (r : Role) (ns : List (BitVec 8)) (gs : List Nat) (y : Nat) :
    tget (r.freeRows ns gs).v y = if ∃ n ∈ ns, ∃ g ∈ gs, y = rowKey n g then none else tget r.v y := by
  have e : (r.freeRows ns gs).v = (ns.flatMap (fun n => gs.map (fun g => rowKey n g))).foldl (fun t k => tdel t k) r.v := by
    unfold Role.freeRows
    simp only [List.foldl_flatMap, List.foldl_map]
  rw [e, Tab.foldl_tdel]
  simp only [List.mem_flatMap, List.mem_map]
  by_cases h : ∃ n ∈ ns, ∃ g ∈ gs, y = rowKey n g
  · obtain ⟨n, hn, g, hg, hy⟩ := h
    rw [if_pos ⟨n, hn, g, hg, hy.symm⟩, if_pos ⟨n, hn, g, hg, hy⟩]
  · rw [if_neg h, if_neg]
    rintro ⟨n, hn, g, hg, hy⟩
    exact h ⟨n, hn, g, hg, hy.symm⟩

/-- The registers after the last uses: the rows of the freed registers in the groups read zero. -/
theorem Role.vreg_freeRows (r : Role) (ns : List (BitVec 8)) (gs : List Nat) (m : BitVec 8) (k : Nat) (hk : k < 1024)
    (hg : ∀ g ∈ gs, g < 128) :
    (r.freeRows ns gs).vreg m k = if m ∈ ns ∧ k / 8 ∈ gs then (0, .S) else r.vreg m k := by
  unfold Role.vreg
  rw [Role.freeRows_get]
  by_cases h : m ∈ ns ∧ k / 8 ∈ gs
  · rw [if_pos ⟨m, h.1, k / 8, h.2, rfl⟩, if_pos h]
  · rw [if_neg, if_neg h]
    rintro ⟨n, hn, g, hgs, e⟩
    obtain ⟨rfl, rfl⟩ := (rowKey_inj m n _ _ (by omega) (hg g hgs)).1 e
    exact h ⟨hn, hgs⟩

/-- Mapping rows changes no element: a row that was not there read zero. -/
theorem Role.vreg_mapRows (r : Role) (ns : List (BitVec 8)) (gs : List Nat) (m : BitVec 8) (k : Nat) :
    (r.mapRows ns gs).vreg m k = r.vreg m k := by
  have look : ∀ v : Tab VRow, (r.withV v).vreg m k = (match tget v (rowKey m (k / 8)) with
      | none => (0, .S)
      | some x => (x.vals.extractLsb' (32 * (k % 8)) 32, stOf (x.st.extractLsb' (2 * (k % 8)) 2))) := fun _ => rfl
  have one : ∀ (v : Tab VRow) (y : Nat), (r.withV (if (tget v y).isSome then v else tset v y { vals := 0, st := 0 })).vreg m k =
      (r.withV v).vreg m k := by
    intro v y
    split
    · rfl
    · rename_i h
      rw [look, look, tget_tset]
      by_cases hy : y = rowKey m (k / 8)
      · subst hy
        cases hv : tget v (rowKey m (k / 8)) with
        | none =>
          simp only [if_true]
          have h1 : (0 : BitVec 256).extractLsb' (32 * (k % 8)) 32 = 0 := by simp
          have h2 : (0 : BitVec 16).extractLsb' (2 * (k % 8)) 2 = 0 := by simp
          rw [h1, h2, stOf_zero]
        | some x => rw [hv] at h; simp at h
      · simp [hy]
  have inner : ∀ (n : BitVec 8) (gs : List Nat) (v : Tab VRow), (r.withV (gs.foldl (fun v g =>
      if (tget v (rowKey n g)).isSome then v else tset v (rowKey n g) { vals := 0, st := 0 }) v)).vreg m k =
      (r.withV v).vreg m k := by
    intro n gs
    induction gs with
    | nil => intro v; rfl
    | cons g gs ih => intro v; rw [List.foldl_cons, ih, one]
  have outer : ∀ (ns : List (BitVec 8)) (v : Tab VRow), (r.withV (ns.foldl (fun v n => gs.foldl (fun v g =>
      if (tget v (rowKey n g)).isSome then v else tset v (rowKey n g) { vals := 0, st := 0 }) v) v)).vreg m k =
      (r.withV v).vreg m k := by
    intro ns
    induction ns with
    | nil => intro v; rfl
    | cons n ns ih => intro v; rw [List.foldl_cons, ih, inner]
  exact outer ns r.v

theorem Role.mapRows_eq (r : Role) (ns : List (BitVec 8)) (gs : List Nat) :
    r.mapRows ns gs = r.withV (r.mapRows ns gs).v := rfl

theorem Role.freeRows_eq (r : Role) (ns : List (BitVec 8)) (gs : List Nat) :
    r.freeRows ns gs = r.withV (r.freeRows ns gs).v := rfl

end Sys2Proof.Machine
end

