-- ==== Sys2Proof/Laws/Lane.lean ====
section
/-! SUPPORT. The shared shapes of class-L and class-U instructions: what each does when nothing stops it. -/
namespace Sys2Proof.Machine

/-! Masks and lanes. -/

theorem getLsbD_bit (l k : Nat) (hk : k < 1024) : (bit l).getLsbD k = decide (k = l) := by
  unfold bit
  rw [BitVec.getLsbD_shiftLeft]
  have h1 : ∀ j, (1 : BitVec 1024).getLsbD j = decide (j = 0) := by
    intro j
    rw [show (1 : BitVec 1024) = 1#1024 from rfl, BitVec.getLsbD_one]
    simp
  rw [h1]
  by_cases h : k < l
  · simp [h, hk, show k ≠ l by omega]
  · have : (k - l = 0) ↔ (k = l) := by omega
    simp [h, hk, this]

theorem getLsbD_foldl_or (ls : List Nat) (m : Mask) (k : Nat) (hk : k < 1024) :
    (ls.foldl (fun m l => m ||| bit l) m).getLsbD k = (m.getLsbD k || decide (k ∈ ls)) := by
  induction ls generalizing m with
  | nil => simp
  | cons a t ih =>
    rw [List.foldl_cons, ih, BitVec.getLsbD_or, getLsbD_bit _ _ hk]
    by_cases h1 : k = a <;> by_cases h2 : k ∈ t <;> simp [h1, h2]

theorem getLsbD_maskOf (ls : List Nat) (k : Nat) (hk : k < 1024) : (maskOf ls).getLsbD k = decide (k ∈ ls) := by
  unfold maskOf; rw [getLsbD_foldl_or _ _ _ hk]; simp

theorem mem_lanesOf (n : Nat) (m : Mask) (l : Nat) : l ∈ lanesOf n m ↔ l < n ∧ m.getLsbD l = true := by
  simp [lanesOf]

theorem lt_of_mem_lanesOf (n : Nat) (m : Mask) (l : Nat) (h : l ∈ lanesOf n m) : l < 1024 := by
  rw [mem_lanesOf] at h
  by_cases hl : l < 1024
  · exact hl
  · rw [BitVec.getLsbD_of_ge _ _ (by omega)] at h; simp at h

theorem Role.mem_live (r : Role) (g : Guard) (l : Nat) : l ∈ r.live g ↔ l ∈ r.all ∧ r.passes g l = true := by
  simp [Role.live, Role.all]

theorem Role.live_lt (r : Role) (g : Guard) (l : Nat) (h : l ∈ r.live g) : l < 1024 :=
  lt_of_mem_lanesOf _ _ _ ((r.mem_live g l).1 h).1

theorem Role.live_nodup (r : Role) (g : Guard) : (r.live g).Nodup := by
  unfold Role.live lanesOf
  exact (List.nodup_range.filter _).filter _

theorem groupsOf_lt (n : Nat) (m : Mask) (g : Nat) (h : g ∈ groupsOf n m) : g < 128 := by
  unfold groupsOf at h
  simp only [List.mem_filter, List.mem_range, bne_iff_ne, ne_eq] at h
  by_cases hg : g < 128
  · exact hg
  · exfalso
    apply h.2
    apply BitVec.eq_of_getLsbD_eq
    intro i hi
    rw [BitVec.getLsbD_setWidth, BitVec.getLsbD_ushiftRight, BitVec.getLsbD_of_ge _ _ (by omega)]
    simp

theorem maskOf_nil : maskOf [] = 0 := rfl

/-! Kills. -/

theorem Role.mem_still (r : Role) (ls : List Nat) (l : Nat) (h : l ∈ r.still ls) : l ∈ ls := by
  unfold Role.still at h
  split at h
  · exact h
  · exact (List.mem_filter.1 h).1

theorem Role.kills_zero (r : Role) (g : Guard) (scal : Bool) (z : Nat → Bool) (hg : r.GuardOk g)
    (hz : ∀ l ∈ r.live g, (scal || z l) = false) : r.kills g scal z = 0 := by
  unfold Role.kills
  have h1 : (r.still r.all).filter (fun l => (r.preg g.p l).2 == .Z) = [] := by
    rw [List.filter_eq_nil_iff]
    intro l hl
    simpa using hg l (r.mem_still _ l hl)
  have h2 : (r.still (r.live g)).filter (fun l => scal || z l) = [] := by
    rw [List.filter_eq_nil_iff]
    intro l hl
    simp [hz l (r.mem_still _ l hl)]
  rw [h1, h2, maskOf_nil]; simp

/-- A class-L instruction that kills no lane runs its body over the live lanes. -/
theorem withLanes_run (s : State) (c : Ctx) (g : Guard) (scal : Role → Bool) (z : Role → Nat → Bool)
    (body : Ctx → State → List Nat → State) (hs : s.Ready c) (hg : c.role.GuardOk g)
    (hz : ∀ l ∈ c.role.live g, (scal c.role || z c.role l) = false) :
    withLanes s g scal z body = .next (body c s (c.role.live g)) := by
  unfold withLanes
  rw [withCtx_next s c _ hs.1]
  simp only [c.role.kills_zero g _ _ hg hz, if_true, hs.1, bne_self_eq_false, Bool.false_and, Bool.false_eq_true, if_false]

theorem Role.scal_lane (r : Role) (g : Guard) (xs : List Opnd) (h : r.OpndsOk g xs) :
    ∀ l ∈ r.live g, (r.scalZ xs || r.laneZ xs l) = false := by
  intro l hl
  have hx := h l hl
  rw [Bool.or_eq_false_iff]
  constructor
  · unfold Role.scalZ
    rw [List.any_eq_false]
    intro x hm
    have := hx x hm
    cases x with
    | imm v => simp
    | reg ty y =>
      cases y with
      | v n last => simp
      | s n => simpa [Role.opnd, Role.src] using this
  · unfold Role.laneZ
    rw [List.any_eq_false]
    intro x hm
    simpa using hx x hm

/-- A class-U instruction none of whose registers is Z runs its body. -/
theorem withScalars_run (s : State) (c : Ctx) (ns : List (BitVec 7)) (body : Ctx → State) (hs : s.Ready c)
    (h : c.role.ScalsOk ns) : withScalars s ns body = .next (body c) := by
  unfold withScalars
  rw [withCtx_next s c _ hs.1]
  have : ns.any (fun n => (c.role.sreg n).st == .Z) = false := by
    rw [List.any_eq_false]
    intro n hn
    simpa using h n hn
  simp [this]

/-! Destinations. -/

theorem State.putV_spec (s : State) (c : Ctx) (g : Guard) (ls : List Nat) (frees : List (BitVec 8)) (wide : Bool)
    (d : BitVec 8) (val : Nat → DWord) (st : Nat → Standing) (hs : s.ctx? = some c) (hn : ls.Nodup)
    (hb : ∀ l ∈ ls, l < 1024) (hr : c.role.Room frees wide d (c.role.live g)) :
    WroteLanes s c g ls frees wide d val st (s.putV g frees wide d (ls.map (fun l => (l, val l, st l)))) := by
  unfold State.putV
  rw [s.ctx?_role c hs]
  unfold Role.Room at hr
  simp only [hr, Bool.false_eq_true, if_false]
  obtain ⟨v, hv, hw⟩ := Role.vreg_lanes ls wide d val (fun l => c.role.guarded g l (st l))
    ((c.role.freeRows frees (groupsOf c.role.ngroups c.role.mask)).mapRows (if wide then [d, d + 1] else [d])
      (groupsOf c.role.ngroups (maskOf (c.role.live g)))) hn hb
  have hx : ∀ (r : Role) ns gs, (r.freeRows frees (groupsOf r.ngroups r.mask)).mapRows ns gs =
      r.withV ((r.freeRows frees (groupsOf r.ngroups r.mask)).mapRows ns gs).v := fun _ _ _ => rfl
  refine ⟨v, ?_, ?_⟩
  · rw [s.modCur_const c _ hs, s.modCur_const c (fun r => r.withV v) hs]
    simp only [List.foldl_map]
    rw [hv, hx, Role.withV_withV]
  · intro n l hl
    have h := hw n l hl
    have hf := c.role.vreg_freeRows frees (groupsOf c.role.ngroups c.role.mask) n l hl (groupsOf_lt _ _)
    rw [Role.vreg_mapRows, hf, hx, Role.withV_withV, Role.withV_taint] at h
    rw [h]
    unfold laneWrite Role.resultSt
    by_cases h1 : l ∈ ls
    · by_cases h2 : n = d
      · subst h2; simp [h1]
      · by_cases h3 : wide = true ∧ n = d + 1
        · have a : ¬ (l ∈ ls ∧ n = d) := fun e => h2 e.2
          have b : l ∈ ls ∧ wide = true ∧ n = d + 1 := ⟨h1, h3⟩
          rw [if_pos h1, if_neg h2, if_pos h3, if_neg a, if_pos b]; rfl
        · simp only [h1, h2, h3, true_and, if_true, if_false, Option.getD_none]
    · simp [h1]

theorem stOf_bits (c : BitVec 2) (st : Standing) (h : c = stCode st) :
    stOf (BitVec.ofBool (c.getLsbD 1) ++ BitVec.ofBool (c.getLsbD 0)) = st := by
  subst h; cases st <;> decide

/-- Put a bit into one lane of a mask. -/
theorem getLsbD_put (m : Mask) (l k : Nat) (b : Bool) (hk : k < 1024) :
    (if b then m ||| bit l else m &&& ~~~(bit l)).getLsbD k = if k = l then b else m.getLsbD k := by
  cases b
  · simp only [Bool.false_eq_true, if_false, BitVec.getLsbD_and, BitVec.getLsbD_not, getLsbD_bit _ _ hk, hk, decide_true]
    by_cases h : k = l <;> simp [h]
  · simp only [if_true, BitVec.getLsbD_or, getLsbD_bit _ _ hk]
    by_cases h : k = l <;> simp [h]

/-- Writing lanes of a p register, each once. -/
theorem Role.preg_lanes (r : Role) (d : BitVec 7) (ls : List Nat) (val : Nat → Bool) (st : Nat → Standing) (hn : ls.Nodup) :
    ∃ p, r.setP d (ls.map (fun l => (l, val l, st l))) = r.withP p ∧ ∀ (n : BitVec 7) (k : Nat), k < 1024 →
      (r.withP p).preg n k = if k ∈ ls ∧ n = d ∧ d ≠ 127 then (val k, markSt r.taint (st k)) else r.preg n k := by
  by_cases hd : d = 127
  · subst hd
    exact ⟨r.p, by simp [Role.setP]; rfl, fun n k _ => by simp; rfl⟩
  · let upd (x : PRow) (e : Nat × Bool × Standing) : PRow :=
      { val := if e.2.1 then x.val ||| bit e.1 else x.val &&& ~~~(bit e.1)
        lo := if (stCode (markSt r.taint e.2.2)).getLsbD 0 then x.lo ||| bit e.1 else x.lo &&& ~~~(bit e.1)
        hi := if (stCode (markSt r.taint e.2.2)).getLsbD 1 then x.hi ||| bit e.1 else x.hi &&& ~~~(bit e.1) }
    let zero : PRow := { val := 0, lo := 0, hi := 0 }
    let es := ls.map (fun l => (l, val l, st l))
    let x := es.foldl upd ((tget r.p d.toNat).getD zero)
    have hset : r.setP d es = r.withP (if x = zero then tdel r.p d.toNat else tset r.p d.toNat x) := by
      unfold Role.setP
      simp only [beq_iff_eq, hd, if_false]
      rfl
    have hfold : ∀ (ls : List Nat) (x : PRow) (k : Nat), ls.Nodup → k < 1024 →
        let y := (ls.map (fun l => (l, val l, st l))).foldl upd x
        (y.val.getLsbD k = if k ∈ ls then val k else x.val.getLsbD k) ∧
        (y.lo.getLsbD k = if k ∈ ls then (stCode (markSt r.taint (st k))).getLsbD 0 else x.lo.getLsbD k) ∧
        (y.hi.getLsbD k = if k ∈ ls then (stCode (markSt r.taint (st k))).getLsbD 1 else x.hi.getLsbD k) := by
      intro ls
      induction ls with
      | nil => intro x k _ _; simp
      | cons a t ih =>
        intro x k hn hk
        rw [List.nodup_cons] at hn
        have := ih (upd x (a, val a, st a)) k hn.2 hk
        simp only [List.map_cons, List.foldl_cons] at this ⊢
        rw [this.1, this.2.1, this.2.2]
        simp only [upd, getLsbD_put _ _ _ _ hk]
        by_cases hka : k = a
        · subst hka; simp [hn.1]
        · simp [hka]
    refine ⟨_, hset, ?_⟩
    intro n k hk
    obtain ⟨h1, h2, h3⟩ := hfold ls ((tget r.p d.toNat).getD zero) k hn hk
    have hpreg : ∀ (r : Role) (n : BitVec 7), n ≠ 127 → r.preg n k =
        let y := (tget r.p n.toNat).getD zero
        (y.val.getLsbD k, stOf (BitVec.ofBool (y.hi.getLsbD k) ++ BitVec.ofBool (y.lo.getLsbD k))) := by
      intro r n hn
      unfold Role.preg
      simp only [beq_iff_eq, hn, if_false]
      cases tget r.p n.toNat with
      | none => simp [zero]; decide
      | some y => rfl
    by_cases hnd : n = d
    · subst hnd
      have hget : (tget (r.withP (if x = zero then tdel r.p n.toNat else tset r.p n.toNat x)).p n.toNat).getD zero = x := by
        unfold Role.withP
        simp only
        split
        · rename_i h; rw [tget_tdel]; simp [h]
        · rw [tget_tset]; simp
      rw [hpreg _ _ hd, hget]
      simp only
      rw [show x.val.getLsbD k = _ from h1, show x.lo.getLsbD k = _ from h2, show x.hi.getLsbD k = _ from h3]
      by_cases hk' : k ∈ ls
      · simp only [hk', true_and, if_true, hd, ne_eq, not_false_eq_true, stOf_bits _ _ rfl]
      · simp only [hk', false_and, if_false]
        rw [hpreg _ _ hd]
    · simp only [hnd, false_and, and_false, if_false]
      have hne : d.toNat ≠ n.toNat := fun e => hnd (BitVec.eq_of_toNat_eq e.symm)
      by_cases h127 : n = 127
      · subst h127; rfl
      · rw [hpreg _ _ h127, hpreg _ _ h127]
        have : tget (r.withP (if x = zero then tdel r.p d.toNat else tset r.p d.toNat x)).p n.toNat = tget r.p n.toNat := by
          unfold Role.withP
          simp only
          split <;> simp [tget_tdel, tget_tset, hne]
        rw [this]

theorem State.putP_spec (s : State) (c : Ctx) (g : Guard) (ls : List Nat) (frees : List (BitVec 8)) (d : BitVec 7)
    (val : Nat → Bool) (st : Nat → Standing) (hs : s.ctx? = some c) (hn : ls.Nodup) :
    WrotePreds s c g ls frees d val st (s.putP g frees d (ls.map (fun l => (l, val l, st l)))) := by
  have hx : ∀ r : Role, r.freeRows frees (groupsOf r.ngroups r.mask) =
      r.withV (r.freeRows frees (groupsOf r.ngroups r.mask)).v := fun _ => rfl
  obtain ⟨p, hp, hw⟩ := (c.role.freeRows frees (groupsOf c.role.ngroups c.role.mask)).preg_lanes d ls val
    (fun l => c.role.guarded g l (st l)) hn
  refine ⟨(c.role.freeRows frees (groupsOf c.role.ngroups c.role.mask)).v, p, ?_, ?_, ?_⟩
  · unfold State.putP
    rw [s.modCur_const c _ hs, s.modCur_const c (fun r => (r.withV _).withP p) hs]
    simp only [List.map_map]
    have : ((fun e : Nat × Bool × Standing => (e.1, e.2.1, c.role.guarded g e.1 e.2.2)) ∘ fun l => (l, val l, st l)) =
        fun l => (l, val l, c.role.guarded g l (st l)) := rfl
    rw [this, hp]
    rfl
  · intro n l hl
    rw [← hx]
    exact c.role.vreg_freeRows frees _ n l hl (groupsOf_lt _ _)
  · intro n l hl
    have h := hw n l hl
    exact h

theorem State.putS_spec (s : State) (c : Ctx) (d : BitVec 7) (v : DWord) (st : Standing) (hs : s.ctx? = some c) :
    WroteScal s c d v st (s.putS d v st) := by
  refine ⟨(c.role.setS d v st).s, ?_, ?_⟩
  · unfold State.putS
    rw [s.modCur_const c _ hs, s.modCur_const c (fun r => r.withS _) hs, c.role.setS_eq]
    rfl
  · intro n
    rw [← c.role.setS_eq, c.role.sreg_setS]
    by_cases h : d = n
    · subst h; simp
    · have : ¬ n = d := fun e => h e.symm
      simp [h, this]

/-! The shared shapes. -/

theorem Role.arg_val (r : Role) (xs : List Opnd) (l i : Nat) :
    (r.arg xs l i).val = (((xs.map (fun x => r.opnd x l))[i]?).map SVal.val).getD 0 := by
  unfold Role.arg
  cases (xs.map (fun x => r.opnd x l))[i]? <;> rfl

/-- A per-lane computation into a v register. -/
theorem execVec_spec (i : Instr) (g : Guard) (xs : List Opnd) (consume : Bool) (rule : Standing → Standing) (wide : Bool)
    (d : BitVec 8) (f : (Nat → DWord) → DWord) (val : (Nat → SVal) → DWord) (st : (Nat → SVal) → Standing)
    (he : ∀ s, exec i s = execVec g xs consume rule wide d f s)
    (hv : ∀ a : Nat → SVal, val a = f (fun i => (a i).val))
    (hst : ∀ (r : Role) (l : Nat), st (r.arg xs l) = rule (joinAll (xs.map (fun x => (r.opnd x l).st)))) :
    VecRule i consume g xs wide d val st := by
  intro s c hs hg ho hr
  rw [he s]
  unfold execVec
  rw [withLanes_run s c g _ _ _ hs hg]
  · refine ⟨_, rfl, ?_⟩
    have := s.putV_spec c g (c.role.live g) (freesOf xs) wide d (fun l => val (c.role.arg xs l))
      (fun l => st (c.role.arg xs l)) hs.1 (c.role.live_nodup g) (c.role.live_lt g) hr
    simp only [hv, hst, Role.arg_val] at this ⊢
    simp only [List.map_map] at this ⊢
    exact this
  · intro l hl
    cases consume with
    | false => simp
    | true => simpa using c.role.scal_lane g xs (ho rfl) l hl

/-- A per-lane test into a p register. -/
theorem execTest_spec (i : Instr) (g : Guard) (xs : List Opnd) (d : BitVec 7) (f : (Nat → DWord) → Bool)
    (val : (Nat → SVal) → Bool) (st : (Nat → SVal) → Standing) (he : ∀ s, exec i s = execTest g xs d f s)
    (hv : ∀ a : Nat → SVal, val a = f (fun i => (a i).val))
    (hst : ∀ (r : Role) (l : Nat), st (r.arg xs l) = joinAll (xs.map (fun x => (r.opnd x l).st))) :
    TestRule i g xs d val st := by
  intro s c hs hg ho
  rw [he s]
  unfold execTest
  rw [withLanes_run s c g _ _ _ hs hg]
  · refine ⟨_, rfl, ?_⟩
    have := s.putP_spec c g (c.role.live g) (freesOf xs) d (fun l => val (c.role.arg xs l))
      (fun l => st (c.role.arg xs l)) hs.1 (c.role.live_nodup g)
    simp only [hv, hst, Role.arg_val] at this ⊢
    simp only [List.map_map] at this ⊢
    exact this
  · exact c.role.scal_lane g xs ho

/-- A uniform computation over s registers. -/
theorem execUni_spec (i : Instr) (ns : List (BitVec 7)) (imm : Bool) (d : BitVec 7) (f : (Nat → DWord) → DWord)
    (val : Role → DWord) (st : Role → Standing) (he : ∀ s, exec i s = execUni ns imm d f s)
    (hv : ∀ r : Role, val r = f (fun i => (((ns.map r.sreg)[i]?).map SVal.val).getD 0))
    (hst : ∀ r : Role, st r = joinAll ((ns.map r.sreg).map SVal.st ++ if imm then [.S] else [])) :
    UniRule i ns d val st := by
  intro s c hs h
  rw [he s]
  unfold execUni
  rw [withScalars_run s c ns _ hs h]
  refine ⟨_, rfl, ?_⟩
  have := s.putS_spec c d (val c.role) (st c.role) hs.1
  rw [hv, hst] at this
  rw [hv, hst]
  exact this

end Sys2Proof.Machine
end

