-- ==== Sys2Proof/Laws/Access.lean ====
section
/-! SUPPORT. Walks and translations only read (State.ReadOnly), and what a per-lane access does when every lane is reached. -/
namespace Sys2Proof.Machine

theorem State.ReadOnly.refl (s : State) : s.ReadOnly s :=
  ⟨rfl, fun _ => rfl, fun h => ⟨rfl, rfl, h, rfl, fun _ => rfl⟩, fun _ => rfl⟩

theorem State.ReadOnly.cur {s t : State} (h : s.ReadOnly t) : t.cur = s.cur := by rw [h.1]
theorem State.ReadOnly.teams {s t : State} (h : s.ReadOnly t) : t.teams = s.teams := by rw [h.1]
/-- Where the role knows every write, it still does after reading. -/
theorem State.ReadOnly.knowsAll {s t : State} (h : s.ReadOnly t) (hk : s.knowsAll = true) : t.knowsAll = true := by
  unfold State.knowsAll
  rw [h.2.2.2 hk, h.cur]; exact hk

theorem State.ReadOnly.trans {s t u : State} (h : s.ReadOnly t) (k : t.ReadOnly u) : s.ReadOnly u := by
  refine ⟨?_, fun p => (k.2.1 p).trans (h.2.1 p), fun hf => ?_, fun hk => (k.2.2.2 (h.knowsAll hk)).trans (h.2.2.2 hk)⟩
  · have k1 := k.1; rw [h.1] at k1; exact k1
  · obtain ⟨a1, a2, a3, a4, a5⟩ := h.2.2.1 hf
    obtain ⟨b1, b2, b3, b4, b5⟩ := k.2.2.1 a3
    exact ⟨b1.trans a1, b2.trans a2, b3, b4.trans a4, fun p => (b5 p).trans (a5 p)⟩

/-- The issuing role's surroundings after a read: only what reading may change in its partition differs. -/
theorem State.ReadOnly.ctx {s t : State} (h : s.ReadOnly t) (c : Ctx) (hc : s.ctx? = some c) :
    ∃ q, t.ctx? = some { c with part := q } ∧ q.quiet = c.part.quiet := by
  unfold State.ctx? at hc ⊢
  have ht : t.team? t.cur.team = s.team? s.cur.team := by unfold State.team?; rw [h.teams, h.cur]
  rw [ht, h.cur]
  cases h1 : s.team? s.cur.team with
  | none => simp [h1] at hc
  | some tm =>
    simp only [h1] at hc ⊢
    have hp := h.2.1 tm.part
    cases h2 : tm.roles[s.cur.role]? with
    | none => simp [h2] at hc
    | some r =>
      cases h3 : s.part? tm.part with
      | none => simp [h2, h3] at hc
      | some p =>
        rw [h3] at hp
        cases h4 : t.part? tm.part with
        | none => rw [h4] at hp; simp at hp
        | some q =>
          rw [h4] at hp
          simp only [h2, h3, Option.map_some] at hc hp ⊢
          have hq : q.quiet = p.quiet := Option.some.inj hp
          have hl : q.launch? tm.serial = p.launch? tm.serial := by
            unfold Part.launch?; rw [show q.launches = p.launches from (congrArg Part.launches hq : q.quiet.launches = p.quiet.launches)]
          rw [hl]
          cases h5 : p.launch? tm.serial with
          | none => simp [h5] at hc
          | some l =>
            simp only [h5, Option.map_some, Option.some.injEq] at hc ⊢
            subst hc
            exact ⟨q, rfl, hq⟩

theorem State.ReadOnly.modCur {s t : State} (h : s.ReadOnly t) (f : Role → Role) : (s.modCur f).ReadOnly (t.modCur f) := by
  refine ⟨?_, h.2.1, h.2.2.1, h.2.2.2⟩
  have h1 := h.1
  unfold State.modCur State.modRole State.modTeam
  rw [h1]

/-- Advancing the counter of free values only reads. -/
theorem State.free_ro (s : State) (k : Nat) : s.ReadOnly { s with free := k } :=
  ⟨rfl, fun _ => rfl, fun h => ⟨rfl, rfl, h, rfl, fun _ => rfl⟩, fun _ => rfl⟩

/-! Reading entries. -/

/-- t is s but for the contents, the errors and the counts of the stacks. -/
def State.Hurt (s t : State) : Prop :=
  t = { s with mem := t.mem, flaws := t.flaws, symFlaws := t.symFlaws, bulks := t.bulks, free := t.free }
theorem State.Hurt.trans {s t u : State} (h : s.Hurt t) (k : t.Hurt u) : s.Hurt u := by
  unfold State.Hurt at *; rw [h] at k; exact k
theorem State.Hurt.ro {s t : State} (h : s.Hurt t) (hn : s.flaws ≠ []) : s.ReadOnly t := by
  unfold State.Hurt at h
  exact ⟨by rw [h], fun p => by rw [h]; rfl, fun e => absurd e hn, fun _ => by rw [h]⟩

theorem State.scramble_hurt (s : State) (a n : Nat) : s.Hurt (s.scramble a n) := by
  induction n generalizing s a with
  | zero => exact rfl
  | succ n ih =>
    have h : s.Hurt { s with mem := s.mem.wr a (Config.freeByte s.free), free := s.free + 1 } := rfl
    exact h.trans (ih _ (a + 1))

theorem State.touchUnit_ro (s : State) (u : Nat) : s.ReadOnly (s.touchUnit u) := by
  unfold State.touchUnit
  cases hf : tget s.flaws u with
  | none => exact .refl _
  | some f =>
    have hne : s.flaws ≠ [] := by rintro h; rw [h] at hf; simp [tget] at hf
    refine State.Hurt.ro ?_ hne
    dsimp only
    have h1 : ∀ (x : State) (y : Tab Flaw), x.Hurt { x with flaws := y } := fun _ _ => rfl
    have h2 : ∀ (x : State) b g, x.Hurt (x.modBulk b g) := fun _ _ _ => rfl
    have h3 : ∀ (x : State) m, x.Hurt { x with mem := m } := fun _ _ => rfl
    have h4 : ∀ (x : State) b, x.Hurt (x.scrub b) := fun _ _ => rfl
    split
    · exact (h2 ..).trans (h1 ..)
    · split
      · exact (h1 ..).trans (h4 ..)
      · exact (((h1 ..).trans (h2 ..)).trans (State.scramble_hurt _ (64 * u) 64)).trans (h3 ..)

theorem State.foldl_ro {α : Type} (f : State → α → State) (h : ∀ (s : State) (x : α), s.ReadOnly (f s x)) (xs : List α) (s : State) :
    s.ReadOnly (xs.foldl f s) := by
  induction xs generalizing s with
  | nil => exact .refl _
  | cons x t ih => exact (h s x).trans (ih _)

theorem State.touch_ro (s : State) (a n : Nat) : s.ReadOnly (s.touch a n) := by
  unfold State.touch
  split
  · exact .refl _
  · exact State.foldl_ro _ State.touchUnit_ro _ _

theorem State.readEntry_ro (s : State) (p : Part) (home err : Option Nat) (a : Nat) :
    s.ReadOnly (s.readEntry p home err a).1 := by
  unfold State.readEntry
  dsimp only
  split
  · exact .refl _
  · split
    · exact .refl _
    · split
      · exact .refl _
      · exact (apply_ite (fun r : State × (WRes ⊕ BitVec 64) => s.ReadOnly r.1) _ _ _).mpr (by split <;> exact s.touch_ro _ _)

theorem State.walkFrom_ro (p : Part) (home err : Option Nat) (va n table : Nat) (s : State) :
    s.ReadOnly (State.walkFrom p home err va n table s).1 := by
  induction n generalizing table s with
  | zero =>
    unfold State.walkFrom
    have h := s.readEntry_ro p home err (table + 8 * (va / 2 ^ 16 % 32))
    split <;> rename_i e <;> rw [e] at h
    · exact h
    · split <;> exact h
  | succ n ih =>
    unfold State.walkFrom
    have h := s.readEntry_ro p home err (table + 8 * (va / 2 ^ (21 + 9 * n) % if n = 3 then 256 else 512))
    split <;> rename_i e <;> rw [e] at h
    · exact h
    · repeat' split
      all_goals first | exact h | exact h.trans (ih _ _)

theorem State.choose_ro (now : WRes) (xs : List Xl) (s : State) : s.ReadOnly (s.choose now xs).1 := by
  induction xs generalizing s with
  | nil => exact .refl _
  | cons x t ih =>
    unfold State.choose
    split
    · exact ih s
    · split
      · exact s.free_ro _
      · exact (s.free_ro _).trans (ih _)

theorem State.modTlb_ro (s : State) (pp : Nat) (f : Part → Part) (hf : ∀ p, (f p).quiet = p.quiet ∧ (f p).cells = p.cells) :
    s.ReadOnly (s.modPart pp f) := by
  have key : ∀ {β : Type} (g : Part → β), (∀ p, g (f p) = g p) → ∀ p, ((s.modPart pp f).part? p).map g = (s.part? p).map g := by
    intro β g hg p
    rw [State.part?_modPart]
    by_cases h : pp = p
    · subst h; cases s.part? pp <;> simp [hg]
    · simp [h]
  exact ⟨rfl, key Part.quiet (fun p => (hf p).1), fun h => ⟨rfl, rfl, h, rfl, key Part.cells (fun p => (hf p).2)⟩, fun _ => rfl⟩

theorem State.findLeaf_ro (s : State) (p : Part) (held : List Xl) (need : Need) (err : Option Nat) (va : Nat) :
    s.ReadOnly (s.findLeaf p held need err va).1 := by
  unfold State.findLeaf
  dsimp only
  split
  · exact .refl _
  · exact (State.walkFrom_ro p need.home err va 4 0 s).trans (State.choose_ro _ _ _)

theorem State.xlateIn_ro (s : State) (pp : Nat) (held : List Xl) (need : Need) (err : Option Nat) (va : Nat) (h : Xl → Hit) :
    s.ReadOnly (s.xlateIn pp held need err va h).1 := by
  unfold State.xlateIn
  split
  · exact .refl _
  · rename_i p _
    have h2 := s.findLeaf_ro p held need err va
    split <;> rename_i e <;> rw [e] at h2
    · dsimp only
      split
      · refine h2.trans (State.modTlb_ro _ _ _ ?_)
        intro p; constructor <;> (split <;> rfl)
      · exact h2
    all_goals exact h2

theorem State.xlate_ro (s : State) (pp : Nat) (held : List Xl) (need : Need) (err : Option Nat) (va : Nat) :
    s.ReadOnly (s.xlate pp held need err va).1 := by
  unfold State.xlate
  dsimp only
  repeat' split
  all_goals first | exact .refl _ | exact s.xlateIn_ro _ _ _ _ _ _

theorem State.resolveVirt_ro (s : State) (c : Ctx) (held : List Xl) (need : Need) (tag : BitVec 14) (va n : Nat) :
    s.ReadOnly (s.resolveVirt c held need tag va n).1 := by
  unfold State.resolveVirt
  have h1 := s.xlate_ro c.team.part held (need.at_ c.team.bulk) c.role.accessErr va
  have h2 := h1.trans ((s.xlate c.team.part held (need.at_ c.team.bulk) c.role.accessErr va).1.xlate_ro c.team.part held
    (need.at_ c.team.bulk) c.role.accessErr ((va + n - 1) / 65536 * 65536))
  simp only
  split <;> rename_i hb <;> repeat' split
  all_goals first | exact h1 | exact h2

theorem State.resolve_ro (s : State) (c : Ctx) (o : Ask) (held : List Xl) (l ea : Nat) :
    s.ReadOnly (s.resolve c o held l ea).1 := by
  unfold State.resolve
  simp only
  repeat' split
  all_goals first | exact .refl _ | exact s.resolveVirt_ro _ _ _ _ _ _

/-- c' is c but for the role's last-page registers and what reading may change in its partition. -/
def Ctx.Alike (c c' : Ctx) : Prop :=
  ∃ p q rs, c' = { c with role := { c.role with lastPage := p }, team := { c.team with roles := rs }, part := q } ∧
    q.quiet = c.part.quiet

theorem Team.modRole_eq (t : Team) (r : Nat) (f : Role → Role) : ∃ rs, t.modRole r f = { t with roles := rs } := by
  unfold Team.modRole; split
  · exact ⟨_, rfl⟩
  · exact ⟨t.roles, rfl⟩

/-- What resolving lanes keeps: the state is s but for what reads change, whatever update of the role follows. -/
def State.Resolved (s : State) (c : Ctx) (t : State) : Prop :=
  ∃ p, (∀ f : Role → Role, (s.modCur (fun r => f { r with lastPage := p })).ReadOnly (t.modCur f)) ∧
    ∃ c', t.ctx? = some c' ∧ c.Alike c' ∧ c'.role = { c.role with lastPage := p }

theorem State.Resolved.init (s : State) (c : Ctx) (h : s.ctx? = some c) : s.Resolved c s := by
  refine ⟨c.role.lastPage, fun f => ?_, c, h, ⟨c.role.lastPage, c.part, c.team.roles, rfl, rfl⟩, rfl⟩
  rw [s.modCur_congr (fun r => f { r with lastPage := c.role.lastPage }) f]
  · exact .refl _
  · intro x hx
    rw [s.ctx?_role c h] at hx; cases hx; rfl

theorem State.Resolved.read {s t u : State} {c : Ctx} (h : s.Resolved c t) (k : t.ReadOnly u) : s.Resolved c u := by
  obtain ⟨p, h1, c', h2, ⟨a, b, rs, h3, h5⟩, h4⟩ := h
  obtain ⟨q, hq, hq'⟩ := k.ctx c' h2
  refine ⟨p, fun f => (h1 f).trans (k.modCur f), _, hq, ⟨a, q, rs, by rw [h3], ?_⟩, h4⟩
  rw [hq', h3]; exact h5

theorem State.Resolved.page {s t : State} {c : Ctx} (h : s.Resolved c t) (l : Nat) (x : Xl) :
    s.Resolved c (t.modCur (fun r => { r with lastPage := tset r.lastPage l x })) := by
  obtain ⟨p, h1, c', h2, ⟨a, b, rs, h3, h5⟩, h4⟩ := h
  refine ⟨tset p l x, fun f => ?_, _, t.ctx?_modCur c' _ h2, ?_, ?_⟩
  · rw [State.modCur_modCur]
    exact h1 (fun r => f { r with lastPage := tset r.lastPage l x })
  · obtain ⟨rs', hr⟩ := Team.modRole_eq c'.team t.cur.role (fun r => { r with lastPage := tset r.lastPage l x })
    refine ⟨tset p l x, b, rs', ?_, h5⟩
    simp only [hr, h4]
    rw [h3]
  · simp only [h4]

theorem State.resolveAll_resolved (s : State) (c d : Ctx) (o : Ask) (as : List (Nat × Nat)) (h : s.ctx? = some c) :
    s.Resolved c (s.resolveAll d o as).s := by
  unfold State.resolveAll
  suffices key : ∀ (g : Got), s.Resolved c g.s → s.Resolved c (as.foldl (Got.lane d o) g).s from key _ (.init s c h)
  induction as with
  | nil => intro g h; exact h
  | cons e t ih =>
    intro g h
    rw [List.foldl_cons]
    apply ih
    have hr := h.read (g.s.resolve_ro d o (g.s.heldPage e.1) e.1 e.2)
    unfold Got.lane
    split <;> rename_i hres <;> rw [hres] at hr
    · simp only [State.noteLastPage]
      split
      · split
        · exact hr.page _ _
        · exact hr
      · exact hr
    all_goals exact hr

/-- The lanes that resolve, in order, when none is turned away. -/
theorem State.resolveAll_lanes (s : State) (d : Ctx) (o : Ask) (as : List (Nat × Nat)) (got : State)
    (pls : List (Nat × Place)) (h : s.resolveAll d o as = { s := got, ok := pls, off := [], traps := [], waits := [] }) :
    pls.map (fun e => e.1) = as.map (fun e => e.1) := by
  unfold State.resolveAll at h
  have key : ∀ (as : List (Nat × Nat)) (g : Got),
      let x := as.foldl (Got.lane d o) g
      x.off = [] → x.traps = [] → x.waits = [] →
        g.off = [] ∧ g.traps = [] ∧ g.waits = [] ∧ x.ok.map (fun e => e.1) = g.ok.map (fun e => e.1) ++ as.map (fun e => e.1) := by
    intro as
    induction as with
    | nil => intro g x h1 h2 h3; exact ⟨h1, h2, h3, by simp [x]⟩
    | cons e t ih =>
      intro g x h1 h2 h3
      obtain ⟨a, b, c, e'⟩ := ih _ h1 h2 h3
      simp only [x] at *
      rw [List.foldl_cons, e']
      revert a b c
      unfold Got.lane
      split
      · simp only; intro a b c; exact ⟨a, b, c, by simp⟩
      · simp only; intro a; simp at a
      · simp only; intro _ a; simp at a
      · simp only; intro _ _ a; simp at a
  have := key as { s := s, ok := [], off := [], traps := [], waits := [] }
  simp only at this
  rw [h] at this
  have := (this rfl rfl rfl).2.2.2
  simpa using this

/-- A per-lane access whose lanes are all reached: the check after the lanes, the accesses, and what is left. -/
theorem laneMem_run (o : LaneMem) (data : List Opnd) (scal : List (BitVec 7)) (tag : Ctx → TagRes)
    (room : Ctx → State → Got → Option State) (act : Ctx → State → List (Nat × Place) → State) (fin : Ctx → State → State)
    (s : State) (c : Ctx) (x : BitVec 14) (got : State) (pls : List (Nat × Place)) (hs : s.Ready c)
    (hg : c.role.GuardOk o.g) (hz : c.role.OpndsOk o.g (addrOpnds o.m ++ data)) (hsc : ∀ n ∈ scal, (c.role.sreg n).st ≠ .Z)
    (hr : s.Reach c o (tag c) x got pls)
    (hroom : room c got { s := got, ok := pls, off := [], traps := [], waits := [] } = none) :
    ∃ c', got.ctx? = some c' ∧ c.Alike c' ∧ laneMem o data scal tag room act fin s = .next (fin c' (act c' got pls).lanesDone) := by
  have hres := s.resolveAll_resolved c c { sp := o.sp, need := o.need, size := o.size, align := o.align, bpi := o.bpi, tag := x }
    ((c.role.live o.g).map (fun l => (l, (c.role.ea o.m o.off l).val.toNat))) hs.1
  rw [hr.2.2] at hres
  obtain ⟨p, _, c', hc, hal, hrole⟩ := hres
  refine ⟨c', hc, hal, ?_⟩
  unfold laneMem
  have hk : ∀ l ∈ c.role.live o.g,
      (((c.role.scalZ (addrOpnds o.m ++ data)) || scal.any (fun n => (c.role.sreg n).st == .Z)) || c.role.laneZ (addrOpnds o.m ++ data) l) = false := by
    intro l hl
    have h1 := c.role.scal_lane o.g _ hz l hl
    rw [Bool.or_eq_false_iff] at h1
    have h2 : scal.any (fun n => (c.role.sreg n).st == .Z) = false := by
      rw [List.any_eq_false]; intro n hn; simpa using hsc n hn
    rw [h1.1, h1.2, h2]; rfl
  rw [withLanes_run s c o.g _ _ _ hs hg hk]
  have hst : c.role.still (c.role.live o.g) = c.role.live o.g := by unfold Role.still; rw [hr.1]
  have hzip : (c.role.live o.g).zip ((c.role.live o.g).map (fun l => (c.role.ea o.m o.off l).val.toNat)) =
      (c.role.live o.g).map (fun l => (l, (c.role.ea o.m o.off l).val.toNat)) := by
    generalize c.role.live o.g = ls
    induction ls with
    | nil => rfl
    | cons a t ih => simp [ih]
  simp only [hst, hr.2.1, hzip]
  rw [hr.2.2]
  simp only [Got.trap, List.isEmpty_nil, if_true, hc, Bool.false_and, Bool.not_true, Bool.false_eq_true, if_false, hroom]

end Sys2Proof.Machine
end

