-- ==== Sys2Proof/Laws/Dispatch.lean ====
section
/-! SUPPORT. What exec calls for each instruction. -/
namespace Sys2Proof.Machine

theorem exec_launchAppend (part node q off len rec s) : exec (.launchAppend part node q off len rec) s = execLaunchAppend part node q off len rec s := rfl
theorem exec_launchAccept (part serial s) : exec (.launchAccept part serial) s = execLaunchAccept part serial s := rfl
theorem exec_qresWrite (part node q val s) : exec (.qresWrite part node q val) s = execQresWrite part node q val s := rfl
theorem exec_registerWrite (part node off len val s) : exec (.registerWrite part node off len val) s = execRegisterWrite part node off len val s := rfl
theorem exec_grantSubmit (part node val s) : exec (.grantSubmit part node val) s = execGrantSubmit part node val s := rfl
theorem exec_grantVerifyDone (part s) : exec (.grantVerifyDone part) s = execGrantVerifyDone part s := rfl
theorem exec_revocationDrained (part s) : exec (.revocationDrained part) s = execRevocationDrained part s := rfl
theorem exec_attctlGo (part node val s) : exec (.attctlGo part node val) s = execAttctlGo part node val s := rfl
theorem exec_attestationReport (part s) : exec (.attestationReport part) s = execAttestationReport part s := rfl
theorem exec_hostRead (part node va len s) : exec (.hostRead part node va len) s = execHostRead part node va len s := rfl
theorem exec_hostWrite (part node phys va data s) : exec (.hostWrite part node phys va data) s = execHostWrite part node phys va data s := rfl
theorem exec_windowAccess (part va len store s) : exec (.windowAccess part va len store) s = execWindowAccess part va len store s := rfl
theorem exec_distributeTeam (part s) : exec (.distributeTeam part) s = execDistributeTeam part s := rfl
theorem exec_teamResident (team s) : exec (.teamResident team) s = execTeamResident team s := rfl
theorem exec_taskPlace (part bulk s) : exec (.taskPlace part bulk) s = execTaskPlace part bulk s := rfl
theorem exec_launchComplete (part serial s) : exec (.launchComplete part serial) s = execLaunchComplete part serial s := rfl
theorem exec_partitionCreate (img n s) : exec (.partitionCreate img n) s = execPartitionCreate img n s := rfl
theorem exec_partitionDissolve (d s) : exec (.partitionDissolve d) s = execPartitionDissolve d s := rfl
theorem exec_remap (part k spare s) : exec (.remap part k spare) s = execRemap part k spare s := rfl
theorem exec_bulkheadReset (b s) : exec (.bulkheadReset b) s = execBulkheadReset b s := rfl
theorem exec_resetStep1End (b unwritten s) : exec (.resetStep1End b unwritten) s = execResetStep1End b unwritten s := rfl
theorem exec_bulkheadRejoin (b image s) : exec (.bulkheadRejoin b image) s = execBulkheadRejoin b image s := rfl
theorem exec_gateTimeout (r s) : exec (.gateTimeout r) s = execGateTimeout r s := rfl
theorem exec_linkAuthFail (part l s) : exec (.linkAuthFail part l) s = execLinkAuthFail part l s := rfl
theorem exec_linkFail (part gate t s) : exec (.linkFail part gate t) s = execLinkFail part gate t s := rfl
theorem exec_selfRefreshEnter (b s) : exec (.selfRefreshEnter b) s = execSelfRefreshEnter b s := rfl
theorem exec_selfRefreshExit (b s) : exec (.selfRefreshExit b) s = execSelfRefreshExit b s := rfl
theorem exec_selfRefreshTimeout (b s) : exec (.selfRefreshTimeout b) s = execSelfRefreshTimeout b s := rfl
theorem exec_railMeasure (b watts dieTemp s) : exec (.railMeasure b watts dieTemp) s = execRailMeasure b watts dieTemp s := rfl
theorem exec_clockStepDown (b s) : exec (.clockStepDown b) s = execClockStepDown b s := rfl
theorem exec_clockStepUp (b s) : exec (.clockStepUp b) s = execClockStepUp b s := rfl
theorem exec_dieCriticalTemp (die s) : exec (.dieCriticalTemp die) s = execDieCriticalTemp die s := rfl
theorem exec_dieCooled (die s) : exec (.dieCooled die) s = execDieCooled die s := rfl
theorem exec_powerUp (img fw failed s) : exec (.powerUp img fw failed) s = execPowerUp img fw failed s := rfl
theorem exec_migration (r s) : exec (.migration r) s = execMigration r s := rfl
theorem exec_migrationSwitch (part va s) : exec (.migrationSwitch part va) s = execMigrationSwitch part va s := rfl
theorem exec_remoteGoneReplay (r reachable s) : exec (.remoteGoneReplay r reachable) s = execRemoteGoneReplay r reachable s := rfl
theorem exec_dualMismatchRecovery (r s) : exec (.dualMismatchRecovery r) s = execDualMismatchRecovery r s := rfl
theorem exec_firmwareLpSweep (part s) : exec (.firmwareLpSweep part) s = execFirmwareLpSweep part s := rfl
theorem exec_copyStart (op s) : exec (.copyStart op) s = execCopyStart op s := rfl
theorem exec_copyComplete (op s) : exec (.copyComplete op) s = execCopyComplete op s := rfl
theorem exec_matrixOpStart (op groups s) : exec (.matrixOpStart op groups) s = execMatrixOpStart op groups s := rfl
theorem exec_matrixOpComplete (op s) : exec (.matrixOpComplete op) s = execMatrixOpComplete op s := rfl
theorem exec_nmcStart (op s) : exec (.nmcStart op) s = execNmcStart op s := rfl
theorem exec_nmcComplete (op s) : exec (.nmcComplete op) s = execNmcComplete op s := rfl
theorem exec_clauseStart (h s) : exec (.clauseStart h) s = execClauseStart h s := rfl
theorem exec_longLatencyComplete (r s) : exec (.longLatencyComplete r) s = execLongLatencyComplete r s := rfl
theorem exec_fairnessServe (r s) : exec (.fairnessServe r) s = execFairnessServe r s := rfl
theorem exec_yieldExpiry (r s) : exec (.yieldExpiry r) s = execYieldExpiry r s := rfl
theorem exec_budgetRetry (r s) : exec (.budgetRetry r) s = execBudgetRetry r s := rfl
theorem exec_ctxnewRetry (r s) : exec (.ctxnewRetry r) s = execCtxnewRetry r s := rfl
theorem exec_overlayRetry (r s) : exec (.overlayRetry r) s = execOverlayRetry r s := rfl
theorem exec_preemptRequest (team s) : exec (.preemptRequest team) s = execPreemptRequest team s := rfl
theorem exec_pdistExpiry (r s) : exec (.pdistExpiry r) s = execPdistExpiry r s := rfl
theorem exec_preemptDrain (team s) : exec (.preemptDrain team) s = execPreemptDrain team s := rfl
theorem exec_gangPreemptTimeout (team s) : exec (.gangPreemptTimeout team) s = execGangPreemptTimeout team s := rfl
theorem exec_teamRestore (team s) : exec (.teamRestore team) s = execTeamRestore team s := rfl
theorem exec_teamRetire (team s) : exec (.teamRetire team) s = execTeamRetire team s := rfl
theorem exec_nop (g s) : exec (.nop g) s = execNop g s := rfl
theorem exec_bra (target s) : exec (.bra target) s = execBra target s := rfl
theorem exec_brd (p target join s) : exec (.brd p target join) s = execBrd p target join s := rfl
theorem exec_brx (a s) : exec (.brx a) s = execBrx a s := rfl
theorem exec_call (target s) : exec (.call target) s = execCall target s := rfl
theorem exec_callInd (a s) : exec (.callInd a) s = execCallInd a s := rfl
theorem exec_loop (a target s) : exec (.loop a target) s = execLoop a target s := rfl
theorem exec_exit (g s) : exec (.exit g) s = execExit g s := rfl
theorem exec_pand (o s) : exec (.pand o) s = execPand o s := rfl
theorem exec_por (o s) : exec (.por o) s = execPor o s := rfl
theorem exec_pxor (o s) : exec (.pxor o) s = execPxor o s := rfl
theorem exec_pnot (g d a s) : exec (.pnot g d a) s = execPnot g d a s := rfl
theorem exec_pmov (g d a s) : exec (.pmov g d a) s = execPmov g d a s := rfl
theorem exec_pprov (g d src set s) : exec (.pprov g d src set) s = execPprov g d src set s := rfl
theorem exec_smov (d a s) : exec (.smov d a) s = execSmov d a s := rfl
theorem exec_sli (d imm s) : exec (.sli d imm) s = execSli d imm s := rfl
theorem exec_sadd (o s) : exec (.sadd o) s = execSadd o s := rfl
theorem exec_saddImm (o s) : exec (.saddImm o) s = execSaddImm o s := rfl
theorem exec_ssub (o s) : exec (.ssub o) s = execSsub o s := rfl
theorem exec_ssubImm (o s) : exec (.ssubImm o) s = execSsubImm o s := rfl
theorem exec_smul (o s) : exec (.smul o) s = execSmul o s := rfl
theorem exec_smulImm (o s) : exec (.smulImm o) s = execSmulImm o s := rfl
theorem exec_sshl (o s) : exec (.sshl o) s = execSshl o s := rfl
theorem exec_sshlImm (o s) : exec (.sshlImm o) s = execSshlImm o s := rfl
theorem exec_sshr (o s) : exec (.sshr o) s = execSshr o s := rfl
theorem exec_sshrImm (o s) : exec (.sshrImm o) s = execSshrImm o s := rfl
theorem exec_sand (o s) : exec (.sand o) s = execSand o s := rfl
theorem exec_sandImm (o s) : exec (.sandImm o) s = execSandImm o s := rfl
theorem exec_sor (o s) : exec (.sor o) s = execSor o s := rfl
theorem exec_sorImm (o s) : exec (.sorImm o) s = execSorImm o s := rfl
theorem exec_sxor (o s) : exec (.sxor o) s = execSxor o s := rfl
theorem exec_sxorImm (o s) : exec (.sxorImm o) s = execSxorImm o s := rfl
theorem exec_smin (o s) : exec (.smin o) s = execSmin o s := rfl
theorem exec_sminImm (o s) : exec (.sminImm o) s = execSminImm o s := rfl
theorem exec_smax (o s) : exec (.smax o) s = execSmax o s := rfl
theorem exec_smaxImm (o s) : exec (.smaxImm o) s = execSmaxImm o s := rfl
theorem exec_scmp (cc o s) : exec (.scmp cc o) s = execScmp cc o s := rfl
theorem exec_scmpImm (cc o s) : exec (.scmpImm cc o) s = execScmpImm cc o s := rfl
theorem exec_smad (o c s) : exec (.smad o c) s = execSmad o c s := rfl
theorem exec_ssel (d a b c s) : exec (.ssel d a b c) s = execSsel d a b c s := rfl
theorem exec_srs (d num s) : exec (.srs d num) s = execSrs d num s := rfl
theorem exec_sws (num a s) : exec (.sws num a) s = execSws num a s := rfl
theorem exec_sget (ty d a lane s) : exec (.sget ty d a lane) s = execSget ty d a lane s := rfl
theorem exec_sld (fs sp ty d a off s) : exec (.sld fs sp ty d a off) s = execSld fs sp ty d a off s := rfl
theorem exec_shfl (g mode seg ty d a b fill s) : exec (.shfl g mode seg ty d a b fill) s = execShfl g mode seg ty d a b fill s := rfl
theorem exec_vote (g d a s) : exec (.vote g d a) s = execVote g d a s := rfl
theorem exec_elect (g d a s) : exec (.elect g d a) s = execElect g d a s := rfl
theorem exec_redux (o d s) : exec (.redux o d) s = execRedux o d s := rfl
theorem exec_scan (o exc d s) : exec (.scan o exc d) s = execScan o exc d s := rfl
theorem exec_mov (g ty d a s) : exec (.mov g ty d a) s = execMov g ty d a s := rfl
theorem exec_li (g ty d imm s) : exec (.li g ty d imm) s = execLi g ty d imm s := rfl
theorem exec_iadd (o s) : exec (.iadd o) s = execIadd o s := rfl
theorem exec_iaddImm (o s) : exec (.iaddImm o) s = execIaddImm o s := rfl
theorem exec_isub (o s) : exec (.isub o) s = execIsub o s := rfl
theorem exec_isubImm (o s) : exec (.isubImm o) s = execIsubImm o s := rfl
theorem exec_imul (o s) : exec (.imul o) s = execImul o s := rfl
theorem exec_imulImm (o s) : exec (.imulImm o) s = execImulImm o s := rfl
theorem exec_imulh (o s) : exec (.imulh o) s = execImulh o s := rfl
theorem exec_imulhImm (o s) : exec (.imulhImm o) s = execImulhImm o s := rfl
theorem exec_idiv (o s) : exec (.idiv o) s = execIdiv o s := rfl
theorem exec_idivImm (o s) : exec (.idivImm o) s = execIdivImm o s := rfl
theorem exec_irem (o s) : exec (.irem o) s = execIrem o s := rfl
theorem exec_iremImm (o s) : exec (.iremImm o) s = execIremImm o s := rfl
theorem exec_imin (o s) : exec (.imin o) s = execImin o s := rfl
theorem exec_iminImm (o s) : exec (.iminImm o) s = execIminImm o s := rfl
theorem exec_imax (o s) : exec (.imax o) s = execImax o s := rfl
theorem exec_imaxImm (o s) : exec (.imaxImm o) s = execImaxImm o s := rfl
theorem exec_imad (o s) : exec (.imad o) s = execImad o s := rfl
theorem exec_iabs (o s) : exec (.iabs o) s = execIabs o s := rfl
theorem exec_ineg (o s) : exec (.ineg o) s = execIneg o s := rfl
theorem exec_and (o s) : exec (.and o) s = execAnd o s := rfl
theorem exec_andImm (o s) : exec (.andImm o) s = execAndImm o s := rfl
theorem exec_or (o s) : exec (.or o) s = execOr o s := rfl
theorem exec_orImm (o s) : exec (.orImm o) s = execOrImm o s := rfl
theorem exec_xor (o s) : exec (.xor o) s = execXor o s := rfl
theorem exec_xorImm (o s) : exec (.xorImm o) s = execXorImm o s := rfl
theorem exec_not (o s) : exec (.not o) s = execNot o s := rfl
theorem exec_shl (o s) : exec (.shl o) s = execShl o s := rfl
theorem exec_shlImm (o s) : exec (.shlImm o) s = execShlImm o s := rfl
theorem exec_shr (o s) : exec (.shr o) s = execShr o s := rfl
theorem exec_shrImm (o s) : exec (.shrImm o) s = execShrImm o s := rfl
theorem exec_sar (o s) : exec (.sar o) s = execSar o s := rfl
theorem exec_sarImm (o s) : exec (.sarImm o) s = execSarImm o s := rfl
theorem exec_rot (o s) : exec (.rot o) s = execRot o s := rfl
theorem exec_rotImm (o s) : exec (.rotImm o) s = execRotImm o s := rfl
theorem exec_popc (o s) : exec (.popc o) s = execPopc o s := rfl
theorem exec_clz (o s) : exec (.clz o) s = execClz o s := rfl
theorem exec_brev (o s) : exec (.brev o) s = execBrev o s := rfl
theorem exec_bfe (o s) : exec (.bfe o) s = execBfe o s := rfl
theorem exec_bfeImm (o s) : exec (.bfeImm o) s = execBfeImm o s := rfl
theorem exec_bfi (o s) : exec (.bfi o) s = execBfi o s := rfl
theorem exec_prmt (g d a b s) : exec (.prmt g d a b) s = execPrmt g d a b s := rfl
theorem exec_prmtImm (g d a imm s) : exec (.prmtImm g d a imm) s = execPrmtImm g d a imm s := rfl
theorem exec_icmp (g cc ty d a b s) : exec (.icmp g cc ty d a b) s = execIcmp g cc ty d a b s := rfl
theorem exec_icmpImm (g cc ty d a imm s) : exec (.icmpImm g cc ty d a imm) s = execIcmpImm g cc ty d a imm s := rfl
theorem exec_sel (g ty d a b p s) : exec (.sel g ty d a b p) s = execSel g ty d a b p s := rfl
theorem exec_lea (g ty sh d a b s) : exec (.lea g ty sh d a b) s = execLea g ty sh d a b s := rfl
theorem exec_leaImm (g ty sh d a imm s) : exec (.leaImm g ty sh d a imm) s = execLeaImm g ty sh d a imm s := rfl
theorem exec_fadd (o s) : exec (.fadd o) s = execFadd o s := rfl
theorem exec_fsub (o s) : exec (.fsub o) s = execFsub o s := rfl
theorem exec_fmul (o s) : exec (.fmul o) s = execFmul o s := rfl
theorem exec_fma (o s) : exec (.fma o) s = execFma o s := rfl
theorem exec_fdiv (o s) : exec (.fdiv o) s = execFdiv o s := rfl
theorem exec_fsqrt (o s) : exec (.fsqrt o) s = execFsqrt o s := rfl
theorem exec_frcpa (o s) : exec (.frcpa o) s = execFrcpa o s := rfl
theorem exec_frsqa (o s) : exec (.frsqa o) s = execFrsqa o s := rfl
theorem exec_fmin (o s) : exec (.fmin o) s = execFmin o s := rfl
theorem exec_fmax (o s) : exec (.fmax o) s = execFmax o s := rfl
theorem exec_fabs (o s) : exec (.fabs o) s = execFabs o s := rfl
theorem exec_fneg (o s) : exec (.fneg o) s = execFneg o s := rfl
theorem exec_fcpys (o s) : exec (.fcpys o) s = execFcpys o s := rfl
theorem exec_fcmp (g cc ty d a b s) : exec (.fcmp g cc ty d a b) s = execFcmp g cc ty d a b s := rfl
theorem exec_fclass (o s) : exec (.fclass o) s = execFclass o s := rfl
theorem exec_frint (o s) : exec (.frint o) s = execFrint o s := rfl
theorem exec_fscale (o s) : exec (.fscale o) s = execFscale o s := rfl
theorem exec_fexpn (o s) : exec (.fexpn o) s = execFexpn o s := rfl
theorem exec_cvt (g dty sty mode d a s) : exec (.cvt g dty sty mode d a) s = execCvt g dty sty mode d a s := rfl
theorem exec_qnt (g sty rnd d a b s) : exec (.qnt g sty rnd d a b) s = execQnt g sty rnd d a b s := rfl
theorem exec_dqnt (g dty w rnd d a b s) : exec (.dqnt g dty w rnd d a b) s = execDqnt g dty w rnd d a b s := rfl
theorem exec_plane (g d a s) : exec (.plane g d a) s = execPlane g d a s := rfl
theorem exec_unplane (g w d a s) : exec (.unplane g w d a) s = execUnplane g w d a s := rfl
theorem exec_rand (g ty d a b s) : exec (.rand g ty d a b) s = execRand g ty d a b s := rfl
theorem exec_randImm (g ty d a imm s) : exec (.randImm g ty d a imm) s = execRandImm g ty d a imm s := rfl
theorem exec_ld (g fs sp ty d m off s) : exec (.ld g fs sp ty d m off) s = execLd g fs sp ty d m off s := rfl
theorem exec_st (g sp ty data m off s) : exec (.st g sp ty data m off) s = execSt g sp ty data m off s := rfl
theorem exec_ldx (g fs ty d m off form disp s) : exec (.ldx g fs ty d m off form disp) s = execLdx g fs ty d m off form disp s := rfl
theorem exec_atom (g op ord sp ty data m off s) : exec (.atom g op ord sp ty data m off) s = execAtom g op ord sp ty data m off s := rfl
theorem exec_xacc (g sp ty data m off s) : exec (.xacc g sp ty data m off) s = execXacc g sp ty data m off s := rfl
theorem exec_xrnd (g fs sp ty rnd d m off s) : exec (.xrnd g fs sp ty rnd d m off) s = execXrnd g fs sp ty rnd d m off s := rfl
theorem exec_fence (kind scope s) : exec (.fence kind scope) s = execFence kind scope s := rfl
theorem exec_copy (o s) : exec (.copy o) s = execCopy o s := rfl
theorem exec_binit (a n s) : exec (.binit a n) s = execBinit a n s := rfl
theorem exec_bexp (a n s) : exec (.bexp a n) s = execBexp a n s := rfl
theorem exec_bwait (a phase s) : exec (.bwait a phase) s = execBwait a phase s := rfl
theorem exec_ctxnew (fs d s) : exec (.ctxnew fs d) s = execCtxnew fs d s := rfl
theorem exec_ctxset (fs a s) : exec (.ctxset fs a) s = execCtxset fs a s := rfl
theorem exec_ctxendDiscard (fs s) : exec (.ctxendDiscard fs) s = execCtxendDiscard fs s := rfl
theorem exec_ctxendCommit (fs s) : exec (.ctxendCommit fs) s = execCtxendCommit fs s := rfl
theorem exec_ctxmerge (fs d s) : exec (.ctxmerge fs d) s = execCtxmerge fs d s := rfl
theorem exec_ctxq (fs d a s) : exec (.ctxq fs d a) s = execCtxq fs d a s := rfl
theorem exec_sgjoin (sel s) : exec (.sgjoin sel) s = execSgjoin sel s := rfl
theorem exec_nmcAxpy (o s) : exec (.nmcAxpy o) s = execNmcAxpy o s := rfl
theorem exec_nmcScale (o s) : exec (.nmcScale o) s = execNmcScale o s := rfl
theorem exec_nmcFade (o s) : exec (.nmcFade o) s = execNmcFade o s := rfl
theorem exec_nmcFma (o s) : exec (.nmcFma o) s = execNmcFma o s := rfl
theorem exec_nmcClamp (o s) : exec (.nmcClamp o) s = execNmcClamp o s := rfl
theorem exec_nmcFill (o s) : exec (.nmcFill o) s = execNmcFill o s := rfl
theorem exec_mma (o s) : exec (.mma o) s = execMma o s := rfl
theorem exec_mmar (o s) : exec (.mmar o) s = execMmar o s := rfl
theorem exec_mzero (fmt ct acc s) : exec (.mzero fmt ct acc) s = execMzero fmt ct acc s := rfl
theorem exec_minit (fmt ct acc src s) : exec (.minit fmt ct acc src) s = execMinit fmt ct acc src s := rfl
theorem exec_mdrain (o s) : exec (.mdrain o) s = execMdrain o s := rfl
theorem exec_gset (gid roles s) : exec (.gset gid roles) s = execGset gid roles s := rfl
theorem exec_mfence (fs d s) : exec (.mfence fs d) s = execMfence fs d s := rfl
theorem exec_mwait (clr a s) : exec (.mwait clr a) s = execMwait clr a s := rfl
theorem exec_mwaitImm (clr n s) : exec (.mwaitImm clr n) s = execMwaitImm clr n s := rfl
theorem exec_msave (off s) : exec (.msave off) s = execMsave off s := rfl
theorem exec_mresume (off s) : exec (.mresume off) s = execMresume off s := rfl
theorem exec_ctbl (a s) : exec (.ctbl a) s = execCtbl a s := rfl
theorem exec_obrel (n s) : exec (.obrel n) s = execObrel n s := rfl
theorem exec_resf (g d a x b s) : exec (.resf g d a x b) s = execResf g d a x b s := rfl
theorem exec_dcor (o s) : exec (.dcor o) s = execDcor o s := rfl
theorem exec_wstart (ty d b a c s) : exec (.wstart ty d b a c) s = execWstart ty d b a c s := rfl
theorem exec_svcfgTol (a s) : exec (.svcfgTol a) s = execSvcfgTol a s := rfl
theorem exec_svcfgTolImm (imm s) : exec (.svcfgTolImm imm) s = execSvcfgTolImm imm s := rfl
theorem exec_svcfgLimit (a s) : exec (.svcfgLimit a) s = execSvcfgLimit a s := rfl
theorem exec_svcfgLimitImm (imm s) : exec (.svcfgLimitImm imm) s = execSvcfgLimitImm imm s := rfl
theorem exec_svcfgGrow (a s) : exec (.svcfgGrow a) s = execSvcfgGrow a s := rfl
theorem exec_svcfgGrowImm (imm s) : exec (.svcfgGrowImm imm) s = execSvcfgGrowImm imm s := rfl
theorem exec_svstat (d s) : exec (.svstat d) s = execSvstat d s := rfl
theorem exec_pmark (g ty d a s) : exec (.pmark g ty d a) s = execPmark g ty d a s := rfl
theorem exec_bar (b roles s) : exec (.bar b roles) s = execBar b roles s := rfl
theorem exec_arrive (b roles s) : exec (.arrive b roles) s = execArrive b roles s := rfl
theorem exec_await (b s) : exec (.await b) s = execAwait b s := rfl
theorem exec_depinit (a n s) : exec (.depinit a n) s = execDepinit a n s := rfl
theorem exec_depdec (fs a off s) : exec (.depdec fs a off) s = execDepdec fs a off s := rfl
theorem exec_cpost (a entry prio s) : exec (.cpost a entry prio) s = execCpost a entry prio s := rfl
theorem exec_trap (g n s) : exec (.trap g n) s = execTrap g n s := rfl
theorem exec_tlbi (range s) : exec (.tlbi range) s = execTlbi range s := rfl
theorem exec_reservedOpcode (header s) : exec (.reservedOpcode header) s = execReservedOpcode header s := rfl
theorem exec_linkRetrained (part gate t s) : exec (.linkRetrained part gate t) s = execLinkRetrained part gate t s := rfl
theorem exec_remapPreemptTimeout (part k s) : exec (.remapPreemptTimeout part k) s = execRemapPreemptTimeout part k s := rfl
theorem exec_pageMove (part va tier frame s) : exec (.pageMove part va tier frame) s = execPageMove part va tier frame s := rfl
theorem exec_overlayPoolResize (part k lines s) : exec (.overlayPoolResize part k lines) s = execOverlayPoolResize part k lines s := rfl
theorem exec_join (s) : exec .join s = execJoin s := rfl
theorem exec_ret (s) : exec .ret s = execRet s := rfl
theorem exec_yield (s) : exec .yield s = execYield s := rfl
theorem exec_stage (s) : exec .stage s = execStage s := rfl
theorem exec_sgleave (s) : exec .sgleave s = execSgleave s := rfl
theorem exec_fenceE (s) : exec .fenceE s = execFenceE s := rfl
theorem exec_fenceT (s) : exec .fenceT s = execFenceT s := rfl
theorem exec_nmwait (s) : exec .nmwait s = execNmwait s := rfl
theorem exec_tret (s) : exec .tret s = execTret s := rfl
theorem exec_pchk (s) : exec .pchk s = execPchk s := rfl
theorem exec_lpsw (s) : exec .lpsw s = execLpsw s := rfl
theorem exec_svcfgReset (s) : exec .svcfgReset s = execSvcfgReset s := rfl

end Sys2Proof.Machine
end

