-- ==== Sys2Proof/Laws/Place.lean ====
section
/-! SUPPORT. Reading storage only reads (State.ReadOnly): units and slots, replicas, cells, ranges, places, and what the order of
accesses lets a role read. -/
namespace Sys2Proof.Machine

theorem State.freeBytes_ro (s : State) (n : Nat) : s.ReadOnly (s.freeBytes n).1 := by
  induction n generalizing s with
  | zero => exact .refl _
  | succ n ih => exact (s.free_ro _).trans (ih _)

/-! Units, slots and replicas. -/

/-- A unit that cannot be delivered has an error. -/
theorem State.delivers_flaws (s : State) (u : Nat) (h : s.delivers u = false) : s.flaws ≠ [] := by
  rintro e
  unfold State.delivers at h
  rw [e] at h
  simp [tget] at h

theorem State.touchSlot_ro (s : State) (k : Nat) : s.ReadOnly (s.touchSlot k) := by
  unfold State.touchSlot
  split
  · exact .refl _
  · have h := State.foldl_ro (fun (s : State) i => s.touchUnit (k / 64 + i)) (fun s i => s.touchUnit_ro (k / 64 + i))
      (List.range 8) s
    dsimp only
    generalize (List.range 8).foldl (fun (s : State) i => s.touchUnit (k / 64 + i)) s = x at h
    split
    · rename_i hx
      refine h.trans (State.Hurt.ro rfl ?_)
      unfold State.slotBad at hx
      rw [List.any_eq_true] at hx
      obtain ⟨i, _, hi⟩ := hx
      exact x.delivers_flaws (k / 64 + i) (by simpa using hi)
    · exact h

theorem State.touchRep_ro (s : State) (n : Nat) (r : Nat × Option Nat) : s.ReadOnly (s.touchRep n r) := by
  unfold State.touchRep
  split
  · exact s.touchSlot_ro _
  · exact s.touch_ro _ _

theorem State.rdReps_ro (s : State) (key n : Nat) (rs : List (Nat × Option Nat)) : s.ReadOnly (s.rdReps key n rs).1 := by
  induction rs generalizing s with
  | nil => exact .refl _
  | cons r rs ih =>
    cases rs with
    | nil => exact s.touchRep_ro n r
    | cons q rs =>
      unfold State.rdReps
      dsimp only
      split
      · exact (s.touchRep_ro n r).trans (ih _)
      · exact s.touchRep_ro n r

theorem State.rdBase_ro (s : State) (p : Part) (x : Xl) (copy : Bool) (va n : Nat) : s.ReadOnly (s.rdBase p x copy va n).1 := by
  unfold State.rdBase
  dsimp only
  split
  · exact .refl _
  · split
    · exact (s.rdReps_ro _ _ _).trans (State.freeBytes_ro _ _)
    · exact s.rdReps_ro _ _ _

/-! Cells. -/

/-- A unit of a cell that is lost changes nothing that quiet keeps. -/
theorem Part.modCell_quiet (p : Part) (tag : BitVec 14) (line i v : Nat) :
    (p.modCell tag line (fun c => c.lose i v)).quiet = p.quiet := by
  unfold Part.modCell Part.quiet
  simp only [List.map_map]
  congr 1
  apply List.map_congr_left
  intro c _
  simp only [Function.comp]
  split <;> rfl

theorem State.touchCell_ro (s : State) (pp : Nat) (p : Part) (c : CtxCell) (i : Nat) : s.ReadOnly (s.touchCell pp p c i) := by
  unfold State.touchCell
  split
  · exact .refl _
  · dsimp only
    have h := s.touchUnit_ro (p.cellAt c / 64 + i)
    split
    · exact h
    · rename_i hd
      refine h.trans ⟨rfl, fun q => ?_, fun e => absurd e (State.delivers_flaws _ _ (by simpa using hd)), fun _ => rfl⟩
      rw [State.part?_modPart]
      by_cases hq : pp = q
      · subst hq
        cases (s.touchUnit (p.cellAt c / 64 + i)).part? pp <;> simp [Part.modCell_quiet]
      · simp [hq]

theorem State.rdPiece_ro (s : State) (pp : Nat) (x : Xl) (tag : BitVec 14) (copy : Bool) (va n : Nat) :
    s.ReadOnly (s.rdPiece pp x tag copy va n).1 := by
  unfold State.rdPiece
  split
  · exact .refl _
  · split
    · exact s.touchCell_ro _ _ _ _
    · exact s.rdBase_ro _ _ _ _ _

/-! Ranges and places. -/

theorem State.rdVirt_ro (s : State) (pp : Nat) (xs : List Xl) (tag : BitVec 14) (copy : Bool) (va n : Nat) :
    s.ReadOnly (s.rdVirt pp xs tag copy va n).1 := by
  have key : ∀ (es : List (Nat × Nat)) (a : State × Nat × List Standing),
      a.1.ReadOnly (es.foldl (rdCut pp xs tag copy va) a).1 := by
    intro es
    induction es with
    | nil => intro a; exact .refl _
    | cons e es ih =>
      intro a
      rw [List.foldl_cons]
      refine State.ReadOnly.trans ?_ (ih _)
      unfold rdCut
      split
      · exact .refl _
      · exact a.1.rdPiece_ro _ _ _ _ _ _
  exact key _ (s, 0, [])

theorem State.rdSegs_ro (s : State) (err : Option Nat) (tag : BitVec 14) (segs : List Seg) (n : Nat) :
    s.ReadOnly (s.rdSegs err tag segs n).1 := by
  induction segs generalizing s n with
  | nil => exact .refl _
  | cons g gs ih =>
    unfold State.rdSegs
    split
    · exact .refl _
    · dsimp only
      split
      · exact (s.freeBytes_ro _).trans (ih _ _)
      · exact (s.rdVirt_ro _ _ _ _ _ _).trans (ih _ _)

theorem State.rdPlace_ro (s : State) (err : Option Nat) (pl : Place) (n : Nat) : s.ReadOnly (s.rdPlace err pl n).1 := by
  unfold State.rdPlace
  split
  · split <;> exact .refl _
  · split
    · exact s.freeBytes_ro _
    · split <;> exact .refl _
  · exact s.rdSegs_ro _ _ _ _

/-! The order of accesses. -/

theorem State.pickBeneath_ro (s : State) (k : Reader) (pick : Bool) (ws : List PastWrite) :
    s.ReadOnly (s.pickBeneath k pick ws).1 := by
  unfold State.pickBeneath
  dsimp only
  split
  · exact s.free_ro _
  · exact .refl _

/-- A role that knows a write leaves its mark as it is. -/
theorem PastWrite.seenBy_known (w : PastWrite) (r : RoleRef) (now : Nat) (h : w.knows.contains r = true) :
    w.seenBy (.role r) now = w := by
  unfold PastWrite.seenBy
  simp only [h, if_true]

/-- The issuing role has read some writes. -/
theorem State.seen_ro (s : State) (r : RoleRef) (hr : s.cur = r) (now : Nat) (f : PastWrite → Bool) :
    s.ReadOnly { s with past := s.past.map (fun w => if f w then w.seenBy (.role r) now else w) } := by
  subst hr
  refine ⟨rfl, fun _ => rfl, fun h => ⟨rfl, rfl, h, rfl, fun _ => rfl⟩, fun hk => ?_⟩
  unfold State.knowsAll at hk
  rw [List.all_eq_true] at hk
  show s.past.map _ = s.past
  conv => rhs; rw [← List.map_id s.past]
  apply List.map_congr_left
  intro w hw
  rw [PastWrite.seenBy_known w s.cur now (hk w hw)]
  split <;> rfl

theorem State.readUnit_ro (s : State) (pick : Bool) (ws : List PastWrite) (a n v : Nat) :
    s.ReadOnly (s.readUnit (.role s.cur) pick ws a n v).1 := by
  unfold State.readUnit
  dsimp only
  have h := s.pickBeneath_ro (.role s.cur) pick (ws.filter (fun w => w.touches a n))
  exact h.trans (State.seen_ro _ s.cur h.cur s.clock _)

theorem State.readPast_ro (s : State) (pick : Bool) (unit : Nat) (loc : SecLoc) (a n v : Nat) (st : Standing) :
    s.ReadOnly (s.readPast (.role s.cur) pick unit loc a n v st).1 := by
  unfold State.readPast
  dsimp only
  split
  · exact .refl _
  · refine State.ReadOnly.trans ?_ (State.pickBeneath_ro _ _ _ _)
    have key : ∀ (es : List (Nat × Nat)) (g : State × Nat × Nat), g.1.cur = s.cur →
        g.1.ReadOnly (es.foldl (fun (g : State × Nat × Nat) e =>
          let q := g.1.readUnit (.role s.cur) pick (s.pastAt loc (a / 32)) (a + e.1) e.2 (v / 256 ^ e.1 % 256 ^ e.2)
          (q.1, g.2.1 + q.2.1 * 256 ^ e.1, max g.2.2 q.2.2)) g).1 := by
      intro es
      induction es with
      | nil => intro g _; exact .refl _
      | cons e es ih =>
        intro g hg
        rw [List.foldl_cons]
        have h := g.1.readUnit_ro pick (s.pastAt loc (a / 32)) (a + e.1) e.2 (v / 256 ^ e.1 % 256 ^ e.2)
        rw [hg] at h
        exact h.trans (ih _ (h.cur.trans hg))
    exact key _ (s, 0, 0) rfl

theorem State.ldPlace_ro (s : State) (pick : Bool) (err : Option Nat) (pl : Place) (n : Nat) :
    s.ReadOnly (s.ldPlace pick err pl n).1 := by
  unfold State.ldPlace
  split
  · exact s.rdPlace_ro _ _ _
  · have key : ∀ (es : List (Nat × Nat)) (g : State × Nat × List Standing), g.1.cur = s.cur →
        g.1.ReadOnly (es.foldl (fun (g : State × Nat × List Standing) e =>
          let q := g.1.rdPlace err (pl.at e.1) e.2
          let q := match q.1.readLoc err (pl.at e.1) with
            | some l => q.1.readPast (.role s.cur) pick 32 l.1 l.2 e.2 q.2.1 q.2.2
            | none => q
          (q.1, g.2.1 + q.2.1 * 256 ^ e.1, g.2.2 ++ [q.2.2])) g).1 := by
      intro es
      induction es with
      | nil => intro g _; exact .refl _
      | cons e es ih =>
        intro g hg
        rw [List.foldl_cons]
        have h := g.1.rdPlace_ro err (pl.at e.1) e.2
        have hc := h.cur.trans hg
        refine State.ReadOnly.trans ?_ (ih _ ?_) <;> dsimp only
        · split
          · rename_i l _
            have k := (g.1.rdPlace err (pl.at e.1) e.2).1.readPast_ro pick 32 l.1 l.2 e.2
              (g.1.rdPlace err (pl.at e.1) e.2).2.1 (g.1.rdPlace err (pl.at e.1) e.2).2.2
            rw [hc] at k
            exact h.trans k
          · exact h
        · split
          · rename_i l _
            have k := (g.1.rdPlace err (pl.at e.1) e.2).1.readPast_ro pick 32 l.1 l.2 e.2
              (g.1.rdPlace err (pl.at e.1) e.2).2.1 (g.1.rdPlace err (pl.at e.1) e.2).2.2
            rw [hc] at k
            exact k.cur.trans hc
          · exact hc
    exact key _ (s, 0, []) rfl

/-- Where the role knows every write, it reads what stands (R362, R370). -/
theorem State.ldPlace_knowsAll (s : State) (pick : Bool) (err : Option Nat) (pl : Place) (n : Nat) (h : s.knowsAll = true) :
    s.ldPlace pick err pl n = s.rdPlace err pl n := by
  unfold State.ldPlace
  rw [if_pos h]

end Sys2Proof.Machine
end

