-- ==== Sys2Proof/Laws/Load.lean ====
section
/-! SUPPORT. What makes a per-lane load follow its rule, and a per-lane store. -/
namespace Sys2Proof.Machine

theorem Role.guarded_withV (r : Role) (v : Tab VRow) (g : Guard) (l : Nat) (st : Standing) :
    (r.withV v).guarded g l st = r.guarded g l st := rfl

/-- Lanes written one after the other, each with its guard's mark. -/
theorem Role.setLanes_guarded (g : Guard) (wide : Bool) (d : BitVec 8) (vs : List (Nat × DWord × Standing)) (r : Role) :
    vs.foldl (fun (x : Role) e => x.setV wide d e.1 e.2.1 (x.guarded g e.1 e.2.2)) r =
      vs.foldl (fun (x : Role) e => x.setV wide d e.1 e.2.1 (r.guarded g e.1 e.2.2)) r := by
  suffices h : ∀ x : Role, (∃ v, x = r.withV v) →
      vs.foldl (fun (x : Role) e => x.setV wide d e.1 e.2.1 (x.guarded g e.1 e.2.2)) x =
        vs.foldl (fun (x : Role) e => x.setV wide d e.1 e.2.1 (r.guarded g e.1 e.2.2)) x from h r ⟨r.v, rfl⟩
  induction vs with
  | nil => intro x _; rfl
  | cons e t ih =>
    rintro x ⟨v, rfl⟩
    simp only [List.foldl_cons, Role.guarded_withV]
    apply ih
    refine ⟨((r.withV v).setV wide d e.1 e.2.1 (r.guarded g e.1 e.2.2)).v, ?_⟩
    rw [Role.setV_v]; rfl

theorem Role.putV_list (vs : List (BitVec 8 × Nat × Word × Standing)) (h : ∀ e ∈ vs, e.2.1 < 1024)
    (f : BitVec 8 → Nat → Word × Standing) (hf : ∀ e ∈ vs, (e.2.2.1, e.2.2.2) = f e.1 e.2.1) (r : Role) :
    ∃ v, vs.foldl (fun (x : Role) e => x.putV e.1 e.2.1 e.2.2.1 e.2.2.2) r = r.withV v ∧
      ∀ m k, k < 1024 → (r.withV v).vreg m k = if ∃ e ∈ vs, e.1 = m ∧ e.2.1 = k then f m k else r.vreg m k := by
  induction vs generalizing r with
  | nil => exact ⟨r.v, rfl, fun m k _ => by simp; rfl⟩
  | cons e t ih =>
    obtain ⟨v, hv, hw⟩ := ih (fun e he => h e (List.mem_cons_of_mem _ he)) (fun e he => hf e (List.mem_cons_of_mem _ he))
      (r.putV e.1 e.2.1 e.2.2.1 e.2.2.2)
    refine ⟨v, ?_, ?_⟩
    · rw [List.foldl_cons, hv]; rfl
    · intro m k hk
      have := hw m k hk
      have e1 : ((r.putV e.1 e.2.1 e.2.2.1 e.2.2.2).withV v) = r.withV v := rfl
      rw [e1, Role.vreg_putV _ _ _ _ _ _ _ (h e (List.mem_cons_self ..)) hk] at this
      rw [this]
      by_cases h1 : ∃ x ∈ t, x.1 = m ∧ x.2.1 = k
      · have h2 : ∃ x ∈ e :: t, x.1 = m ∧ x.2.1 = k := by
          obtain ⟨x, hx, hy⟩ := h1; exact ⟨x, List.mem_cons_of_mem _ hx, hy⟩
        rw [if_pos h1, if_pos h2]
      · rw [if_neg h1]
        by_cases h3 : e.1 = m ∧ e.2.1 = k
        · have h2 : ∃ x ∈ e :: t, x.1 = m ∧ x.2.1 = k := ⟨e, List.mem_cons_self .., h3⟩
          rw [if_pos h3, if_pos h2, hf e (List.mem_cons_self ..), h3.1, h3.2]
        · have h2 : ¬ ∃ x ∈ e :: t, x.1 = m ∧ x.2.1 = k := by
            rintro ⟨x, hx, hy⟩
            rcases List.mem_cons.1 hx with rfl | hx
            · exact h3 hy
            · exact h1 ⟨x, hx, hy⟩
          rw [if_neg h3, if_neg h2]

/-- The destination's lanes survive the last use of their own register. -/
theorem Role.vreg_finishRows (r : Role) (g : Guard) (frees ds : List (BitVec 8)) :
    ∃ v, r.finishRows g frees ds = r.withV v ∧ ∀ m k, k < 1024 → (r.withV v).vreg m k =
      if k ∈ r.live g ∧ m ∈ ds then r.vreg m k
      else if m ∈ frees ∧ k / 8 ∈ groupsOf r.ngroups r.mask then (0, .S) else r.vreg m k := by
  unfold Role.finishRows
  dsimp only
  generalize hkeep : (ds.filter frees.contains).flatMap (fun d =>
    ((r.live g).filter (fun l => (tget r.v (rowKey d (l / 8))).isSome)).map (fun l => (d, l, r.vreg d l))) = keep
  have hmem : ∀ e, e ∈ keep ↔ e.1 ∈ ds ∧ e.1 ∈ frees ∧ e.2.1 ∈ r.live g ∧ (tget r.v (rowKey e.1 (e.2.1 / 8))).isSome ∧
      e.2.2 = r.vreg e.1 e.2.1 := by
    rintro ⟨n, l, x⟩
    rw [← hkeep]
    simp only [List.mem_flatMap, List.mem_filter, List.mem_map, List.contains_iff_mem, Prod.mk.injEq]
    constructor
    · rintro ⟨d, ⟨h1, h2⟩, l', ⟨h3, h4⟩, rfl, rfl, rfl⟩; exact ⟨h1, h2, h3, h4, rfl⟩
    · rintro ⟨h1, h2, h3, h4, h5⟩; exact ⟨n, ⟨h1, h2⟩, l, ⟨h3, h4⟩, rfl, rfl, h5.symm⟩
  obtain ⟨v, hv, hw⟩ := Role.putV_list keep (fun e he => r.live_lt g _ ((hmem e).1 he).2.2.1) (fun m k => r.vreg m k)
    (fun e he => ((hmem e).1 he).2.2.2.2) (r.freeRows frees (groupsOf r.ngroups r.mask))
  refine ⟨v, ?_, ?_⟩
  · rw [hv]; rfl
  · intro m k hk
    have h := hw m k hk
    have e1 : (r.freeRows frees (groupsOf r.ngroups r.mask)).withV v = r.withV v := rfl
    rw [e1, r.vreg_freeRows frees _ m k hk (groupsOf_lt _ _)] at h
    rw [h]
    by_cases hfr : m ∈ frees ∧ k / 8 ∈ groupsOf r.ngroups r.mask
    · by_cases hl : k ∈ r.live g ∧ m ∈ ds
      · simp only [hl, and_self, if_true, hfr]
        by_cases hs : (tget r.v (rowKey m (k / 8))).isSome
        · have : ∃ e ∈ keep, e.1 = m ∧ e.2.1 = k := ⟨(m, k, r.vreg m k), (hmem _).2 ⟨hl.2, hfr.1, hl.1, hs, rfl⟩, rfl, rfl⟩
          rw [if_pos this]
        · split
          · rfl
          · unfold Role.vreg
            cases ht : tget r.v (rowKey m (k / 8)) with
            | none => rfl
            | some x => rw [ht] at hs; simp at hs
      · have : ¬ ∃ e ∈ keep, e.1 = m ∧ e.2.1 = k := by
          rintro ⟨e, he, rfl, rfl⟩; exact hl ⟨((hmem e).1 he).2.2.1, ((hmem e).1 he).1⟩
        simp only [this, if_false, hfr, and_self, if_true, hl]
    · simp only [hfr, if_false, ite_self]

theorem Role.finishRows_done (r : Role) (g : Guard) (frees ds : List (BitVec 8)) :
    ({ r with unfinished := none, accessErr := none, heldSeq := none } : Role).finishRows g frees ds =
      { r.finishRows g frees ds with unfinished := none, accessErr := none, heldSeq := none } := by
  have key : ∀ (vs : List (BitVec 8 × Nat × Word × Standing)) (r : Role),
      vs.foldl (fun (x : Role) e => x.putV e.1 e.2.1 e.2.2.1 e.2.2.2) { r with unfinished := none, accessErr := none, heldSeq := none } =
        { vs.foldl (fun (x : Role) e => x.putV e.1 e.2.1 e.2.2.1 e.2.2.2) r with
          unfinished := none, accessErr := none, heldSeq := none } := by
    intro vs
    induction vs with
    | nil => intro r; rfl
    | cons e t ih => intro r; exact ih (r.putV e.1 e.2.1 e.2.2.1 e.2.2.2)
  exact key _ (r.freeRows frees (groupsOf r.ngroups r.mask))

/-- Reading lanes one after the other: it only reads, each lane read has its result, and reads that change nothing answer as the
state before them says. -/
theorem readLanes_spec (o : LaneMem) (read : State → Option Nat → Place → Nat → State × DWord × Standing)
    (hro : ∀ (s : State) f pl k, s.ReadOnly (read s f pl k).1) (c : Ctx) (s : State) (pls : List (Nat × Place)) :
    let r := readLanes o read c s pls
    s.ReadOnly r.1 ∧ r.2.map (fun e => e.1) = pls.map (fun e => e.1) ∧
      ((∀ e ∈ pls, ∀ k, (read s c.role.accessErr e.2 k).1 = s) → r.1 = s ∧ r.2 = pls.map (fun e =>
        let ea := c.role.ea o.m o.off e.1
        let r := read s c.role.accessErr e.2 (c.bpiPos o.sp e.1 ea.val.toNat)
        (e.1, r.2.1, loadSt ea.st r.2.2))) := by
  have main : ∀ (pls : List (Nat × Place)) (a : State × List (Nat × DWord × Standing)),
      let r := pls.foldl (fun a e =>
        let ea := c.role.ea o.m o.off e.1
        let r := read a.1 c.role.accessErr e.2 (c.bpiPos o.sp e.1 ea.val.toNat)
        (r.1, a.2 ++ [(e.1, r.2.1, loadSt ea.st r.2.2)])) a
      a.1.ReadOnly r.1 ∧ r.2.map (fun e => e.1) = a.2.map (fun e => e.1) ++ pls.map (fun e => e.1) ∧
      ((∀ e ∈ pls, ∀ k, (read a.1 c.role.accessErr e.2 k).1 = a.1) → r.1 = a.1 ∧ r.2 = a.2 ++ pls.map (fun e =>
        let ea := c.role.ea o.m o.off e.1
        let r := read a.1 c.role.accessErr e.2 (c.bpiPos o.sp e.1 ea.val.toNat)
        (e.1, r.2.1, loadSt ea.st r.2.2))) := by
    intro pls
    induction pls with
    | nil => intro a; exact ⟨.refl _, by simp, fun _ => ⟨rfl, by simp⟩⟩
    | cons e t ih =>
      intro a
      obtain ⟨h1, h2, h3⟩ := ih ((read a.1 c.role.accessErr e.2 (c.bpiPos o.sp e.1 (c.role.ea o.m o.off e.1).val.toNat)).1,
        a.2 ++ [(e.1, (read a.1 c.role.accessErr e.2 (c.bpiPos o.sp e.1 (c.role.ea o.m o.off e.1).val.toNat)).2.1,
          loadSt (c.role.ea o.m o.off e.1).st
            (read a.1 c.role.accessErr e.2 (c.bpiPos o.sp e.1 (c.role.ea o.m o.off e.1).val.toNat)).2.2)])
      refine ⟨(hro a.1 _ _ _).trans h1, ?_, fun hq => ?_⟩
      · simp only [List.foldl_cons, List.map_cons, List.map_append, List.map_nil, List.append_assoc, List.singleton_append] at h2 ⊢
        exact h2
      · have hq0 := hq e (List.mem_cons_self ..) (c.bpiPos o.sp e.1 (c.role.ea o.m o.off e.1).val.toNat)
        have h4 := h3 (by dsimp only; rw [hq0]; exact fun x hx => hq x (List.mem_cons_of_mem _ hx))
        dsimp only at h4
        rw [hq0] at h4
        simp only [List.foldl_cons, List.map_cons]
        rw [hq0]
        exact ⟨h4.1, by rw [h4.2]; simp⟩
  exact main pls (s, [])

/-- Killing no lane changes nothing. -/
theorem Role.switchOff_none (r : Role) : r.switchOff (maskOf []) = r := by
  unfold Role.switchOff
  rw [maskOf_nil, if_pos rfl]

/-- The result that a list gives a lane. -/
def lookLane (vs : List (Nat × DWord × Standing)) (l : Nat) : DWord × Standing :=
  ((vs.find? (fun e => e.1 == l)).map (fun e => e.2)).getD (0, .S)

theorem lookLane_mem (vs : List (Nat × DWord × Standing)) (hn : (vs.map (fun e => e.1)).Nodup) :
    ∀ e ∈ vs, lookLane vs e.1 = e.2 := by
  induction vs with
  | nil => simp
  | cons a t ih =>
    intro e he
    rw [List.map_cons, List.nodup_cons] at hn
    unfold lookLane
    rcases List.mem_cons.1 he with rfl | he
    · simp
    · have : a.1 ≠ e.1 := by
        intro h; apply hn.1; rw [h]; exact List.mem_map_of_mem he
      rw [List.find?_cons_of_neg (by simpa using this)]
      exact ih hn.2 e he

theorem lookLane_list (vs : List (Nat × DWord × Standing)) (hn : (vs.map (fun e => e.1)).Nodup) :
    vs = (vs.map (fun e => e.1)).map (fun l => (l, (lookLane vs l).1, (lookLane vs l).2)) := by
  rw [List.map_map]
  conv => lhs; rw [← List.map_id vs]
  apply List.map_congr_left
  intro e he
  simp only [id, Function.comp]
  rw [lookLane_mem vs hn e he]

/-- A per-lane load follows its rule when its meaning is the shared one with a read that only reads. -/
theorem loadRule_of (i : Instr) (o : LaneMem) (wide : Bool) (d : BitVec 8) (fs : Bool) (ok : State → Ctx → Prop)
    (scal : List (BitVec 7)) (tag : Ctx → TagRes) (read : State → Option Nat → Place → Nat → State × DWord × Standing)
    (hro : ∀ (s : State) f pl k, s.ReadOnly (read s f pl k).1)
    (hi : ∀ (s : State) (c : Ctx), s.Ready c → ok s c → (∀ n ∈ scal, (c.role.sreg n).st ≠ .Z) ∧
      exec i s = laneMem o [] scal tag (loadRoom o.g (addrFrees o.m) wide d) (loadLanes o wide d read)
        (loadDone o.g (addrFrees o.m) wide d fs) s) :
    LoadRule i o wide d fs ok tag read := by
  intro s c x got pls hs hok hg hz hr hroom
  obtain ⟨hsc, hexec⟩ := hi s c hs hok
  have hlanes := s.resolveAll_lanes c _ _ got pls hr.2.2
  rw [List.map_map] at hlanes
  have hl0 : ((fun e : Nat × Nat => e.1) ∘ fun l => (l, (c.role.ea o.m o.off l).val.toNat)) = id := rfl
  rw [hl0, List.map_id] at hlanes
  have hres := s.resolveAll_resolved c c
    { sp := o.sp, need := o.need, size := o.size, align := o.align, bpi := o.bpi, tag := x }
    ((c.role.live o.g).map (fun l => (l, (c.role.ea o.m o.off l).val.toNat))) hs.1
  rw [hr.2.2] at hres
  obtain ⟨p, hp, c1, hc1, hal, hrole⟩ := hres
  obtain ⟨c', hc', hal', hrun⟩ := laneMem_run o [] scal tag (loadRoom o.g (addrFrees o.m) wide d) (loadLanes o wide d read)
    (loadDone o.g (addrFrees o.m) wide d fs) s c x got pls hs hg (by rw [List.append_nil]; exact hz) hsc hr (by
      unfold loadRoom
      dsimp only
      rw [Role.switchOff_none, if_neg]
      exact fun h => Bool.false_ne_true (hroom.symm.trans h))
  have hcc : c1 = c' := by rw [hc1] at hc'; exact Option.some.inj hc'
  subst hcc
  obtain ⟨h2, h3, h4⟩ := readLanes_spec o read hro c1 got pls
  have h1 : loadLanes o wide d read c1 got pls = (readLanes o read c1 got pls).1.modCur (fun x =>
    (readLanes o read c1 got pls).2.foldl (fun (x : Role) e => x.setV wide d e.1 e.2.1 (x.guarded o.g e.1 e.2.2))
      (x.mapRows (if wide then [d, d + 1] else [d]) (groupsOf x.ngroups (maskOf (x.live o.g))))) := rfl
  generalize (readLanes o read c1 got pls).1 = t at h1 h2 h4
  generalize (readLanes o read c1 got pls).2 = vs at h1 h3 h4
  rw [hlanes] at h3
  have hnd : (vs.map (fun e => e.1)).Nodup := by rw [h3]; exact c.role.live_nodup o.g
  -- the role's changes
  generalize hr0 : c1.role.mapRows (if wide then [d, d + 1] else [d]) (groupsOf c1.role.ngroups (maskOf (c1.role.live o.g))) = r0
  have hr0v : r0 = c1.role.withV r0.v := by rw [← hr0]; exact Role.mapRows_eq _ _ _
  have hread : ∀ (n : BitVec 8) k, r0.vreg n k = c1.role.vreg n k := fun n k => by rw [← hr0]; exact Role.vreg_mapRows _ _ _ n k
  have hfold : vs.foldl (fun (x : Role) e => x.setV wide d e.1 e.2.1 (x.guarded o.g e.1 e.2.2)) r0 =
      (c.role.live o.g).foldl (fun (x : Role) l => x.setV wide d l (lookLane vs l).1
        (c.role.guarded o.g l (lookLane vs l).2)) r0 := by
    rw [Role.setLanes_guarded]
    conv => lhs; rw [lookLane_list vs hnd, h3, List.foldl_map]
    rw [hr0v, hrole]; rfl
  obtain ⟨v1, hv1, hw1⟩ := Role.vreg_lanes (c.role.live o.g) wide d (fun l => (lookLane vs l).1)
    (fun l => c.role.guarded o.g l (lookLane vs l).2) r0 (c.role.live_nodup o.g) (fun l hl => c.role.live_lt o.g l hl)
  obtain ⟨v2, hv2, hw2⟩ := (c1.role.withV v1).vreg_finishRows o.g (addrFrees o.m) (if wide then [d, d + 1] else [d])
  let f : Role → Role := fun r =>
    { r.withV v2 with out := r.out ++ [r.flagOf fs], unfinished := none, accessErr := none, heldSeq := none }
  refine ⟨t.modCur f, v2, p, fun l => (lookLane vs l).1, fun l => (lookLane vs l).2, ?_, ?_, ?_, ?_⟩
  · rw [hexec, hrun]
    congr 1
    unfold loadDone State.lanesDone
    rw [State.modCur_modCur, h1]
    rw [State.modCur_modCur]
    obtain ⟨q, hq, -⟩ := h2.ctx c1 hc1
    apply State.modCur_congr
    intro y hy
    rw [t.ctx?_role _ hq] at hy
    cases hy
    simp only
    rw [hr0, hfold, hv1, Role.finishRows_done]
    rw [show r0.withV v1 = c1.role.withV v1 by rw [hr0v]; rfl, hv2]
    rfl
  · have := (hp f).trans (h2.modCur f)
    exact this
  · intro n l hl
    have hw := hw2 n l hl
    have hx := hw1 n l hl
    have e1 : ((c1.role.withV v1).withV v2).vreg n l = (c.role.withV v2).vreg n l := by rw [hrole]; rfl
    rw [e1] at hw
    rw [show r0.withV v1 = c1.role.withV v1 by rw [hr0v]; rfl, hread] at hx
    rw [show r0.taint = c1.role.taint by rw [hr0v]; rfl] at hx
    rw [hw, hx]
    rw [hrole]
    have e2 : (Role.withV { c.role with lastPage := p } v1).live o.g = c.role.live o.g := rfl
    have e3 : (Role.withV { c.role with lastPage := p } v1).ngroups = c.role.ngroups := rfl
    have e4 : (Role.withV { c.role with lastPage := p } v1).mask = c.role.mask := rfl
    have e5 : ({ c.role with lastPage := p } : Role).vreg n l = c.role.vreg n l := rfl
    have e6 : ({ c.role with lastPage := p } : Role).taint = c.role.taint := rfl
    simp only [e2, e3, e4, e5, e6]
    unfold laneWrite Role.resultSt
    by_cases hlive : l ∈ c.role.live o.g
    · by_cases h5 : n = d
      · subst h5
        cases wide <;> simp [hlive]
      · by_cases h6 : wide = true ∧ n = d + 1
        · obtain ⟨rfl, rfl⟩ := h6
          simp [hlive]
        · have h7 : n ∉ (if wide then [d, d + 1] else [d]) := by
            clear hr0
            cases wide
            · simpa using h5
            · intro hm
              rcases List.mem_cons.1 hm with e | hm
              · exact h5 e
              · exact h6 ⟨rfl, List.mem_singleton.1 hm⟩
          simp only [hlive, h5, h6, h7, and_false, if_false, if_true, Option.getD_none]
          rfl
    · simp only [hlive, false_and, if_false]; rfl
  · intro hq e he
    obtain ⟨a, b, rs, rfl, -⟩ := hal
    obtain ⟨rfl, h6⟩ := h4 hq
    have hm : e.1 ∈ c.role.live o.g := by rw [← hlanes]; exact List.mem_map_of_mem he
    have hme : (e.1, (read t c.role.accessErr e.2 (c.bpiPos o.sp e.1 (c.role.ea o.m o.off e.1).val.toNat)).2.1,
        loadSt (c.role.ea o.m o.off e.1).st (read t c.role.accessErr e.2 (c.bpiPos o.sp e.1 (c.role.ea o.m o.off e.1).val.toNat)).2.2) ∈ vs := by
      rw [h6]; exact List.mem_map_of_mem (f := fun e : Nat × Place => (e.1, (read t c.role.accessErr e.2 (c.bpiPos o.sp e.1 (c.role.ea o.m o.off e.1).val.toNat)).2.1,
        loadSt (c.role.ea o.m o.off e.1).st (read t c.role.accessErr e.2 (c.bpiPos o.sp e.1 (c.role.ea o.m o.off e.1).val.toNat)).2.2)) he
    have := lookLane_mem vs hnd _ hme
    simp only at this ⊢
    rw [this]
    exact ⟨hm, rfl, rfl⟩

/-- A per-lane store follows its rule when its meaning is the shared one. -/
theorem storeRule_of (i : Instr) (o : LaneMem) (data : Opnd) (writers : Ctx → List (Nat × Place) → List (Nat × Place))
    (act : Ctx → State → Nat × Place → State) (before after : State → State)
    (hw : ∀ c c', c.Alike c' → writers c' = writers c ∧ act c' = act c)
    (hi : ∀ s, exec i s = laneMem o [data] [] (ctxTag o.sp) overlayRoom
      (fun c s ok => (writers c ok).foldl (act c) (before s))
      (fun c s => after (storeDone (addrFrees o.m ++ data.freed) c s)) s) :
    StoreRule i o data writers act before after := by
  intro s c x got pls hs hg hz hr hroom
  have hres := s.resolveAll_resolved c c
    { sp := o.sp, need := o.need, size := o.size, align := o.align, bpi := o.bpi, tag := x }
    ((c.role.live o.g).map (fun l => (l, (c.role.ea o.m o.off l).val.toNat))) hs.1
  rw [hr.2.2] at hres
  obtain ⟨p, hp, -⟩ := hres
  obtain ⟨c', hc', hal, hrun⟩ := laneMem_run o [data] [] (ctxTag o.sp) overlayRoom (fun c s ok => (writers c ok).foldl (act c) (before s))
    (fun c s => after (storeDone (addrFrees o.m ++ data.freed) c s)) s c x got pls hs hg hz (by simp) hr (by
      unfold overlayRoom
      have : (List.range 8).any (fun k => decide (c.part.poolFree k <
          ((distinctLines (needLines got pls)).filter (fun e => e.1 == k)).length)) = false := by
        rw [List.any_eq_false]
        intro k hk
        have := hroom k (List.mem_range.1 hk)
        simpa using this
      dsimp only
      show (if (List.range 8).any (fun k => decide (c.part.poolFree k <
          ((distinctLines (needLines got pls)).filter (fun e => e.1 == k)).length)) then _ else none) = none
      rw [this]; rfl)
  refine ⟨⟨p, hp⟩, ?_⟩
  rw [hi, hrun]
  obtain ⟨e1, e2⟩ := hw c c' hal
  rw [e1, e2]
  congr 2
  unfold storeDone State.lanesDone
  rw [State.modCur_modCur]
  congr 1
  funext r
  simp only [addrFrees, freesOf, List.flatMap_append, List.flatMap_cons, List.flatMap_nil, List.append_nil]
  rfl

end Sys2Proof.Machine
end

