-- ==== Sys2Proof/Laws/Memory.lean ====
section
/-! SUPPORT. Storage: a read after a write, and the canonical form, which every operation keeps. -/
namespace Sys2Proof.Machine

/-! Rising keys. -/

theorem rising_iff {α : Type} (t : List (Nat × α)) : rising t = true ↔ t.Pairwise (fun a b => a.1 < b.1) := by
  induction t with
  | nil => simp [rising]
  | cons a t ih =>
    cases t with
    | nil => simp [rising]
    | cons b t =>
      simp only [rising, Bool.and_eq_true, decide_eq_true_eq, ih]
      constructor
      · rintro ⟨h, hp⟩
        refine List.Pairwise.cons (fun c hc => ?_) hp
        rcases List.mem_cons.1 hc with e | e
        · exact e ▸ h
        · exact Nat.lt_trans h ((List.pairwise_cons.1 hp).1 c e)
      · intro hp
        have := List.pairwise_cons.1 hp
        exact ⟨this.1 b (List.mem_cons_self ..), this.2⟩

theorem mem_tset {α : Type} (t : Tab α) (x : Nat) (v : α) (e : Nat × α) (h : e ∈ tset t x v) : e = (x, v) ∨ e ∈ t := by
  induction t with
  | nil => simpa [tset] using h
  | cons a t ih =>
    obtain ⟨k, w⟩ := a
    simp only [tset] at h
    split at h
    · rcases List.mem_cons.1 h with h | h
      · exact .inl h
      · exact .inr h
    · split at h
      · rcases List.mem_cons.1 h with h | h
        · exact .inl h
        · exact .inr (List.mem_cons_of_mem _ h)
      · rcases List.mem_cons.1 h with h | h
        · exact .inr (h ▸ List.mem_cons_self ..)
        · rcases ih h with h | h
          · exact .inl h
          · exact .inr (List.mem_cons_of_mem _ h)

theorem rising_tset {α : Type} (t : Tab α) (x : Nat) (v : α) (h : rising t = true) : rising (tset t x v) = true := by
  rw [rising_iff] at *
  induction t with
  | nil => simp [tset]
  | cons a t ih =>
    obtain ⟨k, w⟩ := a
    rw [List.pairwise_cons] at h
    simp only [tset]
    split
    · rename_i hk
      refine List.Pairwise.cons (fun b hb => ?_) (List.Pairwise.cons h.1 h.2)
      rcases List.mem_cons.1 hb with e | e
      · rw [e]; exact hk
      · exact Nat.lt_trans hk (h.1 b e)
    · split
      · rename_i hk
        exact List.Pairwise.cons (fun b hb => hk ▸ h.1 b hb) h.2
      · refine List.Pairwise.cons (fun b hb => ?_) (ih h.2)
        rcases mem_tset t x v b hb with e | e
        · rw [e]; simp only; omega
        · exact h.1 b e

theorem tdel_filter {α : Type} (t : Tab α) (x : Nat) : tdel t x = t.filter (fun e => e.1 != x) := by
  induction t with
  | nil => rfl
  | cons a t ih =>
    obtain ⟨k, w⟩ := a
    simp only [tdel, List.filter_cons]
    by_cases h : k = x <;> simp [h, ih]

theorem rising_filter {α : Type} (t : List (Nat × α)) (p : Nat × α → Bool) (h : rising t = true) :
    rising (t.filter p) = true := by
  rw [rising_iff] at *; exact h.filter p

theorem rising_tdel {α : Type} (t : Tab α) (x : Nat) (h : rising t = true) : rising (tdel t x) = true := by
  rw [tdel_filter]; exact rising_filter t _ h

/-! One byte and one sector. -/

theorem Memory.rd_wr (m : Memory) (a k : Nat) (b : Byte) : (m.wr a b).rd k = if k = a then b else m.rd k := by
  unfold Memory.wr Memory.rd
  simp only
  by_cases hb : b = 0
  · subst hb
    simp only [if_true, tget_tdel]
    by_cases h : a = k
    · subst h; simp
    · simp [h, Ne.symm h]
  · simp only [hb, if_false, tget_tset]
    by_cases h : a = k
    · subst h; simp
    · simp [h, Ne.symm h]
theorem Memory.st_wr (m : Memory) (a k : Nat) (b : Byte) : (m.wr a b).st k = m.st k := rfl
theorem Memory.st_setSt (m : Memory) (a k : Nat) (st : Standing) : (m.setSt a st).st k = if k = a then st else m.st k := by
  unfold Memory.setSt Memory.st
  simp only
  by_cases hb : st = .S
  · subst hb
    simp only [if_true, tget_tdel]
    by_cases h : a = k
    · subst h; simp
    · simp [h, Ne.symm h]
  · simp only [hb, if_false, tget_tset]
    by_cases h : a = k
    · subst h; simp
    · simp [h, Ne.symm h]
theorem Memory.rd_setSt (m : Memory) (a k : Nat) (st : Standing) : (m.setSt a st).rd k = m.rd k := rfl

theorem Memory.wf_iff (m : Memory) : m.wf = true ↔
    (rising m.bytes = true ∧ ∀ e ∈ m.bytes, e.2 ≠ 0) ∧ rising m.std = true ∧ ∀ e ∈ m.std, e.2 ≠ .S := by
  simp [Memory.wf, and_assoc]

theorem Memory.wf_wr (m : Memory) (a : Nat) (b : Byte) (h : m.wf = true) : (m.wr a b).wf = true := by
  rw [Memory.wf_iff] at *
  obtain ⟨⟨h1, h2⟩, h3⟩ := h
  refine ⟨?_, h3⟩
  unfold Memory.wr
  simp only
  by_cases hb : b = 0
  · rw [if_pos hb]
    refine ⟨rising_tdel _ _ h1, fun e he => ?_⟩
    rw [tdel_filter] at he
    exact h2 e (List.mem_filter.1 he).1
  · rw [if_neg hb]
    refine ⟨rising_tset _ _ _ h1, fun e he => ?_⟩
    rcases mem_tset _ _ _ _ he with e1 | e1
    · rw [e1]; exact hb
    · exact h2 e e1
theorem Memory.wf_setSt (m : Memory) (k : Nat) (st : Standing) (h : m.wf = true) : (m.setSt k st).wf = true := by
  rw [Memory.wf_iff] at *
  obtain ⟨h1, h2, h3⟩ := h
  refine ⟨h1, ?_⟩
  unfold Memory.setSt
  simp only
  by_cases hb : st = .S
  · rw [if_pos hb]
    refine ⟨rising_tdel _ _ h2, fun e he => ?_⟩
    rw [tdel_filter] at he
    exact h3 e (List.mem_filter.1 he).1
  · rw [if_neg hb]
    refine ⟨rising_tset _ _ _ h2, fun e he => ?_⟩
    rcases mem_tset _ _ _ _ he with e1 | e1
    · rw [e1]; exact hb
    · exact h3 e e1
theorem Memory.wf_zero : Memory.zero.wf = true := rfl

/-! Runs of bytes. -/

theorem Memory.rd_wrNat (m : Memory) (a n v k : Nat) :
    (m.wrNat a n v).rd k = if a ≤ k ∧ k < a + n then BitVec.ofNat 8 (v / 256 ^ (k - a)) else m.rd k := by
  induction n generalizing m a v with
  | zero => rw [Memory.wrNat, if_neg (by omega)]
  | succ n ih =>
    simp only [Memory.wrNat, ih, Memory.rd_wr]
    by_cases h1 : k = a
    · subst h1; rw [if_neg (by omega), if_pos rfl, if_pos (by omega)]; simp
    · by_cases h2 : a + 1 ≤ k ∧ k < a + 1 + n
      · rw [if_pos h2, if_pos (by omega : a ≤ k ∧ k < a + (n + 1)), Nat.div_div_eq_div_mul,
          show k - a = (k - (a + 1)) + 1 by omega, Nat.pow_succ, Nat.mul_comm]
      · rw [if_neg h2, if_neg (by omega : ¬ (a ≤ k ∧ k < a + (n + 1))), if_neg h1]
theorem Memory.st_wrNat (m : Memory) (a n v k : Nat) : (m.wrNat a n v).st k = m.st k := by
  induction n generalizing m a v with
  | zero => rfl
  | succ n ih => rw [Memory.wrNat, ih, Memory.st_wr]
theorem Memory.wf_wrNat (m : Memory) (a n v : Nat) (h : m.wf = true) : (m.wrNat a n v).wf = true := by
  induction n generalizing m a v with
  | zero => exact h
  | succ n ih => exact ih _ _ _ (m.wf_wr _ _ h)
theorem Memory.wf_wrBytes (m : Memory) (a : Nat) (bs : List Byte) (h : m.wf = true) : (m.wrBytes a bs).wf = true := by
  induction bs generalizing m a with
  | nil => exact h
  | cons b t ih => exact ih _ _ (m.wf_wr _ _ h)

theorem Memory.rdNat_eq (m m' : Memory) (a n : Nat) (h : ∀ k, a ≤ k → k < a + n → m.rd k = m'.rd k) :
    m.rdNat a n = m'.rdNat a n := by
  induction n generalizing a with
  | zero => rfl
  | succ n ih =>
    simp only [Memory.rdNat]
    rw [h a (Nat.le_refl a) (by omega), ih (a + 1) (fun k h1 h2 => h k (by omega) (by omega))]
/-- A read after a write to the same place gives the value written. -/
theorem Memory.rdNat_wrNat (m : Memory) (a n v : Nat) : (m.wrNat a n v).rdNat a n = v % 256 ^ n := by
  have key : ∀ (n : Nat) (m : Memory) (a v : Nat), (∀ k, a ≤ k → k < a + n → m.rd k = BitVec.ofNat 8 (v / 256 ^ (k - a))) →
      m.rdNat a n = v % 256 ^ n := by
    intro n
    induction n with
    | zero => intro m a v _; simp [Memory.rdNat, Nat.mod_one]
    | succ n ih =>
      intro m a v h
      simp only [Memory.rdNat]
      rw [ih m (a + 1) (v / 256), h a (Nat.le_refl a) (by omega)]
      · simp only [Nat.sub_self, Nat.pow_zero, Nat.div_one, BitVec.toNat_ofNat]
        rw [show (256 : Nat) ^ (n + 1) = 256 * 256 ^ n by rw [Nat.pow_succ, Nat.mul_comm], Nat.mod_mul]
      · intro k h1 h2
        rw [h k (by omega) (by omega), Nat.div_div_eq_div_mul, show k - a = (k - (a + 1)) + 1 by omega, Nat.pow_succ,
          Nat.mul_comm]
  exact key n _ a v (fun k h1 h2 => by rw [Memory.rd_wrNat, if_pos ⟨h1, h2⟩])

/-! Stores with standing (R142). -/

theorem mem_sectors (a n k : Nat) : k ∈ sectors a n ↔ 0 < n ∧ a / 32 ≤ k ∧ k ≤ (a + n - 1) / 32 := by
  unfold sectors
  by_cases h : n = 0
  · subst h; simp
  · have h' : (n == 0) = false := by simpa using h
    simp only [h', Bool.false_eq_true, if_false, List.mem_map, List.mem_range]
    constructor
    · rintro ⟨i, hi, rfl⟩; omega
    · rintro ⟨_, h1, h2⟩; exact ⟨k - a / 32, by omega, by omega⟩

theorem Memory.rd_stRange (m : Memory) (a n k : Nat) (st : Standing) : (m.stRange a n st).rd k = m.rd k := by
  unfold Memory.stRange
  generalize sectors a n = ks
  induction ks generalizing m with
  | nil => rfl
  | cons x t ih => rw [List.foldl_cons, ih, Memory.rd_setSt]
theorem Memory.st_stRange_out (m : Memory) (a n k : Nat) (st : Standing) (h : k ∉ sectors a n) :
    (m.stRange a n st).st k = m.st k := by
  unfold Memory.stRange
  generalize sectors a n = ks at h
  induction ks generalizing m with
  | nil => rfl
  | cons x t ih =>
    simp only [List.mem_cons, not_or] at h
    rw [List.foldl_cons, ih _ h.2, Memory.st_setSt, if_neg h.1]
theorem Memory.wf_stRange (m : Memory) (a n : Nat) (st : Standing) (h : m.wf = true) : (m.stRange a n st).wf = true := by
  unfold Memory.stRange
  generalize sectors a n = ks
  induction ks generalizing m with
  | nil => exact h
  | cons x t ih => exact ih _ (m.wf_setSt _ _ h)
theorem Memory.wf_store (m : Memory) (a n v : Nat) (st : Standing) (h : m.wf = true) : (m.store a n v st).wf = true :=
  Memory.wf_stRange _ _ _ _ (m.wf_wrNat _ _ _ h)
theorem Memory.wf_storeBytes (m : Memory) (a : Nat) (bs : List Byte) (st : Standing) (h : m.wf = true) :
    (m.storeBytes a bs st).wf = true := Memory.wf_stRange _ _ _ _ (m.wf_wrBytes _ _ h)
theorem Memory.rd_store (m : Memory) (a n v k : Nat) (st : Standing) :
    (m.store a n v st).rd k = if a ≤ k ∧ k < a + n then BitVec.ofNat 8 (v / 256 ^ (k - a)) else m.rd k := by
  unfold Memory.store; rw [Memory.rd_stRange, Memory.rd_wrNat]
/-- A read after a store to the same place gives the value stored. -/
theorem Memory.rdNat_store (m : Memory) (a n v : Nat) (st : Standing) : (m.store a n v st).rdNat a n = v % 256 ^ n := by
  rw [← m.rdNat_wrNat a n v]
  exact Memory.rdNat_eq _ _ _ _ (fun k _ _ => Memory.rd_stRange _ _ _ _ _)
theorem Memory.st_store_out (m : Memory) (a n v k : Nat) (st : Standing) (h : k ∉ sectors a n) :
    (m.store a n v st).st k = m.st k := by
  unfold Memory.store; rw [Memory.st_stRange_out _ _ _ _ _ h, Memory.st_wrNat]

/-! The wider writes. -/

theorem Memory.wf_clear (m : Memory) (a n : Nat) (h : m.wf = true) : (m.clear a n).wf = true := by
  rw [Memory.wf_iff] at *
  obtain ⟨⟨h1, h2⟩, h3, h4⟩ := h
  exact ⟨⟨rising_filter _ _ h1, fun e he => h2 e (List.mem_filter.1 he).1⟩,
    rising_filter _ _ h3, fun e he => h4 e (List.mem_filter.1 he).1⟩
theorem Memory.wf_foldl {β : Type} (f : Memory → β → Memory) (hf : ∀ m x, m.wf = true → (f m x).wf = true) (l : List β)
    (m : Memory) (h : m.wf = true) : (l.foldl f m).wf = true := by
  induction l generalizing m with
  | nil => exact h
  | cons x t ih => exact ih _ (hf _ _ h)
theorem Memory.wf_copyFrom (m src : Memory) (a b n : Nat) (std : Bool) (h : m.wf = true) : (m.copyFrom src a b n std).wf = true := by
  unfold Memory.copyFrom
  have h1 := Memory.wf_foldl (fun (m : Memory) (c : Host.Cell) => m.wr (c.1 - a + b) c.2) (fun m x hm => m.wf_wr _ _ hm)
    (src.bytes.filter (fun c => a ≤ c.1 && c.1 < a + n)) _ (m.wf_clear b n h)
  cases std with
  | false => exact h1
  | true => exact Memory.wf_foldl _ (fun m x hm => m.wf_setSt _ _ hm) _ _ h1
theorem Memory.wf_putSectors (m : Memory) (base e n : Nat) (xs : List (Nat × Standing)) (h : m.wf = true) :
    (m.putSectors base e n xs).wf = true := by
  induction n generalizing m base xs with
  | zero => exact h
  | succ n ih => exact ih _ _ _ (Memory.wf_setSt _ _ _ (m.wf_wrNat _ _ _ h))
theorem Memory.wf_put (m : Memory) (a n v : Nat) (st : Standing) (h : m.wf = true) : (m.put a n v st).wf = true :=
  Memory.wf_setSt _ _ _ (m.wf_wrNat _ _ _ h)
theorem Memory.wf_putDense (m : Memory) (base e : Nat) (xs : List (Nat × Standing)) (h : m.wf = true) :
    (m.putDense base e xs).wf = true := m.wf_putSectors _ _ _ _ h

end Sys2Proof.Machine
end

