-- ==== Sys2Proof/Laws/Shapes.lean ====
section
/-! SUPPORT. The families of instructions that share a shape: what makes each follow its rule. -/
namespace Sys2Proof.Machine

theorem tySt_int (tys : List Ty) (ty : Ty) (h : tys.contains ty = true) (hi : tys.all Ty.isInt = true) : tySt ty = id := by
  have h1 : ty ∈ tys := by simpa using h
  have := List.all_eq_true.1 hi ty h1
  cases ty <;> simp_all [Ty.isInt] <;> rfl

/-- Two-source integer instructions follow their rule when their meanings are the shared ones with a function of equal value. -/
theorem int2Rule_of (reg : I2 → Instr) (imm : I2I → Instr) (tb : Ty → Ty) (f : Ty → Bool → DWord → DWord → DWord)
    (tys : List Ty) (sat b32 : Bool) (val : Ty → Bool → DWord → DWord → DWord)
    (hr : ∀ o s, exec (reg o) s = execInt2 o (tb o.ty) f s) (hi : ∀ o s, exec (imm o) s = execInt2I o (tb o.ty) f s)
    (wr : ∀ o, (reg o).wf = I2.wf tys sat b32 o) (wi : ∀ o, (imm o).wf = I2I.wf tys sat o)
    (ht : tys.all Ty.isInt = true) (hv : ∀ ty s a b, val ty s a b = f ty s a b) : Int2Rule reg imm tb val := by
  constructor
  · intro o hw
    rw [wr] at hw
    simp only [I2.wf, Bool.and_eq_true] at hw
    have ht := tySt_int tys o.ty hw.1.1.1.1 ht
    exact execVec_spec _ _ _ _ (tySt o.ty) _ _ _ _ _ (hr o) (fun a => hv _ _ _ _)
      (fun r l => by simp [ht, Role.arg, joinAll])
  · intro o hw
    rw [wi] at hw
    simp only [I2I.wf, Bool.and_eq_true] at hw
    have ht := tySt_int tys o.ty hw.1.1.1 ht
    exact execVec_spec _ _ _ _ (tySt o.ty) _ _ _ _ _ (hi o) (fun a => hv _ _ _ _)
      (fun r l => by simp [ht, Role.arg, Role.opnd, joinAll])

theorem int1Rule_of (i : I1 → Instr) (wide : Ty → Bool) (f : Ty → Bool → DWord → DWord) (tys : List Ty) (sat d32 : Bool)
    (val : Ty → Bool → DWord → DWord) (he : ∀ o s, exec (i o) s = execInt1 o (wide o.ty) f s)
    (wr : ∀ o, (i o).wf = I1.wf tys sat d32 o) (ht : tys.all Ty.isInt = true) (hv : ∀ ty s a, val ty s a = f ty s a) :
    Int1Rule i wide val := by
  intro o hw
  rw [wr] at hw
  simp only [I1.wf, Bool.and_eq_true] at hw
  have ht := tySt_int tys o.ty hw.1.1.1 ht
  exact execVec_spec _ _ _ _ (tySt o.ty) _ _ _ _ _ (he o) (fun a => hv _ _ _) (fun r l => by simp [ht, Role.arg, joinAll])

theorem flt1Rule_of (i : F1 → Instr) (wide : Ty → Bool) (f : F1 → Fmt → Nat → Nat) (val : Fmt → Rnd → Nat → Nat)
    (he : ∀ o s, exec (i o) s = execFlt1 o (wide o.ty) (f o) s) (hv : ∀ o m a, val m o.rnd a = f o m a) :
    Flt1Rule i wide val := by
  intro o _
  exact execVec_spec _ _ _ _ (tySt o.ty) _ _ _ _ _ (he o) (fun a => by simp [hv, ofPattern, floatBits])
    (fun r l => by simp [Role.arg, joinAll])

theorem flt2Rule_of (i : F2 → Instr) (f : F2 → Fmt → Nat → Nat → Nat) (val : Fmt → Rnd → Nat → Nat → Nat)
    (he : ∀ o s, exec (i o) s = execFlt2 o (f o) s) (hv : ∀ o m a b, val m o.rnd a b = f o m a b) : Flt2Rule i val := by
  intro o _
  exact execVec_spec _ _ _ _ (tySt o.ty) _ _ _ _ _ (he o) (fun a => by simp [hv, ofPattern, floatBits])
    (fun r l => by simp [Role.arg, joinAll])

/-- A per-lane computation over p registers. -/
theorem execPred_spec (g : Guard) (ns : List (BitVec 7)) (consume : Bool) (d : BitVec 7) (f : (Nat → Bool) → Bool)
    (s : State) (c : Ctx) (hs : s.Ready c) (hg : c.role.GuardOk g) (hp : consume = true → c.role.PredsOk g ns) :
    ∃ t, execPred g ns consume d f s = .next t ∧ WrotePreds s c g (c.role.live g) [] d
      (fun l => f (fun i => (((ns.map (fun n => c.role.preg n l))[i]?).map (fun v => v.1)).getD false))
      (fun l => joinAll ((ns.map (fun n => c.role.preg n l)).map (fun v => v.2))) t := by
  unfold execPred
  rw [withLanes_run s c g _ _ _ hs hg]
  · exact ⟨_, rfl, s.putP_spec c g (c.role.live g) [] d _ _ hs.1 (c.role.live_nodup g)⟩
  · intro l hl
    cases consume with
    | false => simp
    | true =>
      simp only [Bool.false_or, Bool.true_and, List.any_eq_false]
      intro n hn
      simpa using hp rfl l hl n hn

theorem pred2Rule_of (i : P2 → Instr) (f : Bool → Bool → Bool)
    (he : ∀ o s, exec (i o) s = execPred o.g [o.a, o.b] true o.d (fun v => f (v 0 ^^ o.na) (v 1 ^^ o.nb)) s) :
    Pred2Rule i f := by
  intro o s c hs hg hp
  rw [he]
  exact execPred_spec o.g [o.a, o.b] true o.d _ s c hs hg (fun _ => hp)

theorem scal2Rule_of (reg : S2 → Instr) (imm : S2I → Instr) (f : Ty → Bool → DWord → DWord → DWord)
    (val : Ty → Bool → DWord → DWord → DWord) (hr : ∀ o s, exec (reg o) s = execSc2 o f s)
    (hi : ∀ o s, exec (imm o) s = execSc2I o f s) (hv : ∀ ty s a b, val ty s a b = f ty s a b) : Scal2Rule reg imm val := by
  constructor
  · intro o _
    exact execUni_spec _ _ false _ _ _ _ (hr o) (fun r => hv _ _ _ _) (fun r => by simp [joinAll])
  · intro o _
    exact execUni_spec _ _ true _ _ _ _ (hi o) (fun r => hv _ _ _ _) (fun r => by simp [joinAll])

end Sys2Proof.Machine
end

