-- ==== Sys2Proof/Tests/Slice0.lean ====
section
/-!
SUPPORT. Tests: words that the spec writes out, ill-formed terms that the checks refuse, values that the spec works out, and
for every statement a state and operands that meet its hypotheses together. Expected words and values are the spec's, or
computed by hand from its rules.
-/
namespace Sys2Proof.Tests
open Sys2Proof Sys2Proof.Machine

-- The tests are elaborated one after another, so that no hundred of them hold a thread each.
set_option Elab.async false

/-! Decoding: each word is the one that the spec's chapter works out. -/

def anyG : Guard := { p := 127, neg := false }

/-- Chapter 4. -/
theorem test_decode_fma : decodeItem 0x10A2C08060401A0D = .ok (.fma
    { g := { p := 3, neg := false }, ty := .f64, rnd := .rn, d := 4, a := .v 6 false, b := .v 8 false, c := .v 10 true }) := by
  decide +kernel
theorem test_decode_iadd : decodeItem 0x00000040000080003023F94A = .ok (.iaddImm
    { g := anyG, ty := .i32, sat := false, d := 2, a := .v 3 false, imm := 0x40 }) := by decide +kernel
theorem test_decode_header : decodeHeader 0x28C024C = .inl { n := 3, wait := 0b1001, sa := some 1, sb := some 2 } := by
  decide +kernel
/-- Chapters 5 to 7. -/
theorem test_decode_headers : decodeHeader 0x40018 = .inl { n := 6, wait := 0, sa := some 0, sb := none } ∧
    decodeHeader 0x5C = .inl { n := 7, wait := 1, sa := none, sb := none } ∧
    decodeHeader 0x14 = .inl { n := 5, wait := 0, sa := none, sb := none } := by decide +kernel
theorem test_decode_brd : decodeItem 0x000001C000000140000000001003F80B = .ok (.brd 1 0x140 0x1C0) := by decide +kernel
theorem test_decode_pnot : decodeItem 0x1033F84D = .ok (.pnot anyG 3 1) := by decide +kernel
theorem test_decode_fma_scalars : decodeItem 0xC162C150E0E3FA0D = .ok (.fma
    { g := anyG, ty := .f64, rnd := .rn, d := 14, a := .v 14 false, b := .s 21, c := .s 22 }) := by decide +kernel
/-- Chapter 8. -/
theorem test_decode_fdiv : decodeItem 0x0006A0908073FA11 = .ok (.fdiv
    { g := anyG, ty := .f32, rnd := .rz, d := 7, a := .v 8 false, b := .v 9 true }) := by decide +kernel
theorem test_decode_cvt : decodeItem 0x0082D000C0E3FA81 = .ok (.cvt anyG .f64 .i32 .rn 14 (.v 12 true)) := by
  decide +kernel
theorem test_decode_fmul : decodeItem 0x002290C04053FA09 = .ok (.fmul
    { g := anyG, ty := .f32, rnd := .rn, d := 5, a := .v 4 true, b := .s 12 }) := by decide +kernel
/-- Chapter 12. -/
theorem test_decode_ld : decodeItem 0x00008000012300B000C3FB02 = .ok (.ld anyG false .t .bpi 12
    { base := none, idx := .i32 11 false } 0x8000) := by decide +kernel
theorem test_decode_st : decodeItem 0x000000000182C121E0E3FB06 = .ok (.st anyG .g .f64 (.v 14 false)
    { base := some 30, idx := .i32 18 false } 0) := by decide +kernel
theorem test_decode_copy : decodeItem 0x0000F000FFFF002100000001000BFB23 = .ok (.copy
    { fs := true, src := .surf, dst := .t, ty := .i8, a := 16, dep := none, tags := none, smoff := 0xFFFF,
      baroff := 0xF000 }) := by decide +kernel
theorem test_decode_nmc : decodeItem 0x000000000020001000028002_0003FB63 = .ok (.nmcFade
    { fs := false, f64 := false, a := 32, n := 16 }) := by decide +kernel
/-- Chapters 13 and 14. -/
theorem test_decode_mmar : decodeItem 0x000000020000180040A2C0100303FC07 = .ok (.mmar
    { init := true, ct := false, a := .buf 0 0 false, b := .buf 1 0 true, kg := 3, acc := 0, d := 48 }) := by decide +kernel
theorem test_decode_svcfg : decodeItem 0x2B800000000000000003FC8E = .ok (.svcfgTolImm 0x2B800000) := by decide +kernel
theorem test_decode_dcor : decodeItem 0x000002320022E140E0E3FC86 = .ok (.dcor
    { g := anyG, more := true, box := none, d := 14, x := { r := 14, last := false }, r := { r := 20, last := true },
      m := .s 50 }) := by decide +kernel
/-- Chapters 17 and 19. -/
theorem test_decode_depdec : decodeItem 0x00000040000000006003FD12 = .ok (.depdec false 6 0x40) := by decide +kernel
theorem test_decode_depinit : decodeItem 0x00000002000000006003FD0E = .ok (.depinit 6 (.imm 2)) := by decide +kernel
theorem test_decode_pchk : decodeItem 0x3FFC9 = .ok .pchk := by decide +kernel
/-- An item from its fields, each at its place in the layout of R92, with X64 above. -/
def item (l op g d a b m i12 x : Nat) : BitVec 128 :=
  BitVec.ofNat 128 (l + op * 2 ^ 2 + g * 2 ^ 11 + d * 2 ^ 20 + a * 2 ^ 28 + b * 2 ^ 36 + m * 2 ^ 46 + i12 * 2 ^ 52 + x * 2 ^ 64)
/-- Items put together by hand from R92 and the rulers of the entries, for the families without a worked word. -/
theorem test_decode_scalar : decodeItem (item 1 0x022 127 3 1 2 3 0 0) = .ok (.sadd
      { ty := .i64, sat := false, d := 3, a := 1, b := 2 }) ∧
    decodeItem (item 3 0x021 127 5 0 0 0 0 42) = .ok (.sli 5 42) ∧
    decodeItem (item 1 0x02F 127 5 0 0 0 2 0) = .ok (.srs (.s 5) 2) := by decide +kernel
theorem test_decode_lanes : decodeItem (item 1 0x042 127 10 127 0 0 0 0) = .ok (.elect anyG 10 127) ∧
    decodeItem (item 2 0x0CA 127 0 1 0 0 2 5) = .ok (.binit 1 5) := by decide +kernel
theorem test_decode_contexts : decodeItem (item 1 0x0D0 127 4 0 0 0 0 0) = .ok (.ctxnew false 4) ∧
    decodeItem (item 1 0x0D7 127 0 0 0 0 0 0) = .ok .sgleave := by decide +kernel
theorem test_decode_barrier : decodeItem (item 1 0x140 127 0 0 0 0 0x31 0) = .ok (.bar 1 3) := by decide +kernel
/-- R420. -/
theorem test_decode_trap : decodeItem 0x02100000000027C1 = .ok (.trap { p := 4, neg := false } 0x21) := by decide +kernel
theorem test_decode_system : decodeItem (item 1 0x1F0 127 0 0 0 0 5 0) = .ok (.trap anyG 5) ∧
    decodeItem (item 1 0x1F1 127 0 0 0 0 0 0) = .ok .tret := by decide +kernel
/-- R94 to R99: the smallest cause of an item that breaks several rules: a class-U item with a guard (8), FS on an item that
has no flag (9), a type that the entry does not list (10), an odd register for a pair (12), a field that must be 0 (14). -/
theorem test_decode_causes : decodeItem (item 1 0x022 126 3 1 2 8 0 0) = .illegal 8 ∧
    decodeItem (item 1 0x052 127 2 (0xF00 + 4) 6 8 0 0 ||| (1#128 <<< 19)) = .illegal 9 ∧
    decodeItem (item 1 0x052 127 2 4 6 8 0 0) = .illegal 10 ∧ decodeItem (item 1 0x052 127 3 4 6 3 0 0) = .illegal 12 ∧
    decodeItem (item 1 0x052 127 2 4 6 2 0x800 0) = .illegal 14 ∧ decodeItem (item 3 0x052 127 2 4 6 2 0 0) = .illegal 2 := by
  decide +kernel

/-! Well-formed terms: one ill-formed term for each check, which the check refuses. -/

def mmaOf (fmt : Ty) (a b : MSrc) : MmaOps :=
  { fmt := fmt, gang := none, ct := false, w := 0, a := a, b := b, kg := 0, acc := 0 }
def mdrainOf (dty sf : Ty) (w : BitVec 3) : MdrainOps :=
  { dty := dty, rnd := .rn, sf := sf, ct := false, w := w, row := 0, smoff := 0, dst := 0, acc := 0 }
def dcorOf (d : BitVec 8) (box : Option DcorBox) : DcorOps :=
  { g := anyG, more := false, box := box, d := d, x := { r := 4, last := false }, r := { r := 6, last := false }, m := .s 1 }
def copyOf (src : CopySrc) (ty : Ty) (a : BitVec 7) : CopyOps :=
  { fs := false, src := src, dst := .t, ty := ty, a := a, dep := none, tags := none, smoff := 0, baroff := 0 }
def nmcOf (a : BitVec 7) (n : BitVec 17) : NmcOps := { fs := false, f64 := false, a := a, n := n }
theorem test_wf_scalar : Instr.wf (.sadd { ty := .f64, sat := false, d := 3, a := 1, b := 2 }) = false ∧
    Instr.wf (.smin { ty := .i64, sat := true, d := 3, a := 1, b := 2 }) = false ∧
    Instr.wf (.saddImm { ty := .i8, sat := false, d := 3, a := 1, imm := 0 }) = false := by decide +kernel
theorem test_wf_integer : Instr.wf (.iadd { g := anyG, ty := .f32, sat := false, d := 2, a := .v 4 false, b := .v 6 false }) = false ∧
    Instr.wf (.imin { g := anyG, ty := .i32, sat := true, d := 2, a := .v 4 false, b := .v 6 false }) = false ∧
    Instr.wf (.iadd { g := anyG, ty := .i64, sat := false, d := 3, a := .v 4 false, b := .v 6 false }) = false ∧
    Instr.wf (.iadd { g := anyG, ty := .i64, sat := false, d := 2, a := .v 5 false, b := .v 6 false }) = false ∧
    Instr.wf (.iadd { g := anyG, ty := .i64, sat := false, d := 2, a := .v 4 false, b := .v 7 false }) = false ∧
    Instr.wf (.iaddImm { g := anyG, ty := .u64, sat := false, d := 2, a := .v 5 false, imm := 0 }) = false ∧
    Instr.wf (.imad { g := anyG, ty := .i64, sat := false, d := 2, a := .v 4 false, b := .v 6 false, c := .v 7 false }) = false ∧
    Instr.wf (.iabs { g := anyG, ty := .u32, sat := false, d := 2, a := .v 4 false }) = false := by decide +kernel
theorem test_wf_float : Instr.wf (.fadd { g := anyG, ty := .i32, rnd := .rn, d := 2, a := .v 4 false, b := .v 6 false }) = false ∧
    Instr.wf (.fmin { g := anyG, ty := .f32, rnd := .rz, d := 2, a := .v 4 false, b := .v 6 false }) = false ∧
    Instr.wf (.fma { g := anyG, ty := .f64, rnd := .rn, d := 2, a := .v 4 false, b := .v 6 false, c := .v 7 false }) = false ∧
    Instr.wf (.frcpa { g := anyG, ty := .f16, rnd := .rn, d := 2, a := .v 4 false }) = false ∧
    Instr.wf (.dqnt anyG .i8 7 .rn 2 (.v 4 false) (.v 6 false)) = false := by decide +kernel
theorem test_wf_memory : Instr.wf (.ld anyG false .g .f64 5 { base := none, idx := .none } 0) = false ∧
    Instr.wf (.ld anyG false .g .i32 4 { base := none, idx := .i64 3 false } 0) = false ∧
    Instr.wf (.sld false .k .i32 4 1 0) = false ∧
    Instr.wf (.atom anyG .and .relaxed .t .f32 (.v 4 false) { base := none, idx := .none } 0) = false ∧
    Instr.wf (.atom anyG .add .relaxed .k .i32 (.v 4 false) { base := none, idx := .none } 0) = false ∧
    Instr.wf (.copy (copyOf .surf .f32 16)) = false ∧ Instr.wf (.copy (copyOf .g .i8 17)) = false ∧
    Instr.wf (.nmcFade (nmcOf 32 0)) = false ∧ Instr.wf (.nmcFade (nmcOf 32 65537)) = false ∧
    Instr.wf (.nmcFade (nmcOf 36 16)) = false := by decide +kernel
theorem test_wf_matrix : Instr.wf (.mma (mmaOf .i8 (.scr 2 false) (.scr 4 false))) = false ∧
    Instr.wf (.mma (mmaOf .f64 (.reg 3 false) (.scr 4 false))) = false ∧
    Instr.wf (.mma (mmaOf .f64 (.scr 3 false) (.scr 4 false))) = false ∧
    Instr.wf (.mdrain (mdrainOf .f32 .f64 1)) = false ∧ Instr.wf (.mdrain (mdrainOf .f64 .bpi 1)) = false ∧
    Instr.wf (.dcor (dcorOf 3 none)) = false ∧ Instr.wf (.dcor (dcorOf 2 (some { bnd := 6, plo := 1, phi := 2 }))) = false ∧
    Instr.wf (.dcor (dcorOf 2 (some { bnd := 8, plo := 127, phi := 2 }))) = false := by decide +kernel
theorem test_wf_control : Instr.wf (.bra 2) = false ∧ Instr.wf (.brd 1 4 6) = false ∧ Instr.wf (.call 1) = false ∧
    Instr.wf (.loop 3 2) = false ∧ Instr.wf (.pprov anyG 1 (.v 3) 0) = false ∧ Instr.wf (.pprov anyG 1 (.pair 3) 1) = false ∧
    Instr.wf (.srs (.s 1) 0) = false ∧ Instr.wf (.srs (.v 1) 2) = false ∧ Instr.wf (.srs (.s 1) 0x1A) = false ∧
    Header.wf { n := 0, wait := 0, sa := none, sb := none } = false ∧
    Header.wf { n := 1, wait := 0, sa := some 12, sb := none } = false ∧
    Header.wf { n := 1, wait := 0, sa := some 3, sb := some 3 } = false := by decide +kernel

/-! Values that the spec works out: the borderline cases of chapter 8, rand32 of chapters 3 and 7. -/

theorem test_iadd : intResult .i32 false (readInt .i32 0x7FFFFFFF + readInt .i32 1) = 0xFFFFFFFF80000000 ∧
    intResult .i32 true (readInt .i32 0x7FFFFFFF + readInt .i32 1) = 0x7FFFFFFF := by decide +kernel
theorem test_bfe : (aluBfe .i32 0xF00 (8 + 4 * 2 ^ 8)).setWidth 32 = 0xFFFFFFFF ∧
    (aluBfe .u32 0xF00 (8 + 4 * 2 ^ 8)).setWidth 32 = 0xF := by decide +kernel
theorem test_prmt : aluPrmt 0x8877665544332211 0x2C070001 = 0xFF881122 := by decide +kernel
theorem test_fadd : Fmt.f64.sumVal .rn (Fmt.f64.dec 0x3FF0000000000000) (Fmt.f64.dec 0x3CA0000000000000) = 0x3FF0000000000000 ∧
    Fmt.f64.sumVal .ru (Fmt.f64.dec 0x3FF0000000000000) (Fmt.f64.dec 0x3CA0000000000000) = 0x3FF0000000000001 := by
  decide +kernel
theorem test_frcpa : Fmt.f32.rcpa .rn 0x40400000 = 0x3EAAB000 ∧ Fmt.f32.rcpa .rz 0x40400000 = 0x3EAAA000 := by decide +kernel
theorem test_fsqrt : Fmt.f64.sqrt .rn 0x8000000000000000 = 0x8000000000000000 ∧
    Fmt.f64.sqrt .rn 0xBFF0000000000000 = 0x7FF8000000000000 := by decide +kernel
theorem test_fscale : Fmt.f64.scale .rn 0x3FF8000000000000 (-1075) = 1 := by decide +kernel
theorem test_fexpn : Fmt.f64.expn 1 = -1074 ∧ Fmt.f64.expn 0 = BitVec.ofNat 32 0x80000000 := by decide +kernel
theorem test_rand : rand32 1 0 = 0xCDC8CD04 := by decide +kernel

/-! A store that is not fenced (R294). -/

/-- A store of role 0 into bytes 4 to 7 of sector 3 of team 0's scratch. -/
def oldStore : PastWrite :=
  { time := 1, role := some { team := 0, role := 0 }, op := none,
    was := { loc := .t 0, sec := 3, bytes := bytesAt 100 4, old := 0x7766554433221100, st := .S }, put := .P,
    knows := [{ team := 0, role := 0 }], all := none, rels := [] }
/-- Read beneath the store, its bytes are the old ones and the others as they stand (R294). -/
theorem test_beneath : beneath [oldStore] 96 8 0xAABBCCDDEEFF0011 = 0x77665544EEFF0011 := by decide +kernel
/-- An operation may read beneath its role's store only without a FENCE.E between, and the role itself never does (R294, R362). -/
theorem test_may_miss :
    let s := State.reset
    s.mayMiss (.op { team := 0, role := 0 } 0) oldStore = true ∧ s.mayMiss (.op { team := 0, role := 0 } 1) oldStore = false ∧
    s.mayMiss (.role { team := 0, role := 0 }) oldStore = false := by decide +kernel

/-! Witnesses: for every statement a concrete state and operands that meet its hypotheses together. demo is the machine with
one program placed (notes/assumptions/14.md): one team of one role of eight lanes, at its first instruction. -/

def demo : State := State.reset.program 3
def demoRole (f : Role → Role) : State := demo.modCur f
def demoTeam (f : Team → Team) : State := demo.modTeam 0 f
def demoPart (f : Part → Part) : State := demo.modPart 0 f
/-- An s register of the demo's role. -/
def withS (n : BitVec 7) (v : DWord) (st : Standing) (r : Role) : Role := { r with s := tset r.s n.toNat { val := v, st := st } }

theorem some_of {α : Type} (o : Option α) (p : α → Prop) [DecidablePred p]
    (h : (match o with | some x => decide (p x) | none => false) = true) : ∃ x, o = some x ∧ p x := by
  cases o with
  | none => cases h
  | some x => exact ⟨x, rfl, of_decide_eq_true h⟩
theorem ready_of (s : State) (p : Ctx → Prop) [DecidablePred p]
    (h : s.ctx?.any (fun c => decide (c.role.ended = false ∧ p c)) = true) : ∃ c, s.Ready c ∧ p c := by
  cases hc : s.ctx? with
  | none => rw [hc] at h; cases h
  | some c =>
    rw [hc] at h
    have h2 := of_decide_eq_true h
    exact ⟨c, ⟨hc, h2.1⟩, h2.2⟩

/-! Instructions on lanes. -/

def i2 (ty : Ty) : I2 := { g := anyG, ty := ty, sat := false, d := 2, a := .v 4 true, b := .v 6 false }
def i2i (ty : Ty) : I2I := { g := anyG, ty := ty, sat := false, d := 2, a := .v 4 true, imm := 9 }
def i1 (ty : Ty) : I1 := { g := anyG, ty := ty, sat := false, d := 2, a := .v 4 true }
def i3 (ty : Ty) : I3 := { g := anyG, ty := ty, sat := false, d := 2, a := .v 4 true, b := .v 6 false, c := .v 8 false }
def f1 (ty : Ty) : F1 := { g := anyG, ty := ty, rnd := .rn, d := 2, a := .v 4 true }
def f2 (ty : Ty) : F2 := { g := anyG, ty := ty, rnd := .rn, d := 2, a := .v 4 true, b := .v 6 false }
def f3 (ty : Ty) : F3 := { g := anyG, ty := ty, rnd := .rn, d := 2, a := .v 4 true, b := .v 6 false, c := .v 8 false }
def opnds (ty : Ty) : List Opnd := [.reg ty (.v 4 true), .reg ty (.v 6 false), .reg ty (.v 8 false)]

theorem witness_integerArithmetic : ∃ c, demo.Ready c ∧ c.role.GuardOk anyG ∧ c.role.OpndsOk anyG (opnds .i64) ∧
    c.role.Room (freesOf (opnds .i64)) true 2 (c.role.live anyG) ∧ c.role.live anyG ≠ [] ∧
    [Instr.iadd (i2 .i64), .isub (i2 .i64), .imul (i2 .i64), .imulh (i2 .i64), .imin (i2 .i64), .imax (i2 .i64), .idiv (i2 .i64),
      .irem (i2 .i64), .iaddImm (i2i .i64), .isubImm (i2i .i64), .imulImm (i2i .i64), .imulhImm (i2i .i64), .iminImm (i2i .i64),
      .imaxImm (i2i .i64), .idivImm (i2i .i64), .iremImm (i2i .i64)].all Instr.wf = true := ready_of _ _ (by decide +kernel)
theorem witness_integerBits : ∃ c, demo.Ready c ∧ c.role.GuardOk anyG ∧ c.role.OpndsOk anyG (opnds .i64) ∧
    c.role.Room (freesOf (opnds .i64)) true 2 (c.role.live anyG) ∧ c.role.Room (freesOf (opnds .u32)) false 2 (c.role.live anyG) ∧
    [Instr.and (i2 .u64), .or (i2 .u64), .xor (i2 .u64), .shl (i2 .u64), .shr (i2 .u64), .sar (i2 .i64), .rot (i2 .u64),
      .andImm (i2i .u64), .orImm (i2i .u64), .xorImm (i2i .u64), .shlImm (i2i .u64), .shrImm (i2i .u64), .sarImm (i2i .i64),
      .rotImm (i2i .u64), .imad (i3 .i64), .iabs (i1 .i64), .ineg (i1 .i64), .not (i1 .u64), .popc (i1 .u64), .clz (i1 .u64),
      .brev (i1 .u64), .bfe (i2 .u64), .bfeImm (i2i .u64), .bfi (i3 .u64), .prmt anyG 2 { r := 4, last := false } (.v 6 false),
      .prmtImm anyG 2 { r := 4, last := false } 0].all Instr.wf = true := ready_of _ _ (by decide +kernel)
theorem witness_movCopies : ∃ c, (demoRole (fun r => r.putV 4 0 5 .Z)).Ready c ∧ c.role.GuardOk anyG ∧
    c.role.Room (freesOf [.reg .u32 (.v 4 true)]) false 2 (c.role.live anyG) ∧ (c.role.vreg 4 0).2 = .Z ∧
    Instr.wf (.mov anyG .u32 2 (.v 4 true)) = true := ready_of _ _ (by decide +kernel)
theorem witness_selectAndAddress : ∃ c, demo.Ready c ∧ c.role.GuardOk anyG ∧ c.role.OpndsOk anyG (opnds .i64) ∧
    c.role.PredsOk anyG [3] ∧ c.role.Room (freesOf (opnds .i64)) true 2 (c.role.live anyG) ∧
    [Instr.li anyG .f16 2 0x3C00, .sel anyG .u64 2 (.v 4 true) (.v 6 false) 3, .lea anyG .i64 3 2 (.v 4 true) (.v 6 false),
      .leaImm anyG .u64 3 2 (.v 4 true) 9].all Instr.wf = true := ready_of _ _ (by decide +kernel)
theorem witness_floatResults : ∃ c, demo.Ready c ∧ c.role.GuardOk anyG ∧ c.role.OpndsOk anyG (opnds .f64) ∧
    c.role.Room (freesOf (opnds .f64)) true 2 (c.role.live anyG) ∧ c.role.Room (freesOf (opnds .f64)) false 2 (c.role.live anyG) ∧
    [Instr.fadd (f2 .f64), .fsub (f2 .f64), .fmul (f2 .f64), .fdiv (f2 .f64), .fma (f3 .f64), .fsqrt (f1 .f64), .frcpa (f1 .f64),
      .frsqa (f1 .f64), .fmin (f2 .f64), .fmax (f2 .f64), .fabs (f1 .f64), .fneg (f1 .f64), .fcpys (f2 .f64), .fclass (f1 .f64),
      .frint (f1 .f64), .fscale (f2 .f64), .fexpn (f1 .f64)].all Instr.wf = true := ready_of _ _ (by decide +kernel)
theorem witness_conversions : ∃ c, demo.Ready c ∧ c.role.GuardOk anyG ∧ c.role.OpndsOk anyG (opnds .f64) ∧
    c.role.Room (freesOf (opnds .f64)) true 2 (c.role.live anyG) ∧
    [Instr.cvt anyG .f64 .i32 .rn 2 (.v 4 true), .qnt anyG .f32 .rn 2 (.v 4 true) (.s 5), .dqnt anyG .f64 7 .rn 2 (.v 4 true) (.s 5),
      .rand anyG .u64 2 (.v 4 true) (.v 6 false), .randImm anyG .u32 2 (.v 4 true) 9].all Instr.wf = true :=
  ready_of _ _ (by decide +kernel)
theorem witness_predicatesAndCompares : ∃ c, demo.Ready c ∧ c.role.GuardOk anyG ∧ c.role.PredsOk anyG [1, 2] ∧
    c.role.OpndsOk anyG (opnds .f64) ∧ [Instr.icmp anyG .lt .i64 1 (.v 4 true) (.v 6 false), .icmpImm anyG .ge .u32 1 (.v 4 true) 9,
      .fcmp anyG .un .f64 1 (.v 4 true) (.v 6 false)].all Instr.wf = true := ready_of _ _ (by decide +kernel)
def s2 (ty : Ty) : S2 := { ty := ty, sat := false, d := 1, a := 2, b := 3 }
def s2i (ty : Ty) : S2I := { ty := ty, sat := false, d := 1, a := 2, imm := 9 }
theorem witness_scalarArithmetic : ∃ c, demo.Ready c ∧ c.role.ScalsOk [2, 3, 4] ∧
    [Instr.sadd (s2 .i64), .ssub (s2 .i64), .smul (s2 .i64), .smad (s2 .i64) 4, .sand (s2 .u64), .sor (s2 .u64), .sxor (s2 .u64),
      .sshl (s2 .u64), .sshr (s2 .i32), .smin (s2 .i32), .smax (s2 .u32), .saddImm (s2i .i64), .ssubImm (s2i .i64),
      .smulImm (s2i .i64), .sandImm (s2i .u64), .sorImm (s2i .u64), .sxorImm (s2i .u64), .sshlImm (s2i .u64), .sshrImm (s2i .i32),
      .sminImm (s2i .i32), .smaxImm (s2i .u32)].all Instr.wf = true := ready_of _ _ (by decide +kernel)
theorem witness_scalarMovesAndTests : (∃ c, (demoRole (withS 2 7 .Z)).Ready c ∧ (c.role.sreg 2).st = .Z) ∧
    ∃ c, demo.Ready c ∧ c.role.ScalsOk [2, 3, 4] ∧ [Instr.scmp .lt (s2 .i64), .scmpImm .ge (s2i .u64)].all Instr.wf = true :=
  ⟨ready_of _ _ (by decide +kernel), ready_of _ _ (by decide +kernel)⟩
theorem witness_lanesExchange : ∃ c, demo.Ready c ∧ c.role.GuardOk anyG ∧
    c.role.OpndsOk anyG [.reg .bpi (.v 4 true)] ∧ (∀ l ∈ c.role.live anyG, l % 128 < 32 → (c.role.vreg 4 l).2 ≠ .Z) ∧
    c.role.Room (freesOf [.reg .u32 (.v 4 true), .reg .u32 (.v 6 false)]) false 2 (c.role.live anyG) ∧
    c.role.Room (freesOf [.reg .bpi (.v 4 true)]) false 2 ((c.role.live anyG).filter (fun l => l % 128 < 32)) ∧
    [Instr.sget .u32 1 4 (.imm 7), .sget .u64 1 4 (.s 2), .shfl anyG .rot 3 .u32 2 { r := 4, last := true } (.v 6 false) 0].all
      Instr.wf = true := ready_of _ _ (by decide +kernel)
def redOf (op : RedOp) (ty : Ty) : Red := { g := anyG, op := op, ty := ty, mode := .rn, a := { r := 4, last := true } }
theorem witness_votesAndReductions : ∃ c, demo.Ready c ∧ c.role.GuardOk anyG ∧ c.role.PredsOk anyG [1] ∧
    c.role.OpndsOk anyG [.reg .i64 (.v 4 true)] ∧ Red.wf (redOf .add .i64) = true ∧ Red.wf (redOf .min .f64) = true ∧
    evenFor .i64 2 = true ∧ c.role.Room (freesOf [.reg .i64 (.v 4 true)]) true 2 (c.role.live anyG) ∧
    c.role.Room [] false 2 (c.role.live anyG) ∧ (redOf .add .i64).op = .add ∧ (redOf .add .i64).ty.isFloat = false :=
  ready_of _ _ (by decide +kernel)
def handler : TrapEntry :=
  { mask := 0xFF, divDepth := 0, retDepth := 0, resume := CodePos.header 64, trClause := 0, next := false, pcw := false }
theorem witness_specialRegisters : (∃ c, demo.Ready c ∧ c.role.entry = none ∧ (c.role.sreg 3).st ≠ .Z ∧
      c.role.Room [] false 2 c.role.all) ∧
    (∃ c, (demoRole (fun r => { r with entry := some handler })).Ready c ∧ c.role.entry = some handler ∧ (c.role.sreg 3).st ≠ .Z) ∧
    ∀ num ∈ ([0x11, 0x18, 0x27] : List (BitVec 8)), num.toNat < 0x12 ∨ 0x18 ≤ num.toNat ∧ num.toNat < 0x28 :=
  ⟨ready_of _ _ (by decide +kernel), ready_of _ _ (by decide +kernel), by decide +kernel⟩

/-! Control. -/

theorem witness_clauseHeader :
    let h : Header := { n := 1, wait := 0x801, sa := some 11, sb := none }
    let waits := fun (s : State) (c : Ctx) (i : Fin 12) => h.wait.getLsbD i = true ∧ h.sa ≠ some (BitVec.ofNat 4 i) ∧
      h.sb ≠ some (BitVec.ofNat 4 i) ∧ s.flagSet s.cur c.role c.team.part (BitVec.ofNat 4 i) = true
    (∃ c, (demoRole (fun r => { r with out := [some 0] })).Ready c ∧
      ∃ i, waits (demoRole (fun r => { r with out := [some 0] })) c i) ∧
    ∃ c, (demoRole (fun r => { r with out := [some 11, some 1] })).Ready c ∧
      ∀ i, ¬ waits (demoRole (fun r => { r with out := [some 11, some 1] })) c i :=
  ⟨ready_of _ _ (by decide +kernel), ready_of _ _ (by decide +kernel)⟩
def ret (n : Nat) : List RetEntry := List.replicate n { off := 64, depth := 0 }
theorem witness_transfers : (∃ c, (demoRole (fun r => { withS 3 0xFFFFFFFC .S r with ret := ret 15 })).Ready c ∧
      (c.role.sreg 3).st = .S ∧ (c.role.sreg 3).val.toNat < 2 ^ 32 ∧ (c.role.sreg 3).val.toNat % 4 = 0 ∧ c.role.ret.length < 16) ∧
    (∃ c, (demoRole (fun r => { r with ret := ret 1 })).Ready c ∧ c.role.ret = { off := 64, depth := 0 } :: [] ∧
      0 = c.role.div.length) ∧
    (∃ c, demo.Ready c ∧ c.role.ret = []) ∧
    (∃ c, (demoRole (fun r => { r with ret := [{ off := 64, depth := 1 }] })).Ready c ∧
      c.role.ret = { off := 64, depth := 1 } :: [] ∧ 1 ≠ c.role.div.length) ∧
    (∃ c, (demoRole (withS 3 0 .S)).Ready c ∧ (c.role.sreg 3).st = .S ∧ (c.role.sreg 3).val = 0) ∧
    (∃ c, (demoRole (withS 3 1 .S)).Ready c ∧ (c.role.sreg 3).st = .S ∧ (c.role.sreg 3).val = 1) ∧
    (∃ c, (demoRole (withS 3 0 .P)).Ready c ∧ ((c.role.sreg 3).st = .P ∨ (c.role.sreg 3).st = .R)) ∧
    ∃ c, (demoRole (withS 3 0xFFFFFFFFFFFFFFFF .S)).Ready c ∧ (c.role.sreg 3).st = .S ∧ (c.role.sreg 3).val ≠ 0 ∧
      (c.role.sreg 3).val ≠ 1 :=
  ⟨ready_of _ _ (by decide +kernel), ready_of _ _ (by decide +kernel), ready_of _ _ (by decide +kernel), ready_of _ _ (by decide +kernel), ready_of _ _ (by decide +kernel),
    ready_of _ _ (by decide +kernel), ready_of _ _ (by decide +kernel), ready_of _ _ (by decide +kernel)⟩
def branch (taken : Mask) (phase : Bool) : DivEntry :=
  { mask := 0xFF, taken := taken, falloff := 32, joinoff := 64, phase := phase, taint := false }
/-- p1 is true in the lanes of a mask. -/
def withP1 (m : Mask) (r : Role) : Role := { r with p := tset r.p 1 { val := m, lo := 0, hi := 0 } }
theorem witness_divergence : (∃ c, (demoRole (fun r => { withP1 0x0F r with div := List.replicate 31 (branch 1 false) })).Ready c ∧
      (∀ l ∈ c.role.all, (c.role.preg 1 l).2 ≠ .Z) ∧ c.role.div.length < 32 ∧
      (∀ l, l < 1024 → c.role.mask.getLsbD l = true → l < c.role.lanes) ∧ (∃ l ∈ c.role.all, (c.role.preg 1 l).1 = true) ∧
      ∃ l ∈ c.role.all, (c.role.preg 1 l).1 = false) ∧
    (∃ c, demo.Ready c ∧ (∀ l ∈ c.role.all, (c.role.preg 1 l).2 ≠ .Z) ∧ c.role.div.length < 32 ∧
      ¬ ∃ l ∈ c.role.all, (c.role.preg 1 l).1 = true) ∧
    (∃ c, (demoRole (withP1 0xFF)).Ready c ∧ (∀ l ∈ c.role.all, (c.role.preg 1 l).2 ≠ .Z) ∧ c.role.div.length < 32 ∧
      ¬ ∃ l ∈ c.role.all, (c.role.preg 1 l).1 = false) ∧
    (∃ c, (demoRole (fun r => { r with div := [branch 1 false] })).Ready c ∧ c.role.div = branch 1 false :: [] ∧
      (branch 1 false).phase = false ∧ (branch 1 false).mask &&& ~~~(branch 1 false).taken ≠ 0) ∧
    (∃ c, (demoRole (fun r => { r with div := [branch 1 true] })).Ready c ∧ c.role.div = branch 1 true :: [] ∧
      (branch 1 true).phase = true) ∧
    ∃ c, (demoRole (fun r => { r with div := [branch 0xFF false] })).Ready c ∧ c.role.div = branch 0xFF false :: [] ∧
      (branch 0xFF false).mask &&& ~~~(branch 0xFF false).taken = 0 :=
  ⟨ready_of _ _ (by decide +kernel), ready_of _ _ (by decide +kernel), ready_of _ _ (by decide +kernel),
    ready_of _ _ (by decide +kernel), ready_of _ _ (by decide +kernel), ready_of _ _ (by decide +kernel)⟩
theorem witness_nopYieldExit :
    (∃ c, demo.Ready c ∧ c.role.GuardOk anyG ∧ c.team.phase ≠ .stopping) ∧
    (∃ c, (demoTeam (fun t => { t with phase := .stopping })).Ready c ∧ c.team.phase = .stopping ∧ c.role.stop = none ∧
      c.team.gangs.all (fun g => g.fills.isEmpty || g.roles.all (fun x => x.toNat != 0)) = true) ∧
    (∃ c, (demoRole (fun r => { r with stop := some .next })).Ready c ∧ c.role.stop ≠ none) ∧
    (∃ c, (demoRole (withP1 0x0F)).Ready c ∧ c.role.GuardOk { p := 1, neg := false } ∧
      c.role.deferred = { dep := none, overlay := none, bar := none, remote := none } ∧
      c.role.mask &&& ~~~(maskOf (c.role.live { p := 1, neg := false })) ≠ 0) ∧
    (let s := demoRole (fun r => { r with entry := some handler, mask := 0x0F, div := [branch 0x0F false] })
     ∃ c, s.Ready c ∧ c.role.GuardOk anyG ∧ c.role.entry.isSome = true ∧ c.role.mask &&& ~~~(maskOf (c.role.live anyG)) = 0 ∧
      ∃ e ∈ c.role.div, e.mask &&& ~~~(maskOf (c.role.live anyG)) ≠ 0) ∧
    (∃ c, (demoRole (fun r => { r with deferred := { dep := some 4, overlay := some 3, bar := some 2, remote := some 1 } })).Ready c ∧
      c.role.entry = none ∧ c.role.deferred.bar = some 2) ∧
    (∃ c, (demoRole (fun r => { r with deferred := { dep := some 4, overlay := some 3, bar := none, remote := some 1 } })).Ready c ∧
      c.role.entry = none ∧ c.role.deferred.bar = none ∧ c.role.deferred.dep = some 4) ∧
    (∃ c, (demoRole (fun r => { r with deferred := { dep := none, overlay := some 3, bar := none, remote := some 1 } })).Ready c ∧
      c.role.entry = none ∧ c.role.deferred.bar = none ∧ c.role.deferred.dep = none ∧ c.role.deferred.overlay = some 3) ∧
    (∃ c, (demoRole (fun r => { r with deferred := { dep := none, overlay := none, bar := none, remote := some 1 } })).Ready c ∧
      c.role.entry = none ∧ c.role.deferred.bar = none ∧ c.role.deferred.dep = none ∧ c.role.deferred.overlay = none ∧
      c.role.deferred.remote = some 1) ∧
    (let s := demoRole (fun r => { r with out := [none] })
     ∃ c, s.Ready c ∧ c.role.mask &&& ~~~(maskOf (c.role.live anyG)) = 0 ∧
      (∀ e ∈ c.role.div, e.mask &&& ~~~(maskOf (c.role.live anyG)) = 0) ∧ s.outstanding = true) ∧
    ∃ c, demo.Ready c ∧ c.role.mask &&& ~~~(maskOf (c.role.live anyG)) = 0 ∧
      (∀ e ∈ c.role.div, e.mask &&& ~~~(maskOf (c.role.live anyG)) = 0) ∧ demo.outstanding = false :=
  ⟨ready_of _ _ (by decide +kernel), ready_of _ _ (by decide +kernel), ready_of _ _ (by decide +kernel), ready_of _ _ (by decide +kernel),
    ready_of _ _ (by decide +kernel), ready_of _ _ (by decide +kernel), ready_of _ _ (by decide +kernel),
    ready_of _ _ (by decide +kernel), ready_of _ _ (by decide +kernel), ready_of _ _ (by decide +kernel), ready_of _ _ (by decide +kernel)⟩

/-! Lane kill, the register budget, traps. -/

/-- The lanes of the issuing role that an instruction kills, with a guard and a condition on its operands. -/
abbrev killed (c : Ctx) (g : Guard) (z : Role → Nat → Bool) : Mask :=
  maskOf ((c.role.still c.role.all).filter (fun l => (c.role.preg g.p l).2 = .Z)) ||| maskOf ((c.role.still (c.role.live g)).filter (z c.role))
/-- p1 is Z in the lanes of a mask. -/
def zP1 (m : Mask) (r : Role) : Role := { r with p := tset r.p 1 { val := 0, lo := m, hi := m } }
theorem witness_lanesDie : (∃ c, demo.Ready c ∧ (1 : Mask) ≠ 0) ∧
    (let s := demoRole (fun r => (r.putV 4 0 5 .Z).putV 4 7 5 .Z)
     ∃ c, s.Ready c ∧ killed c anyG (zOpnds (opnds .i64)) = 0x81 ∧ killed c anyG (zOpnds (addrOpnds { base := none, idx := .i64 4 true })) = 0x81 ∧
      (s.poisonCur 0x81).ctx?.any (fun d => !d.role.over) = true) ∧
    (let s := demoRole (fun r => { (r.putV 4 0 5 .Z).putV 4 7 5 .Z with unfinished := some 0x80 })
     ∃ c, s.Ready c ∧ killed c anyG (zOpnds (opnds .i64)) = 0x80) ∧
    (let s := demoRole (fun r => { r.putV 4 0 5 .Z with mask := 1 })
     ∃ c, s.Ready c ∧ killed c anyG (zOpnds (opnds .i64)) = 1 ∧ (s.poisonCur 1).ctx?.any (fun d => d.role.over) = true) ∧
    (let s := demoRole (zP1 0x42)
     ∃ c, s.Ready c ∧ killed c { p := 1, neg := false } (fun _ _ => false) = 0x42 ∧ killed c anyG (zPreds [1, 2]) = 0x42 ∧
      (s.poisonCur 0x42).ctx?.any (fun d => !d.role.over) = true) ∧
    ∃ c, (demoRole (withS 3 7 .Z)).Ready c ∧ (c.role.sreg (s2 .i64).b).st = .Z ∧ (c.role.sreg 3).st = .Z :=
  ⟨ready_of _ _ (by decide +kernel), ready_of _ _ (by decide +kernel), ready_of _ _ (by decide +kernel), ready_of _ _ (by decide +kernel),
    ready_of _ _ (by decide +kernel), ready_of _ _ (by decide +kernel)⟩
/-- A role whose launch maps no register group. -/
def noRoom : State := demoRole (fun r => { r with budget := 0 })
theorem witness_registerBudget : (∃ c, noRoom.Ready c ∧ c.role.GuardOk anyG ∧ c.role.OpndsOk anyG [.reg .i64 (.v 4 true), .reg .i64 (.v 6 false)] ∧
      ¬ c.role.Room (freesOf [.reg .i64 (.v 4 true), .reg .i64 (.v 6 false)]) true 2 (c.role.live anyG) ∧
      ¬ c.role.Room (freesOf [.reg .u64 (.v 4 true)]) true 2 (c.role.live anyG) ∧ noRoom.earlier = false) ∧
    (noRoom.modCur (fun r => { r with out := [none] })).earlier = true :=
  ⟨ready_of _ _ (by decide +kernel), by decide +kernel⟩
/-- The demo's launch with a trap handler at an offset. -/
def handled (off : Nat) : State :=
  demoPart (fun p => p.modLaunch 0 (fun l => { l with lrec := l.lrec &&& ~~~(0xFFFFFFFF <<< 448 : BitVec 2048) ||| BitVec.ofNat 2048 (off * 2 ^ 448) }))
theorem witness_trapEntry : (∃ c, demo.ctx? = some c ∧ c.team.fin = none ∧ c.team.phase ≠ .finishing ∧ c.launch.trapOff = 0xFFFFFFFF) ∧
    (∃ c, (handled 64).ctx? = some c ∧ c.team.fin = none ∧ c.team.phase ≠ .finishing ∧ c.launch.trapOff = 64 ∧ c.role.entry = none) ∧
    ∃ c, ((handled 64).modCur (fun r => { r with entry := some handler })).ctx? = some c ∧ c.team.fin = none ∧
      c.team.phase ≠ .finishing ∧ c.role.entry.isSome = true :=
  ⟨some_of _ _ (by decide +kernel), some_of _ _ (by decide +kernel), some_of _ _ (by decide +kernel)⟩
theorem witness_trapsRaised : (∃ c, (demoRole (withS 3 0 .P)).Ready c ∧ ((c.role.sreg 3).st = .P ∨ (c.role.sreg 3).st = .R)) ∧
    (∃ c, (demoRole (withS 3 0x100000000 .S)).Ready c ∧ (c.role.sreg 3).st = .S ∧ 2 ^ 32 ≤ (c.role.sreg 3).val.toNat) ∧
    (∃ c, (demoRole (withS 3 2 .S)).Ready c ∧ (c.role.sreg 3).st = .S ∧ (c.role.sreg 3).val.toNat % 4 ≠ 0) ∧
    (∃ c, (demoRole (fun r => { r with ret := ret 16 })).Ready c ∧ 16 ≤ c.role.ret.length) ∧
    (∃ c, demo.Ready c ∧ c.role.div = [] ∧ c.role.GuardOk anyG ∧ c.role.live anyG ≠ []) ∧
    (∃ c, (demoRole (fun r => { r with div := List.replicate 32 (branch 1 false) })).Ready c ∧
      (∀ l ∈ c.role.all, (c.role.preg 1 l).2 ≠ .Z) ∧ 32 ≤ c.role.div.length) ∧
    ∃ c, (demoRole (fun r => { r with mask := 0 })).Ready c ∧ c.role.GuardOk anyG ∧ c.role.live anyG = [] :=
  ⟨ready_of _ _ (by decide +kernel), ready_of _ _ (by decide +kernel), ready_of _ _ (by decide +kernel), ready_of _ _ (by decide +kernel), ready_of _ _ (by decide +kernel), ready_of _ _ (by decide +kernel), ready_of _ _ (by decide +kernel)⟩
def inHandler (e : TrapEntry) (pc : BitVec 32) (r : Role) : Role := { r with entry := some e, trap := { r.trap with pc := pc } }
theorem witness_trapReturns : (∃ c, demo.Ready c ∧ c.role.entry = none) ∧
    (let e := { handler with divDepth := 1 }
     ∃ c, (demoRole (inHandler e 0)).Ready c ∧ c.role.entry = some e ∧ c.role.div.length ≠ e.divDepth) ∧
    (let e := { handler with pcw := true }
     ∃ c, (demoRole (inHandler e 2)).Ready c ∧ c.role.entry = some e ∧ c.role.div.length = e.divDepth ∧
      c.role.ret.length = e.retDepth ∧ e.pcw = true ∧ c.role.trap.pc % 4 ≠ 0) ∧
    (let e := { handler with pcw := true }
     ∃ c, (demoRole (inHandler e 4)).Ready c ∧ c.role.entry = some e ∧ c.role.div.length = e.divDepth ∧
      c.role.ret.length = e.retDepth ∧ c.role.trap.pc % 4 = 0 ∧ e.mask &&& ~~~(c.role.dead ||| c.role.off ||| c.role.exited) ≠ 0) ∧
    ∃ c, (demoRole (inHandler handler 2)).Ready c ∧ c.role.entry = some handler ∧ handler.pcw = false ∧
      c.role.div.length = handler.divDepth ∧ c.role.ret.length = handler.retDepth ∧
      handler.mask &&& ~~~(c.role.dead ||| c.role.off ||| c.role.exited) ≠ 0 :=
  ⟨ready_of _ _ (by decide +kernel), ready_of _ _ (by decide +kernel), ready_of _ _ (by decide +kernel),
    ready_of _ _ (by decide +kernel), ready_of _ _ (by decide +kernel)⟩
theorem witness_translationsInvalidated :
    (∃ c, (demoRole (withS 3 0xFFFFFFFFFF0000 .S)).Ready c ∧ (c.role.sreg 3).st ≠ .Z ∧ (c.role.sreg 3).val.toNat % 65536 = 0 ∧
      (c.role.sreg 3).val.toNat + 65536 * 1 ≤ 2 ^ 56) ∧
    (∃ c, (demoRole (withS 3 0xFFFFFFFFFF0000 .S)).Ready c ∧ (c.role.sreg 3).st ≠ .Z ∧
      2 ^ 56 < (c.role.sreg 3).val.toNat + 65536 * 2) ∧
    ∃ c, (demoRole (withS 3 1 .S)).Ready c ∧ (c.role.sreg 3).st ≠ .Z ∧ (c.role.sreg 3).val.toNat % 65536 ≠ 0 :=
  ⟨ready_of _ _ (by decide +kernel), ready_of _ _ (by decide +kernel), ready_of _ _ (by decide +kernel)⟩

/-! Encoding and the step. -/

theorem witness_decodeEncode : (∃ raw, encodeRaw (.iadd (i2 .i64)) = some raw ∧ (Instr.iadd (i2 .i64)).wf = true) ∧
    Header.wf { n := 7, wait := 0xFFF, sa := some 11, sb := some 0 } = true :=
  ⟨some_of _ _ (by decide +kernel), by decide +kernel⟩
theorem witness_decodedWords :
    (item 0 0x052 127 0 0 0 0 0 0).extractLsb' 0 2 = (0 : BitVec 2) ∧
    ∀ op ∈ [0x00A, 0x00F, 0x016, 0x01F, 0x033, 0x03F, 0x045, 0x04F, 0x06E, 0x07F, 0x092, 0x09F, 0x0A6, 0x0BF, 0x0C7, 0x0D5, 0x0DA,
        0x0FF, 0x10C, 0x11F, 0x126, 0x13F, 0x146, 0x1EF, 0x1F5, 0x1FF],
      (item 1 op 127 0 0 0 0 0 0).extractLsb' 0 2 ≠ (0 : BitVec 2) ∧
        (item 1 op 127 0 0 0 0 0 0).extractLsb' 2 9 = BitVec.ofNat 9 op ∧ decodeItem (item 1 op 127 0 0 0 0 0 0) = .illegal 1 := by
  decide +kernel
/-- What the turn of the only role fetches, when word w stands at its program counter. -/
def fetched (w n : Nat) : Bool :=
  let s := State.reset.program w
  let s1 : State := { s with tick := s.tick + 1, turn := none }
  s.inputs == [] && s.turn == some { team := 0, role := 0 } && s1.mayIssue { team := 0, role := 0 } &&
  !s1.curDisputed && s1.ctx?.any (fun c => c.team.phase == .resident && c.role.park == none && c.role.begun && !c.role.empty && c.role.pos.pc % 32 != 28 &&
    (match (s1.modCur (fun r => { r with item := c.role.pos })).fetchBytes c c.role.pos.pc.toNat n with
      | .inr (_, v) => v == w % 2 ^ (8 * n)
      | .inl _ => false))
theorem witness_stepRunsDecoded : fetched 0x40018 8 = true ∧ decodeHeader 0x40018 = .inl { n := 6, wait := 0, sa := some 0, sb := none } ∧
    fetched 0 8 = true ∧ decodeHeader 0 = .inr 5 ∧
    fetched 0x3FFC9 16 = true ∧ decodeItem 0x3FFC9 = .ok .pchk := by decide +kernel
theorem witness_stepAddsNothing : (∃ tm, demo.team? demo.cur.team = some tm ∧
      tget (demo.bulk (demo.coreOf tm).1).coreFault (demo.coreOf tm).2 = none ∧ tm.pre.isNone = true) ∧
    (∃ r, demo.role? demo.cur = some r ∧ r.dualAt = none) ∧
    ({ demo with inputs := [.selfRefreshEnter 0] } : State).inputs = .selfRefreshEnter 0 :: [] ∧
    isEvent (.selfRefreshEnter 0) = true :=
  ⟨some_of _ _ (by decide +kernel), some_of _ _ (by decide +kernel), rfl, by decide +kernel⟩
def stepsOn (s : State) : Bool := match step s with | .next t => t.storageWf | _ => false
theorem witness_storageStaysCanonical : demo.storageWf = true ∧ stepsOn demo = true := by decide +kernel

/-! Memory. -/

/-- An address through s2 and the pair v4:v5, which are 0 in the demo: the offset is the address. -/
def lastIdx : Addr := { base := some 2, idx := .i64 4 true }
/-- The walks of a role's live lanes reach every place. -/
abbrev lanesReach (s : State) (o : LaneMem) (tag : BitVec 14) (c : Ctx) : Prop :=
  let g := s.resolveAll c { sp := o.sp, need := o.need, size := o.size, align := o.align, bpi := o.bpi, tag := tag }
    ((c.role.live o.g).map (fun l => (l, (c.role.ea o.m o.off l).val.toNat)))
  s.Reach c o (.tag tag) tag g.s g.ok ∧ g.ok.length = (c.role.live o.g).length
theorem witness_loads : (∃ c, demo.Ready c ∧ c.role.GuardOk anyG ∧ c.role.OpndsOk anyG (addrOpnds lastIdx) ∧
      ctxTag .g c = .tag 0 ∧ lanesReach demo (laneOf anyG .g .f64 lastIdx 0xFFF8 Need.load) 0 c ∧
      c.role.Room (freesOf (addrOpnds lastIdx)) true 2 (c.role.live anyG) ∧
      Instr.wf (.ld anyG false .g .f64 2 lastIdx 0xFFF8) = true) ∧
    (∃ c, demo.Ready c ∧ demo.ownRetired = demo ∧ (∀ n ∈ ldxScalar (.c 9), (c.role.sreg n).st = .S) ∧ ldxTag (.c 9) c = .tag 0 ∧
      ldxTag .p c = .tag 0 ∧ ldxTag .b c = .tag 0 ∧ lanesReach demo (laneOf anyG .g .f64 lastIdx (0x10 + -1 * 8) Need.load) 0 c ∧
      Instr.wf (.ldx anyG false .f64 2 lastIdx 0x10 (.c 9) 0x7FFFFF) = true) ∧
    ∃ c, demo.Ready c ∧ ctxTag .t c = .tag 0 ∧ lanesReach demo (cellOf anyG .t .f64 lastIdx (65536 - 320) Need.xrnd) 0 c ∧
      lanesReach demo (cellOf anyG .g .f64 lastIdx 0 Need.xrnd) 0 c ∧ Instr.wf (.xrnd anyG false .g .f64 .rn 2 lastIdx 0) = true :=
  ⟨ready_of _ _ (by decide +kernel), ready_of _ _ (by decide +kernel), ready_of _ _ (by decide +kernel)⟩
theorem witness_budgetOfLoads : ∃ c, noRoom.Ready c ∧ c.role.GuardOk anyG ∧ c.role.OpndsOk anyG (addrOpnds lastIdx) ∧
    c.role.PredsOk anyG [1] ∧ ¬ c.role.Room [] false 2 (c.role.live anyG) ∧ ¬ c.role.Room [] false 2 c.role.all ∧
    ¬ c.role.Room (freesOf (addrOpnds lastIdx)) true 2 (c.role.live anyG) ∧ ctxTag .g c = .tag 0 ∧
    lanesReach noRoom (laneOf anyG .g .f64 lastIdx 0xFFF8 Need.load) 0 c ∧
    lanesReach noRoom (cellOf anyG .g .f64 lastIdx 0 Need.xrnd) 0 c := ready_of _ _ (by decide +kernel)
/-- Every pool has the lines that lanes need. -/
abbrev linesFree (s : State) (o : LaneMem) (c : Ctx) : Prop :=
  let g := s.resolveAll c { sp := o.sp, need := o.need, size := o.size, align := o.align, bpi := o.bpi, tag := 0 }
    ((c.role.live o.g).map (fun l => (l, (c.role.ea o.m o.off l).val.toNat)))
  ∀ k < 8, ((distinctLines (needLines g.s g.ok)).filter (fun e => e.1 == k)).length ≤ c.part.poolFree k
theorem witness_storesAndUpdates : (∃ c, demo.Ready c ∧ c.role.GuardOk anyG ∧
      c.role.OpndsOk anyG (addrOpnds lastIdx ++ [.reg .f64 (.v 6 true)]) ∧ ctxTag .g c = .tag 0 ∧
      lanesReach demo (laneOf anyG .g .f64 lastIdx 0xFFF8 Need.store) 0 c ∧ linesFree demo (laneOf anyG .g .f64 lastIdx 0xFFF8 Need.store) c ∧
      Instr.wf (.st anyG .g .f64 (.v 6 true) lastIdx 0xFFF8) = true) ∧
    (∃ c, demo.Ready c ∧ c.role.GuardOk anyG ∧ c.role.OpndsOk anyG (addrOpnds lastIdx ++ [.reg .i64 (.v 6 true)]) ∧
      lanesReach demo (laneOf anyG .g .i64 lastIdx 0 Need.atom) 0 c ∧ linesFree demo (laneOf anyG .g .i64 lastIdx 0 Need.atom) c ∧
      Instr.wf (.atom anyG .max (.release .sys) .g .i64 (.v 6 true) lastIdx 0) = true) ∧
    ∃ c, demo.Ready c ∧ c.role.GuardOk anyG ∧ c.role.OpndsOk anyG (addrOpnds lastIdx ++ [.reg .f64 (.v 6 true)]) ∧
      lanesReach demo (cellOf anyG .g .f64 lastIdx 320 Need.atom) 0 c ∧ linesFree demo (cellOf anyG .g .f64 lastIdx 320 Need.atom) c ∧
      Instr.wf (.xacc anyG .g .f64 (.v 6 true) lastIdx 320) = true :=
  ⟨ready_of _ _ (by decide +kernel), ready_of _ _ (by decide +kernel), ready_of _ _ (by decide +kernel)⟩
/-- A copy that has not started and holds a range of scratch. -/
def copying (c : CopyOp) (locks : List Lock) : EngOp :=
  { owner := { team := 0, role := 0 }, part := 0, flag := none, locks := locks, batches := [], started := false, moved := false,
    err := none, struck := none, kind := .copy c none }
def copyTB : CopyOp :=
  { src := .t 64, dst := .b 32, ext := [1, 1, 1, 1], ty := .i8, planes := 8, prop := false, mark := false, scale := none, bar := none,
    dep := none, xls := [], written := 0 }
def demoOp (o : EngOp) : State := { demo with ops := [(0, o)], nextOp := 1 }
theorem witness_scratchAccesses :
    (∃ c, demo.Ready c ∧ c.role.GuardOk anyG ∧ c.role.OpndsOk anyG (addrOpnds lastIdx ++ [.reg .f64 (.v 6 true)]) ∧
      c.role.unfinished = none ∧ (∀ l ∈ c.role.live anyG, let ea := (c.role.ea lastIdx 65528 l).val.toNat
        ea % 8 = 0 ∧ ea + 8 ≤ c.launch.scratch ∧ demo.lockHit 0 .t (ea / 32) ((ea + 7) / 32) true = none ∧
          demo.lockHit 0 .t (ea / 32) ((ea + 7) / 32) false = none) ∧
      Instr.wf (.st anyG .t .f64 (.v 6 true) lastIdx 65528) = true ∧ Instr.wf (.ld anyG false .t .f64 2 lastIdx 65528) = true) ∧
    (∃ c, demo.Ready c ∧ (c.role.live anyG).filter (fun l => decide ((c.role.ea lastIdx 4 l).val.toNat % 8 ≠ 0)) ≠ []) ∧
    (let s := demoOp (copying copyTB [lockOf .t .write 64 72])
     ∃ c, s.Ready c ∧ (c.role.live anyG).filter (fun l => decide ((c.role.ea lastIdx 64 l).val.toNat % 8 ≠ 0)) = [] ∧
      (c.role.live anyG).find? (fun l => decide (¬ c.launch.scratch < (c.role.ea lastIdx 64 l).val.toNat + 8) &&
        (s.lockHit 0 .t ((c.role.ea lastIdx 64 l).val.toNat / 32) (((c.role.ea lastIdx 64 l).val.toNat + 7) / 32) false).isSome) =
          some 0) ∧
    ∃ c, demo.Ready c ∧ (∀ l ∈ c.role.live anyG, c.launch.scratch < (c.role.ea lastIdx 65536 l).val.toNat + 8) ∧
      c.role.live anyG ≠ [] :=
  ⟨ready_of _ _ (by decide +kernel), ready_of _ _ (by decide +kernel), ready_of _ _ (by decide +kernel),
    ready_of _ _ (by decide +kernel)⟩
/-- The page after the demo's is not resident: its leaf is not zero and has V 0. -/
def nonResident (s : State) : State := { s with mem := s.mem.wrNat 0x4008 8 0x2000486 }
/-- What a uniform load's one address meets in global memory, with the address in s3 and no offset. -/
def uniformAt (s : State) (c : Ctx) : State × LaneRes :=
  s.resolve c { sp := .g, need := Need.load, size := 8, align := 8, bpi := false, tag := 0 } [] 0 (c.role.sreg 3).val.toNat
theorem witness_uniformLoadsAndFences :
    (∃ c, (demoRole (withS 3 0xFFF8 .S)).Ready c ∧ (c.role.sreg 3).st ≠ .Z ∧
      (ctxTag .g c).resolve (demoRole (withS 3 0xFFF8 .S)) c [0xFFF8] = .inr 0 ∧
      (match (uniformAt (demoRole (withS 3 0xFFF8 .S)) c).2 with | .ok _ => true | _ => false) = true ∧ Instr.wf (.sld false .g .i64 1 3 0) = true) ∧
    (let s := demoRole (fun r => { withS 3 0xFFF8 .S r with ctx := 1 })
     ∃ c, s.Ready c ∧ (match (ctxTag .g c).resolve s c [0xFFF8] with | .inl _ => true | _ => false) = true) ∧
    (∃ c, (demoRole (withS 3 0xFFFC .S)).Ready c ∧ (uniformAt (demoRole (withS 3 0xFFFC .S)) c).2 = .trap .align 0) ∧
    (∃ c, (nonResident (demoRole (withS 3 0x10000 .S))).Ready c ∧
      (uniformAt (nonResident (demoRole (withS 3 0x10000 .S))) c).2 = .wait (.page 0x10000)) ∧
    (∃ c, demo.Ready c ∧ demo.resolve c { sp := .t, need := Need.load, size := 8, align := 8, bpi := false, tag := 0 } [] 0 65536 =
      (demo, .off)) ∧
    (∃ c, demo.Ready c ∧ c.role.entry = none ∧ c.role.deferred = { dep := none, overlay := none, bar := none, remote := none } ∧
      (demo.coreOf c.team).1 < demo.bulks.length) ∧
    (∃ c, (demoRole (fun r => { r with deferred := { dep := some 4, overlay := some 3, bar := some 2, remote := some 1 } })).Ready c ∧
      c.role.entry = none ∧ c.role.deferred.bar = some 2) ∧
    (∃ c, (demoRole (fun r => { r with deferred := { dep := some 4, overlay := some 3, bar := none, remote := some 1 } })).Ready c ∧
      c.role.entry = none ∧ c.role.deferred.bar = none ∧ c.role.deferred.dep = some 4) ∧
    (∃ c, (demoRole (fun r => { r with deferred := { dep := none, overlay := some 3, bar := none, remote := some 1 } })).Ready c ∧
      c.role.entry = none ∧ c.role.deferred.bar = none ∧ c.role.deferred.dep = none ∧ c.role.deferred.overlay = some 3) ∧
    ∃ c, (demoRole (fun r => { r with deferred := { dep := none, overlay := none, bar := none, remote := some 1 } })).Ready c ∧
      c.role.entry = none ∧ c.role.deferred.bar = none ∧ c.role.deferred.dep = none ∧ c.role.deferred.overlay = none ∧
      c.role.deferred.remote = some 1 ∧ (Scope.sys = .part ∨ Scope.sys = .sys) :=
  ⟨ready_of _ _ (by decide +kernel), ready_of _ _ (by decide +kernel), ready_of _ _ (by decide +kernel),
    ready_of _ _ (by decide +kernel), ready_of _ _ (by decide +kernel), ready_of _ _ (by decide +kernel),
    ready_of _ _ (by decide +kernel), ready_of _ _ (by decide +kernel), ready_of _ _ (by decide +kernel), ready_of _ _ (by decide +kernel)⟩
/-- The demo's scratch with a word at offset 64, which s3 names. -/
def withWord (v : Nat) : State :=
  (demoRole (withS 3 64 .S)).modTeam 0 (fun t => { t with scratch := t.scratch.wrNat 64 8 v })
abbrev word64 (s : State) (v : Nat) : Prop :=
  ∃ c, s.Ready c ∧ (c.role.sreg 3).st ≠ .Z ∧ (c.role.sreg 3).val.toNat % 8 = 0 ∧ (c.role.sreg 3).val.toNat + 8 ≤ c.launch.scratch ∧
    c.team.scratch.rdNat 64 8 = v ∧ s.lockHit 0 .t 2 2 true = none
theorem witness_byteBarriers : word64 (withWord 0) 0 ∧ word64 (withWord (2 ^ 63 + 0xFFFFFFFF)) (2 ^ 63 + 0xFFFFFFFF) ∧
    (∃ c, demo.Ready c ∧ (0 : Nat) % 2 ^ 32 + c.role.count (.imm 0) = 0 ∧ 0 < 0 % 2 ^ 32 + c.role.count (.imm 0xFFFFFFFF) ∧
      0 % 2 ^ 32 + c.role.count (.imm 0xFFFFFFFF) < 2 ^ 32 ∧ 2 ^ 32 ≤ (2 ^ 63 + 0xFFFFFFFF) % 2 ^ 32 + c.role.count (.imm 1) ∧
      (∀ r ∈ Cnt.regs (.s 4), (c.role.sreg r).st ≠ .Z)) ∧
    ((demoOp (copying copyTB [lockOf .t .write 64 72])).lockHit 0 .t 2 2 true).isSome = true ∧
    (∃ c, (demoRole (withS 3 65532 .S)).Ready c ∧ (c.role.sreg 3).val.toNat % 8 ≠ 0) ∧
    ∃ c, (demoRole (withS 3 65536 .S)).Ready c ∧ (c.role.sreg 3).val.toNat % 8 = 0 ∧
      c.launch.scratch < (c.role.sreg 3).val.toNat + 8 :=
  ⟨ready_of _ _ (by decide +kernel), ready_of _ _ (by decide +kernel), ready_of _ _ (by decide +kernel), by decide +kernel,
    ready_of _ _ (by decide +kernel), ready_of _ _ (by decide +kernel)⟩
/-- The demo's team with a second role and one barrier's state. -/
def twoRoles (b : Nat) (x : Barrier) (out : BitVec 16) : State :=
  demoTeam (fun t => { t with
    roles := t.roles.map (fun r => { r with barOut := out }) ++ t.roles, bars := lset t.bars b x })
def idleBar : Barrier := { phase := false, latched := none, arrived := 0 }
abbrev barrierIs (s : State) (b : BitVec 4) (x : Barrier) (out : Bool) (c : Ctx) : Prop :=
  c.team.bars[b.toNat]? = some x ∧ c.team.roles.length = 2 ∧ c.role.barOut.getLsbD b.toNat = out ∧ s.cur.role < 4
theorem witness_namedBarriers :
    (∃ c, (twoRoles 15 idleBar 0).Ready c ∧ barrierIs (twoRoles 15 idleBar 0) 15 idleBar false c) ∧
    (∃ c, (twoRoles 0 { idleBar with latched := some 3, arrived := 2 } 0).Ready c ∧
      barrierIs (twoRoles 0 { idleBar with latched := some 3, arrived := 2 } 0) 0 { idleBar with latched := some 3, arrived := 2 } false c) ∧
    (∃ c, (twoRoles 1 { idleBar with latched := some 2 } 0).Ready c ∧
      barrierIs (twoRoles 1 { idleBar with latched := some 2 } 0) 1 { idleBar with latched := some 2 } false c ∧ (2 : BitVec 4) ≠ 3) ∧
    (∃ c, (twoRoles 1 { idleBar with latched := some 3 } 2).Ready c ∧
      barrierIs (twoRoles 1 { idleBar with latched := some 3 } 2) 1 { idleBar with latched := some 3 } true c) ∧
    ((3 : BitVec 4).getLsbD 0 = true ∧ (3 : BitVec 4).toNat < 2 ^ 2 ∧ (2 : BitVec 4).getLsbD 0 = false ∧ 2 ^ 2 ≤ (5 : BitVec 4).toNat) :=
  ⟨ready_of _ _ (by decide +kernel), ready_of _ _ (by decide +kernel), ready_of _ _ (by decide +kernel),
    ready_of _ _ (by decide +kernel), by decide +kernel⟩
/-- A state with a window that the demo's partition may use: its view begins at 0x200000 and shows page 0 of partition 1. -/
def withWindow (rw : Bool) (s : State) : State :=
  s.modBulk 0 (fun x => { x with wins := lset x.wins 15 (some
    { view := 0x200000, target := 0, size := 0x10000, rw := rw, rate := 0, grantor := 1, grantee := 1, live := true }) })
/-- s16 to s23 describe a copy of one byte of scratch to page 0. -/
def copyRegsOf (r : Role) : Role :=
  withS 16 64 .S (withS 17 0x8000 .S (withS 18 0x100000001 .S (withS 19 0x100000001 .P r)))
def copyTG : CopyOps :=
  { fs := true, src := .t, dst := .g, ty := .i8, a := 16, dep := none, tags := none, smoff := 0xFFFF, baroff := 0xFFFFFFFF }
def copySG : CopyOps := { copyTG with src := .surf }
def planTG : CopyPlan :=
  { src := .t 64, dst := .g 0x8000 0, ty := .i8, planes := 8, prop := false, scale := none,
    locks := [lockOf .t .read 64 65, lockOf .g .write 0x8000 0x8001] }
def copyDemo : State := demoRole copyRegsOf
/-- A surface record of four bytes at 0x8000. -/
def surf4 : BitVec 512 :=
  BitVec.ofNat 512 (0x8000 + 1 * 2 ^ 72 + 8 * 2 ^ 88 + (4 + 2 ^ 32 + 2 ^ 64 + 2 ^ 96) * 2 ^ 128)
/-- A schedule entry of role 0 at stage 1 that copies the first byte of surface 0 to scratch offset 96; it is released by its
stage, or by buffer 0's operands. -/
def entry1 (consumed : Bool) : BitVec 512 :=
  BitVec.ofNat 512 (1 + (if consumed then 2 ^ 31 else 0) + 96 * 2 ^ 96 + (1 + 2 ^ 32 + 2 ^ 64 + 2 ^ 96) * 2 ^ 256 +
    0xFFFFFFFFFFFF * 2 ^ 384)
/-- The demo with one surface and a schedule, its copy registers changed by f. -/
def surfDemo (sched : List (BitVec 512)) (f : Role → Role) : State :=
  (demoPart (fun p => p.modLaunch 0 (fun l => { l with surfs := [surf4], sched := sched }))).modCur (fun r => f (copyRegsOf r))
/-- The registers of a copy hold no Z, and its request passes its first checks. -/
abbrev copyNamed (c : Ctx) (o : CopyOps) : Prop :=
  (∀ n ∈ copyRegs o, (c.role.sreg n).st ≠ .Z) ∧ (copyReq c o).prot c.launch = none
/-- The walk of a copy. -/
abbrev copyWalk (s : State) (c : Ctx) (p : CopyPlan) (q : CopyReq) : Walked := (s.walkCopy c p q.ext q.dep).1
theorem witness_copiesRefused :
    (∃ c, (demoRole (withS 20 0 .Z)).Ready c ∧ (demoRole (withS 20 0 .Z)).ownRetired = demoRole (withS 20 0 .Z) ∧
      ∃ n ∈ copyRegs copyTG, (c.role.sreg n).st = .Z) ∧
    (∃ c, copyDemo.Ready c ∧ (copyReq c copySG).src.idx = some 64 ∧ c.launch.surfs[64]? = none) ∧
    (∃ c, (demoRole (fun r => withS 18 0x100000000 .S (copyRegsOf r))).Ready c ∧ 0 ∈ (copyReq c copyTG).ext ∧
      (copyReq c copyTG).src.idx = none ∧ (copyReq c copyTG).dst.idx = none) ∧
    (∃ c, (demoRole (fun r => withS 20 1 .S (copyRegsOf r))).Ready c ∧ 0 ∉ (copyReq c copyTG).ext ∧
      (copyReq c copyTG).src.idx = none ∧ ∃ x ∈ (copyReq c copyTG).sorg, x ≠ 0) ∧
    (∃ c, (surfDemo [] (fun r => withS 16 0 .S (withS 18 0x100000005 .S r))).Ready c ∧ copyNamed c copySG ∧
      (copyReq c copySG).leaves c.launch (copyReq c copySG).src (copyReq c copySG).sorg = true) ∧
    (∃ c, (surfDemo [] (fun r => withS 17 0 .S (withS 22 4 .S r))).Ready c ∧ copyNamed c { copyTG with dst := .surf } ∧
      (copyReq c { copyTG with dst := .surf }).leaves c.launch (copyReq c { copyTG with dst := .surf }).dst
        (copyReq c { copyTG with dst := .surf }).dorg = true) ∧
    (∃ c, copyDemo.Ready c ∧ copyNamed c { copyTG with baroff := 4 } ∧ (copyReq c { copyTG with baroff := 4 }).bar = some 4) ∧
    (∃ c, (demoRole (fun r => withS 16 65536 .S (copyRegsOf r))).Ready c ∧ copyNamed c copyTG ∧
      ((copyReq c copyTG).plan c.launch).src.outside c (copyReq c copyTG).ext 1 = true) ∧
    (∃ c, (demoRole (fun r => withS 24 (2 ^ 14) .P (copyRegsOf r))).Ready c ∧
      (copyReq c { copyTG with tags := some 24 }).check c = .inr planTG ∧
      (demo.copyTagFault c { copyTG with tags := some 24 } (copyReq c { copyTG with tags := some 24 }) planTG).isSome = true) ∧
    (∃ c, (demoRole (fun r => withS 17 0x8000000000000000 .S (copyRegsOf r))).Ready c ∧ copyNamed c copyTG ∧
      (copyWalk demo c { planTG with dst := .g 0x8000000000000000 0 } (copyReq c copyTG)).prot = true) ∧
    (let s := withWindow false (demoRole (fun r => withS 17 0x200000 .S (copyRegsOf r)))
     ∃ c, s.Ready c ∧ copyNamed c copyTG ∧ (copyWalk s c ((copyReq c copyTG).plan c.launch) (copyReq c copyTG)).prot = false ∧
      (copyWalk s c ((copyReq c copyTG).plan c.launch) (copyReq c copyTG)).window = true) :=
  ⟨ready_of _ _ (by decide +kernel), ready_of _ _ (by decide +kernel), ready_of _ _ (by decide +kernel), ready_of _ _ (by decide +kernel),
    ready_of _ _ (by decide +kernel), ready_of _ _ (by decide +kernel), ready_of _ _ (by decide +kernel), ready_of _ _ (by decide +kernel),
    ready_of _ _ (by decide +kernel), ready_of _ _ (by decide +kernel), ready_of _ _ (by decide +kernel)⟩
/-- The one schedule entry passes its checks and its walks. -/
abbrev entryPasses (s : State) (c : Ctx) (e : BitVec 512) : Prop :=
  c.role.stage = 0 ∧ c.team.due = [] ∧ c.team.released = [] ∧ c.launch.sched = [e] ∧ seRole e = s.cur.role ∧ seStage e = 1 ∧
  (schedReq e).check c = .inr ((schedReq e).plan c.launch) ∧ ((schedReq e).plan c.launch).namesOb = false ∧
  let w := copyWalk s c ((schedReq e).plan c.launch) (schedReq e)
  w.prot = false ∧ w.window = false ∧ w.wait = none ∧ w.s.lockRoom 0 ((schedReq e).plan c.launch).locks = true ∧ s.op? s.nextOp = none
theorem witness_copiesIssue :
    (∃ c, copyDemo.Ready c ∧ copyDemo.ownRetired = copyDemo ∧ (∀ n ∈ copyRegs copyTG, (c.role.sreg n).st ≠ .Z) ∧
      (copyReq c copyTG).check c = .inr planTG ∧ copyDemo.copyTagFault c copyTG (copyReq c copyTG) planTG = none ∧
      let w := copyWalk copyDemo c planTG (copyReq c copyTG)
      w.prot = false ∧ w.window = false ∧ w.wait = none ∧ planTG.namesOb = false ∧ w.s.lockRoom 0 planTG.locks = true ∧
        copyDemo.op? copyDemo.nextOp = none) ∧
    (let s := copyDemo.modBulk 0 (fun x => { x with sref := true })
     ∃ c, s.Ready c ∧ (copyReq c copyTG).check c = .inr planTG ∧ (copyWalk s c planTG (copyReq c copyTG)).wait.isSome = true) ∧
    (∃ c, (demoRole (fun r => { r with stage := 0xFFFF })).Ready c ∧ c.role.stage = 0xFFFF) ∧
    (∃ c, (demoRole (fun r => { r with stage := 0xFFFE })).Ready c ∧ c.role.stage ≠ 0xFFFF ∧ c.team.due = [] ∧
      c.launch.sched.all (fun e => decide (¬ (seRole e = 0 ∧ seStage e = c.role.stage.toNat + 1))) = true) ∧
    (∃ c, (surfDemo [entry1 false] id).Ready c ∧ entryPasses (surfDemo [entry1 false] id) c (entry1 false) ∧ seConsumed (entry1 false) = false) ∧
    ∃ c, (surfDemo [entry1 true] id).Ready c ∧ entryPasses (surfDemo [entry1 true] id) c (entry1 true) ∧ seConsumed (entry1 true) = true :=
  ⟨ready_of _ _ (by decide +kernel), ready_of _ _ (by decide +kernel), ready_of _ _ (by decide +kernel), ready_of _ _ (by decide +kernel),
    ready_of _ _ (by decide +kernel), ready_of _ _ (by decide +kernel)⟩
def nmcReqOf (c : Ctx) (code : BitVec 4) (n : Nat) : NmcReq :=
  let v := fun (k : Nat) => (c.role.sreg (32 + BitVec.ofNat 7 k)).val
  { code := code, f64 := false, n := n, y := v 0, x := v 1, w := v 2, p0 := v 3, p1 := v 4, recAddr := v 5 }
/-- The walks that a near-memory command makes. -/
def nmcWalked (s : State) (c : Ctx) (q : NmcReq) : Walked :=
  let walk := fun (w : Walked) (need : Need) (a : DWord) (n : Nat) => (pagesOf n [a.toNat]).foldl (fun w g => w.page c need g) w
  (q.vecs.drop 1).foldl (fun w a => walk w Need.read a q.bytes) (walk (walk (Walked.start s) Need.write q.y q.bytes) Need.write q.recAddr 32)
/-- The fields of a command of n elements pass. -/
abbrev nmcNamed (c : Ctx) (code : BitVec 4) (n : Nat) : Prop :=
  (nmcReqOf c code n).unusedSet = false ∧ (nmcReqOf c code n).vecs.all (fun a => decide (a.toNat % 4 = 0)) = true ∧
  (nmcReqOf c code n).recAddr.toNat % 32 = 0
/-- An operation of the demo's role. -/
def opOf (k : EKind) : EngOp :=
  { owner := { team := 0, role := 0 }, part := 0, flag := none, locks := [], batches := [], started := false, moved := false,
    err := none, struck := none, kind := k }
/-- What the demo's translation gives for an address of page 0. -/
def hit0 (va : Nat) : Hit :=
  { named := va, pp := 0, va := va, x := { va := 0, size := 65536, entry := 0x2000487, gate := 0, gen := 0 }, via := none }
def nmcFilling (n : Nat) : NmcOp :=
  { serial := 7, sstand := .S, f64 := false, code := 5, n := n, recAddr := 0x8000, p1 := 0, p0 := 0x3F800000, w := 0, x := 0,
    y := 0x9000, bulk := 0, xls := [hit0 0], nerr := 0, firstErr := 0xFFFFFFFF, lost := false }
def nmcRegs (y x mr : DWord) (r : Role) : Role := withS 32 y .S (withS 33 x .S (withS 37 mr .S r))
theorem witness_nearMemoryCommands :
    (let s := demoRole (nmcRegs 0x200 0 0x8000)
     ∃ c, s.Ready c ∧ (∀ k < 6, (c.role.sreg (32 + BitVec.ofNat 7 k)).st ≠ .Z) ∧ s.op? s.nextOp = none ∧
      ∀ code < 6, let q := nmcReqOf c (BitVec.ofNat 4 code) 16
        let w := nmcWalked s c q
        nmcNamed c (BitVec.ofNat 4 code) 16 ∧ w.prot = false ∧ w.window = false ∧
          w.wait = none ∧ q.cause c.part w.xls = none ∧ (w.s.nmcAt 0).length < 64 ∧ w.s.lockRoom 0 q.locks = true) ∧
    (∃ c, (demoRole (nmcRegs 0 4 0)).Ready c ∧ (nmcReqOf c 5 16).unusedSet = true) ∧
    (∃ c, (demoRole (nmcRegs 2 0 0)).Ready c ∧ (nmcReqOf c 5 16).unusedSet = false ∧
      (nmcReqOf c 5 16).vecs.any (fun a => decide (a.toNat % 4 ≠ 0)) = true) ∧
    (∃ c, (demoRole (nmcRegs 0 0 16)).Ready c ∧ (nmcReqOf c 5 16).unusedSet = false ∧ (nmcReqOf c 5 16).recAddr.toNat % 32 ≠ 0) ∧
    (let s := demoRole (nmcRegs 0xFFFC 0 0)
     ∃ c, s.Ready c ∧ nmcNamed c 5 2 ∧ (nmcWalked s c (nmcReqOf c 5 2)).prot = true) ∧
    (let s := withWindow false (demoRole (nmcRegs 0x200000 0 0))
     ∃ c, s.Ready c ∧ nmcNamed c 5 2 ∧ (nmcWalked s c (nmcReqOf c 5 2)).prot = false ∧ (nmcWalked s c (nmcReqOf c 5 2)).window = true) ∧
    (let s := demoRole (nmcRegs 0 4 0)
     ∃ c, s.Ready c ∧ nmcNamed c 0 2 ∧ (nmcWalked s c (nmcReqOf c 0 2)).prot = false ∧ (nmcWalked s c (nmcReqOf c 0 2)).window = false ∧
      (nmcWalked s c (nmcReqOf c 0 2)).wait = none ∧ (nmcReqOf c 0 2).cause c.part (nmcWalked s c (nmcReqOf c 0 2)).xls = some 4) ∧
    (∃ c, (demoOp (opOf (.nmc (nmcFilling 1)))).Ready c ∧ ∃ e ∈ (demoOp (opOf (.nmc (nmcFilling 1)))).ops,
      e.2.owner = { team := 0, role := 0 } ∧ e.2.kind = .nmc (nmcFilling 1)) ∧
    (∃ c, demo.Ready c ∧ demo.ops = [] ∧ c.role.nmcErr = none) ∧
    ∃ c, (demoRole (fun r => { r with nmcErr := some 0 })).Ready c ∧ c.role.nmcErr = some 0 :=
  ⟨ready_of _ _ (by decide +kernel), ready_of _ _ (by decide +kernel), ready_of _ _ (by decide +kernel),
    ready_of _ _ (by decide +kernel), ready_of _ _ (by decide +kernel), ready_of _ _ (by decide +kernel),
    ready_of _ _ (by decide +kernel), ready_of _ _ (by decide +kernel), ready_of _ _ (by decide +kernel), ready_of _ _ (by decide +kernel)⟩
/-- The counter at 0x40 in page 0, as the demo's translation gives it. -/
def ctr40 : CtrRef :=
  { named := 0x40, pp := 0, va := 0x40, x := { va := 0, size := 65536, entry := 0x2000487, gate := 0, gen := 0 } }
/-- A state whose counter at 0x40 holds a value in a state. -/
def counting (v : Nat) (st : Standing) (s : State) : State := { s with mem := (s.mem.wrNat 0x10040 4 v).setSt (0x10040 / 32) st }
/-- The counter that an address names is reached in demo. -/
abbrev counter40 (s : State) (c : Ctx) (va : DWord) : Prop :=
  va.toNat % 4 = 0 ∧ (s.counterRef c.team.part c.team.bulk c.role.accessErr va).2 = .ok ctr40 ∧
  (s.counterRef c.team.part c.team.bulk c.role.accessErr va).1.ctrErr c.role.accessErr ctr40 = false
/-- CPOST's registers s0 to s5 pass with the counter at 0x40, which reads as given. -/
abbrev posts (v : Nat) (st : Standing) : Prop :=
  let s := counting v st (demoRole (withS 4 0x40 .S))
  ∃ c, s.Ready c ∧ c.role.taint = false ∧ (∀ k < 6, (c.role.sreg (0 + BitVec.ofNat 7 k)).st = .S) ∧
    (c.role.sreg (0 + 5)).val.toNat < 2 ^ 32 ∧ (c.role.sreg (0 + 4)).val ≠ 0 ∧ counter40 s c (c.role.sreg (0 + 4)).val ∧
    (((s.counterRef 0 0 none 0x40).1.taskTarget c (c.role.sreg 0).val).1.part? 0).any (fun q => q.queued 0 < 65536) = true ∧
    (((s.counterRef 0 0 none 0x40).1.taskTarget c (c.role.sreg 0).val).1.readCtr ctr40).2 = (v, st)
theorem witness_dependences :
    (let s := demoRole (withS 3 0x40 .S)
     ∃ c, s.Ready c ∧ c.role.taint = false ∧ (∀ x ∈ 3 :: Cnt.regs (.s 4), (c.role.sreg x).st = .S) ∧
      counter40 s c ((c.role.sreg 3).val + (0 : BitVec 28).signExtend 64)) ∧
    (∃ c, demo.ctx? = some c ∧ (match (demo.xlate 0 [] (Need.read.at_ 0) none (0xFFFF : DWord).toNat).2 with
      | .ok h => h.via == none | _ => false) = true) ∧
    (posts 0 .S ∧ posts 7 .S ∧ posts 7 .P ∧ posts 7 .R ∧ posts 7 .Z) ∧
    (let s := demoRole (withS 5 0xFFFFFFFF .S)
     ∃ c, s.Ready c ∧ c.role.taint = false ∧ (∀ k < 6, (c.role.sreg (0 + BitVec.ofNat 7 k)).st = .S) ∧
      (c.role.sreg 5).val.toNat < 2 ^ 32 ∧ (c.role.sreg 0).val = 0 ∧ (c.role.sreg 4).val = 0 ∧ c.part.queued c.team.bulk < 65536) ∧
    ∃ c, (demoRole (fun r => { r with div := [{ branch 1 false with taint := true }] })).Ready c ∧ c.role.taint = true ∧
      (∀ x ∈ 3 :: Cnt.regs (.s 4), (c.role.sreg x).st ≠ .Z) ∧ ∀ k < 6, (c.role.sreg (3 + BitVec.ofNat 7 k)).st ≠ .Z :=
  ⟨ready_of _ _ (by decide +kernel), some_of _ _ (by decide +kernel), ⟨ready_of _ _ (by decide +kernel), ready_of _ _ (by decide +kernel),
    ready_of _ _ (by decide +kernel), ready_of _ _ (by decide +kernel), ready_of _ _ (by decide +kernel)⟩, ready_of _ _ (by decide +kernel),
    ready_of _ _ (by decide +kernel)⟩

/-! Contexts and sharing groups. -/

/-- The demo's launch with tags base to base + size − 1, sub for each team; its context table and the role's context. -/
def ctxDemo (base size sub : Nat) (ctxs : Tab CtxEnt) (here : BitVec 14) : State :=
  (demoPart (fun p => { p.modLaunch 0 (fun l =>
    { l with lrec := l.lrec ||| BitVec.ofNat 2048 (base * 2 ^ 704 + size * 2 ^ 720 + sub * 2 ^ 736) }) with ctxs := ctxs })).modCur
    (fun r => { r with ctx := here })
def entOf (st : CtxState) (parent : BitVec 14) (depth : Nat) : CtxEnt :=
  { state := st, parent := parent, depth := depth, owner := 0, adopter := none, born := 0 }
/-- The tag of a role names the context that the role entered. -/
abbrev ctxOk (c : Ctx) : Prop :=
  c.role.ctx = 0 ∨ (tget c.part.ctxs c.role.ctx.toNat).any (fun e => e.state != .pending && e.born == c.role.ctxBorn) = true
/-- A state whose role holds a value in s3. -/
abbrev tagIn (v : DWord) (st : Standing) (s : State) : State := s.modCur (withS 3 v st)
theorem witness_contexts :
    (∃ c, (ctxDemo 16382 2 2 [(16382, entOf .held 0 1)] 0).Ready c ∧ ctxOk c ∧ c.role.ctx = 0 ∧ c.launch.ctxSub ≠ 0 ∧ c.part.depthOf 0 < 15 ∧
      c.tags.find? (fun t => (tget c.part.ctxs t).isNone) = some 16383 ∧
      (ctxDemo 16382 2 2 [(16382, entOf .held 0 1)] 0).ownRetired = ctxDemo 16382 2 2 [(16382, entOf .held 0 1)] 0) ∧
    (let s := (ctxDemo 1 1 1 [(1, entOf .live 0 1)] 0).modPart 0 (fun p =>
      { p with retires := [{ role := { team := 0, role := 1 }, flag := none, tags := [1] }] })
     ∃ c, s.Ready c ∧ s.ownRetired = s ∧ ctxOk c ∧ (∀ t ∈ c.tags, ¬ tget c.part.ctxs t = none) ∧
      ∃ x ∈ c.part.retires, x.role.team = 0 ∧ ∃ t ∈ c.part.retiring x, t.toNat ∈ c.tags) ∧
    (∃ c, (ctxDemo 1 1 1 [(1, entOf .live 0 14)] 1).Ready c ∧ c.role.ctx ≠ 0 ∧ ctxOk c ∧
      c.part.depthOf 1 < 15 ∧ (∀ t ∈ c.tags, ¬ tget c.part.ctxs t = none) ∧ c.part.retires = []) ∧
    (∃ c, demo.Ready c ∧ c.role.ctx = 0 ∧ c.launch.ctxSub = 0) ∧
    (∃ c, (ctxDemo 1 2 2 [(1, entOf .live 0 15)] 1).Ready c ∧ ctxOk c ∧ c.launch.ctxSub ≠ 0 ∧ 15 ≤ c.part.depthOf c.role.ctx) ∧
    (∃ c, (ctxDemo 1 2 2 [] 1).Ready c ∧ c.role.ctx ≠ 0 ∧ tget c.part.ctxs c.role.ctx.toNat = none) ∧
    (∃ c, (ctxDemo 1 2 2 [(1, { entOf .live 0 1 with born := 9 })] 1).Ready c ∧ c.role.ctx ≠ 0 ∧
      (tget c.part.ctxs 1).any (fun e => e.born != c.role.ctxBorn) = true) ∧
    (∃ c, (ctxDemo 1 2 2 [(1, entOf .pending 0 1)] 1).Ready c ∧ c.role.ctx ≠ 0 ∧
      (tget c.part.ctxs 1).any (fun e => e.state == .pending && e.born == c.role.ctxBorn) = true) ∧
    (∃ c, (tagIn 1 .R demo).Ready c ∧ ((c.role.sreg 3).st = .P ∨ (c.role.sreg 3).st = .R)) ∧
    (∃ c, (tagIn 0x4001 .S demo).Ready c ∧ (c.role.sreg 3).st = .S ∧ 2 ^ 14 ≤ (c.role.sreg 3).val.toNat) ∧
    (∃ c, (tagIn 1 .S (ctxDemo 1 2 2 [(2, entOf .pending 0 1)] 0)).Ready c ∧ (c.role.sreg 3).st = .S ∧
      (c.role.sreg 3).val = (1 : BitVec 14).setWidth 64 ∧ tget c.part.ctxs 1 = none) ∧
    (∃ c, (tagIn 2 .S (ctxDemo 1 2 2 [(2, entOf .pending 0 1)] 0)).Ready c ∧ (c.role.sreg 3).st = .S ∧
      (c.role.sreg 3).val = (2 : BitVec 14).setWidth 64 ∧ tget c.part.ctxs 2 = some (entOf .pending 0 1)) ∧
    (∃ c, (tagIn 2 .S (ctxDemo 1 2 2 [(2, entOf .held 0 1)] 0)).Ready c ∧ (c.role.sreg 3).st = .S ∧
      (c.role.sreg 3).val = (2 : BitVec 14).setWidth 64 ∧ tget c.part.ctxs 2 = some (entOf .held 0 1)) ∧
    (∃ c, (ctxDemo 1 2 2 [(1, entOf .live 0 1)] 1).Ready c ∧ c.role.ctx ≠ 0 ∧ ctxOk c ∧
      (ctxDemo 1 2 2 [(1, entOf .live 0 1)] 1).tagBusy 1 = false ∧ c.part.children c.role.ctx = []) ∧
    (let s := { ctxDemo 1 2 2 [(1, entOf .live 0 1)] 1 with ops := [(0, copying { copyTB with src := .g 0x8000 1 } [])] }
     ∃ c, s.Ready c ∧ c.role.ctx ≠ 0 ∧ ctxOk c ∧ s.tagBusy 1 = true ∧ c.part.children c.role.ctx = []) ∧
    (∃ c, (ctxDemo 1 2 2 [(1, entOf .live 0 1), (2, entOf .pending 1 2)] 1).Ready c ∧ c.role.ctx ≠ 0 ∧ ctxOk c ∧
      (ctxDemo 1 2 2 [(1, entOf .live 0 1), (2, entOf .pending 1 2)] 1).tagBusy 1 = false ∧ c.part.children c.role.ctx ≠ []) ∧
    ∃ c, (tagIn 0x3FFF .P (ctxDemo 16383 1 1 [(16383, entOf .live 0 15)] 0)).Ready c ∧ (c.role.sreg 3).st ≠ .Z ∧
      (c.role.sreg 3).val = (0x3FFF : BitVec 14).setWidth 64 ∧ tget c.part.ctxs 0x3FFF = some (entOf .live 0 15) ∧
      (c.part.children 0x3FFF).length < 2 ^ 14 :=
  ⟨ready_of _ _ (by decide +kernel), ready_of _ _ (by decide +kernel), ready_of _ _ (by decide +kernel),
    ready_of _ _ (by decide +kernel), ready_of _ _ (by decide +kernel), ready_of _ _ (by decide +kernel),
    ready_of _ _ (by decide +kernel), ready_of _ _ (by decide +kernel), ready_of _ _ (by decide +kernel),
    ready_of _ _ (by decide +kernel), ready_of _ _ (by decide +kernel), ready_of _ _ (by decide +kernel),
    ready_of _ _ (by decide +kernel), ready_of _ _ (by decide +kernel), ready_of _ _ (by decide +kernel),
    ready_of _ _ (by decide +kernel), ready_of _ _ (by decide +kernel)⟩
def cellOfTag (tag : BitVec 14) (line : Nat) : CtxCell :=
  { tag := tag, line := line, data := 5, st := [.S, .P, .S, .S], pool := 0, slot := 0, keys := (1, 1) }
/-- PENDING children of the role's context, each with a cell of line 7, which page 0 holds. -/
def merging (here : BitVec 14) (kids : List (BitVec 14)) (ctxs : Tab CtxEnt) : State :=
  (ctxDemo 1 4 4 (ctxs ++ kids.map (fun t => (t.toNat, entOf .pending here 2))) here).modPart 0
    (fun p => { p with cells := kids.map (fun t => cellOfTag t 7) })
theorem witness_contextMerge :
    (∃ c, (merging 0 [2, 3] []).Ready c ∧ (merging 0 [2, 3] []).ownRetired = merging 0 [2, 3] [] ∧ c.ctxFault = none ∧
      (merging 0 [2, 3] []).flawless = true ∧ (c.part.pendingKids 0).map Prod.fst = [2, 3] ∧
      let w := (merging 0 [2, 3] []).walkLines c [7, 7]
      w.prot = false ∧ w.window = false ∧ w.wait = none) ∧
    (let s := merging 0 [2] []
     ∃ c, s.Ready c ∧ s.ownRetired = s ∧ c.ctxFault = none ∧ s.flawless = true ∧ (c.part.pendingKids 0).map Prod.fst = [2] ∧
      c.part.cellsOf 2 = [cellOfTag 2 7] ∧ c.part.writtenSince 0 7 0 = false ∧ (cellOfTag 2 7).st.length = 4 ∧
      let w := s.walkLines c [7]
      w.prot = false ∧ w.window = false ∧ w.wait = none ∧ hitAt w.xls (128 * 7) = some (hit0 0x380) ∧
      (w.s.part? 0).any (fun q => decide (w.s.lineSeen q (cellOfTag 2 7) (w.s.keyName (pteKey (hit0 0x380).x.entry)) = (cellOfTag 2 7).data) &&
        (List.range 4).all (fun i => decide (w.s.loc q (hit0 0x380).x (0x380 + 32 * i) =
          { ext := false, reps := [(0x10380 + 32 * i, none)], key := w.s.keyName (pteKey (hit0 0x380).x.entry) }))) = true ∧
      pteCmp (hit0 0x380).x.entry = false) ∧
    ∃ c, (merging 1 [2, 3] [(1, entOf .live 0 1)]).Ready c ∧ c.ctxFault = none ∧ (c.part.pendingKids 1).map Prod.fst = [2, 3] ∧
      (∀ e ∈ c.part.pendingKids 1, e.1 ≠ 1) ∧ (1 : BitVec 14) ≠ 0 :=
  ⟨ready_of _ _ (by decide +kernel), ready_of _ _ (by decide +kernel), ready_of _ _ (by decide +kernel)⟩
/-- The demo with a second team. -/
def withTeam (f : Team → Team) : State :=
  match demo.team? 0 with
  | some t => { demo with teams := demo.teams ++ [(1, f t)], nextTeam := 2 }
  | none => demo
def othersIn (s : State) (c : Ctx) (gid : BitVec 4) : List (Nat × Team) :=
  (s.teams.filter (fun e => decide (e.1 ≠ 0))).filter (fun e =>
    e.2.part == c.team.part && e.2.serial == c.team.serial && e.2.sg.map Prod.fst == some gid)
/-- Eight more teams, one on each of cores 1 to 8, all members of group 15. -/
def eightOthers (cohort : Option Nat) : State :=
  match demo.team? 0 with
  | some t => { demo with
      teams := (0, { t with cohort := cohort }) :: (List.range 8).map (fun k => (k + 1, { t with core := k + 1, sg := some (15, BitVec.ofNat 4 k) })) }
  | none => demo
theorem witness_sharingGroups :
    (∃ c, (demoRole (withS 3 255 .S)).Ready c ∧ (c.role.sreg 3).st = .S ∧ (c.role.sreg 3).val.toNat < 256) ∧
    (∃ c, (demoRole (withS 3 256 .S)).Ready c ∧ (c.role.sreg 3).st = .S ∧ 256 ≤ (c.role.sreg 3).val.toNat) ∧
    (let s := withTeam (fun t => { t with sg := some (15, 15) })
     ∃ c, s.Ready c ∧ rising s.teams = true ∧ ∃ e ∈ othersIn s c 15, e.2.sg = some (15, 15)) ∧
    (let s := withTeam (fun t => { t with sg := some (15, 15) })
     ∃ c, s.Ready c ∧ rising s.teams = true ∧ (∀ e ∈ othersIn s c 15, e.2.sg ≠ some (15, 0)) ∧ othersIn s c 15 ≠ [] ∧
      (∀ e ∈ (othersIn s c 15).head?, e.2.bulk = c.team.bulk) ∧ c.team.core ∈ sgCores (othersIn s c 15) ∧ c.team.phase ≠ .stopping ∧
      ∀ e ∈ othersIn s c 15, ¬ (e.2.phase = .stopping ∨ e.2.phase = .saved)) ∧
    (let s := withTeam (fun t => { t with sg := some (15, 15), phase := .saved })
     ∃ c, s.Ready c ∧ rising s.teams = true ∧ (∀ e ∈ othersIn s c 15, e.2.sg ≠ some (15, 0)) ∧
      (∀ e ∈ (othersIn s c 15).head?, e.2.bulk = c.team.bulk) ∧ (sgCores (othersIn s c 15)).length < 8 ∧ c.team.phase ≠ .stopping ∧
      ∃ e ∈ othersIn s c 15, e.2.phase = .saved) ∧
    (∃ c, (eightOthers (some 0)).Ready c ∧ rising (eightOthers (some 0)).teams = true ∧
      (∀ e ∈ othersIn (eightOthers (some 0)) c 15, e.2.sg ≠ some (15, 15)) ∧
      (∀ e ∈ (othersIn (eightOthers (some 0)) c 15).head?, e.2.bulk = c.team.bulk) ∧
      c.team.core ∉ sgCores (othersIn (eightOthers (some 0)) c 15) ∧ 8 ≤ (sgCores (othersIn (eightOthers (some 0)) c 15)).length ∧
      c.team.cohort.isSome = true) ∧
    ∃ c, demo.Ready c ∧ rising demo.teams = true ∧ othersIn demo c 0 = [] ∧
      (demo.modTeam 0 (fun t => { t with sg := none })).sgGroups 0 0 < 16 ∧ (sgCores (othersIn demo c 0)).length < 8 :=
  ⟨ready_of _ _ (by decide +kernel), ready_of _ _ (by decide +kernel), ready_of _ _ (by decide +kernel),
    ready_of _ _ (by decide +kernel), ready_of _ _ (by decide +kernel), ready_of _ _ (by decide +kernel), ready_of _ _ (by decide +kernel)⟩
/-! The matrix engine. -/

def mmaReqOf (c : Ctx) (o : MmaOps) : MReq :=
  { kind := .mma, fmt := o.fmt, ct := o.ct, w := o.w, groups := o.kg.toNat + 1, acc := o.acc, sa := o.a, sb := o.b
    a := srcOpnd c.role o.a, b := srcOpnd c.role o.b }
/-- The demo's role with the 32 lanes that a register operand of FP64 needs. -/
def wide32 : State := demoRole (fun r => { r with ngroups := 4, mask := 0xFFFFFFFF })
def withGang (roles : List (BitVec 2)) : State :=
  demoTeam (fun t => { t with gangs := lset t.gangs 3 { roles := roles, fills := [] } })
/-- A request's operands, checks and locks pass. -/
abbrev mmaPasses (s : State) (q : MReq) (regs : List (BitVec 7)) (c : Ctx) : Prop :=
  regs.all (fun n => decide ((c.role.sreg n).st ≠ .Z)) = true ∧
  c.role.regKills q.tile true q.groups q.sa ||| c.role.regKills q.tile false q.groups q.sb = 0 ∧ q.check c = none ∧
  s.obTaken 0 c.team = false ∧ s.lockRoom 0 (q.reads.map (fun x => lockOf .t .read x.1 x.2) ++ [accLock .write q.tile q.acc]) = true
def mmaScr : MmaOps := { mmaOf .f64 (.scr 2 false) (.scr 4 false) with acc := 1 }
def mmaRegBuf : MmaOps := { mmaOf .f64 (.reg 2 true) (.buf 7 0 true) with acc := 192 }
def mmarOf : MmarOps := { init := true, ct := false, a := .buf 0 0 false, b := .buf 1 0 true, kg := 3, acc := 192, d := 48 }
/-- mmaScr as entry 1 of gang 3, whose entry 0 is already filled with accumulator acc. -/
def mmaGang : MmaOps := { mmaScr with gang := some 3 }
def fillOf (p : MPiece) (acc : BitVec 11) : GangFill :=
  { piece := p, frees := [], fmt := .f64, acc := acc, ct := false, w := 0, word0 := 0, x64 := 0 }
def mmaPiece : MPiece :=
  { role := { team := 0, role := 0 }, a := .scr 0 0 false, b := .scr 0 0 false, groups := 1, done := 0, sstand := .S, slot := none
    table := { entries := 0, st := .S } }
def lastFill (acc : BitVec 11) : State :=
  demoTeam (fun t => { t with gangs := lset t.gangs 3 { roles := [0, 0], fills := [(0, fillOf mmaPiece acc)] } })
/-- The range table of scratch is full. -/
def crowded (s : State) : State :=
  { s with
    ops := [(0, { opOf (.copy copyTB none) with locks := List.replicate 32 (lockOf .t .read 0 32) })]
    nextOp := 1 }
/-- The last fill of the gang is the only one that is left, and takes entry 1. -/
abbrev fires (s : State) (c : Ctx) (acc : BitVec 11) : Prop :=
  c.launch.scratch < 2 ^ 32 ∧ s.op? s.nextOp = none ∧ (mmaReqOf c mmaGang).check c = none ∧ (c.team.gang 3).unfilled 0 = [1] ∧
  (c.team.gang 3).fills.length + 1 = (c.team.gang 3).roles.length ∧
  (tset (c.team.gang 3).fills 1 (fillOf mmaPiece 1)).map Prod.fst = List.range (c.team.gang 3).roles.length ∧
  tget (tset (c.team.gang 3).fills 1 (fillOf mmaPiece 1)) 0 = some (fillOf mmaPiece acc)
theorem witness_gangFires :
    (∃ c, (lastFill 1).Ready c ∧ fires (lastFill 1) c 1 ∧
      mmaPasses (lastFill 1) (mmaReqOf c mmaGang) [2, 3, 4, 5] c ∧
      (lastFill 1).lockRoom 0 ((fillOf mmaPiece 1).piece.reads (mmaReqOf c mmaGang).tile false |>.map (fun x => lockOf .t .read x.1 x.2)) = true) ∧
    (∃ c, (crowded (lastFill 1)).Ready c ∧ fires (crowded (lastFill 1)) c 1 ∧
      (crowded (lastFill 1)).lockRoom 0 [accLock .write (mmaReqOf c mmaGang).tile 1] = false) ∧
    (∃ c, (lastFill 9).Ready c ∧ fires (lastFill 9) c 9 ∧ (9 : BitVec 11) ≠ mmaGang.acc) ∧
    ((lastFill 9).trap { team := 0, role := 0 } .gangMismatch { val := 1, st := .S } 0xFF false).cur = (lastFill 9).cur :=
  ⟨ready_of _ _ (by decide +kernel), ready_of _ _ (by decide +kernel), ready_of _ _ (by decide +kernel), by decide +kernel⟩
theorem witness_matrixProducts :
    (∃ c, demo.Ready c ∧ demo.op? demo.nextOp = none ∧ c.launch.scratch < 2 ^ 32 ∧ mmaPasses demo (mmaReqOf c mmaScr) [2, 3, 4, 5] c) ∧
    (∃ c, wide32.Ready c ∧ mmaPasses wide32 (mmaReqOf c mmaRegBuf) [] c) ∧
    (∃ c, demo.Ready c ∧ mmaPasses demo (mmarReq c.role mmarOf) [48] c) ∧
    (∃ c, (withGang [1]).Ready c ∧ mmaPasses (withGang [1]) (mmaReqOf c mmaScr) [2, 3, 4, 5] c ∧ (c.team.gang 3).unfilled 0 = []) ∧
    (∃ c, (withGang [1, 0]).Ready c ∧ mmaPasses (withGang [1, 0]) (mmaReqOf c mmaScr) [2, 3, 4, 5] c ∧
      (c.team.gang 3).unfilled 0 = 1 :: [] ∧ (c.team.gang 3).fills.length + 1 < (c.team.gang 3).roles.length) ∧
    ∃ c, (withGang [0, 0]).Ready c ∧ (c.team.gang 3).unfilled 0 = 0 :: [1] ∧
      (c.team.gang 3).fills.length + 1 < (c.team.gang 3).roles.length :=
  ⟨ready_of _ _ (by decide +kernel), ready_of _ _ (by decide +kernel), ready_of _ _ (by decide +kernel),
    ready_of _ _ (by decide +kernel), ready_of _ _ (by decide +kernel), ready_of _ _ (by decide +kernel)⟩
theorem witness_matrixMoves :
    (∃ c, demo.Ready c ∧ demo.op? demo.nextOp = none ∧ 256 * 192 + (tileOf .f64 false).accBytes ≤ c.launch.scratch ∧
      256 * 0 + 8 * (32 * 32) ≤ 256 * 192 ∧ demo.lockRoom 0 [lockOf .t .read 0 8192, lockOf .t .write 49152 65536] = true) ∧
    (∃ c, demo.Ready c ∧ (tileOf .bpi true).accBytes ≤ c.launch.scratch ∧
      demo.lockRoom 0 [lockOf .t .write 0 (tileOf .bpi true).accBytes] = true) ∧
    ∃ c, demo.Ready c ∧ demo.obTaken 0 c.team = false ∧ (8191 : BitVec 13).toNat + 0 ≤ 8191 ∧
      256 * 16 + (tileOf .bpi false).accBytes ≤ c.launch.scratch ∧
      (tileOf .bpi false).m * (tileOf .bpi false).n * tyBytes .f16 ≤ c.launch.scratch ∧
      demo.lockRoom 0 [lockOf .t .read 4096 (4096 + (tileOf .bpi false).accBytes),
        lockOf .t .write 0 ((tileOf .bpi false).m * (tileOf .bpi false).n * tyBytes .f16)] = true :=
  ⟨ready_of _ _ (by decide +kernel), ready_of _ _ (by decide +kernel), ready_of _ _ (by decide +kernel)⟩
/-- mmaScr in the engine, as the demo's role issues it. -/
def mmaOp : MOp :=
  { kind := .mma, fmt := .f64, ct := false, w := 0, acc := 1, pieces := [mmaPiece], joint := false
    word0 := (wordsOf (.mma mmaScr)).1, x64 := (wordsOf (.mma mmaScr)).2, sstand := .S }
def mmaRunning (batch : BitVec 32) : EngOp := { opOf (.mat mmaOp) with batches := [({ team := 0, role := 0 }, batch)] }
/-- The demo with the record of mmaOp at scratch offset 0, and mmaOp suspended. -/
def resuming : State :=
  (demoRole (fun r => { r with susp := [{ op := mmaOp, gone := false, pre := none }] })).modTeam 0 (fun t =>
    { t with scratch := t.scratch.wrNat 0 64 ((List.range 8).map (fun k => (mmaOp.record[k]?.getD 0).toNat * 2 ^ (64 * k))).sum })
theorem witness_matrixControl :
    (∃ c, demo.Ready c ∧ c.launch.roles ≤ (3 : BitVec 2).toNat ∧ (0 : BitVec 2).toNat < c.launch.roles ∧ (c.team.gang 3).fills = []) ∧
    (∃ c, (demoTeam (fun t => { t with gangs := lset t.gangs 3 { roles := [0, 0], fills := [(0, fillOf mmaPiece 1)] } })).Ready c ∧
      (c.team.gang 3).fills ≠ []) ∧
    (∃ c, ((demoOp (mmaRunning 2)).modCur (fun r => { r with batch := 2 })).Ready c ∧
      ∃ e ∈ (demoOp (mmaRunning 2)).ops, ∃ b ∈ e.2.batches, b.1 = { team := 0, role := 0 } ∧ b.2.toNat ≤ 2 ∧
        b.2.toNat ≤ c.role.batch.toNat) ∧
    (∃ c, demo.Ready c ∧ demo.ops = [] ∧ (c.role.sreg 3).st = .S ∧ demo.otherMats demo.cur c.role.latest = false ∧
      demo.latestMat c.role.latest = none ∧ (65472 : BitVec 32).toNat % 64 = 0 ∧ (65472 : BitVec 32).toNat + 64 ≤ c.launch.scratch) ∧
    (∃ c, (demoOp (mmaRunning 1)).Ready c ∧ (demoOp (mmaRunning 1)).otherMats demo.cur c.role.latest = true) ∧
    (let s := (demoOp (mmaRunning 1)).modCur (fun r => { r with latest := some 0 })
     ∃ c, s.Ready c ∧ s.otherMats s.cur c.role.latest = false ∧ s.latestMat c.role.latest = some (0, mmaRunning 1, mmaOp) ∧
      (mmaRunning 1).owner = s.cur ∧ mmaOp.suspendable = true ∧ (mmaRunning 1).moved = false) ∧
    (∃ c, (demoTeam (fun t => { t with scratch := t.scratch.setSt 1 .Z })).Ready c ∧ c.team.scratch.joinRange 0 64 = .Z) ∧
    (∃ c, demo.Ready c ∧ c.team.scratch.joinRange 0 64 ≠ .Z ∧ c.team.scratch.rdNat 56 8 = 0) ∧
    (∃ c, resuming.Ready c ∧ c.team.scratch.joinRange 0 64 ≠ .Z ∧
      (List.range 8).map (fun k => BitVec.ofNat 64 (c.team.scratch.rdNat (0 + 8 * k) 8)) = mmaOp.record ∧
      (mmaOp.record[7]?.getD 0).getLsbD 63 = true ∧ (mmaReqOf c mmaScr).a.prot = false ∧ (mmaReqOf c mmaScr).b.prot = false ∧
      recordReq (lset mmaOp.record 7 ((mmaOp.record[7]?.getD 0) &&& ~~~1)) = some (mmaReqOf c mmaScr) ∧ (mmaReqOf c mmaScr).engineState c.role mmaOp.record 0 none = none ∧
      (mmaReqOf c mmaScr).place c = none ∧ resuming.op? resuming.nextOp = none ∧ mmaPasses resuming (mmaReqOf c mmaScr) [] c) ∧
    (∃ c, demo.Ready c ∧ (∀ k < 4, (c.role.sreg (124 + BitVec.ofNat 7 k)).st ≠ .Z) ∧ demo.slotLatched c (!c.role.ctNew) = false ∧
      demo.obTaken 0 c.team = false ∧ c.team.ob = none) ∧
    (∃ c, (demoTeam (fun t => { t with ob := some OpBufs.fresh })).Ready c ∧ c.team.ob = some OpBufs.fresh ∧ OpBufs.fresh.gens.length = 8 ∧
      (demoTeam (fun t => { t with ob := some OpBufs.fresh })).obTaken 0 c.team = false) ∧
    ∃ c, (demoOp (opOf (.mat { mmaOp with ct := true, fmt := .bpi, pieces := [{ mmaPiece with slot := some true }] }))).Ready c ∧
      (demoOp (opOf (.mat { mmaOp with ct := true, fmt := .bpi, pieces := [{ mmaPiece with slot := some true }] }))).slotLatched c true =
        true :=
  ⟨ready_of _ _ (by decide +kernel), ready_of _ _ (by decide +kernel), ready_of _ _ (by decide +kernel),
    ready_of _ _ (by decide +kernel), ready_of _ _ (by decide +kernel), ready_of _ _ (by decide +kernel),
    ready_of _ _ (by decide +kernel), ready_of _ _ (by decide +kernel), ready_of _ _ (by decide +kernel),
    ready_of _ _ (by decide +kernel), ready_of _ _ (by decide +kernel), ready_of _ _ (by decide +kernel)⟩

/-! The solver. -/

theorem witness_solverInstructions : (∃ c, (demoRole (withS 3 5 .R)).Ready c ∧ (c.role.sreg 3).st ≠ .Z) ∧
    ∃ c, demo.Ready c ∧ c.role.GuardOk anyG ∧ c.role.OpndsOk anyG (opnds .f64) ∧
      c.role.Room (freesOf (opnds .f64)) true 2 (c.role.live anyG) ∧
      Instr.wf (.resf anyG 2 (.v 4 true) (.v 6 false) (.v 8 false)) = true ∧ Instr.wf (.pmark anyG .u64 2 (.v 4 true)) = true :=
  ⟨ready_of _ _ (by decide +kernel), ready_of _ _ (by decide +kernel)⟩
/-- The size test's cases: a NaN, finite numbers, infinities, and a tolerance of 0 against an infinity. -/
theorem witness_dcorSmall : Fmt.f64.isNan 0x7FF8000000000000 = true ∧ (∃ n m e, Fmt.f64.dec 0x3CB0000000000000 = .fin n m e ∧ m ≠ 0 ∧ n = false) ∧
    (∃ n m e, Fmt.f64.dec 0 = .fin n m e ∧ m = 0) ∧ Fmt.f64.dec 0x7FF0000000000000 = .inf false ∧
    dcorSmall 0x3CB0000000000000 0x3CB0000000000000 0x3FF0000000000000 = true ∧
    dcorSmall 0x3CB0000000000000 0x3CB0000000000001 0x3FF0000000000000 = false :=
  ⟨by decide +kernel, ⟨_, _, _, rfl, by decide +kernel, rfl⟩, ⟨_, _, _, rfl, rfl⟩, by decide +kernel, by decide +kernel, by decide +kernel⟩
/-- v6:v7 hold a residual in every lane. -/
def residuals (st : Standing) (r : Role) : Role := (List.range 8).foldl (fun r l => r.setV true 6 l 0x3FF0000000000000 st) r
theorem witness_defectCorrection :
    (∃ c, (demoRole (residuals .R)).Ready c ∧ c.role.solve.tol.st = .S ∧ c.role.solve.grow.st = .S ∧ c.role.solve.limit.st = .S ∧
      c.role.GuardOk anyG ∧ c.role.OpndsOk anyG (dcorOpnds (dcorOf 2 none)) ∧
      (c.role.live anyG).filter (fun l => decide ((c.role.vval true 6 l).st ≠ .R)) = [] ∧ c.role.live anyG ≠ [] ∧
      c.role.Room (freesOf (dcorOpnds (dcorOf 2 none))) true 2 (c.role.live anyG) ∧ Instr.wf (.dcor (dcorOf 2 none)) = true) ∧
    (∃ c, (demoRole (residuals .R)).Ready c ∧
      c.role.OpndsOk anyG (dcorOpnds (dcorOf 2 (some { bnd := 8, plo := 1, phi := 2 }))) ∧
      c.role.Room (freesOf (dcorOpnds (dcorOf 2 (some { bnd := 8, plo := 1, phi := 2 })))) true 2 (c.role.live anyG) ∧
      Instr.wf (.dcor (dcorOf 2 (some { bnd := 8, plo := 1, phi := 2 }))) = true) ∧
    ∃ c, (demoRole (fun r => (residuals .R r).setV true 6 7 0 .P)).Ready c ∧
      (c.role.live anyG).filter (fun l => decide ((c.role.vval true 6 l).st ≠ .R)) = 7 :: [] :=
  ⟨ready_of _ _ (by decide +kernel), ready_of _ _ (by decide +kernel), ready_of _ _ (by decide +kernel)⟩
/-- What reading a warm-start record at s3 meets. -/
def wsAt (s : State) (c : Ctx) : State × LaneRes :=
  s.resolve c { sp := .g, need := Need.load, size := 64, align := 64, bpi := false, tag := 0 } [] 0 (c.role.sreg 3).val.toNat
/-- The demo with a warm-start record at 0x8000, whose previous solution of one element is at 0xFFF8. -/
def warmDemo : State :=
  { demoRole (withS 3 0x8000 .S) with mem := demo.mem.wrNat 0x18000 64 (0xFFF8 * 2 ^ 128 + 1 * 2 ^ 256 + 1 * 2 ^ 288) }
/-- The record that s3 names is read, is not Z and classifies as stat. -/
def wsReads (s : State) (c : Ctx) (stat : DWord) : Bool :=
  match (wsAt s c).2 with
  | .ok pl =>
    let e := (wsAt s c).1.ldPlace true c.role.accessErr pl 64
    e.2.2 != .Z && e.1.ctx?.isSome && wsClassify c.part 8 (BitVec.ofNat 512 e.2.1) 0 == stat
  | _ => false
/-- The walks of all lanes reach the elements of the previous solution. -/
def wsLanes (s : State) (c : Ctx) : Bool :=
  match (wsAt s c).2 with
  | .ok pl =>
    let e := (wsAt s c).1.ldPlace true c.role.accessErr pl 64
    let w := BitVec.ofNat 512 e.2.1
    let g := e.1.resolveAll c { sp := .g, need := Need.load, size := 8, align := 8, bpi := false, tag := wsTag w }
      (c.role.all.map (fun l => (l, (wsBase w + wsElement w (c.role.vreg 6 l).1.toNat * 8) % 2 ^ 64)))
    (c.role.vreg 6 7).1.toNat < wsNelem w && g.off == [] && g.traps == [] && g.waits == [] && g.ok.length == 8 && g.s.knowsAll &&
      g.ok.all (fun e => decide ((g.s.rdPlace c.role.accessErr e.2 8).1 = g.s))
  | _ => false
theorem witness_warmStart :
    (∃ c, warmDemo.Ready c ∧ warmDemo.ownRetired = warmDemo ∧ (∀ k < 3, (c.role.sreg (3 + BitVec.ofNat 7 k)).st ≠ .Z) ∧
      (∀ l ∈ c.role.all, (c.role.vreg 6 l).2 ≠ .Z) ∧ c.role.unfinished = none ∧
      Instr.wf (.wstart .f64 2 { r := 6, last := true } 3 4) = true ∧ c.role.Room (freed false 6 true) true 2 c.role.all ∧
      wsReads warmDemo c 1 = true ∧ wsLanes warmDemo c = true) ∧
    (let s := { warmDemo with mem := warmDemo.mem.setSt 0xC01 .Z }
     ∃ c, s.Ready c ∧ (match (wsAt s c).2 with
       | .ok pl => ((wsAt s c).1.ldPlace true c.role.accessErr pl 64).2.2 == .Z | _ => false) = true) ∧
    (let s := warmDemo.modBulk 0 (fun x => { x with sref := true })
     ∃ c, s.Ready c ∧ (match (wsAt s c).2 with | .wait _ => true | _ => false) = true) ∧
    (∃ c, (demoRole (withS 3 0x8000 .S)).Ready c ∧ wsReads (demoRole (withS 3 0x8000 .S)) c 0x43 = true) ∧
    ∃ c, (demoRole (withS 3 0x8020 .S)).Ready c ∧ (wsAt (demoRole (withS 3 0x8020 .S)) c).2 = .trap .align 0 :=
  ⟨ready_of _ _ (by decide +kernel), ready_of _ _ (by decide +kernel), ready_of _ _ (by decide +kernel), ready_of _ _ (by decide +kernel),
    ready_of _ _ (by decide +kernel)⟩

/-! Events of the device and of the world outside. -/

/-- The demo's partition with its control region and status page in place. -/
def placed (f : Part → Part) : State :=
  demoPart (fun p => f { p with cfg := { p.cfg with ctlBase := 0x1000000, statusBase := 0xFFF000 } })
theorem witness_controlWrites :
    (∃ p, demo.part? 0 = some p ∧ p.serves 1 = false ∧ p.serves 0 = true ∧ (p.queue 63).en = true ∧ p.queueCount 63 < 256 ∧
      ((8 : Nat) ≠ 256 ∨ (0 : BitVec 8).toNat % 256 ≠ 0)) ∧
    (∃ p, (demoPart (fun p => p.modQueue 63 (fun x => { x with en := false }))).part? 0 = some p ∧ p.serves 0 = true ∧
      (p.queue 63).en = false) ∧
    (∃ p, (demoPart (fun p => { p with
        launches := List.replicate 256 { loadLaunch with queue := 63, phase := .appended } })).part? 0 = some p ∧ p.serves 0 = true ∧
      256 ≤ p.queueCount 63) ∧
    (∃ p, demo.part? 0 = some p ∧ p.serves 0 = true ∧
      (∀ k < 8, ((24 : DWord).extractLsb' (5 * k) 5).toNat ≤ 24 ∧ (p.cfg.size ≤ k → ((24 : DWord).extractLsb' (5 * k) 5).toNat = 0) ∧
        (((List.range 64).filter (fun j => j != 63)).map (fun j => resOf (p.queue j).res k)).sum +
          ((24 : DWord).extractLsb' (5 * k) 5).toNat ≤ 24) ∧ ¬ ((25 : DWord).extractLsb' 0 5).toNat ≤ 24) ∧
    ((0xFFF8 : BitVec 20).toNat < 0x10000 ∧ (8 : Nat) = 8 ∧ (0xFFFC : BitVec 20).toNat % 8 ≠ 0 ∧ 0x50000 ≤ (0x50000 : BitVec 20).toNat ∧
      0x10000 ≤ (0x10000 : BitVec 20).toNat ∧ (0x4FFFF : BitVec 20).toNat < 0x50000) ∧
    (∃ p, (demoPart (fun p => { p with grantStat := 1 })).part? 0 = some p ∧ p.serves 0 = true ∧ p.grantStat = 1) ∧
    (∃ p, demo.part? 0 = some p ∧ p.serves 0 = true ∧ p.grantStat ≠ 1 ∧ p.attGo = false ∧ p.attDest.toNat % 256 = 0) ∧
    (∃ p, (demoPart (fun p => { p with attDest := 128 })).part? 0 = some p ∧ p.serves 0 = true ∧ p.attGo = false ∧
      p.attDest.toNat % 256 ≠ 0) ∧
    (∃ p, (demoPart (fun p => { p with attGo := true })).part? 0 = some p ∧ p.serves 0 = true ∧ p.attGo = true) ∧
    (demo.devWalk 0 Need.rcd true 0 256).2.2 = .ok ∧ (demo.devWalk 0 Need.rcd true 0x10000 256).2.2 = .bad :=
  ⟨some_of _ _ (by decide +kernel), some_of _ _ (by decide +kernel), some_of _ _ (by decide +kernel), some_of _ _ (by decide +kernel),
    by decide +kernel, some_of _ _ (by decide +kernel), some_of _ _ (by decide +kernel), some_of _ _ (by decide +kernel),
    some_of _ _ (by decide +kernel), by decide +kernel, by decide +kernel⟩
def windowed : State := withWindow true demo
theorem witness_hostAccesses :
    (∃ p, (placed id).part? 0 = some p ∧ p.serves 0 = true ∧ p.cfg.ctlBase.toNat % 8 = 0 ∧ p.cfg.ctlBase.toNat + 0x50000 ≤ 2 ^ 63 ∧
      p.queueCount 63 < 2 ^ 28 ∧ p.cfg.statusBase.toNat % 8 = 0 ∧ p.cfg.statusBase.toNat + 0x1000 ≤ p.cfg.ctlBase.toNat ∧
      0 < p.cfg.size ∧ 0 ∉ p.remapStop ∧ 0 ∉ p.remapping ∧ p.cfg.size ≤ 1 ∧ (placed id).down p 0 0 = false ∧
      ((placed id).bulk (p.bulkOf 0)).hung = false ∧ ((placed id).bulk (p.bulkOf 0)).sref = false ∧ (placed id).flaws = [] ∧
      (∀ u ∈ units (p.phys (0xFFF8 : DWord).toNat) 8, (placed id).keyFits ((placed id).keyName p.cfg.slotFirst) u = true) ∧ (0xFFF8 : DWord).toNat % bulkSpan + 8 ≤ storageEnd ∧
      storageEnd < storageEnd - 7 + 8) ∧
    (∀ w ∈ [true, false], (demo.outsideWalk 0 (Need.ofHost w) false 0xFFF8 8).2.2 = .ok ∧
      (demo.outsideWalk 0 (Need.ofHost w) false 0x10000 8).2.2 = .refused ∧
      ((demo.modBulk 0 (fun x => { x with sref := true })).outsideWalk 0 (Need.ofHost w) false 0xFFF8 8).2.2 = .held (.held 0)) ∧
    (0xFFF8 : DWord).getLsbD 63 = false ∧
    ((demo.modBulk 0 (fun x => { x with hung := true })).bulk 0).hung = true ∧
    ((demo.modBulk 0 (fun x => { x with sref := true })).bulk 0).sref = true ∧
    (∃ p, demo.part? 0 = some p ∧ demo.window? p.cfg.pid 0x200000 = none) ∧
    (∃ x, windowed.window? 1 0x20FFF8 = some x ∧ 0x20FFF8 + 8 ≤ x.2.2.view.toNat + x.2.2.size.toNat ∧
      x.2.2.view.toNat + x.2.2.size.toNat < 0x20FFFC + 8) ∧
    (windowed.outsideWalk 0 Need.store true 0x20FFF8 8).2.2 = .ok ∧ (windowed.outsideWalk 0 Need.load true 0x20FFF8 8).2.2 = .ok ∧
    (({ windowed with mem := windowed.mem.wrNat 0 8 0 } : State).outsideWalk 0 Need.load true 0x20FFF8 8).2.2 = .refused ∧
    ((windowed.modBulk 0 (fun x => { x with sref := true })).outsideWalk 0 Need.load true 0x20FFF8 8).2.2 = .held (.held 0) :=
  ⟨some_of _ _ (by decide +kernel), by decide +kernel, by decide +kernel, by decide +kernel, by decide +kernel, some_of _ _ (by decide +kernel),
    some_of _ _ (by decide +kernel), by decide +kernel, by decide +kernel, by decide +kernel, by decide +kernel⟩
/-- The demo with a second partition, of identity 2, and its submitted grant. -/
def granting (g : BitVec 1280) (serial : BitVec 64) : State :=
  let s := demoPart (fun p => { p with grantSerial := serial })
  s.setPart 1 { Part.fresh { loadCfg with pid := 2, start := 1 } [1] with opened := true, grantIn := g, grantStat := 1 }
/-- A grant of page 0 at the grantee's 0x200000, in window 15, serial 1, to read and write. -/
def grantOf (magic grantor size : Nat) : BitVec 1280 :=
  BitVec.ofNat 1280 (magic + 1 * 2 ^ 16 + 15 * 2 ^ 80 + 1 * 2 ^ 88 + 2 * 2 ^ 96 + grantor * 2 ^ 112 + 0x200000 * 2 ^ 256 +
    size * 2 ^ 384 + 1 * 2 ^ 448)
abbrev grantFields (g : BitVec 1280) : Prop :=
  grMagic g = 0x474E ∧ grVersion g = 1 ∧ grWin g = 15 ∧ grAcc g = 1 ∧ g.extractLsb' 32 40 = (0 : BitVec 40) ∧
    g.extractLsb' 160 32 = (0 : BitVec 32)
/-- The serial of the device and the check of signatures are constants without a value: the clauses on a grant that is
signed have their witness where the serial is 0 and signatures verify, which no rule excludes. -/
theorem witness_grants (hd : Config.devId = 0) (hv : Config.ecdsaVerify = fun _ _ _ _ => true) :
    (grantFields (grantOf 0x474E 1 0x10000) ∧ grDev (grantOf 0x474E 1 0x10000) = devSerial ∧
      (granting (grantOf 0x474E 1 0x10000) 0).verifyGrant (grantOf 0x474E 1 0x10000) = .inr 0) ∧
    (granting (grantOf 0x474E 1 0) 0).verifyGrant (grantOf 0x474E 1 0) = .inr 0 ∧
    (granting (grantOf 0x474E 2 0x10000) 0).partOf? (grGrantor (grantOf 0x474E 2 0x10000)) = some 1 ∧
    (granting (grantOf 0x474E 3 0x10000) 0).partOf? (grGrantor (grantOf 0x474E 3 0x10000)) = none ∧
    (granting (grantOf 0x474E 3 0x10000) 0).verifyGrant (grantOf 0x474E 3 0x10000) ≠ .inl 6 ∧
    (granting (grantOf 0x474E 1 0x10000) 1).verifyGrant (grantOf 0x474E 1 0x10000) = .inl 5 := by
  unfold State.verifyGrant devSerial
  simp only [hd, hv]
  decide +kernel
theorem witness_grantsAndReports :
    (∃ p, (granting (grantOf 0x474F 1 0) 0).part? 1 = some p ∧ p.grantStat = 1 ∧ p.grantWait = none ∧ grMagic p.grantIn ≠ 0x474E) ∧
    (∃ p, demo.part? 0 = some p ∧ p.grantStat ≠ 1 ∧ p.attGo = false) ∧
    (let w : GrantWait := { bulk := 0, win := 15, code := 2, ops := [0] }
     ∃ p, ((demoOp (copying copyTB [])).modPart 0 (fun p => { p with grantWait := some w })).part? 0 = some p ∧ p.grantWait = some w ∧
      (∃ i ∈ w.ops, (demoOp (copying copyTB [])).op? i ≠ none) ∧ ∀ i ∈ w.ops, demo.op? i = none) ∧
    (∃ p, (demoPart (fun p => { p with attGo := true })).part? 0 = some p ∧ p.attGo = true ∧ p.attDest.toNat % 256 = 0 ∧ p.bulkOf 0 < 8 ∧
      ((demoPart (fun p => { p with attGo := true })).attWalk 0).2.2 = .ok) ∧
    (∃ p, (demoPart (fun p => { p with attGo := true, map := [8] })).part? 0 = some p ∧ p.attGo = true ∧ 8 ≤ p.bulkOf 0) ∧
    (let s := (demoPart (fun p => { p with attGo := true })).modBulk 0 (fun x => { x with sref := true })
     ∃ p, s.part? 0 = some p ∧ p.attGo = true ∧ (s.attWalk 0).2.2 = .wait) ∧
    (∃ p, (demoPart (fun p => { p with attGo := true, attDest := 128 })).part? 0 = some p ∧ p.attDest.toNat % 256 ≠ 0) ∧
    (let s := demoPart (fun p => { p with attGo := true, attDest := 0x10000 })
     ∃ p, s.part? 0 = some p ∧ p.attGo = true ∧ (s.attWalk 0).2.2 = .bad) :=
  ⟨some_of _ _ (by decide +kernel), some_of _ _ (by decide +kernel), some_of _ _ (by decide +kernel), some_of _ _ (by decide +kernel),
    some_of _ _ (by decide +kernel), some_of _ _ (by decide +kernel), some_of _ _ (by decide +kernel), some_of _ _ (by decide +kernel)⟩
/-- The demo's launch as another record and phase; the side table stands at 0x100, and completion records at 0x8000. -/
def launched (phase : LPhase) (more : Nat) (f : Launch → Launch) : State :=
  { demoPart (fun p => p.modLaunch 0 (fun l => f { l with
      lrec := l.lrec ||| BitVec.ofNat 2048 (0x100 * 2 ^ 64 + 0x8000 * 2 ^ 320 + more), phase := phase })) with teams := [] }
theorem witness_launchesComplete :
    (∃ p, (launched .appended 0 id).part? 0 = some p ∧ ∃ l ∈ p.launches, l.serial = 0 ∧ l.phase = .appended ∧
      (match (launched .appended 0 id).acceptCheck 0 l with | .ok _ x => x.phase == .running | _ => false) = true) ∧
    (∃ p, (launched .appended (25 * 2 ^ 696) id).part? 0 = some p ∧ ∃ l ∈ p.launches, l.phase = .appended ∧ 24 < l.cohort ∧
      p.serOk l = true ∧ ((launched .appended (25 * 2 ^ 696) id).report 0 l 3).isSome = true) ∧
    (let s := launched .running 0 (fun l => { l with teams := 1 })
     ∃ p, s.part? 0 = some p ∧ (∃ l ∈ p.launches, l.phase = .running ∧ l.teams = l.total ∧ p.serOk l = true ∧
        (s.report 0 { l with stranded := 0 } 0).isSome = true) ∧ s.teams = [] ∧ p.ready = [] ∧ p.waiting = []) ∧
    ∃ p, demo.part? 0 = some p ∧ ∃ l ∈ p.launches, l.phase ≠ .appended ∧ l.teams ≠ l.total :=
  ⟨some_of _ _ (by decide +kernel), some_of _ _ (by decide +kernel), some_of _ _ (by decide +kernel), some_of _ _ (by decide +kernel)⟩
/-- The demo's launch with its grid still to place: no team is there, and the launch is the head of its queue. -/
def unplaced : State :=
  { demoPart (fun p => p.modLaunch 0 (fun l => { l with next := 0, prio := none })) with teams := [], nextTeam := 0 }
/-- A task that is ready at logical bulkhead 0. -/
def taskOf : TaskRec :=
  { trec := BitVec.ofNat 512 (7 * 2 ^ 384), part := 0, serial := 0, ctr := none, home := 0, target := 0, stranded := false }
theorem witness_teamsPlace :
    (∃ p, unplaced.part? 0 = some p ∧ ∃ l ∈ p.launches, p.launch? l.serial = some l ∧
      (unplaced.candidates 0 p).map (fun e => e.1) = [.head l.serial] ∧ l.cohort < 2 ∧ (unplaced.spotFor 0 p l).isSome = true) ∧
    (let s := demoPart (fun p => { p with ready := [taskOf] })
     ∃ p, s.part? 0 = some p ∧ ((s.candidates 0 p).head?.map (fun e => e.1)) = some (.task 0) ∧ p.readyHead 0 = some taskOf ∧
      ∃ l ∈ p.launches, p.launch? taskOf.serial = some l ∧ s.slotBusy 0 l taskOf.idx.toNat = false ∧
        (probe l.seed taskOf.idx.toNat ((s.eligible p l.queue.toNat).filter (fun c => c.1 == 0))
          (s.canHand 0 p l false)).isSome = true) ∧
    (∃ x, (demoTeam (fun t => { t with phase := .inbound })).team? 0 = some x ∧ x.phase = .inbound) ∧
    ∃ x, demo.team? 0 = some x ∧ x.phase ≠ .inbound :=
  ⟨some_of _ _ (by decide +kernel), some_of _ _ (by decide +kernel), some_of _ _ (by decide +kernel), some_of _ _ (by decide +kernel)⟩
def finishingAs (task : Bool) : State := demoTeam (fun t => { t with phase := .finishing, task := task })
abbrev retires (s : State) (x : Team) : Prop :=
  (s.part? x.part).any (fun p => (p.launch? x.serial).isSome && p.retires.all (fun y => y.role.team != 0)) = true ∧ x.phase = .finishing ∧
  (∀ e ∈ s.ops, e.2.owner.team ≠ 0) ∧ (∀ r ∈ x.roles, r.susp = []) ∧ (∀ g ∈ x.gangs, g.fills = []) ∧ (∀ d ∈ x.due, d.idx ∉ x.released) ∧
  ∀ e ∈ s.teams, e.1 = 0 ∨ e.2.due = []
theorem witness_teamsRetire :
    (∃ x, (finishingAs true).team? 0 = some x ∧ retires (finishingAs true) x ∧ x.task = true ∧ x.retiring = none) ∧
    (∃ x, (finishingAs false).team? 0 = some x ∧ retires (finishingAs false) x ∧ x.task = false ∧
      let u := (finishingAs false).modTeam 0 (fun t => { t with sg := none, retiring := some ([], []) })
      (u.devWrite 0 0x8040 (x.exitRecord [] [])).2 = .ok ∧
      ∀ e ∈ (u.devWrite 0 0x8040 (x.exitRecord [] [])).1.teams, e.1 = 0 ∨ e.2.due = []) ∧
    let s := ((finishingAs false).modTeam 0 (fun t => { t with retiring := some ([], []) })).modBulk 0 (fun x => { x with sref := true })
    ∃ x, s.team? 0 = some x ∧ retires s x ∧ x.retiring = some ([], []) ∧ (s.devWrite 0 0x8040 (x.exitRecord [] [])).2 = .wait :=
  ⟨some_of _ _ (by decide +kernel), some_of _ _ (by decide +kernel), some_of _ _ (by decide +kernel)⟩
def imageOf (c : PartCfg) : ConfigImage := { parts := [c], digest := 0, sigR := 0, sigS := 0 }
/-- Signatures verify by constants without a value: each of the two cases of an image has its witness where it holds. -/
theorem witness_powerEvents (b : Bool) (h : signedImage (imageOf loadCfg) = b) :
    (State.reset.powered = false ∧ signedImage (imageOf loadCfg) = b) ∧ demo.powered = true ∧ demo.bulks.length = 16 ∧
    ((demo.modBulk 15 (fun x => { x with sref := true, state := .running })).bulk 15).sref = true ∧
    ((demo.modBulk 15 (fun x => { x with sref := true, state := .running })).bulk 15).state = .running ∧ (demo.bulk 15).sref = false ∧
    (∃ y, (demoRole (fun r => { r with park := some (.held 15) })).role? { team := 0, role := 0 } = some y ∧ y.park = some (.held 15)) ∧
    (((demo.modBulk 0 (fun x => { x with sref := true })).team? 0).any (fun a =>
      (demo.modBulk 0 (fun x => { x with sref := true })).ownerOf 0 == some (0, 0) && a.part == 0 && a.bulk == 0 &&
      a.phase == .resident && a.fin == none && a.roles != [])) = true ∧
    demo.dies.length = 4 ∧ demo.dies[3]? = some false ∧ (lset demo.dies 3 true)[3]? = some true :=
  ⟨⟨by decide +kernel, h⟩, by decide +kernel⟩
theorem witness_bulkheadResets (b : Bool) (h : Config.firmwareSigned 5 = b) :
    Config.firmwareSigned 5 = b ∧ (15 < demo.bulks.length ∧ ((demo.modBulk 15 (fun x => { x with state := .remap })).bulk 15).state ≠ .running ∧ (demo.bulk 0).state = .running ∧
    ((demo.team? 0).any (fun a => demo.ownerOf 0 == some (0, 0) && a.part == 0 && a.bulk == 0 && a.phase == .resident && a.fin == none &&
      a.roles != [])) = true ∧ (demo.bulk 0).stepOne = false ∧
    ((demo.modBulk 0 (fun x => { x with stepOne := true })).bulk 0).stepOne = true) ∧
    (let x := (demo.modBulk 0 (fun x => { x with state := .reset, failedTest := true })).bulk 0
     x.state = .reset ∧ x.stepOne = false ∧ x.railOn = true ∧ x.failedTest = true) ∧
    (let x := (demo.modBulk 0 (fun x => { x with state := .reset })).bulk 0
     x.state = .reset ∧ x.stepOne = false ∧ x.railOn = true ∧ x.failedTest = false ∧ x.kept = false) ∧
    (∃ p, demo.part? 0 = some p ∧ cfgLegal p.cfg = true ∧ demo.storageWf = true ∧ demo.flaws = [] ∧ demo.ukeys = [] ∧
      demo.ownerOf 7 = none ∧ demo.ownerOf 0 = some (0, 0)) ∧
    (∃ y, (demoRole (fun r => { r with park := some (.hung 0) })).role? { team := 0, role := 0 } = some y ∧ y.park = some (.hung 0)) ∧
    (let s := (demoRole (fun r => { r with park := some (.held 0) })).modBulk 0 (fun x => { x with hung := true })
     ∃ y, s.role? { team := 0, role := 0 } = some y ∧ y.park = some (.held 0) ∧ (s.bulk 0).hung = true) ∧
    ∃ y, demo.role? { team := 0, role := 0 } = some y ∧ y.park = none :=
  ⟨h, by decide +kernel, by decide +kernel, by decide +kernel, some_of _ _ (by decide +kernel), some_of _ _ (by decide +kernel),
    some_of _ _ (by decide +kernel), some_of _ _ (by decide +kernel)⟩
/-- Is there a way from bulkhead i to j on a ring with these links (R262)? -/
abbrev ringWay (ring : BitVec 8) (i j : Nat) : Prop :=
  (∀ d < (j + 8 - i) % 8, ring.getLsbD ((i + d) % 8) = true) ∨ ∀ d < (i + 8 - j) % 8, ring.getLsbD ((j + d) % 8) = true
theorem witness_linkEvents :
    (let s := (demoPart (fun p => { p with map := [0, 4], cfg := { p.cfg with size := 2 } })).modCur (fun r => { r with park := some (.hung 4) })
     (∃ p, s.part? 0 = some p ∧ p.map = [0, 4] ∧ p.bulkOf 1 = 4 ∧ p.cfg.size ≤ 8 ∧ rising s.parts = true) ∧
     ∃ y, s.role? { team := 0, role := 0 } = some y ∧ (s.team? 0).any (fun a => a.part == 0 && a.bulk == 0 && a.phase != .saved) = true ∧
      y.park.any (Park.heldBy 4) = true) ∧
    ringWay 0x7F 0 4 ∧ ¬ ringWay (0x7F &&& ~~~((1 : BitVec 8) <<< 3)) 0 4 ∧ ringWay (0xFF &&& ~~~((1 : BitVec 8) <<< 3)) 0 4 ∧
    ¬ ringWay (0x77 ||| ((1 : BitVec 8) <<< 1)) 0 4 ∧ ringWay (0x77 ||| ((1 : BitVec 8) <<< 3)) 0 4 := by
  refine ⟨⟨some_of _ _ (by decide +kernel), some_of _ _ (by decide +kernel)⟩, ?_⟩
  decide +kernel
/-- The demo with bulkhead 7 as a spare of its partition. -/
def spared (f : Part → Part) : State :=
  (demoPart (fun p => f { p with cfg := { p.cfg with spares := [7] } })).modBulk 7 (fun x =>
    { x with state := .running, railOn := true, clean := true })
/-- The configuration of a second partition, on bulkhead 7. -/
def newCfg : PartCfg := { loadCfg with pid := 2, start := 7, size := 1, slotFirst := 65 }
/-- Step 2 of a remap of the demo's bulkhead, with its team in a phase. -/
def remapStops (ph : TPhase) : State :=
  (spared (fun p => { p with remapStop := [0], remapTo := [(0, 7)] })).modTeam 0 (fun t => { t with phase := ph })
theorem witness_partitionEvents (h : ∀ c, signedImage (imageOf c) = true) :
    (let s := demo.modBulk 7 (fun x => { x with state := .running })
     signedImage (imageOf newCfg) = true ∧ (imageOf newCfg).parts[0]? = some newCfg ∧ s.powered = true ∧ s.part? 1 = none ∧
       s.partOf? 2 = none ∧ s.bulks.length = 16 ∧ cfgLegal newCfg = true ∧ (∀ e ∈ s.parts, keysMeet newCfg e.2.cfg = false) ∧
       s.ownerOf 7 = none ∧ (s.bulk 7).state = .running ∧
       (∃ e ∈ s.parts, keysMeet { newCfg with slotFirst := 64 } e.2.cfg = true) ∧ s.partOf? { newCfg with pid := 1 }.pid ≠ none) ∧
    ((∃ p, demo.part? 0 = some p ∧ (State.abandon 0 p p.launches demo).isSome = true ∧ 0 < p.cfg.size ∧ p.cfg.size ≤ 1 ∧ p.map = [0]) ∧
     (let s := demo.modBulk 0 (fun x => { x with sref := true })
      ∃ p, (s.modPart 0 (fun p => p.modLaunch 0 (fun l => { l with phase := .appended }))).part? 0 = some p ∧
        State.abandon 0 p p.launches s = none) ∧
     (∃ e ∈ [({ opOf (.copy { copyTB with xls := [{ hit0 0x200000 with via := some (0, 15) }] } none) with part := 1 } : EngOp)],
       e.part ≠ 0 ∧ ∃ x ∈ e.reach.2, x.via = some (0, 15))) ∧
    (∃ p, (spared id).part? 0 = some p ∧ 0 < p.cfg.size ∧ p.bulkOf 0 = 0 ∧ 0 ∉ p.remapStop ∧ 0 ∉ p.remapping ∧ p.remapTo = [] ∧
      (spared id).bulks.length = 16 ∧ (spared id).idleSpare p 7 = true ∧ ((spared id).bulk 0).state = .running ∧
      ((spared id).bulk 7).clean = true ∧ (spared id).idleSpare p 8 = false ∧
      (((spared id).modBulk 7 (fun x => { x with clean := false })).bulk 7).clean = false ∧
      (∀ e ∈ (spared id).parts, ∀ r ∈ e.2.remapTo, r.2 ≠ 7)) ∧
    (∃ p, (spared (fun p => { p with remapTo := [(1, 7)] })).part? 0 = some p ∧ ∃ e ∈ (spared (fun p => { p with remapTo := [(1, 7)] })).parts,
      ∃ r ∈ e.2.remapTo, r.2 = 7) ∧
    (∃ p, (remapStops .resident).part? 0 = some p ∧ 0 ∈ p.remapStop ∧
      (∃ e ∈ (remapStops .resident).teams, e.2.part = 0 ∧ e.2.bulk = 0 ∧ e.2.phase ≠ .saved) ∧
      ((remapStops .resident).team? 0).any (fun a => a.phase == .resident && a.fin == none && a.roles != []) = true) ∧
    (∃ p, (remapStops .saved).part? 0 = some p ∧ 0 ∈ p.remapStop ∧
      (∀ e ∈ (remapStops .saved).teams, e.2.part = 0 → e.2.bulk = 0 → e.2.phase = .saved) ∧ ((remapStops .saved).bulk (p.bulkOf 0)).sref = false ∧
      (remapStops .saved).holdsAny (p.bulkOf 0) = false ∧ (remapStops .saved).storageWf = true ∧ cfgLegal p.cfg = true) ∧
    (let s := spared (fun p => { p with remapping := [0], remapTo := [(0, 7)] })
     ∃ p, s.part? 0 = some p ∧ 0 ∉ p.remapStop ∧ 0 ∈ p.remapping ∧ (0, 7) ∈ p.remapTo ∧ (0, 6) ∉ p.remapTo ∧
      s.idleSpare p 7 = true ∧ s.flawless = true ∧ s.storageWf = true ∧ cfgLegal p.cfg = true ∧ p.map.length = p.cfg.size) ∧
    (∃ p, (demoPart (fun p => { p with cells := [cellOfTag 1 7] })).part? 0 = some p ∧ 0 < p.pools.length ∧ 0 < p.cfg.size ∧
      67108864 % 16384 = 0 ∧ 16384 % 16384 = 0 ∧ (∃ c ∈ p.cells, c.pool = 0 ∧ 0 ≤ c.slot) ∧ (∀ c ∈ p.cells, ¬ (c.pool = 0 ∧ 16384 ≤ c.slot)) ∧
      p.migrated = [] ∧ p.cfg.carveAt[0]?.getD 0 + p.cfg.carve[0]?.getD 0 ≤ storageEnd - 128 * 16384 ∧
      p.cfg.saveArea.2.1 + p.cfg.saveArea.2.2 ≤ storageEnd - 128 * 16384) :=
  ⟨⟨h _, by decide +kernel⟩, ⟨some_of _ _ (by decide +kernel), some_of _ _ (by decide +kernel), by decide +kernel⟩,
    some_of _ _ (by decide +kernel), some_of _ _ (by decide +kernel), some_of _ _ (by decide +kernel),
    some_of _ _ (by decide +kernel), some_of _ _ (by decide +kernel), some_of _ _ (by decide +kernel)⟩
/-- Core 0 of the demo's bulkhead with a latent datapath fault. -/
def faulty (f : CoreFault) (s : State) : State := s.modBulk 0 (fun x => { x with coreFault := [(0, f)] })
abbrev matOf (s : State) (m : MOp) : Prop :=
  (s.op? 0).map (fun o => o.kind) = some (.mat m) ∧ (s.team? 0).isSome = true
def moved (o : EngOp) : EngOp := { o with started := true, moved := true }
def mzeroOp : MOp := { mmaOp with kind := .mzero, pieces := [] }
def openedOp : MOp := { mmaOp with opened := true }
/-- Does a piece read no operand that the engine may keep (R325)? -/
def asDense (p : MPiece) : Bool :=
  [p.a, p.b].all (fun x => match x with | .scr _ d1 _ => d1.extractLsb' 16 16 == (0 : BitVec 16) | _ => true)
/-- A matrix operation in the engine may start. -/
abbrev matStarts (s : State) (o : EngOp) (m : MOp) : Prop := matOf s m ∧ s.op? 0 = some o ∧ s.matReady 0 o m = true
theorem witness_matrixSteps :
    (matStarts (demoOp (mmaRunning 1)) (mmaRunning 1) mmaOp ∧ tget (demo.bulk 0).coreFault 0 = none ∧
      (demo.team? 0).any (fun t => demo.coreOf t == (0, 0) && t.phase != .finishing && t.fin == none && t.ob == none) = true ∧
      0 < demo.bulks.length ∧ mmaOp.opened = false ∧ mmaOp.pieces.all asDense = true ∧ demo.past = []) ∧
    (matStarts (demoOp (opOf (.mat openedOp))) (opOf (.mat openedOp)) openedOp ∧ openedOp.opened = true) ∧
    (matStarts (faulty .transient (demoOp (mmaRunning 1))) (mmaRunning 1) mmaOp ∧
      tget ((faulty .transient (demoOp (mmaRunning 1))).bulk 0).coreFault 0 = some .transient) ∧
    (matStarts (faulty .lasting (demoOp (mmaRunning 1))) (mmaRunning 1) mmaOp ∧ (mmaRunning 1).struck = none ∧
      tget ((faulty .lasting (demoOp (mmaRunning 1))).bulk 0).coreFault 0 = some .lasting) ∧
    (matStarts (faulty .lasting (demoOp { mmaRunning 1 with struck := some (0, 1) })) { mmaRunning 1 with struck := some (0, 1) } mmaOp ∧
      mmaOp.bufs = [] ∧ (0, 1) ≠ demo.coreOf ((demo.team? 0).getD (loadLaunch.team 0 0 false 0 0 0 0 0 0 0 [])) ∧
      (∀ e ∈ demo.teams, e.2.due = [])) ∧
    (matStarts (demoOp (opOf (.mat mzeroOp))) (opOf (.mat mzeroOp)) mzeroOp ∧
      32 ∣ mzeroOp.tile.m * mzeroOp.tile.n * mzeroOp.tile.e ∧ mzeroOp.pieces = [] ∧ demo.past = []) ∧
    (matOf (demoOp (moved (mmaRunning 1))) mmaOp ∧ (moved (mmaRunning 1)).moved = true ∧ mmaOp.bufs = [] ∧
      (∀ e ∈ demo.teams, e.2.due = []) ∧ (demoOp (moved (mmaRunning 1))).matReady 0 (moved (mmaRunning 1)) mmaOp = false) := by
  decide +kernel
/-- An FMA command whose operands overlap nothing. -/
def nmcFma : NmcOp := { nmcFilling 2 with code := 3, w := 0xA000, x := 0xB000 }
/-- The demo with an operation while its bulkhead is in self-refresh. -/
def heldOp (o : EngOp) : State := (demoOp o).modBulk 0 (fun x => { x with sref := true })
/-- The demo with an operation that was accepted under number 5, and a request from outside that was accepted under 4. -/
def laterOp (o : EngOp) : State := { demoOp o with outside := [(4, none, .hostRead 0 0 0 8)] }
theorem witness_nmcSteps :
    (∀ k ∈ [nmcFma, nmcFilling 0], (demoOp (opOf (.nmc k))).behind 0 (opOf (.nmc k)) = false ∧
      (demoOp (opOf (.nmc k))).nmcBehind 0 (opOf (.nmc k)) k = false ∧
      (demoOp (opOf (.nmc k))).engHeld (opOf (.nmc k)) = false ∧ (opOf (.nmc k)).started = false ∧ (opOf (.nmc k)).hold = none) ∧
    (heldOp (opOf (.nmc nmcFma))).engHeld (opOf (.nmc nmcFma)) = true ∧
    (let o := { opOf (.nmc nmcFma) with hold := some 5 }
     (laterOp o).engHeld o = false ∧ (laterOp o).heldBefore 5 = true ∧ (demoOp o).heldBefore 5 = false) ∧
    ((moved (opOf (.nmc { nmcFma with nerr := 1 }))).moved = true ∧
      (demoOp (moved (opOf (.nmc nmcFma)))).engHeld (moved (opOf (.nmc nmcFma))) = false ∧
      ((demoRole (fun r => { r with nmcErr := some 8 })).role? { team := 0, role := 0 }).map (fun r => r.nmcErr) = some (some 8) ∧
      (demo.role? { team := 0, role := 0 }).map (fun r => r.nmcErr) = some none) := by
  decide +kernel
/-- A barrier word at offset 64 whose pending bytes are the ones that a copy has written, and a counter. -/
def barCopy : CopyOp := { copyTB with bar := some 64, written := 1 }
/-- The demo's copy, not yet started. -/
def copyOp : EngOp := opOf (.copy copyTB none)
theorem witness_copiesMove :
    ((demoOp copyOp).behind 0 copyOp = false ∧ (demoOp copyOp).obTurn 0 copyOp copyTB = true ∧ (demoOp copyOp).engHeld copyOp = false ∧
      copyOp.hold = none ∧
      (let g := (demoOp copyOp).gatherCopy copyOp copyTB
       (demoOp copyOp).lacksLines copyOp copyTB g.2 = false) ∧
      copyOp.started = false ∧ copyTB.src = .t 64 ∧ copyTB.dst = .b 32 ∧ copyTB.planes = 8 ∧ copyTB.scale = none ∧ copyTB.ty = .i8 ∧
      copyTB.ext = [1, 1, 1, 1] ∧ (demoOp copyOp).bsLost copyOp 32 = false ∧ demo.past = []) ∧
    ((heldOp { copyOp with kind := .copy { copyTB with dst := .g 0x8000 0, xls := [hit0 0] } none }).engHeld
      { copyOp with kind := .copy { copyTB with dst := .g 0x8000 0, xls := [hit0 0] } none } = true ∧
      (let o := { copyOp with hold := some 5 }
       (laterOp o).engHeld o = false ∧ (laterOp o).heldBefore 5 = true ∧ (demoOp o).heldBefore 5 = false)) ∧
    ((moved copyOp).moved = true ∧ (demoOp (moved copyOp)).engHeld (moved copyOp) = false ∧ copyTB.dep = none ∧ copyTB.bar = none ∧
      ∀ e ∈ demo.teams, e.2.due = []) ∧
    (barCopy.bar = some 64 ∧ ((withWord 1).team? 0).map (fun t => t.scratch.rdNat 64 8) = some 1 ∧
      ((withWord 0).team? 0).map (fun t => t.scratch.rdNat 64 8) = some 0) ∧
    (let o := moved (opOf (.copy { copyTB with dep := some ctr40 } none))
     (demoOp o).engHeld o = false ∧ demo.reachable ctr40.pp ctr40.x true ctr40.va = true ∧ demo.ctrErr o.err ctr40 = false ∧
      ∀ e ∈ (((demoOp o).releaseOp o).decrement o.owner ctr40).teams, e.2.due = []) := by
  decide +kernel
def retiring : Retire := { role := { team := 0, role := 0 }, flag := none, tags := [1] }
theorem witness_rolesGoOn :
    (∃ x, (demoRole (fun r => { r with out := [some 3], yielded := true })).role? { team := 0, role := 0 } = some x ∧ x.out ≠ []) ∧
    (∃ p, demo.part? 0 = some p ∧ p.retires = []) ∧
    (∃ p, (demoPart (fun p => { p with retires := [retiring] })).part? 0 = some p ∧
      p.retires.find? (fun y => y.role == { team := 0, role := 0 }) = some retiring) ∧
    demo.mayIssue { team := 0, role := 0 } = true ∧
    (demoRole (fun r => { r with park := some .budget })).mayIssue { team := 0, role := 0 } = false ∧
    (∃ x, (demoRole (fun r => { r with park := some .budget })).role? { team := 0, role := 0 } = some x ∧ x.park = some .budget ∧
      x.out = []) ∧
    (∃ x, (demoRole (fun r => { r with park := some .ctxnew })).role? { team := 0, role := 0 } = some x ∧ x.park = some .ctxnew) ∧
    (∃ x, (demoRole (fun r => { r with park := some .overlay })).role? { team := 0, role := 0 } = some x ∧ x.park = some .overlay) ∧
    ∃ x, demo.role? { team := 0, role := 0 } = some x ∧ x.park ≠ some .ctxnew ∧ x.park ≠ some .overlay :=
  ⟨some_of _ _ (by decide +kernel), some_of _ _ (by decide +kernel), some_of _ _ (by decide +kernel), by decide +kernel,
    by decide +kernel, some_of _ _ (by decide +kernel), some_of _ _ (by decide +kernel), some_of _ _ (by decide +kernel),
    some_of _ _ (by decide +kernel)⟩
abbrev parkedOn (s : State) (k : Park) : Prop :=
  (s.role? { team := 0, role := 0 }).map (fun r => r.park) = some (some k) ∧
  (s.team? 0).any (fun a => a.fin == none && a.phase == .resident) = true
theorem witness_firmwareEvents :
    (parkedOn (demoRole (fun r => { r with park := some (.page 0xFFFF) })) (.page 0xFFFF) ∧ demo.behindWindow 0 0xFFFF = (0, 0xFFFF) ∧
      (demo.resolvePage 0 0xFFFF).2 = true ∧ (demo.resolvePage 0 0x10000).2 = false) ∧
    parkedOn (demoRole (fun r => { r with park := some (.remote 0) })) (.remote 0) ∧
    (parkedOn (demoRole (fun r => { r with park := some .dual })) .dual ∧ 0 < demo.bulks.length) ∧
    (demo.role? { team := 0, role := 0 }).map (fun r => r.park) = some none ∧
    (∃ p, demo.part? 0 = some p ∧ (demo.leafAt p 0xFFFF).any (fun l => pteV l.e && !pteMig l.e && !pteRp l.e && !p.badLeaf l.lvl l.e &&
      !p.badLeaf l.lvl (leafWith l.e true 0 2) && l.at_ % 8 == 0 &&
      demo.keyFits (demo.keyName p.cfg.slotFirst) (p.phys l.at_ / 64)) = true ∧ demo.flaws = [] ∧ ∀ m ∈ p.moves, m.va ≠ 0) ∧
    (∃ p, (nonResident demo).part? 0 = some p ∧ ((nonResident demo).leafAt p 0x10000).any (fun l => !pteV l.e) = true) ∧
    (let m : Move := { va := 0xFFFF, tier := 0, frame := 2 }
     ∃ p, (demoPart (fun p => { p with moves := [m] })).part? 0 = some p ∧ p.moves.find? (fun m => m.va == 0xFFFF) = some m ∧
      (demo.leafAt p 0xFFFF).any (fun l => l.at_ % 8 == 0 &&
        let e := leafWith l.e true m.tier m.frame
        (demo.copyPage p (l.xl p 0xFFFF) { l.xl p 0xFFFF with entry := e, gen := p.genOf (l.xl p 0xFFFF).gate e }).keyFits
          (demo.keyName p.cfg.slotFirst) (p.phys l.at_ / 64)) = true ∧ demo.window? p.cfg.pid 0xFFFF = none) :=
  ⟨by decide +kernel, by decide +kernel, by decide +kernel, by decide +kernel, some_of _ _ (by decide +kernel),
    some_of _ _ (by decide +kernel), some_of _ _ (by decide +kernel)⟩
/-- The demo's team while it is being pre-empted. -/
def stopping (f : Role → Role) : State := (demoTeam (fun t => { t with phase := .stopping, pre := some .priority })).modCur f
theorem witness_preemptions :
    (∃ a, demo.team? 0 = some a ∧ a.phase = .resident ∧ demo.together 0 a = true ∧ 0 ∈ demo.unit 0) ∧
    (∃ a, (stopping (fun r => { r with issued := 65536 })).team? 0 = some a ∧ a.phase = .stopping ∧ a.gangHeld 0 = false ∧
      ∃ x ∈ a.roles, a.roles[0]? = some x ∧ x.stop = none ∧ x.ended = false ∧ x.empty = false ∧ x.park = none ∧ x.unfinished = none ∧ x.accessErr = none ∧
        x.pos.left ≠ 0 ∧ x.pos.pc % 32 ≠ 28 ∧ 65536 ≤ x.issued) ∧
    (∃ a, (stopping (fun r => { r with issued := 65535 })).team? 0 = some a ∧ ∃ x ∈ a.roles, a.roles[0]? = some x ∧ x.issued < 65536) ∧
    (∃ p, demo.part? 0 = some p ∧ (p.launch? 0).any (fun l => l.pdist == 0) = true) ∧
    (∃ a, ((stopping id).modTeam 0 (fun t => { t with gangs := lset t.gangs 0 { roles := [0, 0], fills := [(0,
        fillOf mmaPiece 1)] } })).team? 0 = some a ∧
      a.phase = .stopping ∧ (∃ g ∈ a.gangs, g.fills ≠ []) ∧ a.fin = none) ∧
    (∃ a, (stopping id).team? 0 = some a ∧ ∃ r ∈ a.roles, r.stop = none ∧ r.ended = false) ∧
    (∃ a, (stopping (fun r => { r with stop := some .next })).team? 0 = some a ∧ a.phase = .stopping ∧
      (∀ r ∈ a.roles, r.stop ≠ none ∨ r.ended = true) ∧ (∀ g ∈ a.gangs, g.fills = []) ∧ a.due = [] ∧
      (∀ e ∈ (stopping (fun r => { r with stop := some .next })).ops, e.2.owner.team ≠ 0) ∧
      (let s := stopping (fun r => { r with stop := some .next })
       (s.part? 0).any (fun p => (p.launch? 0).any (fun l =>
        let b : Team := { a with phase := .saved, roles := a.roles.map (fun (r : Role) => { r.saved l with acq := s.startAcq, rels := [] }) }
        (s.placeRecord 0 p 0 (b.recordMap l).len).isSome &&
          ((s.modBulk 0 (fun x => { x with sref := true })).placeRecord 0 p 0 (b.recordMap l).len).isNone)) = true)) ∧
    (let s := (demoTeam (fun t => { t with phase := .saved, pre := some .priority })).modCur (fun r => { r with stop := some .next })
     ∃ a, s.team? 0 = some a ∧ a.phase = .saved ∧ s.unit 0 = [0] ∧ a.sg = none ∧ a.cohort = none ∧
      (∀ r ∈ a.roles, ∀ y ∈ r.susp, y.pre = none) ∧ s.ops = [] ∧
      (s.part? 0).any (fun p => (s.candidates 0 p).head?.map (fun e => e.1) == some (.again 0) &&
        (p.launch? 0).any (fun l => !s.windowBusy [0] a l &&
          (probe l.seed 0 (s.coresAgain p a l none) (s.canHand 0 p l a.ob.isSome)).any (fun c =>
            (s.modTeam 0 (fun t => t.putOn c)).lockRoom 0 []))) = true ∧ a.record = none ∧ s.flawless = true ∧ s.ukeys = [] ∧
      let r : SaveRec := { spare := none, at_ := 0x80000000, len := 0x5000 }
      (s.part? 0).any (fun p => s.recordOpen p r && !(s.modBulk 0 (fun x => { x with sref := true })).recordOpen p r) = true) :=
  ⟨some_of _ _ (by decide +kernel), some_of _ _ (by decide +kernel), some_of _ _ (by decide +kernel), some_of _ _ (by decide +kernel),
    some_of _ _ (by decide +kernel), some_of _ _ (by decide +kernel), some_of _ _ (by decide +kernel), some_of _ _ (by decide +kernel)⟩

end Sys2Proof.Tests
end

section
/-!
SUPPORT. The transfers of control (R146, R147, R150, R153 to R156): where each one goes, and what RET and LOOP raise.
-/
namespace Sys2Proof.Machine

/-! Control decisions from an s register (R145, R147). -/

/-- The bit fields that R145 checks, read as numbers. -/
theorem regTargetOk_iff (v : DWord) : regTargetOk v = true ↔ v.toNat < 2 ^ 32 ∧ v.toNat % 4 = 0 := by
  have hv := v.isLt
  simp only [regTargetOk, Bool.and_eq_true, beq_iff_eq, ← BitVec.toNat_inj, BitVec.extractLsb'_toNat,
    Nat.shiftRight_eq_div_pow, BitVec.ofNat_eq_ofNat, BitVec.toNat_ofNat, Nat.pow_zero, Nat.div_one]
  omega

theorem withControl_settled (s : State) (c : Ctx) (n : BitVec 7) (body : Ctx → DWord → State) (hs : s.Ready c)
    (h : (c.role.sreg n).st = .S) : withControl s n body = .next (body c (c.role.sreg n).val) := by
  have hz : c.role.ScalsOk [n] := List.forall_mem_singleton.2 (by simp [h])
  rw [withControl, withScalars_run s c [n] _ hs hz]
  simp [h, unsettled]

theorem withControl_unsettled (s : State) (c : Ctx) (n : BitVec 7) (body : Ctx → DWord → State) (hs : s.Ready c)
    (h : (c.role.sreg n).st = .P ∨ (c.role.sreg n).st = .R) :
    withControl s n body = .next (s.trapCur .provLoop 0 c.role.mask) := by
  have hz : c.role.ScalsOk [n] := List.forall_mem_singleton.2 (by rcases h with h | h <;> simp [h])
  rw [withControl, withScalars_run s c [n] _ hs hz]
  rw [if_pos (by simpa [unsettled] using h)]

/-! BRA, BRX and CALL (R150, R153, R154). -/

theorem exec_bra_next (s : State) (c : Ctx) (hs : s.Ready c) (x : BitVec 32) :
    exec (.bra x) s = .next (s.modCur (fun r => r.jump x)) := by
  rw [exec_bra, execBra, withCtx_next s c _ hs.1]

theorem exec_brx_settled (s : State) (c : Ctx) (hs : s.Ready c) (a : BitVec 7) (hst : (c.role.sreg a).st = .S)
    (ht : regTargetOk (c.role.sreg a).val = true) :
    exec (.brx a) s = .next (s.modCur (fun r => r.jump ((c.role.sreg a).val.setWidth 32))) := by
  rw [exec_brx, execBrx, withControl_settled s c a _ hs hst, if_pos ht]

/-- What a CALL pushes is that of the issuing role (R146). -/
theorem State.callTo_room (s : State) (c : Ctx) (hs : s.ctx? = some c) (x : BitVec 32) (h : c.role.ret.length < 16) :
    s.callTo c x = s.modCur (fun r =>
      { (r.jump x) with ret := { off := c.role.fallOff, depth := c.role.div.length } :: r.ret }) := by
  rw [State.callTo, if_neg (by omega)]
  refine s.modCur_congr _ _ fun r hr => ?_
  obtain rfl : c.role = r := Option.some.inj ((s.ctx?_role c hs).symm.trans hr)
  rfl

theorem exec_call_room (s : State) (c : Ctx) (hs : s.Ready c) (x : BitVec 32) (h : c.role.ret.length < 16) :
    exec (.call x) s = .next (s.modCur (fun r =>
      { (r.jump x) with ret := { off := c.role.fallOff, depth := c.role.div.length } :: r.ret })) := by
  rw [exec_call, execCall, withCtx_next s c _ hs.1, s.callTo_room c hs.1 x h]

theorem exec_callInd_room (s : State) (c : Ctx) (hs : s.Ready c) (a : BitVec 7) (hst : (c.role.sreg a).st = .S)
    (ht : regTargetOk (c.role.sreg a).val = true) (h : c.role.ret.length < 16) :
    exec (.callInd a) s = .next (s.modCur (fun r => { (r.jump ((c.role.sreg a).val.setWidth 32)) with
      ret := { off := c.role.fallOff, depth := c.role.div.length } :: r.ret })) := by
  rw [exec_callInd, execCallInd, withControl_settled s c a _ hs hst, if_pos ht, s.callTo_room c hs.1 _ h]

/-! RET (R146, R155). -/

theorem exec_ret_empty (s : State) (c : Ctx) (hs : s.Ready c) (h : c.role.ret = []) :
    exec .ret s = .next (s.trapCur .callStack 1 c.role.mask) := by
  rw [exec_ret, execRet, withCtx_next s c _ hs.1, h]

theorem exec_ret_top (s : State) (c : Ctx) (hs : s.Ready c) (e : RetEntry) (rest : List RetEntry)
    (h : c.role.ret = e :: rest) : exec .ret s = .next (
      if e.depth = c.role.div.length then s.modCur (fun r => { (r.jump e.off) with ret := rest })
      else s.trapCur .callStack 2 c.role.mask) := by
  rw [exec_ret, execRet, withCtx_next s c _ hs.1, h]
  by_cases hd : e.depth = c.role.div.length <;> simp [hd]

/-! LOOP (R147, R156). -/

theorem exec_loop_unsettled (s : State) (c : Ctx) (hs : s.Ready c) (a : BitVec 7) (x : BitVec 32)
    (h : (c.role.sreg a).st = .P ∨ (c.role.sreg a).st = .R) :
    exec (.loop a x) s = .next (s.trapCur .provLoop 0 c.role.mask) := by
  rw [exec_loop, execLoop, withControl_unsettled s c a _ hs h]

theorem exec_loop_settled (s : State) (c : Ctx) (hs : s.Ready c) (a : BitVec 7) (x : BitVec 32)
    (h : (c.role.sreg a).st = .S) : exec (.loop a x) s = .next (
      if (c.role.sreg a).val = 0 then s
      else if (c.role.sreg a).val = 1 then s.putS a ((c.role.sreg a).val - 1) .S
      else (s.putS a ((c.role.sreg a).val - 1) .S).modCur (fun r => r.jump x)) := by
  rw [exec_loop, execLoop, withControl_settled s c a _ hs h]

/-- Settles O14: each transfer goes where its rule says, from the lemma of its instruction; the count of LOOP is the shared
write of an s register. -/
theorem transfers : Obligations.transfers := by
  intro s c hs fall push
  refine ⟨exec_bra_next s c hs, ?_, exec_call_room s c hs, ?_, exec_ret_empty s c hs, ?_, exec_loop_unsettled s c hs, ?_⟩
  · intro a hst hlt hal
    have ht := (regTargetOk_iff _).2 ⟨hlt, hal⟩
    exact ⟨exec_brx_settled s c hs a hst ht, exec_callInd_room s c hs a hst ht⟩
  · intro e rest h hd
    rw [exec_ret_top s c hs e rest h, if_pos hd]
    rfl
  · intro e rest h hd
    rw [exec_ret_top s c hs e rest h, if_neg hd]
  · intro a x hst
    rw [exec_loop_settled s c hs a x hst]
    have hw := s.putS_spec c a ((c.role.sreg a).val - 1) .S hs.1
    refine ⟨fun h0 => by rw [if_pos h0], fun h1 => ⟨s.putS a ((c.role.sreg a).val - 1) .S, ?_, ?_⟩,
      fun h0 h1 => ⟨s.putS a ((c.role.sreg a).val - 1) .S, ?_, hw⟩⟩
    · rw [if_neg (by simp [h1]), if_pos h1]
    · simpa [h1] using hw
    · rw [if_neg h0, if_neg h1]
      rfl

end Sys2Proof.Machine
end

section
/-!
SUPPORT. The instructions of the solve state (R343 to R345, R348, R353 to R355): SWS and SVCFG as one write of the issuing role's
solve state, RESF and PMARK as per-lane results, SVSTAT as a write of an s register.
-/
namespace Sys2Proof.Machine

/-- Changes of the issuing role that agree on the role itself are one change. -/
theorem State.modCur_eq_of_role (s : State) (c : Ctx) (f g : Role → Role) (hs : s.ctx? = some c) (h : f c.role = g c.role) :
    s.modCur f = s.modCur g := by
  rw [s.modCur_const c f hs, s.modCur_const c g hs, h]

/-! SWS and SVCFG: the source is not Z, so the write takes place (R143, R345). -/

/-- SWS of a solve-state register keeps the register's writable bits, inside a handler and outside. -/
theorem exec_sws_solve (s : State) (c : Ctx) (hs : s.Ready c) (num : BitVec 8) (a : BitVec 7) (m : DWord)
    (hm : solveBits num.toNat = some m) (ha : (c.role.sreg a).st ≠ .Z) :
    exec (.sws num (.s a)) s = .next (s.modCur (fun r => { r with
      solve := c.role.solve.write num.toNat
        { val := (c.role.sreg a).val &&& m, st := markSt c.role.taint (c.role.sreg a).st } })) := by
  have hw : c.role.mayWrite num.toNat = true := by simp [Role.mayWrite, hm]
  rw [exec_sws, execSws, withScalars_run s c [a] _ hs (List.forall_mem_singleton.2 ha)]
  simp only [hw, hm, Bool.not_true, Bool.false_eq_true, if_false]
  exact congrArg _ (s.modCur_eq_of_role c _ _ hs.1 rfl)

theorem execSvcfg_next (s : State) (c : Ctx) (hs : s.Ready c) (num : Nat) (m : DWord) (a : BitVec 7)
    (ha : (c.role.sreg a).st ≠ .Z) :
    execSvcfg num m a s = .next (s.modCur (fun r => { r with
      solve := r.solve.write num { val := (c.role.sreg a).val &&& m, st := markSt c.role.taint (c.role.sreg a).st } })) := by
  rw [execSvcfg, withScalars_run s c [a] _ hs (List.forall_mem_singleton.2 ha)]
  exact congrArg _ (s.modCur_eq_of_role c _ _ hs.1 rfl)

theorem execSvcfgVal_next (s : State) (c : Ctx) (hs : s.Ready c) (num : Nat) (v : DWord) :
    execSvcfgVal num v s = .next (s.modCur (fun r => { r with
      solve := r.solve.write num { val := v, st := markSt c.role.taint .S } })) := by
  rw [execSvcfgVal, withCtx_next s c _ hs.1]
  exact congrArg _ (s.modCur_eq_of_role c _ _ hs.1 rfl)

theorem exec_svcfgReset_next (s : State) (c : Ctx) (hs : s.Ready c) :
    exec .svcfgReset s = .next (s.modCur (fun r => { r with
      solve := { r.solve with
        pass := { val := 0, st := markSt c.role.taint .S }
        max := { val := 0x7FF0000000000000, st := markSt c.role.taint .S }
        stat := { val := 0, st := markSt c.role.taint .S }
        cmax := 0, npend := 0, box := false } })) := by
  rw [exec_svcfgReset, execSvcfgReset, withCtx_next s c _ hs.1]
  exact congrArg _ (s.modCur_eq_of_role c _ _ hs.1 rfl)

/-! RESF and PMARK in each live lane (R348, R355), and SVSTAT (R354). -/

/-- A residual stands as R when operator, right-hand side and iterate stand as R348 asks, and as P otherwise. -/
theorem resfSt_eq (a x b : Standing) :
    resfSt a x b = if a = .S ∧ (b = .S ∨ b = .R) ∧ (x = .S ∨ x = .P) then .R else .P := by
  simp only [resfSt, Bool.and_eq_true, Bool.or_eq_true, beq_iff_eq, and_assoc]

theorem resf_vecRule (g : Guard) (d : BitVec 8) (a x b : Src) :
    VecRule (.resf g d a x b) true g [.reg .f64 a, .reg .f64 x, .reg .f64 b] true d
      (fun v => resfVal (v 0).val (v 1).val (v 2).val) (fun v => resfSt (v 0).st (v 1).st (v 2).st) := by
  intro s c hs hg ho hr
  rw [exec_resf, execResf, withLanes_run s c g _ _ _ hs hg (c.role.scal_lane g _ (ho rfl))]
  exact ⟨_, rfl, s.putV_spec c g (c.role.live g) _ true d _ _ hs.1 (c.role.live_nodup g) (c.role.live_lt g) hr⟩

theorem pmark_vecRule (g : Guard) (ty : Ty) (d : BitVec 8) (a : Src) :
    VecRule (.pmark g ty d a) false g [.reg ty a] ty.is64 d (fun v => (v 0).val) (fun v => joinSt (v 0).st .P) :=
  execVec_spec _ g [.reg ty a] false (fun st => joinSt st .P) ty.is64 d (fun v => v 0) _ _ (exec_pmark g ty d a)
    (fun _ => rfl) (fun _ _ => rfl)

theorem exec_svstat_wroteScal (s : State) (c : Ctx) (hs : s.Ready c) (d : BitVec 7) :
    ∃ t, exec (.svstat d) s = .next t ∧ WroteScal s c d
      (c.role.solve.pass.val.setWidth 32 ++ c.role.solve.stat.val.setWidth 32)
      (joinSt c.role.solve.pass.st c.role.solve.stat.st) t := by
  rw [exec_svstat, execSvstat, withCtx_next s c _ hs.1]
  exact ⟨_, rfl, s.putS_spec c d _ _ hs.1⟩

/-- Settles O42: each instruction by its own lemma above; SWS and SVCFG differ in the register's number and writable bits only. -/
theorem solverInstructions : Obligations.solverInstructions := by
  refine ⟨?sws, ?resf, fun g ty d a _ => pmark_vecRule g ty d a, ?svcfg⟩
  case sws =>
    intro a s c hs ha
    have wrote := fun num m (hm : solveBits (BitVec.toNat num) = some m) => exec_sws_solve s c hs num a m hm ha
    exact ⟨wrote 0x12 _ rfl, wrote 0x13 _ rfl, wrote 0x14 _ rfl, wrote 0x15 _ rfl, wrote 0x16 _ rfl, wrote 0x17 _ rfl⟩
  case resf =>
    intro g d a x b _
    have h := resf_vecRule g d a x b
    simp only [resfSt_eq] at h
    exact h
  case svcfg =>
    intro s c hs
    refine ⟨fun a ha => ?reg, fun imm => ?imm, fun imm => execSvcfgVal_next s c hs 0x14 (imm.setWidth 64),
      exec_svcfgReset_next s c hs, exec_svstat_wroteScal s c hs⟩
    case reg =>
      exact ⟨execSvcfg_next s c hs 0x12 0xFFFFFFFFFFFFFFFF a ha, execSvcfg_next s c hs 0x15 0xFFFFFFFF a ha,
        execSvcfg_next s c hs 0x14 0xFF a ha⟩
    case imm =>
      exact ⟨execSvcfgVal_next s c hs 0x12 (immVal .f64 imm), execSvcfgVal_next s c hs 0x15 (imm.setWidth 64)⟩

end Sys2Proof.Machine
end

section
/-!
SUPPORT. Named barriers (R383 to R386): when a phase completes and what that does to the barrier and to the roles that arrived,
what an arrival leaves, and the three instructions ARRIVE, BAR and AWAIT over it.
-/
namespace Sys2Proof.Machine

/-! Numbers given by their bits. -/

theorem natOfBits_lt (f : Nat → Bool) (n : Nat) : natOfBits f n < 2 ^ n := by
  induction n with
  | zero => exact Nat.one_pos
  | succ n ih =>
    rw [natOfBits, Nat.pow_succ]
    split <;> omega

theorem testBit_natOfBits (f : Nat → Bool) (n k : Nat) : (natOfBits f n).testBit k = (decide (k < n) && f k) := by
  induction n with
  | zero => simp [natOfBits]
  | succ n ih =>
    rw [natOfBits, Nat.add_comm]
    rcases Nat.lt_trichotomy k n with hk | rfl | hk
    · have below : (natOfBits f n).testBit k = f k := by simpa [hk] using ih
      split
      · rw [Nat.testBit_two_pow_add_gt hk, below]; simp [Nat.lt_succ_of_lt hk]
      · simpa [Nat.lt_succ_of_lt hk] using below
    · have top : (natOfBits f k).testBit k = false := Nat.testBit_lt_two_pow (natOfBits_lt f k)
      cases hf : f k <;> simp [Nat.testBit_two_pow_add_eq, top]
    · have small : (if f n then 2 ^ n else 0) + natOfBits f n < 2 ^ k := by
        have hlt := natOfBits_lt f (n + 1)
        have hle : 2 ^ (n + 1) ≤ 2 ^ k := Nat.pow_le_pow_right (by omega) hk
        rw [natOfBits] at hlt
        omega
      rw [Nat.testBit_lt_two_pow small]
      simp [show ¬ k < n + 1 by omega]

theorem getLsbD_ofNat_natOfBits (f : Nat → Bool) (n k : Nat) :
    (BitVec.ofNat n (natOfBits f n)).getLsbD k = (decide (k < n) && f k) := by
  simp [BitVec.getLsbD_ofNat, testBit_natOfBits]

/-- Where one bit of a word of any width is set. -/
theorem getLsbD_one_shiftLeft (w i j : Nat) : ((1 : BitVec w) <<< i).getLsbD j = (decide (j < w) && decide (j = i)) := by
  rw [BitVec.ofNat_eq_ofNat, ← BitVec.twoPow_eq, BitVec.getLsbD_twoPow]
  by_cases h : j = i
  · simp [h]
  · simp [h, Ne.symm h]

theorem getLsbD_cast_one_shiftLeft (w i j : Nat) :
    ((1 <<< i : Nat) : BitVec w).getLsbD j = (decide (j < w) && decide (j = i)) := by
  rw [BitVec.natCast_eq_ofNat, BitVec.getLsbD_ofNat, Nat.one_shiftLeft, Nat.testBit_two_pow,
    decide_eq_decide.2 (eq_comm (a := i))]

/-! The completion of phases (R384), one barrier at a time. -/

/-- The roles that count as arrived at every barrier: those that have ended, and the numbers of no role. -/
def Team.endedRoles (t : Team) : BitVec 4 := BitVec.ofNat 4 (natOfBits (fun r => (t.roles[r]?.map Role.ended).getD true) 4)

/-- Does a barrier's phase complete, given the roles that have ended? -/
def Barrier.fires (ended : BitVec 4) (b : Barrier) : Bool :=
  match b.latched with
  | some m => m &&& ~~~(b.arrived ||| ended) == 0
  | none => false

/-- A barrier at the start of its next phase. -/
def Barrier.next (b : Barrier) : Barrier := { phase := !b.phase, latched := none, arrived := 0 }

/-- A role whose arrival at barrier i the completion of the phase answers. -/
def Role.passBar (r : Role) (i : Nat) : Role :=
  { r with barOut := r.barOut &&& ~~~((1 : BitVec 16) <<< i), barDone := r.barDone ||| ((1 : BitVec 16) <<< i) }

/-- The completion of the phase of barrier i. -/
def Team.completeBar (t : Team) (i : Nat) : Team :=
  match t.bars[i]? with
  | none => t
  | some b =>
    { t with
      bars := lset t.bars i b.next
      roles := (List.range t.roles.length).zip t.roles |>.map (fun e => if b.arrived.getLsbD e.1 then e.2.passBar i else e.2) }

/-- The barriers whose phases complete. -/
def Team.firing (t : Team) : List Nat :=
  (List.range 16).filter (fun i => (t.bars[i]?.map (Barrier.fires t.endedRoles)).getD false)

theorem Team.completeBars_eq (t : Team) : t.completeBars = t.firing.foldl Team.completeBar t := rfl

theorem Role.passBar_barOut (r : Role) (i j : Nat) :
    (r.passBar i).barOut.getLsbD j = (r.barOut.getLsbD j && decide (j ≠ i)) := by
  by_cases hj : j < 16
  · simp only [Role.passBar, BitVec.getLsbD_and, BitVec.getLsbD_not, getLsbD_one_shiftLeft, hj, decide_true, Bool.true_and,
      decide_not]
  · simp [BitVec.getLsbD_of_ge _ j (Nat.le_of_not_lt hj)]

theorem Role.passBar_barDone (r : Role) (i j : Nat) :
    (r.passBar i).barDone.getLsbD j = (r.barDone.getLsbD j || (decide (j < 16) && decide (j = i))) := by
  simp only [Role.passBar, BitVec.getLsbD_or, getLsbD_one_shiftLeft]

theorem Team.completeBar_bars (t : Team) (i j : Nat) :
    (t.completeBar i).bars[j]? = if i = j then t.bars[j]?.map Barrier.next else t.bars[j]? := by
  unfold Team.completeBar
  cases h : t.bars[i]? with
  | none =>
    by_cases hij : i = j
    · subst hij; simp [h]
    · simp [hij]
  | some b =>
    by_cases hij : i = j
    · subst hij; simp [getElem?_lset, h]
    · simp [getElem?_lset, hij]

theorem Team.completeBar_roles (t : Team) (i k : Nat) (b : Barrier) (hb : t.bars[i]? = some b) :
    (t.completeBar i).roles[k]? = t.roles[k]?.map (fun r => if b.arrived.getLsbD k then r.passBar i else r) := by
  unfold Team.completeBar
  simp only [hb, List.getElem?_map]
  cases hk : t.roles[k]? with
  | none => simpa using hk
  | some r =>
    have hlt : k < t.roles.length := (List.getElem?_eq_some_iff.1 hk).1
    have he : ((List.range t.roles.length).zip t.roles)[k]? = some (k, r) :=
      List.getElem?_zip_eq_some.2 ⟨by simp [hlt], hk⟩
    simp [he]

/-- Barrier i stands as b, and role k holds its outstanding and its answered bit for the barrier as given. -/
def Team.BarIs (t : Team) (k i : Nat) (b : Barrier) (out done : Bool) : Prop :=
  t.bars[i]? = some b ∧ ∃ r, t.roles[k]? = some r ∧ r.barOut.getLsbD i = out ∧ r.barDone.getLsbD i = done

theorem Team.BarIs.complete_same {t : Team} {k i : Nat} {b : Barrier} {out done : Bool} (h : t.BarIs k i b out done)
    (hi : i < 16) (ha : b.arrived.getLsbD k = true) : (t.completeBar i).BarIs k i b.next false true := by
  obtain ⟨hb, r, hr, -, -⟩ := h
  refine ⟨by simp [Team.completeBar_bars, hb], r.passBar i, ?_, ?_, ?_⟩
  · rw [t.completeBar_roles i k b hb, hr]; simp [ha]
  · simp [Role.passBar_barOut]
  · simp [Role.passBar_barDone, hi]

theorem Team.BarIs.complete_other {t : Team} {k i : Nat} {b : Barrier} {out done : Bool} (h : t.BarIs k i b out done)
    (j : Nat) (hj : j ≠ i) : (t.completeBar j).BarIs k i b out done := by
  obtain ⟨hb, r, hr, ho, hd⟩ := h
  refine ⟨by simp [Team.completeBar_bars, hj, hb], ?_⟩
  cases hbj : t.bars[j]? with
  | none => exact ⟨r, by simpa [Team.completeBar, hbj] using hr, ho, hd⟩
  | some x =>
    have hk := t.completeBar_roles j k x hbj
    rw [hr, Option.map_some] at hk
    refine ⟨_, hk, ?_, ?_⟩ <;> split
    · simp [Role.passBar_barOut, ho, hj.symm]
    · exact ho
    · simp [Role.passBar_barDone, hd, hj.symm]
    · exact hd

theorem Team.BarIs.completeAll_other {k i : Nat} {b : Barrier} {out done : Bool} (l : List Nat) (hi : i ∉ l) {t : Team}
    (h : t.BarIs k i b out done) : (l.foldl Team.completeBar t).BarIs k i b out done := by
  induction l generalizing t with
  | nil => exact h
  | cons j l ih =>
    obtain ⟨hij, hil⟩ := List.ne_and_not_mem_of_not_mem_cons hi
    exact ih hil (h.complete_other j (Ne.symm hij))

theorem Team.BarIs.completeAll_same {k i : Nat} {b : Barrier} {out done : Bool} (l : List Nat) (hl : l.Nodup) (hil : i ∈ l)
    (hi : i < 16) (ha : b.arrived.getLsbD k = true) {t : Team} (h : t.BarIs k i b out done) :
    (l.foldl Team.completeBar t).BarIs k i b.next false true := by
  induction l generalizing t with
  | nil => cases hil
  | cons j l ih =>
    obtain ⟨hjl, hl⟩ := List.nodup_cons.1 hl
    by_cases hij : i = j
    · subst hij
      exact (h.complete_same hi ha).completeAll_other l hjl
    · exact ih hl (List.mem_of_ne_of_mem hij hil) (h.complete_other j (Ne.symm hij))

theorem Team.firing_nodup (t : Team) : t.firing.Nodup := List.nodup_range.filter _

theorem Team.mem_firing (t : Team) (i : Nat) (b : Barrier) (hi : i < 16) (hb : t.bars[i]? = some b) :
    i ∈ t.firing ↔ b.fires t.endedRoles = true := by
  simp [Team.firing, hi, hb]

/-- What the completion of phases leaves at a barrier and at a role that has arrived there. -/
theorem Team.BarIs.completeBars {t : Team} {k i : Nat} {b : Barrier} {out done : Bool} (h : t.BarIs k i b out done)
    (hi : i < 16) (ha : b.arrived.getLsbD k = true) :
    (b.fires t.endedRoles = true → t.completeBars.BarIs k i b.next false true) ∧
    (b.fires t.endedRoles = false → t.completeBars.BarIs k i b out done) := by
  have hmem := t.mem_firing i b hi h.1
  rw [t.completeBars_eq]
  constructor
  · intro hf
    exact h.completeAll_same _ t.firing_nodup (hmem.2 hf) hi ha
  · intro hf
    exact h.completeAll_other _ (by simp [hmem, hf])

/-! An arrival (R384, R385). -/

/-- A barrier with the arrival of role r under the mask m. -/
def Barrier.arrive (b : Barrier) (r : Nat) (m : BitVec 4) : Barrier :=
  { b with latched := some m, arrived := b.arrived ||| (1 <<< r) }

theorem Barrier.getLsbD_arrive (b : Barrier) (r : Nat) (m : BitVec 4) (k : Nat) :
    (b.arrive r m).arrived.getLsbD k = (b.arrived.getLsbD k || (decide (k < 4) && decide (k = r))) := by
  simp only [Barrier.arrive, BitVec.getLsbD_or, getLsbD_cast_one_shiftLeft]

/-- Role k is of the mask m, is not role me, and has neither arrived nor ended. -/
def Team.LacksRole (t : Team) (me : Nat) (b : Barrier) (m : BitVec 4) (k : Nat) : Prop :=
  m.getLsbD k = true ∧ k ≠ me ∧ b.arrived.getLsbD k = false ∧ ∃ r, t.roles[k]? = some r ∧ r.ended = false

/-- With the arrival of role me, a role of the mask m is still to come. -/
def Team.Lacks (t : Team) (me : Nat) (b : Barrier) (m : BitVec 4) : Prop := ∃ k : Fin 4, t.LacksRole me b m k

theorem Team.getLsbD_endedRoles (t : Team) (k : Nat) (hk : k < 4) :
    t.endedRoles.getLsbD k = (t.roles[k]?.map Role.ended).getD true := by
  rw [Team.endedRoles, getLsbD_ofNat_natOfBits, decide_eq_true hk, Bool.true_and]

/-- A role number that does not count as ended is that of a role that has not ended. -/
theorem Team.endedRoles_eq_false_iff (t : Team) (k : Nat) (hk : k < 4) :
    t.endedRoles.getLsbD k = false ↔ ∃ r, t.roles[k]? = some r ∧ r.ended = false := by
  rw [t.getLsbD_endedRoles k hk]
  cases t.roles[k]? <;> simp

theorem Team.endedRoles_modRole (t : Team) (r : Nat) (f : Role → Role) (hf : ∀ x, (f x).ended = x.ended) :
    (t.modRole r f).endedRoles = t.endedRoles := by
  have he : ∀ k : Nat, (t.modRole r f).roles[k]?.map Role.ended = t.roles[k]?.map Role.ended := by
    intro k
    rw [Team.modRole_roles]
    split
    · simp [Function.comp_def, hf]
    · rfl
  simp only [Team.endedRoles, he]

/-- The phase completes with an arrival exactly when the arrival lacks no role of the mask (R384). -/
theorem Team.arrive_fires_eq_false_iff (t : Team) (me : Nat) (b : Barrier) (m : BitVec 4) :
    (b.arrive me m).fires t.endedRoles = false ↔ t.Lacks me b m := by
  have bit : ∀ k : Fin 4, (m &&& ~~~((b.arrive me m).arrived ||| t.endedRoles)).getLsbD k = true ↔
      t.LacksRole me b m k := by
    intro k
    rw [Team.LacksRole, ← t.endedRoles_eq_false_iff k k.isLt]
    simp only [BitVec.getLsbD_and, BitVec.getLsbD_not, BitVec.getLsbD_or, Barrier.getLsbD_arrive, k.isLt, decide_true,
      Bool.true_and, Bool.and_eq_true, Bool.not_eq_true', Bool.or_eq_false_iff, decide_eq_false_iff_not]
    constructor
    · rintro ⟨hm, ⟨ha, hk⟩, he⟩
      exact ⟨hm, hk, ha, he⟩
    · rintro ⟨hm, hk, ha, he⟩
      exact ⟨hm, ⟨ha, hk⟩, he⟩
  have hfires : (b.arrive me m).fires t.endedRoles = (m &&& ~~~((b.arrive me m).arrived ||| t.endedRoles) == 0) := rfl
  rw [hfires, beq_eq_false_iff_ne, Team.Lacks]
  simp only [← bit]
  constructor
  · intro hne
    refine Classical.byContradiction fun hall => hne (BitVec.eq_of_getLsbD_eq fun k hk => ?_)
    rw [BitVec.ofNat_eq_ofNat, BitVec.getLsbD_zero]
    exact Bool.eq_false_iff.2 fun hset => hall ⟨⟨k, hk⟩, hset⟩
  · rintro ⟨k, hk⟩ hz
    simp [hz] at hk

/-- The team as an arrival enters it, before the phases that it completes. -/
def Team.enter (t : Team) (r : Nat) (b : BitVec 4) (new : Barrier) : Team :=
  { t with bars := lset t.bars b.toNat new }.modRole r (fun x => { x with barOut := x.barOut ||| (1 <<< b.toNat) })

theorem Team.arrive_eq (t : Team) (r : Nat) (b m : BitVec 4) (old : Barrier) (hb : t.bars[b.toNat]? = some old)
    (hl : old.latched = none ∨ old.latched = some m) : t.arrive r b m = (t.enter r b (old.arrive r m)).completeBars := by
  have hm : old.latched.getD m = m := by rcases hl with h | h <;> simp [h]
  simp only [Team.arrive, hb, Option.getD_some, hm, Team.enter, Barrier.arrive]

theorem Team.enter_endedRoles (t : Team) (r : Nat) (b : BitVec 4) (new : Barrier) :
    (t.enter r b new).endedRoles = t.endedRoles :=
  Team.endedRoles_modRole _ r _ (fun _ => rfl)

theorem Team.enter_barIs (t : Team) (r : Nat) (b : BitVec 4) (old new : Barrier) (x : Role) (hb : t.bars[b.toNat]? = some old)
    (hr : t.roles[r]? = some x) : (t.enter r b new).BarIs r b.toNat new true (x.barDone.getLsbD b.toNat) := by
  have hlt : b.toNat < 16 := b.isLt
  refine ⟨by simp [Team.enter, getElem?_lset, hb], { x with barOut := x.barOut ||| (1 <<< b.toNat) }, ?_, ?_, rfl⟩
  · simp [Team.enter, Team.modRole_roles, hr]
  · rw [BitVec.getLsbD_or, getLsbD_cast_one_shiftLeft, decide_eq_true hlt]
    simp

/-- An arrival that leaves roles to come stays outstanding; the last one completes the phase (R384). -/
theorem Team.arrive_barIs (t : Team) (r : Nat) (b m : BitVec 4) (old : Barrier) (x : Role) (hb : t.bars[b.toNat]? = some old)
    (hr : t.roles[r]? = some x) (hr4 : r < 4) (hl : old.latched = none ∨ old.latched = some m) :
    (t.Lacks r old m → (t.arrive r b m).BarIs r b.toNat (old.arrive r m) true (x.barDone.getLsbD b.toNat)) ∧
    (¬ t.Lacks r old m → (t.arrive r b m).BarIs r b.toNat old.next false true) := by
  have harr : (old.arrive r m).arrived.getLsbD r = true := by simp [Barrier.getLsbD_arrive, hr4]
  have done := (t.enter_barIs r b old (old.arrive r m) x hb hr).completeBars b.isLt harr
  rw [t.enter_endedRoles, ← t.arrive_eq r b m old hb hl] at done
  obtain ⟨hfire, hwait⟩ := done
  rw [← t.arrive_fires_eq_false_iff]
  exact ⟨hwait, fun h => hfire (by simpa using h)⟩

/-- An arrival without a cause of R385. -/
theorem Team.arriveCause_none (t : Team) (r : Nat) (x : Role) (b m : BitVec 4) (old : Barrier)
    (hb : t.bars[b.toNat]? = some old) (hl : old.latched = none ∨ old.latched = some m) (hme : m.getLsbD r = true)
    (hm : m.toNat < 2 ^ t.roles.length) (ho : x.barOut.getLsbD b.toNat = false) : t.arriveCause r x b m = none := by
  have hany : old.latched.any (fun l => l != m) = false := by rcases hl with h | h <;> simp [h]
  simp [Team.arriveCause, hb, hany, hme, ho, Nat.not_le.2 hm]

/-- A cause of R385 that holds of an arrival. -/
def Team.CauseHolds (t : Team) (r : Nat) (x : Role) (b m : BitVec 4) (old : Barrier) (n : DWord) : Prop :=
  n = 2 ∧ (∃ l, old.latched = some l ∧ l ≠ m) ∨
  n = 3 ∧ (m.getLsbD r = false ∨ 2 ^ t.roles.length ≤ m.toNat) ∨ n = 4 ∧ x.barOut.getLsbD b.toNat = true

/-- Where a cause of R385 holds, the arrival reports one that holds. -/
theorem Team.arriveCause_some (t : Team) (r : Nat) (x : Role) (b m : BitVec 4) (old : Barrier)
    (hb : t.bars[b.toNat]? = some old) (h : ∃ n, t.CauseHolds r x b m old n) :
    ∃ n, t.CauseHolds r x b m old n ∧ t.arriveCause r x b m = some n := by
  have h2 : old.latched.any (fun l => l != m) = true ↔ ∃ l, old.latched = some l ∧ l ≠ m := by
    cases old.latched <;> simp
  have h3 : (!m.getLsbD r || decide (2 ^ t.roles.length ≤ m.toNat)) = true ↔
      m.getLsbD r = false ∨ 2 ^ t.roles.length ≤ m.toNat := by simp
  unfold Team.arriveCause
  rw [hb, Option.getD_some]
  split
  · next hc => exact ⟨2, .inl ⟨rfl, h2.1 hc⟩, rfl⟩
  · next hn2 =>
    split
    · next hc => exact ⟨3, .inr (.inl ⟨rfl, h3.1 hc⟩), rfl⟩
    · next hn3 =>
      split
      · next hc => exact ⟨4, .inr (.inr ⟨rfl, hc⟩), rfl⟩
      · next hn4 =>
        obtain ⟨n, ⟨-, hc⟩ | ⟨-, hc⟩ | ⟨-, hc⟩⟩ := h
        · exact absurd (h2.2 hc) hn2
        · exact absurd (h3.2 hc) hn3
        · exact absurd hc hn4

/-! The instructions (R386, R397). -/

/-- The state as an arrival that raises nothing leaves it. -/
def State.arrived (s : State) (c : Ctx) (b roles : BitVec 4) : State :=
  (s.release .team).modTeam s.cur.team (fun t => t.arrive s.cur.role b (c.team.barMask b roles))

theorem State.team?_arrived (s : State) (c : Ctx) (hs : s.ctx? = some c) (b roles : BitVec 4) :
    (s.arrived c b roles).team? s.cur.team = some (c.team.arrive s.cur.role b (c.team.barMask b roles)) := by
  obtain ⟨ht, -, -, -⟩ := s.ctx?_eq c hs
  have hrel : (s.release .team).team? s.cur.team = some c.team := ht
  rw [State.arrived, State.team?_modTeam, if_pos rfl, hrel, Option.map_some]

theorem State.role?_arrived (s : State) (c : Ctx) (hs : s.ctx? = some c) (b roles : BitVec 4) :
    (s.arrived c b roles).role? (s.arrived c b roles).cur =
      (c.team.arrive s.cur.role b (c.team.barMask b roles)).roles[s.cur.role]? := by
  have hcur : (s.arrived c b roles).cur = s.cur := rfl
  rw [State.role?, hcur, s.team?_arrived c hs, Option.bind_some]

theorem exec_arrive_next (s : State) (c : Ctx) (hs : s.Ready c) (b roles : BitVec 4)
    (hn : c.team.arriveCause s.cur.role c.role b (c.team.barMask b roles) = none) :
    exec (.arrive b roles) s = .next (s.arrived c b roles) := by
  rw [exec_arrive, execArrive, withCtx_next s c _ hs.1, State.arriveCur, hn]
  rfl

theorem exec_bar_next (s : State) (c : Ctx) (hs : s.Ready c) (b roles : BitVec 4)
    (hn : c.team.arriveCause s.cur.role c.role b (c.team.barMask b roles) = none) :
    exec (.bar b roles) s = .next (
      if (s.arrived c b roles).barWaits b then (s.arrived c b roles).modCur (fun r => { r with park := some (.bar b) })
      else (s.arrived c b roles).barReturn b) := by
  rw [exec_bar, execBar, withCtx_next s c _ hs.1, State.arriveCur, hn]
  rfl

/-- ARRIVE and BAR raise BAR_OVERFLOW alike, with no effect (R385). -/
theorem exec_arrive_bar_trap (s : State) (c : Ctx) (hs : s.Ready c) (b roles : BitVec 4) (n : DWord)
    (hn : c.team.arriveCause s.cur.role c.role b (c.team.barMask b roles) = some n) :
    exec (.arrive b roles) s = .next (s.trapCur .barOverflow n c.role.mask) ∧
    exec (.bar b roles) s = .next (s.trapCur .barOverflow n c.role.mask) := by
  rw [exec_arrive, execArrive, exec_bar, execBar, withCtx_next s c _ hs.1, withCtx_next s c _ hs.1, State.arriveCur,
    State.arriveCur, hn]
  exact ⟨rfl, rfl⟩

theorem State.barWaits_of_role (s : State) (r : Role) (hr : s.role? s.cur = some r) (b : BitVec 4) :
    s.barWaits b = r.barOut.getLsbD b.toNat := by
  rw [State.barWaits, hr, Option.map_some, Option.getD_some]

theorem State.barReturn_of_role (s : State) (r : Role) (hr : s.role? s.cur = some r) (b : BitVec 4) :
    s.barReturn b = if r.barDone.getLsbD b.toNat = true then
      (s.modCur (fun r => { r with barDone := r.barDone &&& ~~~((1 : BitVec 16) <<< b.toNat) })).acquire .team else s := by
  rw [State.barReturn, hr, Option.map_some, Option.getD_some]

theorem exec_await_next (s : State) (c : Ctx) (hs : s.Ready c) (b : BitVec 4) :
    exec (.await b) s = .next (if c.role.barOut.getLsbD b.toNat then s.parkCur (.await b) else s.barReturn b) := by
  rw [exec_await, execAwait, withCtx_next s c _ hs.1, s.barWaits_of_role c.role (s.ctx?_role c hs.1)]

/-- Settles O32: an arrival either leaves the role outstanding or completes the phase (`Team.arrive_barIs`), and BAR goes by the
bits that it leaves; the causes are those of `Team.arriveCause`; AWAIT goes by the role's bits as they stand. -/
theorem namedBarriers : Obligations.namedBarriers := by
  intro b roles s c old hs hb me m lack trap back
  have hrole := s.ctx?_role c hs.1
  obtain ⟨-, hmine, -, -⟩ := s.ctx?_eq c hs.1
  refine ⟨?arrival, ?causes, fun ho => ?answered, fun ho => ?waits⟩
  case arrival =>
    intro hme hl hm hlen ho
    have hn := c.team.arriveCause_none me c.role b m old hb hl hm hlen ho
    obtain ⟨hwait, hfire⟩ := c.team.arrive_barIs me b m old c.role hb hmine hme hl
    have hbar := exec_bar_next s c hs b roles hn
    have hcur := s.role?_arrived c hs.1 b roles
    by_cases hlack : lack
    · obtain ⟨hx, r, hr, hout, -⟩ := hwait hlack
      refine ⟨_, _, r, exec_arrive_next s c hs b roles hn, s.team?_arrived c hs.1 b roles, hr,
        fun _ => ⟨hx, hout, ?_⟩, fun h => absurd hlack h⟩
      rw [hbar, State.barWaits_of_role _ r (hcur.trans hr), if_pos hout]
    · obtain ⟨hx, r, hr, hout, hdone⟩ := hfire hlack
      refine ⟨_, _, r, exec_arrive_next s c hs b roles hn, s.team?_arrived c hs.1 b roles, hr,
        fun h => absurd h hlack, fun _ => ⟨hx, hout, hdone, ?_⟩⟩
      rw [hbar, State.barWaits_of_role _ r (hcur.trans hr), if_neg (by simp [hout]),
        State.barReturn_of_role _ r (hcur.trans hr), if_pos hdone]
  case causes =>
    intro cause h
    obtain ⟨n, hc, hn⟩ := c.team.arriveCause_some me c.role b m old hb h
    exact ⟨n, hc, exec_arrive_bar_trap s c hs b roles n hn⟩
  case answered =>
    rw [exec_await_next s c hs, if_neg (by simp [ho]), s.barReturn_of_role c.role hrole]
  case waits =>
    rw [exec_await_next s c hs, if_pos ho]

end Sys2Proof.Machine
end

section
/-!
SUPPORT. The traps that the transfers of control, TRAP, LPSW and the items that are no instruction raise (R86, R99, R113, R127,
R145 to R147, R151 to R154, R420, R424).
-/
namespace Sys2Proof.Machine

/-! Control decisions from an s register (R145, R147). -/

/-- The targets that R145 refuses, read as numbers. -/
theorem regTargetOk_eq_false_iff (v : DWord) : regTargetOk v = false ↔ 2 ^ 32 ≤ v.toNat ∨ v.toNat % 4 ≠ 0 := by
  rw [← Bool.not_eq_true, regTargetOk_iff]
  omega

theorem exec_brx_unsettled (s : State) (c : Ctx) (hs : s.Ready c) (a : BitVec 7)
    (h : (c.role.sreg a).st = .P ∨ (c.role.sreg a).st = .R) :
    exec (.brx a) s = .next (s.trapCur .provLoop 0 c.role.mask) := by
  rw [exec_brx, execBrx, withControl_unsettled s c a _ hs h]

theorem exec_callInd_unsettled (s : State) (c : Ctx) (hs : s.Ready c) (a : BitVec 7)
    (h : (c.role.sreg a).st = .P ∨ (c.role.sreg a).st = .R) :
    exec (.callInd a) s = .next (s.trapCur .provLoop 0 c.role.mask) := by
  rw [exec_callInd, execCallInd, withControl_unsettled s c a _ hs h]

theorem exec_brx_badTarget (s : State) (c : Ctx) (hs : s.Ready c) (a : BitVec 7) (hst : (c.role.sreg a).st = .S)
    (ht : regTargetOk (c.role.sreg a).val = false) :
    exec (.brx a) s = .next (s.trapCur .illegalEnc 6 c.role.mask) := by
  rw [exec_brx, execBrx, withControl_settled s c a _ hs hst, if_neg (by simp [ht]), State.badTarget]

/-- The target is looked at before the return stack, whatever its depth (log 32). -/
theorem exec_callInd_badTarget (s : State) (c : Ctx) (hs : s.Ready c) (a : BitVec 7) (hst : (c.role.sreg a).st = .S)
    (ht : regTargetOk (c.role.sreg a).val = false) :
    exec (.callInd a) s = .next (s.trapCur .illegalEnc 6 c.role.mask) := by
  rw [exec_callInd, execCallInd, withControl_settled s c a _ hs hst, if_neg (by simp [ht]), State.badTarget]

/-! The limits of the stacks (R127, R146, R151, R152, R154). -/

theorem exec_call_full (s : State) (c : Ctx) (hs : s.Ready c) (x : BitVec 32) (h : 16 ≤ c.role.ret.length) :
    exec (.call x) s = .next (s.trapCur .callStack 0 c.role.mask) := by
  rw [exec_call, execCall, withCtx_next s c _ hs.1, State.callTo, if_pos h]

/-- BRD where no lane of the mask has a predicate in state Z, so that none dies first (R151). -/
theorem exec_brd_run (s : State) (c : Ctx) (hs : s.Ready c) (p : BitVec 7) (x y : BitVec 32)
    (hz : ∀ l ∈ c.role.all, (c.role.preg p l).2 ≠ .Z) :
    exec (.brd p x y) s = .next (if 32 ≤ c.role.div.length then s.trapCur .divStack 0 c.role.mask
      else s.modCur (fun r => r.branch p x y)) := by
  have hnone : c.role.all.filter (fun l => (c.role.preg p l).2 == .Z) = [] :=
    List.filter_eq_nil_iff.2 fun l hl => by simpa using hz l hl
  rw [exec_brd, execBrd, withCtx_next s c _ hs.1]
  simp [hnone, maskOf_nil, hs.1]

theorem exec_join_next (s : State) (c : Ctx) (hs : s.Ready c) :
    exec .join s = .next (if c.role.div = [] then s.trapCur .divStack 1 c.role.mask else s.modCur Role.joinTop) := by
  rw [exec_join, execJoin, withCtx_next s c _ hs.1]
  simp only [List.isEmpty_iff]

/-! System entries (R86, R113, R420, R424). -/

/-- TRAP where no guard bit is Z: a live lane is what decides (R420). -/
theorem exec_trap_run (s : State) (c : Ctx) (hs : s.Ready c) (g : Guard) (n : BitVec 8) (hg : c.role.GuardOk g) :
    exec (.trap g n) s = .next (if c.role.live g = [] then s
      else s.trapAfter .user (n.setWidth 64) (maskOf (c.role.live g))) := by
  rw [exec_trap, execTrap, withLanes_run s c g _ _ _ hs hg (fun _ _ => rfl)]
  simp only [List.isEmpty_iff]

theorem exec_lpsw_next (s : State) (c : Ctx) (hs : s.Ready c) :
    exec .lpsw s = .next (s.trapCur .priv 0 c.role.mask) := by
  rw [exec_lpsw, execLpsw, withCtx_next s c _ hs.1]

theorem exec_reservedOpcode_next (s : State) (c : Ctx) (hs : s.Ready c) (header : Bool) :
    exec (.reservedOpcode header) s = .next (s.trapCur .illegalEnc (if header then 2 else 1) c.role.mask) := by
  rw [exec_reservedOpcode, execReservedOpcode, withCtx_next s c _ hs.1]

/-- TRAP #0x21 under p4, the word that R420 writes out. -/
theorem decodeItem_trap_p4 : decodeItem 0x02100000000027C1 = .ok (.trap { p := 4, neg := false } 0x21) := by
  decide +kernel

/-- Settles O20: an s register that decides is refused for its standing, then for its value, before any stack is looked at
(log 32); the stacks for their depth; TRAP goes by the live lanes, and the other items trap whatever the role holds. -/
theorem trapsRaised : Obligations.trapsRaised := by
  refine ⟨fun s c hs => ?control, fun s c hs => ⟨?trap, exec_lpsw_next s c hs, exec_reservedOpcode_next s c hs false,
    exec_reservedOpcode_next s c hs true⟩, decodeItem_trap_p4⟩
  case control =>
    intro trap
    refine ⟨fun a h => ⟨exec_brx_unsettled s c hs a h, exec_callInd_unsettled s c hs a h⟩, fun a hst hbad => ?badTarget,
      exec_call_full s c hs, fun p x y hz hfull => ?brd, fun hempty => ?join⟩
    case badTarget =>
      have ht := (regTargetOk_eq_false_iff _).2 hbad
      exact ⟨exec_brx_badTarget s c hs a hst ht, exec_callInd_badTarget s c hs a hst ht⟩
    case brd => rw [exec_brd_run s c hs p x y hz, if_pos hfull]
    case join => rw [exec_join_next s c hs, if_pos hempty]
  case trap =>
    intro g n hg
    rw [exec_trap_run s c hs g n hg]
    exact ⟨fun hnone => by rw [if_pos hnone], fun hlive => by rw [if_neg hlive, State.trapAfter]⟩

end Sys2Proof.Machine
end
